-- ==== Sys2Proof/Word.lean ====
section
/-! DEFINITION. Words, bytes and finite maps: the plain data every other file uses (R10). -/
namespace Sys2Proof

/-- A 64-bit s register value (R167). -/
abbrev Word := BitVec 64
/-- A 32-bit vector lane or memory word (R39, R246). -/
abbrev W32 := BitVec 32
/-- A byte of memory (R10). -/
abbrev Byte := BitVec 8

/-- A finite map from keys to values: strictly rising keys, absent keys not listed. -/
abbrev FMap (α : Type) := List (Nat × α)

end Sys2Proof
end

