-- ==== Sys2Proof/Config.lean ====
section
/-! DEFINITION. What one L6 fixes and the manual leaves open: free values without a body. -/
namespace Sys2Proof.Config

/-- The SHA-512 digest of a firmware image (R412), which the manual names and does not define. Log entry 4. -/
opaque sha512 : List (BitVec 8) → BitVec 512
/-- Whether an ECDSA P-521 signature over a digest and a header (module id, version) is the Halwiet key's (R412): rests on a fused key.
Log entry 4. -/
opaque firmwareSigned : BitVec 512 → Nat → Nat → BitVec 1056 → Bool
/-- The fuse configuration (R413). Log entry 4. -/
opaque fuses : List (BitVec 64)
/-- The ECDSA P-521 signature a quote carries (R413): over the nonce, the digests of the active modules, the fuse configuration and the retired
resources; the manual gives the key to no one, so the bytes are free. The last argument is the number of free values drawn so far, for the
signature's own random number. Log entry 4. -/
opaque quoteSignature : BitVec 512 → List (Nat × BitVec 512) → List (BitVec 64) → List Nat → Nat → BitVec 1056
/-- The die temperatures that THM_STS reports at a clk: TMAX in the upper byte, TAVG in the lower (R407). Log entry 86. -/
opaque dieTemps : Nat → BitVec 16
/-- The lane of a group of HBM that training finds bad, if any (R415 step 3). Arguments: free values drawn so far, the group. Log entry 86. -/
opaque badLane : Nat → Nat → Option (BitVec 5)
/-- The cores that fail the self-test of bring-up (R415 step 4). The argument is the number of free values drawn so far. Log entry 86. -/
opaque failedCores : Nat → BitVec 128
/-- Contents of a flash cell in the overlap of two open handles' ranges (R104: undefined). Log entry 5. -/
opaque flashOverlap : Nat → BitVec 8
/-- The set of a line at a level of R39: placement is not architectural. Arguments: place, line. Log entry 67. -/
opaque cacheSet : Nat → Nat → Nat
/-- The line that leaves a full set, counted from the set's first: replacement is not architectural (R39). The argument is the
number of free values drawn so far. Log entry 67. -/
opaque victim : Nat → Nat
/-- Sectors, less one, of a line's contents in the compressed L2: the method is not architectural (R100). Log entry 68. -/
opaque l2Sectors : List (BitVec 32) → Nat

end Sys2Proof.Config
end

