-- ==== Sys2Proof/Syntax.lean ====
section
/-! DEFINITION. The instructions and steps of the L6: one constructor of `Instr` per row of the opcode table. -/
namespace Sys2Proof

/-- reg form of an S slot (R194): guard, destination, two sources. -/
structure SReg where
  (g : BitVec 4) (d a b : BitVec 6)
  deriving DecidableEq, Repr
/-- reg form with b = 0 (clz, ctz, popc; R223). -/
structure SUn where
  (g : BitVec 4) (d a : BitVec 6)
  deriving DecidableEq, Repr
/-- imm form of an S slot (R194, R225, R237). -/
structure SImm where
  (g : BitVec 4) (d a : BitVec 6) (imm : BitVec 10)
  deriving DecidableEq, Repr
/-- imm form of the shifts: imm[9:6] is zero (R225). -/
structure SShift where
  (g : BitVec 4) (d a cnt : BitVec 6)
  deriving DecidableEq, Repr
/-- long form of an S slot (R194). -/
structure SLong where
  (g : BitVec 4) (imm : BitVec 22)
  deriving DecidableEq, Repr
/-- cmp form (R194, R227). -/
structure SCmp where
  (g pt pf : BitVec 4) (a b : BitVec 6)
  deriving DecidableEq, Repr
/-- cmpi form (R194, R227). -/
structure SCmpi where
  (g pt pf : BitVec 4) (a : BitVec 6) (imm : BitVec 8)
  deriving DecidableEq, Repr
/-- predicate logic (R228). -/
structure SPred where
  (g d a b : BitVec 4)
  deriving DecidableEq, Repr
/-- chk (R232): register and branch offset. -/
structure SChk where
  (g : BitVec 4) (a : BitVec 6) (off : BitVec 10)
  deriving DecidableEq, Repr

/-- Element type codes of a V slot (R195). -/
inductive VType where
  | f32 | f16 | b16 | i32 | n32 | i16 | n16
  deriving DecidableEq, Repr
/-- V slot with two sources (R195). -/
structure VBin where
  (q : BitVec 4) (vd va vb : BitVec 6)
  deriving DecidableEq, Repr
/-- V slot with one source (R195). -/
structure VUn where
  (q : BitVec 4) (vd va : BitVec 6)
  deriving DecidableEq, Repr
/-- V compare: destination is a lane predicate (R253). -/
structure VCmp where
  (q qd : BitVec 4) (va vb : BitVec 6)
  deriving DecidableEq, Repr
/-- lane-predicate logic (R255). -/
structure QLog where
  (q qd qa qb : BitVec 4)
  deriving DecidableEq, Repr
/-- Formats of vpack and vunpack (R258). -/
inductive PkFmt where
  | f16 | b16 | f8e4 | f8e5 | q4x | bin1 | i16 | i8 | blk
  deriving DecidableEq, Repr
/-- Patterns of vperm (R264). -/
inductive PermPat where
  | rot | xor | shd | rev | zip | uzp | hsw
  deriving DecidableEq, Repr
/-- Operations of vred and vscan (R267). -/
inductive RedOp where
  | add | min | max | and | or | xor
  deriving DecidableEq, Repr

/-- Form of an F slot (R268): scalar, or 16 lanes under a lane predicate. -/
inductive FForm where
  | scalar
  | vector (q : BitVec 4)
  deriving DecidableEq, Repr
/-- F slot (R196, R268). -/
structure FOp where
  (g : BitVec 4) (d a : BitVec 6) (form : FForm)
  deriving DecidableEq, Repr

/-- Size codes of scalar accesses (R197) and element sizes of vector accesses (R279). -/
inductive MSize where
  | n8 | n16 | n32 | n64 | i8 | i16 | i32 | i64
  deriving DecidableEq, Repr
/-- mem form of an M slot (R197). -/
structure MMem where
  (g : BitVec 4) (data base idx : BitVec 6) (size : MSize) (off : BitVec 32)
  deriving DecidableEq, Repr
/-- atom form (R197, R284). -/
structure MAtom where
  (g : BitVec 4) (data base idx : BitVec 6) (size : MSize) (scope : BitVec 3) (ord : BitVec 2) (off : BitVec 27)
  deriving DecidableEq, Repr
/-- sync form with a region mask in register A, or all regions (R286). -/
structure MReg where
  (g : BitVec 4) (a : BitVec 6) (all : Bool)
  deriving DecidableEq, Repr
/-- wait and signal fields of an engine command (R197, R198). -/
structure WaitSig where
  (wsem : BitVec 8) (wthr : BitVec 12) (ssem : BitVec 8) (sinc : BitVec 4)
  deriving DecidableEq, Repr
/-- eng form (R197): registers A and B, scope, flags, wait and signal. -/
structure MEng where
  (g : BitVec 4) (a b : BitVec 6) (scope : BitVec 3) (acq rel : Bool) (w : WaitSig)
  deriving DecidableEq, Repr

/-- Counter added to a tile number (R315): none, or k0 to k3. -/
inductive TileIx where
  | none | k (n : BitVec 2)
  deriving DecidableEq, Repr
/-- Source of lx.setk (R316); a source in m carries IMM, which it does not use. -/
inductive KSrc where
  | imm (v : BitVec 16) | m (ms : BitVec 3) (h : Bool) (imm : BitVec 16)
  deriving DecidableEq, Repr
/-- Condition of lx.br (R316). -/
inductive LxCond where
  | always | zero | nonzero | bmrZero
  deriving DecidableEq, Repr
/-- Units fetched by lx.fetch (R317). -/
inductive LxUnit where
  | lo | hi | both
  deriving DecidableEq, Repr
/-- Source of lx.skip (R319): a tile word or an m register. -/
inductive SkipSrc where
  | tile (t : BitVec 6) (ti : TileIx) (wd : BitVec 10) | m (ms : BitVec 3)
  deriving DecidableEq, Repr
/-- Destination of lx.wout (R324). -/
inductive WoutDst where
  | tile (t : BitVec 6) (ti : TileIx) | spm (ms : BitVec 3)
  deriving DecidableEq, Repr
/-- Format of lx.wout (R324). -/
inductive WoutFmt where
  | f32 | b16 | f16 | f8e4 | f8e5 | i32 | c32
  deriving DecidableEq, Repr

/-- Error that comes with a late value (R377). -/
inductive LandErr where
  | none | ownerLost | uncorrectable
  deriving DecidableEq, Repr

/-- Where a value that a message brings goes (R46, R50, R56). -/
inductive Ret where
  /-- no one waits for it -/
  | none
  /-- word `wi` of element `elem` of the late access `tag` of a sequencer, through a page of this REGION; tag 0 for the other
  words of its line -/
  | load (core seq tag elem wi region : Nat)
  /-- the registration with fetch of a core's L1 -/
  | l1 (core : Nat)
  /-- the registration of a core's L1, which asks for no value -/
  | own (core : Nat)
  /-- the place takes the word as Held -/
  | hold (place : Nat)
  deriving DecidableEq, Repr

/-- What a registration asks for (R46): the word's value too, and whether the word after it comes with it. -/
structure RegAsk where
  fetch : Bool
  wide : Bool
  deriving DecidableEq, Repr
/-- The end of a rebuild (R160, R164): who says so, the index rebuilt, the members missing, and those of them under rebuild. -/
structure RebuildNote where
  src : Nat
  unit : Nat
  missing : Nat
  rebuilding : Nat := 0
  deriving DecidableEq, Repr
/-- A burst whose CRC is bad (R97): the lane, and which burst it is. -/
structure BurstErr where
  lane : Nat
  burst : Nat
  deriving DecidableEq, Repr
/-- A flit whose CRC is bad (R348): the port, and which flit it is. -/
structure FlitErr where
  port : Nat
  flit : Nat
  deriving DecidableEq, Repr
/-- Operations of atomics (R284). -/
inductive AKind where
  | add | min | max | and | or | xor | swp | cas
  /-- the update of a completion signal (R335) -/
  | signal
  deriving DecidableEq, Repr
/-- An atomic request on its way to the place that executes it (R56, R284). -/
structure AtomReq where
  kind : AKind
  wide : Bool
  signed : Bool
  x : Word
  y : Word
  core : Nat
  seq : Nat
  tag : Nat
  /-- REGION of the page through which it was made (R53) -/
  region : Nat
  deriving DecidableEq, Repr

/-- Who made a home write or a peer write (R52, R87). -/
inductive WSrc where
  | seq (core seq : Nat)
  | cmd (core q id : Nat)
  | cp (q pk : Nat)
  | pe (e : Nat)
  | peer (pod id : Nat)
  | host
  /-- a record of the event ring (R344) -/
  | evq
  | none
  deriving DecidableEq, Repr

/-- What a home write does to its word: replace the masked bytes, replace some bits (R36), or combine by an xred variant
(R297, R352). -/
inductive HomeOp where
  | write
  | bits (m : W32)
  | combine (variant : Nat) (rm : BitVec 2) (ftz : Bool)
  deriving DecidableEq, Repr
/-- One word of a home write (R52): word number (PA / 4), byte mask, data. -/
structure HomeWr where
  w : Nat
  mask : BitVec 4
  data : W32
  poison : Bool
  op : HomeOp
  src : WSrc
  deriving DecidableEq, Repr

/-- A write to a device register: the value, the bits it writes (R11), and who made it. -/
structure RegPut where
  v : Word
  mask : Word := -1
  src : WSrc := .none
  deriving DecidableEq, Repr

/-- Remote parts of a transfer (R293): a signal, a handler start. -/
structure Remote where
  core : Nat
  ttag : BitVec 16
  sig : Option (BitVec 8 × BitVec 4)
  /-- sequencer, handler PC, argument, and the scope that covers the payload's homes (R86) -/
  start : Option (BitVec 5 × Word × Word × Nat)
  src : WSrc
  deriving DecidableEq, Repr

/-- Body of a peer write (R87, R351). -/
inductive PeerBody where
  | words (ws : List HomeWr)
  | atomic (w : Nat) (a : AtomReq)
  deriving DecidableEq, Repr
/-- A write that arrives from, or leaves for, another module. -/
structure PeerMsg where
  pod : Nat
  id : Nat
  body : PeerBody
  /-- some of its words were discarded (R417) -/
  dropped : Bool := false
  deriving DecidableEq, Repr

/-- A message of the configuration exchange: its settings are asked for, reported, or its sender is encoding, has sent all its
shares, has encoded (R139, R164; log entry 22). -/
inductive CfgPhase where
  | ask | report | encoding | shared | encoded
  deriving DecidableEq, Repr

/-- Settings compared by the configuration exchange (R139, R164). -/
structure GroupCfg where
  phase : CfgPhase := .ask
  n : Nat
  m : Nat
  aread : Word
  areap : Word
  jrn : Word
  memb : List Word
  /-- the module is in Spare (R164) -/
  spare : Bool := false
  /-- the index whose rebuild the settings are asked for (R164); 32 where protection is set (R139) -/
  index : Nat := 32
  deriving DecidableEq, Repr
/-- Outcome of an exchange (R159). -/
structure Decision where
  commit : Bool
  failed : W32
  deriving DecidableEq, Repr

/-- A contribution of an ordered or parameter-engine reduction (R353, R366). -/
structure OrdContrib where
  src : WSrc
  key : Nat
  tag : BitVec 16
  rank : Nat
  ncon : Nat
  /-- word number of each datum's destination -/
  words : List Nat
  data : List (W32 × Bool)
  rm : BitVec 2
  ftz : Bool
  /-- variant of its xred (R297), and whether its source was a sparse list (R354) -/
  variant : Nat := 1
  sparse : Bool := false
  deriving DecidableEq, Repr

/-- Payload of a collective (R358, R361): the words of a chunk for a member's DST (stage = false) or its STAGE; `off` is the chunk's
number. -/
structure CollPayload where
  src : Nat
  /-- number under which the sender waits for the acknowledgement -/
  id : Nat
  gid : Nat
  sq : Nat
  stage : Bool
  off : Nat
  data : List (W32 × Bool)
  /-- the word of its first destination, once it is known (R93) -/
  word : Option Nat := none
  deriving DecidableEq, Repr

/-- What the host does to a device-homed line (R63). -/
inductive HostReq where
  | read (port line : Nat)
  | register (port line : Nat) (data : List W32)
  | write (port line : Nat) (ws : List HomeWr)
  deriving DecidableEq, Repr


/-- One constructor per row of the opcode table: slots, micro-words and steps of the other agents.
The steps that the machine sends itself as messages stand before those it does not. -/
inductive Instr where
  /-- R223: Writes the 64-bit sum of two s registers to sD. -/
  | add (f : SReg)
  /-- R223: Writes the 64-bit difference of two s registers to sD. -/
  | sub (f : SReg)
  /-- R223: Writes the low 64 bits of the product to sD at latency 3. -/
  | mul (f : SReg)
  /-- R223: Writes the high 64 bits of the signed 128-bit product to sD. -/
  | mulh (f : SReg)
  /-- R223: Writes the high 64 bits of the unsigned 128-bit product to sD. -/
  | mulhu (f : SReg)
  /-- R223: Writes the bitwise AND of two s registers to sD. -/
  | and (f : SReg)
  /-- R223: Writes the bitwise OR of two s registers to sD. -/
  | or (f : SReg)
  /-- R223: Writes the bitwise XOR of two s registers to sD. -/
  | xor (f : SReg)
  /-- R223: Writes x AND NOT y to sD. -/
  | andn (f : SReg)
  /-- R223: Shifts left by a register count, giving 0 for counts of 64 or more. -/
  | shl (f : SReg)
  /-- R223: Shifts right logically by a register count, giving 0 for counts of 64 or more. -/
  | shr (f : SReg)
  /-- R223: Shifts right arithmetically by a register count. -/
  | sar (f : SReg)
  /-- R223: Writes the signed minimum of two s registers. -/
  | min (f : SReg)
  /-- R223: Writes the unsigned minimum of two s registers. -/
  | minu (f : SReg)
  /-- R223: Writes the signed maximum of two s registers. -/
  | max (f : SReg)
  /-- R223: Writes the unsigned maximum of two s registers. -/
  | maxu (f : SReg)
  /-- R223: Writes sA or sB as chosen by a scalar predicate, reading only the chosen operand. -/
  | sel (f : SReg) (n : BitVec 4)
  /-- R224: Extracts a sign-extended bit field of sA. -/
  | bfx (f : SReg)
  /-- R224: Extracts a zero-extended bit field of sA. -/
  | bfxu (f : SReg)
  /-- R224: Inserts the low bits of sA into a field of sD. -/
  | bfi (f : SReg)
  /-- R223: Counts the leading zeros of sA. -/
  | clz (f : SUn)
  /-- R223: Counts the trailing zeros of sA. -/
  | ctz (f : SUn)
  /-- R223: Counts the set bits of sA. -/
  | popc (f : SUn)
  /-- R225: Adds a sign-extended 10-bit immediate to sA. -/
  | addi (f : SImm)
  /-- R225: ANDs sA with a sign-extended immediate. -/
  | andi (f : SImm)
  /-- R225: ORs sA with a sign-extended immediate. -/
  | ori (f : SImm)
  /-- R225: XORs sA with a sign-extended immediate. -/
  | xori (f : SImm)
  /-- R225: Shifts sA left by an immediate count. -/
  | shli (f : SShift)
  /-- R225: Shifts sA right logically by an immediate count. -/
  | shri (f : SShift)
  /-- R225: Shifts sA right arithmetically by an immediate count. -/
  | sari (f : SShift)
  /-- R226: Writes a sign-extended 22-bit immediate to s62. -/
  | lis (f : SLong)
  /-- R226: Shifts s62 left by 22 bits and ORs in a 22-bit immediate. -/
  | lic (f : SLong)
  /-- R227: Writes x = y to pt and its negation to pf. -/
  | cmpeq (f : SCmp)
  /-- R227: Writes the signed x < y to pt and its negation to pf. -/
  | cmplt (f : SCmp)
  /-- R227: Writes the unsigned x < y to pt and its negation to pf. -/
  | cmpltu (f : SCmp)
  /-- R227: Compares sA for equality with an 8-bit immediate into two predicates. -/
  | cmpeqi (f : SCmpi)
  /-- R227: Compares sA signed below an 8-bit immediate into two predicates. -/
  | cmplti (f : SCmpi)
  /-- R227: Compares sA unsigned below a sign-extended immediate into two predicates. -/
  | cmpltui (f : SCmpi)
  /-- R228: Writes the AND of two predicates. -/
  | pand (f : SPred)
  /-- R228: Writes the OR of two predicates. -/
  | por (f : SPred)
  /-- R228: Writes the XOR of two predicates. -/
  | pxor (f : SPred)
  /-- R228: Writes pa AND NOT pb. -/
  | pandn (f : SPred)
  /-- R229: Branches to a PC-relative target after three delay slots. -/
  | br (f : SLong)
  /-- R229: Branches to a PC-relative target and writes the return address to s63. -/
  | brl (f : SLong)
  /-- R229: Branches to the address in sA after three delay slots. -/
  | brr (g : BitVec 4) (a : BitVec 6)
  /-- R229: Branches to the address in sA and writes the return address to s63. -/
  | brrl (g : BitVec 4) (a : BitVec 6)
  /-- R231: Decrements lc or ec, rotates the stage predicates and branches while the loop runs. -/
  | loop (f : SLong)
  /-- R232: Branches to recovery code when a scalar register is poisoned. -/
  | chkS (f : SChk)
  /-- R232: Branches to recovery code when any lane of a vector register is poisoned. -/
  | chkV (f : SChk)
  /-- R233: Reads a special register into an s register, clearing RC fields such as those of dstat. -/
  | mfs (g : BitVec 4) (d x : BitVec 6)
  /-- R233: Writes an s register to a special register at latency 1. -/
  | mts (g : BitVec 4) (x a : BitVec 6)
  /-- R237: Reads a semaphore value at its place in the semaphore order. -/
  | semget (f : SImm)
  /-- R237: Sets a semaphore to the value in sD, or faults on overflow. -/
  | semset (f : SImm)
  /-- R237: Increments a semaphore by sD, or faults on overflow. -/
  | semsig (f : SImm)
  /-- R237: Freezes the sequencer until a semaphore reaches the threshold in sD. -/
  | semwait (f : SImm)
  /-- R240: Consumes the wfe pending bit, or freezes until an event sets it. -/
  | wfe (g : BitVec 4)
  /-- R241: Drains results in flight and enters the handler with the breakpoint cause. -/
  | trap (f : SLong)
  /-- R241: Drains results in flight and enters the handler with the system call cause. -/
  | sys (f : SLong)
  /-- R242: Returns from the handler to xpc, restoring the mode, BankU and any saved transfer. -/
  | eret (g : BitVec 4)
  /-- R243: Drains results in flight and puts the sequencer into Halted. -/
  | halt (g : BitVec 4)
  /-- R192: An empty bundle that takes one bundle time and performs no slot. -/
  | nop
  /-- R249: Adds two vectors lane by lane. -/
  | vadd (f : VBin) (ty : VType)
  /-- R249: Subtracts two vectors lane by lane. -/
  | vsub (f : VBin) (ty : VType)
  /-- R249: Multiplies two vectors lane by lane. -/
  | vmul (f : VBin) (ty : VType)
  /-- R249: Computes a times b plus d per element, rounded once. -/
  | vfma (f : VBin) (ty : VType)
  /-- R249: Computes d minus a times b per element, rounded once. -/
  | vfms (f : VBin) (ty : VType)
  /-- R249: Writes the element-wise minimum. -/
  | vmin (f : VBin) (ty : VType)
  /-- R249: Writes the element-wise maximum. -/
  | vmax (f : VBin) (ty : VType)
  /-- R249: Writes the element-wise absolute value. -/
  | vabs (f : VUn) (ty : VType)
  /-- R249: Writes the element-wise negation. -/
  | vneg (f : VUn) (ty : VType)
  /-- R249: Clamps vd between va and vb per element. -/
  | vclamp (f : VBin) (ty : VType)
  /-- R252: Writes the lane-wise AND of two vectors. -/
  | vand (f : VBin)
  /-- R252: Writes the lane-wise OR of two vectors. -/
  | vor (f : VBin)
  /-- R252: Writes the lane-wise XOR of two vectors. -/
  | vxor (f : VBin)
  /-- R252: Writes a AND NOT b per lane. -/
  | vandn (f : VBin)
  /-- R252: Shifts each element left by the element of vb. -/
  | vshl (f : VBin) (ty : VType)
  /-- R252: Shifts each element right with zero fill. -/
  | vshr (f : VBin) (ty : VType)
  /-- R252: Shifts each element right with sign fill. -/
  | vsar (f : VBin) (ty : VType)
  /-- R252: Counts the set bits of each lane. -/
  | vpopc (f : VUn)
  /-- R252: Counts the leading zeros of each lane. -/
  | vclz (f : VUn)
  /-- R253: Writes a lane predicate of element equality. -/
  | vcmpeq (f : VCmp) (ty : VType)
  /-- R253: Writes a lane predicate of a < b. -/
  | vcmplt (f : VCmp) (ty : VType)
  /-- R253: Writes a lane predicate of a ≤ b. -/
  | vcmple (f : VCmp) (ty : VType)
  /-- R255: Writes the AND of two lane predicates. -/
  | qand (f : QLog)
  /-- R255: Writes the OR of two lane predicates. -/
  | qor (f : QLog)
  /-- R255: Writes the XOR of two lane predicates. -/
  | qxor (f : QLog)
  /-- R255: Writes qA AND NOT qB. -/
  | qandn (f : QLog)
  /-- R256: Selects va or vb per lane by a lane predicate. -/
  | vsel (f : VBin) (n : BitVec 4)
  /-- R257: Converts each element between two types of the same width. -/
  | vcvt (f : VUn) (sat rtz : Bool) (src dst : VType)
  /-- R260: Encodes scaled lane values into named elements of a packed image in vd. -/
  | vpack (f : VBin) (fmt : PkFmt)
  /-- R262: Decodes named elements of a packed image into F32 or I32 lanes. -/
  | vunpack (f : VBin) (fmt : PkFmt)
  /-- R264: Permutes lanes by a fixed pattern. -/
  | vperm (f : VUn) (pat : PermPat) (k : BitVec 4)
  /-- R265: Broadcasts lane k of va to every active lane. -/
  | vbcast (f : VUn) (k : BitVec 4)
  /-- R265: Broadcasts the low 32 bits of an s register to every active lane. -/
  | vbcastS (f : VUn)
  /-- R265: Broadcasts the low 16 bits of an s register to both halves of every active lane. -/
  | vbcastH (f : VUn)
  /-- R266: Reads lanes named by vb, faulting when an active lane names an inactive one. -/
  | vxlane (f : VBin)
  /-- R266: Reads lanes named by vb, giving 0 for inactive source lanes. -/
  | vxlaneZ (f : VBin)
  /-- R267: Reduces the active lanes in a fixed tree and writes the result to every active lane. -/
  | vred (f : VUn) (op : RedOp) (ty : VType)
  /-- R267: Scans the active lanes in ascending order, inclusively or exclusively. -/
  | vscan (f : VUn) (op : RedOp) (excl : Bool) (ty : VType)
  /-- R269: Computes a correctly rounded reciprocal. -/
  | frcp (f : FOp)
  /-- R269: Computes a correctly rounded reciprocal square root. -/
  | frsqrt (f : FOp)
  /-- R269: Computes a correctly rounded square root. -/
  | fsqrt (f : FOp)
  /-- R269: Computes 2^a correctly rounded. -/
  | fexp2 (f : FOp)
  /-- R269: Computes log2 a correctly rounded. -/
  | flog2 (f : FOp)
  /-- R269: Computes sin of a or of 2π·a correctly rounded. -/
  | fsin (f : FOp) (u : Bool)
  /-- R269: Computes cos of a or of 2π·a correctly rounded. -/
  | fcos (f : FOp) (u : Bool)
  /-- R269: Computes d / a correctly rounded. -/
  | fdiv (f : FOp)
  /-- R271: Divides d by a as signed integers, giving quotient or remainder. -/
  | idiv (f : FOp) (rem : Bool)
  /-- R271: Divides d by a as unsigned integers, giving quotient or remainder. -/
  | idivu (f : FOp) (rem : Bool)
  /-- R272: Computes the counter-based random function of a key and counter pair. -/
  | rng (f : FOp)
  /-- R273: Feeds bytes of a into the reflected CRC-32 held in d. -/
  | crc (f : FOp) (poly : Bool) (sz : BitVec 2)
  /-- R274: Performs one mixing step on d with a. -/
  | hash (f : FOp)
  /-- R275: Multiplies bytes of d and a in GF(2^8). -/
  | gfmul (f : FOp)
  /-- R278: Loads a scalar from global memory into sD. -/
  | ld (f : MMem)
  /-- R278: Stores the low bytes of sD to global memory, registering each word. -/
  | st (f : MMem)
  /-- R279: Loads contiguous elements into the active lanes. -/
  | vld (f : MMem)
  /-- R279: Stores the active lanes to contiguous elements. -/
  | vst (f : MMem)
  /-- R279: Loads strided elements into the active lanes. -/
  | vldr (f : MMem)
  /-- R279: Stores the active lanes to strided elements. -/
  | vstr (f : MMem)
  /-- R280: Loads each active lane from base plus its index lane. -/
  | vgather (f : MMem)
  /-- R280: Stores each active lane to base plus its index lane, in ascending lane order. -/
  | vscatter (f : MMem)
  /-- R283: Loads a scalar speculatively, turning faults into poison. -/
  | sld (f : MMem)
  /-- R283: Loads contiguous elements speculatively, poisoning faulting lanes. -/
  | vsld (f : MMem)
  /-- R281: Loads a scalar from the scratchpad at latency 6. -/
  | ldSpm (f : MMem)
  /-- R281: Stores a scalar into the scratchpad. -/
  | stSpm (f : MMem)
  /-- R281: Loads contiguous scratchpad elements into the active lanes. -/
  | vldSpm (f : MMem)
  /-- R281: Stores the active lanes to contiguous scratchpad elements. -/
  | vstSpm (f : MMem)
  /-- R281: Gathers active lanes from scratchpad offsets. -/
  | vgatherSpm (f : MMem)
  /-- R281: Scatters active lanes to scratchpad offsets. -/
  | vscatterSpm (f : MMem)
  /-- R284: Atomically adds to a word at its scope's place and returns the old value. -/
  | aadd (f : MAtom)
  /-- R284: Atomically takes the minimum and returns the old value. -/
  | amin (f : MAtom)
  /-- R284: Atomically takes the maximum and returns the old value. -/
  | amax (f : MAtom)
  /-- R284: Atomically ANDs and returns the old value. -/
  | aand (f : MAtom)
  /-- R284: Atomically ORs and returns the old value. -/
  | aor (f : MAtom)
  /-- R284: Atomically XORs and returns the old value. -/
  | axor (f : MAtom)
  /-- R284: Atomically swaps in a value and returns the old one. -/
  | aswp (f : MAtom)
  /-- R284: Atomically compares and swaps, returning the old value. -/
  | acas (f : MAtom)
  /-- R78: Waits for earlier reads, invalidates the scope's caches for the named regions, and completes. -/
  | acq (f : MReg) (scope : BitVec 3)
  /-- R77: Freezes until earlier reads have happened and earlier writes are performed at the scope's meeting point. -/
  | rel (g : BitVec 4) (scope : BitVec 3)
  /-- R78: Invalidates the scope's caches for the named regions without waiting. -/
  | inval (f : MReg) (scope : BitVec 3)
  /-- R88: Waits until earlier peer-bound writes are acknowledged or recorded undeliverable and updates dstat. -/
  | drain (g : BitVec 4)
  /-- R88: Drains peer-bound writes and takes the undeliverable peer write fault after the bundle when any is reported. -/
  | drainX (g : BitVec 4)
  /-- R287: Sends every owned L1 word of the named regions to its home as Held and leaves it valid. -/
  | cln (f : MReg)
  /-- R85: Pushes a marker into each named engine queue. -/
  | mark (g : BitVec 4) (qm : BitVec 2)
  /-- R85: Holds the sequencer until its markers have reached the heads of their queues. -/
  | join (g : BitVec 4)
  /-- R302: Checks the mode word, copies m0–m7 and enqueues a verb call on the matrix queue. -/
  | mcall (g : BitVec 4) (a : BitVec 6) (w : WaitSig)
  /-- R294: Enqueues a transfer from global memory to global memory. -/
  | xferGg (f : MEng)
  /-- R294: Enqueues a transfer from the scratchpad to global memory. -/
  | xferSg (f : MEng)
  /-- R294: Enqueues a transfer from global memory to the scratchpad. -/
  | xferGs (f : MEng)
  /-- R294: Enqueues a transfer between scratchpad offsets. -/
  | xferSs (f : MEng)
  /-- R295: Enqueues a move of a tensor tile to a global image. -/
  | xferTg (f : MEng)
  /-- R295: Enqueues a move of a tensor tile to a scratchpad image. -/
  | xferTs (f : MEng)
  /-- R295: Enqueues a move of a global image into a tensor tile. -/
  | xferGt (f : MEng)
  /-- R295: Enqueues a move of a scratchpad image into a tensor tile. -/
  | xferSt (f : MEng)
  /-- R296: Enqueues an append of global bytes to a flash append-log handle. -/
  | xferGa (f : MEng)
  /-- R296: Enqueues an append of scratchpad bytes to a flash append-log handle. -/
  | xferSa (f : MEng)
  /-- R297: Enqueues an F32 add reduction combined in arrival order. -/
  | xredAddF32 (f : MEng)
  /-- R353: Enqueues an F32 add reduction combined in ascending rank. -/
  | xredAddoF32 (f : MEng)
  /-- R297: Enqueues a B16 pairwise add reduction. -/
  | xredAddB16 (f : MEng)
  /-- R297: Enqueues an integer add reduction. -/
  | xredAddI32 (f : MEng)
  /-- R297: Enqueues an F32 minimum reduction. -/
  | xredMinF32 (f : MEng)
  /-- R297: Enqueues an F32 maximum reduction. -/
  | xredMaxF32 (f : MEng)
  /-- R297: Enqueues a signed integer minimum reduction. -/
  | xredMinI32 (f : MEng)
  /-- R297: Enqueues a signed integer maximum reduction. -/
  | xredMaxI32 (f : MEng)
  /-- R298: Enqueues a command that arms a triggered-entry slot with a stored transfer. -/
  | trig (f : MEng) (variant : BitVec 4)
  /-- R301: Enqueues a load of a tensor tile into the tile file and its scale plane. -/
  | tldT (f : MEng)
  /-- R301: Enqueues a load of a tensor tile into a scratchpad image. -/
  | tldS (f : MEng)
  /-- R301: Enqueues a store of a tile from the tile file to a tensor. -/
  | tstT (f : MEng)
  /-- R301: Enqueues a store of a scratchpad image to a tensor. -/
  | tstS (f : MEng)
  /-- R300: Enqueues a write of a shape slot on the matrix queue. -/
  | tcfgShp (g : BitVec 4) (a : BitVec 6) (n : BitVec 3) (w : WaitSig)
  /-- R300: Writes one m register from an s register. -/
  | tcfgM (g : BitVec 4) (a : BitVec 6) (n : BitVec 3)
  /-- R300: Writes an even pair of m registers from an s register. -/
  | tcfgM2 (g : BitVec 4) (a : BitVec 6) (n : BitVec 3)
  /-- R303: Cancels this sequencer's unstarted commands and armed entries above a threshold and signals. -/
  | qcut (g : BitVec 4) (sel : BitVec 3) (w : WaitSig)
  /-- R192: Fetches and checks the next bundle head, skipping pads, before issue. -/
  | bundleFetch (core seq : Nat)
  /-- R182: A late load, gather or atomic value arrives and ends the freeze, or raises a landing fault. -/
  | loadValueArrives (core seq tag elem wi : Nat) (v : W32) (poison : Bool) (err : LandErr)
  /-- R316: Ends the verb call. -/
  | lxEnd
  /-- R316: Increments a semaphore of the issuing core after the call's earlier scratchpad writes. -/
  | lxSig (sem : BitVec 8) (inc : BitVec 4)
  /-- R316: Sets a µ-counter from an immediate or half of an m register. -/
  | lxSetk (k : BitVec 2) (src : KSrc)
  /-- R316: Adds a signed immediate to a µ-counter. -/
  | lxAddk (k : BitVec 2) (imm : BitVec 16)
  /-- R316: Decrements a µ-counter and branches while it is nonzero. -/
  | lxLoop (k : BitVec 2) (tgt : BitVec 13)
  /-- R316: Branches on always, counter zero, counter nonzero or empty bitmap. -/
  | lxBr (k : BitVec 2) (cond : LxCond) (tgt : BitVec 13)
  /-- R316: Does nothing. -/
  | lxNop
  /-- R317: Decodes units of a tile into operand latch LA or LB. -/
  | lxFetch (t : BitVec 6) (ti : TileIx) (b : Bool) (u : LxUnit) (ms : BitVec 3) (mb : BitVec 2)
  /-- R318: Loads the 2:4 selector from a tile unit. -/
  | lxSel (t : BitVec 6) (ti : TileIx) (hi : Bool)
  /-- R319: Loads the live-column bitmap and branches when it is zero. -/
  | lxSkip (src : SkipSrc) (tgt : BitVec 13)
  /-- R320: Scans product exponents into XE for the live positions. -/
  | lxScan (kn1 : BitVec 10)
  /-- R321: Adds the products of the latches into the accumulator entries. -/
  | lxMac (kn1 : BitVec 10)
  /-- R322: Closes a block-mode sum into the accumulator entries. -/
  | lxAcc
  /-- R323: Reads accumulator entries into the read-out latch, optionally emptying them. -/
  | lxCvt (ei : BitVec 8) (mu : Bool) (ms : BitVec 3) (clr : Bool)
  /-- R324: Writes the read-out latch to a tile or the scratchpad in a chosen format. -/
  | lxWout (dst : WoutDst) (fmt : WoutFmt) (sat : Bool) (rp : BitVec 6)
  /-- R293: A remote signal or handler start arrives after its transfer's payload and acts on the named core. -/
  | remoteSignal (r : Remote)
  /-- R87: A write from a peer arrives and performs as a home write at this module's home. -/
  | peerWriteArrival (m : PeerMsg)
  /-- R351: A peer's acknowledgement of a performed write arrives at the sender. -/
  | peerWriteAck (id : Nat) (old : Word) (poison refused : Bool)
  /-- R46: A word registration climbs to a level, records the new owner and displaces the old one. -/
  | registration (org w at_ : Nat) (ask : RegAsk) (core seq : Nat)
  /-- R47: A level's acknowledgement of a registration reaches the registering L1. -/
  | registrationAck (org w at_ : Nat) (last : Bool)
  /-- R46: A displacement travels down the old owner's chain, clearing entries and invalidating the L1 word. -/
  | displacement (w at_ src : Nat) (ret : Ret)
  /-- R50: A read forwarded to an owner locks the word on its path and is answered by the owner's L1. -/
  | forwardedRead (w at_ src : Nat) (ret : Ret)
  /-- R50: A read reply passes down the requester's chain installing copies and unlocking the word. -/
  | readReply (w src : Nat) (ret : Ret) (v : W32) (poison : Bool) (skip : BitVec 3) (locks : List Nat)
  /-- R49: A recall brings an owned word's value up so the level above holds it. -/
  | recallWord (place w : Nat)
  /-- R51: An L1 answers not held; the level serves from a prior write-back or declares the owner lost. -/
  | notHeldAnswer (w at_ src : Nat) (ret : Ret) (locks : List Nat)
  /-- R63: A read, registration or write by the host to a device-homed line arrives over Trarel-H through the THA and acts at the line's home, recording the port as owner where it registers. -/
  | hostRequest (r : HostReq)
  /-- R52: An engine write performs at the line's home, displacing any owner. -/
  | homeWrite (h : HomeWr)
  /-- R56: An atomic request executes indivisibly at the place its scope names. -/
  | atomicExecute (place w : Nat) (a : AtomReq)
  /-- R378: A slow-path walk ends, resuming the access or leaving a pending fault with a record and event. -/
  | walkComplete (core idx : Nat)
  /-- R139: A configuration exchange message among erasure engines compares the group's settings. -/
  | configExchange (src : Nat) (cfg : GroupCfg)
  /-- R152: A parity holder receives a delta, journals the parity line, XORs it in and returns DACK. -/
  | delta (src rnd unit off : Nat) (bytes : List Byte)
  /-- R156: A delta acknowledgement arrives; the last one of a prepare sends PREPARED. -/
  | dack (src rnd line : Nat)
  /-- R154: A round packet is refused, waits, or starts the prepare of the open round. -/
  | round (q pk : Nat)
  /-- R157: A PREPARED vote arrives; with all n votes the member commits. -/
  | prepared (src rnd : Nat)
  /-- R158: An ABORT message for the open round arrives and is handled by the member's state. -/
  | abort (src rnd reason : Nat)
  /-- R159: A coordinator's vote query arrives and the member answers with VSET. -/
  | vquery (src rnd : Nat)
  /-- R159: A member's vote-set answer reaches the coordinator, which may decide. -/
  | vset (src rnd crn : Nat) (votes : W32) (committed restored : Bool) (dec : Option Decision)
  /-- R160: A DECIDE arrives and the member commits, restores, isolates or becomes Lost. -/
  | decide (src rnd : Nat) (d : Decision)
  /-- R162: An ISOLATED reply from another member arrives and is dropped. -/
  | isolated (src : Nat)
  /-- R164: A rebuild partial sum arrives, is combined and passed on, or is written by the spare. -/
  | rebuild (src stripe unit : Nat) (bytes : List Byte)
  /-- R164: The last stripe is written; members set MST to 0 and the spare joins as Running or Degraded. -/
  | rebuildComplete (note : RebuildNote) (crn orn : Nat)
  /-- R333: A message reaching a queue's notify word makes the queue read slot RD. -/
  | queueNotify (q : Nat)
  /-- R358: A collective signature arrives and is compared or kept. -/
  | sig (src gid sq : Nat) (h : Word)
  /-- R358: A collective abort arrives and the packet completes with ERROR. -/
  | cabort (src gid sq : Nat)
  /-- R361: A collective payload flit arrives and advances the chain. -/
  | collectivePayload (p : CollPayload)
  /-- R350: A flit for another pod index is forwarded, or discarded at its eighth forwarding. -/
  | flitForward (pod : Nat) (hops : BitVec 4)
  /-- R353: An ordered contribution reaches its ordering point and is combined, held, refused or discarded. -/
  | orderedContribution (o : OrdContrib)
  /-- R366: A contribution to the intake window is folded, held, dropped or refused. -/
  | peContribution (e : Nat) (o : OrdContrib) (variant : Nat) (sparse : Bool)
  /-- R416: A write to a register with no row of its own is judged field by field. -/
  | registerWrite (pa : Nat) (x : RegPut)
  /-- R313: The matrix engine starts an mcall when its turn comes, applying the accumulator mode rules. -/
  | verbCallStart (core : Nat)
  /-- R84: An engine command starts once its wait semaphore reaches its threshold and acquires if flagged. -/
  | engineCommandStart (core q id : Nat)
  /-- R84: An engine command's writes and release are done and it performs its signal increment with a status. -/
  | engineCommandComplete (core q id : Nat)
  /-- R299: A fired transfer waiting for room enters the transfer queue when a place frees. -/
  | firedTransferEnqueue (core slot : Nat)
  /-- R178: A dormant sequencer takes the oldest start of its queue and runs from the handler PC. -/
  | handlerStart (core seq : Nat)
  /-- R88: Unacknowledged writes to a peer are recorded undeliverable when the route goes down or its retrain timeout expires. -/
  | undeliverableRecording (pod : Nat)
  /-- R58: An owner does not answer within OWN_TMO and is declared lost. -/
  | ownTmoExpiry (w at_ src : Nat) (ret : Ret) (locks : List Nat)
  /-- R64: The host recalls a line from a host gateway, which recalls its registered words and returns it. -/
  | hostLineRecall (port line : Nat)
  /-- R64: The host invalidates a shared line and the gateway drops its copy. -/
  | hostLineInvalidate (port line : Nat)
  /-- R107: A check detects an uncorrectable error and poisons the words it covers. -/
  | uncorrectableError (place w : Nat)
  /-- R45: A core reset invalidates its L1, losing owned words. -/
  | coreReset (core : Nat)
  /-- R65: A home-move packet is refused or starts moving a page's home through its steps. -/
  | homemove (q pk : Nat)
  /-- R65: After the copy and invalidation, MV is cleared and waiting accesses perform at the new PA. -/
  | homemoveComplete (q pk : Nat)
  /-- R66: A move that fails before step 4 restores the old mapping and signals failure. -/
  | homemoveFailed (q pk : Nat)
  /-- R97: A bad HBM burst CRC causes a replay and may start a lane repair. -/
  | burstCrcError (stack ch grp : Nat) (err : BurstErr)
  /-- R96: The controller moves a lane group's sampling phase between bursts. -/
  | trackingPhaseMove (stack ch grp : Nat)
  /-- R97: With no replay outstanding, a pending repair switches the lane group's mapping. -/
  | repairSwitch (stack ch grp : Nat)
  /-- R97: The switch ends and held bursts issue on the new mapping. -/
  | repairSwitchDone (stack ch grp : Nat)
  /-- R97: A channel retrain succeeds and the group returns to Pending or Normal. -/
  | retrainDone (stack ch grp : Nat)
  /-- R97: A retrain not done within 20 µs leaves the channel Failed. -/
  | retrainTimeout (stack ch grp : Nat)
  /-- R98: A stack without access for 4,096 clk enters Power-down. -/
  | hbmPowerDown (stack : Nat)
  /-- R99: A PSTATE write moves a stack to Active or a self-refresh state. -/
  | hbmStsWrite (stack : Nat) (v : Word)
  /-- R99: A read of HBM_STS returns and clears CRCERR. -/
  | hbmStsRead (stack : Nat)
  /-- R102: An appended page is written to the cells and checked, advancing the durable pointer. -/
  | flashPageDurable (tier h : Nat)
  /-- R103: FAH_CTL command Open sets PTR and DUR to BASE and opens a free handle. -/
  | fahOpen (tier h : Nat) (v : Word)
  /-- R103: FAH_CTL command Seal refuses further appends and waits for DUR to reach PTR. -/
  | fahSeal (tier h : Nat) (v : Word)
  /-- R103: DUR reaches PTR and the handle becomes Sealed. -/
  | fahSealDone (tier h : Nat)
  /-- R103: FAH_CTL command Trim unwrites a sealed handle's range and frees it. -/
  | fahTrim (tier h : Nat) (v : Word)
  /-- R62: A read of OWN_LOGB returns and clears COUNT. -/
  | ownLogbRead (chiplet : Nat)
  /-- R23: Writing INV starts dropping the context's walker-cache entries in all chiplets. -/
  | xltWinvWrite (ctx : Nat) (v : Word)
  /-- R23: All walker caches have dropped the context's entries and walks in flight have restarted. -/
  | xltWinvComplete (ctx : Nat)
  /-- R139: A write of EN = 1 checks the group configuration and starts encoding, or sets ERR. -/
  | pgCfgEnSet (v : Word)
  /-- R140: A write of EN = 0 discards parity and journal state and disables the member, where allowed. -/
  | pgCfgEnClear (v : Word)
  /-- R140: A write of SPARE moves the module between Disabled and Spare. -/
  | pgCfgSpare (v : Word)
  /-- R149: A preset write stores M and the timeouts and then writes EN = 1. -/
  | pgPreset (v : Word)
  /-- R164: A survivor checks and starts the rebuild of a missing member into a spare. -/
  | pgRbldGo (v : Word)
  /-- R160: All members finish encoding; CRN becomes 0, ORN 1 and the member Running. -/
  | encodingDone
  /-- R159: A DACK misses PG_TMO.DELTA and the member suspects the holder. -/
  | dackTimeout (member : Nat)
  /-- R159: The VOTE timeout expires in Voted and the member enters Exchange. -/
  | voteTimeout
  /-- R159: The Stoltis service core reports a member dead and survivors suspect it. -/
  | memberDeadReport (member : Nat)
  /-- R159: Members not answering within PG_TMO.VS are declared failed. -/
  | vsetTimeout
  /-- R159: No DECIDE within 2 × PG_TMO.VS; the member repeats the exchange under the next coordinator. -/
  | decideTimeout
  /-- R161: The journal restore ends; ORN advances and the member becomes Running or Degraded. -/
  | restoreDone
  /-- R338: A dispatch packet reads the task image and placement and waits for cores or is refused. -/
  | dispatch (q pk : Nat)
  /-- R341: Free cores are granted to the highest-ranked ready dispatch and set-up begins. -/
  | dispatchGrant (t : Nat)
  /-- R175: Once every placed core finishes set-up, the active sequencers issue their first bundles. -/
  | taskStart (t : Nat)
  /-- R186: All sequencers and commands of a task are done; the report is written and the completion signal changes. -/
  | taskRetire (t : Nat)
  /-- R341: A ready dispatch waiting AGE × 65,536 clk rises to rank 7. -/
  | ageExpiry (t : Nat)
  /-- R342: A task has run MINRUN and becomes pre-emptible. -/
  | minrunExpiry (t : Nat)
  /-- R380: Stops every core of a task at a bundle boundary and saves its state. -/
  | preempt (t : Nat)
  /-- R381: The save of a pre-empted task completes on all its cores. -/
  | preemptSaveDone (t : Nat)
  /-- R382: Restores a pre-empted task on the same cores, acquires and restarts it. -/
  | resume (t : Nat)
  /-- R188: A core without a sink for the interval raises a hang report. -/
  | watchdogExpiry (core : Nat)
  /-- R189: A read of WDG_STS returns and clears COUNT. -/
  | wdgStsRead (core : Nat)
  /-- R245: Returns the named halted sequencers to Running. -/
  | seqResumeWrite (core : Nat) (v : Word)
  /-- R290: A read of ENG_ERR returns and clears COUNT. -/
  | engErrRead (core : Nat)
  /-- R331: A write of EN = 1 creates the context when its placement map is valid. -/
  | ctxCfgEnSet (x : Nat) (v : Word)
  /-- R331: A write of EN = 0 removes the context when nothing of it runs or waits. -/
  | ctxCfgEnClear (x : Nat) (v : Word)
  /-- R331: Pre-empts every running task of the context and stops taking its packets. -/
  | ctxCfgStop (x : Nat) (v : Word)
  /-- R331: Undoes STOP for the context. -/
  | ctxCfgGo (x : Nat) (v : Word)
  /-- R332: A write of EN = 1 enables a queue when its settings are valid and sets RD to 0. -/
  | qCfgEnSet (q : Nat) (v : Word)
  /-- R332: A write of EN = 0 stops a queue taking packets. -/
  | qCfgEnClear (q : Nat) (v : Word)
  /-- R332: Completes a stopped packet with ERROR and continues the queue. -/
  | qCfgSkip (q : Nat) (v : Word)
  /-- R333: Every 65,536 clk the command processor reads each enabled queue's notify word and slot. -/
  | queuePoll
  /-- R339: Reads a word and runs the true or false packet list. -/
  | cond (q pk : Nat)
  /-- R339: Starts a loop node that runs a packet list while its test holds. -/
  | loopNode (q pk : Nat)
  /-- R339: After a pass completes, rereads the word and runs or ends the loop. -/
  | loopPass (q pk : Nat)
  /-- R339: Reads a word and runs the list named by its field, or the default. -/
  | switch (q pk : Nat)
  /-- R340: Completes when a word meets its test, re-read on notifications and polls. -/
  | wait (q pk : Nat)
  /-- R340: A WAIT packet times out and completes with TIMEOUT. -/
  | waitTimeout (q pk : Nat)
  /-- R360: A broadcast collective copies the root's source to every member. -/
  | broadcast (q pk : Nat)
  /-- R360: An all-gather collective places every rank's chunk on every member. -/
  | allGather (q pk : Nat)
  /-- R360: A reduce-scatter collective folds each chunk onto its rank. -/
  | reduceScatter (q pk : Nat)
  /-- R360: An all-reduce collective folds every member's source, dense or sparse. -/
  | allReduce (q pk : Nat)
  /-- R91: A barrier that waits for its queue's peer-bound writes before announcing arrival. -/
  | defaultBarrier (q pk : Nat)
  /-- R91: A barrier that announces arrival at once. -/
  | expertBarrier (q pk : Nat)
  /-- R362: A collective's TMO expires with the handshake or inputs incomplete. -/
  | collectiveTimeout (q pk : Nat)
  /-- R344: A write of EN = 1 enables the event ring when its settings are valid. -/
  | evqCfgEnSet (v : Word)
  /-- R344: A write of EN = 0 stops event recording. -/
  | evqCfgEnClear (v : Word)
  /-- R344: A read of EVQ_CFG returns and clears LOST. -/
  | evqCfgRead
  /-- R344: System software consumes event records, or the write is refused. -/
  | evqRdWrite (v : Word)
  /-- R345: Every 2,048 clk the activity forecast is recomputed. -/
  | actFcstRecompute
  /-- R348: A Down port whose far end answers starts training. -/
  | linkTraining (p peer pport : Nat)
  /-- R348: Training or retraining succeeds and the port carries flits. -/
  | linkUp (p : Nat)
  /-- R348: Training exceeds RTMO; the port goes Down or, after four failures, Failed. -/
  | linkTrainingTimeout (p : Nat)
  /-- R348: Retraining exceeds RTMO; the port goes Down and kept flits are discarded. -/
  | linkRetrainTimeout (p : Nat)
  /-- R348: A flit with a bad CRC is replayed; the eighth replay starts a retrain. -/
  | flitReplay (err : FlitErr)
  /-- R347: Writes EN, letting the port train or returning a Failed port to Training. -/
  | lnkCfgEn (p : Nat) (v : Word)
  /-- R347: Sends an Up port to Retraining. -/
  | lnkCfgRetrain (p : Nat) (v : Word)
  /-- R347: A read of LNK_STS returns and clears REPLAY and CRCERR. -/
  | lnkStsRead (p : Nat)
  /-- R353: A refused ordered contribution is resent after at least 4,096 clk. -/
  | contributionResend (core id : Nat)
  /-- R363: A write of EN = 1 loads the rule, checks the block table and resets every block. -/
  | peCfgEnSet (e : Nat) (v : Word)
  /-- R363: A write of EN = 0 discards every block's state after any update in progress. -/
  | peCfgEnClear (e : Nat) (v : Word)
  /-- R363: A read of PE_STS returns and clears DUP, REJ and UND. -/
  | peStsRead (e : Nat)
  /-- R367: A complete block runs the rule, writes masters and moments and pushes the weights. -/
  | peStepApply (e b : Nat)
  /-- R368: A block waiting TMO on a partial step raises an event record. -/
  | peStepTimeout (e b : Nat)
  /-- R378: Reruns the checks of a pending fault with a new walk. -/
  | fltCmdResume (core idx : Nat)
  /-- R378: Delivers a pending fault to the handler or ends the task. -/
  | fltCmdDeliver (core idx : Nat)
  /-- R378: Ends the task of a pending fault with CODE 4. -/
  | fltCmdKill (core idx : Nat)
  /-- R400: Sets a core's budget and pulse pattern from the next window. -/
  | pwrCoreWrite (core : Nat) (v : Word)
  /-- R403: Writes a power profile's pair into every core's PWR_CORE. -/
  | pwrProfWrite (v : Word)
  /-- R402: At each 64-clk window boundary the energy sums restart and new settings take effect. -/
  | powerWindow
  /-- R406: An over-temperature or lost coolant flow saves contexts and powers down the compute rails. -/
  | thermalEmergency
  /-- R406: At 18 ms, contexts not saved end without an image. -/
  | emergencySaveTimeout
  /-- R406: At 20 ms the compute rails are removed. -/
  | emergencyRailsOff
  /-- R407: After 1 s below 85 °C, the compute part is brought up and stacks return to Active. -/
  | cooldownComplete
  /-- R408: Sets the emergency area when no context exists and no image is saved, or sets ERR. -/
  | thmAreaWrite (v : Word)
  /-- R409: Copies a context's images from the emergency area back to the save areas. -/
  | thmResGo (v : Word)
  /-- R409: A restore from the emergency area completes and BUSY clears. -/
  | thmResDone
  /-- R410: Requests retirement of an exposed core. -/
  | coreRetGo (v : Word)
  /-- R410: The core is free of tasks and images and is retired, possibly replaced by the spare. -/
  | coreRetirement
  /-- R412: A firmware record is appended and verified, or rejected. -/
  | firmwareRecordAppend (m ver : Nat) (image : List Byte)
  /-- R412: At a quiescent point the new firmware version becomes active. -/
  | firmwareActivate (m : Nat)
  /-- R413: Signs the nonce, firmware digests, fuses and retired-resource map. -/
  | attestationQuote (nonce : BitVec 512)
  /-- R414: When the log's flash is full, the oldest records merge into totals. -/
  | errorLogMerge
  /-- R415: Runs bring-up from ROM verification through to command processor readiness. -/
  | coldReset
  /-- R346: When the pod forms, the Stoltis service core writes the module's PODIDX and PODSIZE into the scope table. -/
  | podForm (idx size : Nat)
  /-- R107: A check detects and corrects an error; no value changes and a record enters the error log. -/
  | correctedError (stage : Nat)
  /-- R411: A fault on a power-delivery rail sets REPL_STS.REASON bit 7 and REQ and posts an event with SRC 9. -/
  | pdRailFault
  /-- R358: A member whose SIG could not be kept at a peer, because that peer already holds 64 early SIGs, sends it again. -/
  | sigResend (gid sq pod : Nat)
  /-- R315: The matrix engine reaches a µ-word whose µ-opcode is 0x00 or lies in 0x10–0x3F, or its µ-PC passes 8,191, and the call ends with lexicon status. -/
  | invalidMicroWord (core : Nat)
  deriving DecidableEq, Repr

end Sys2Proof
end

