-- ==== Sys2Proof/Machine/State.lean ====
section
/-! DEFINITION. Everything the spec gives the machine to hold, as plain data: sequencers (07 R167), cores, caches and
registries (02 R39), translation (01), HBM and flash (04), the coding group (06), the command processor (13), the fabric
and parameter engines (14), power and service (18); the reasons a step can stop; the state after reset. -/
namespace Sys2Proof.Machine

/-! ## One sequencer (R167) -/

/-- A 64-bit s register with its poison bit (R167, R277). -/
structure SVal where
  v : Word := 0
  p : Bool := false
  deriving DecidableEq, Repr

/-- A 32-bit word or vector lane with its poison bit (R167, R277). -/
structure Lane where
  v : W32 := 0
  p : Bool := false
  deriving DecidableEq, Repr

/-- One register write of a result in flight (R181, R206). -/
inductive LandW where
  | s (d : Nat) (v : Word) (p : Bool)
  | lane (d l : Nat) (v : W32) (p : Bool)
  | pred (n : Nat) (b : Bool)
  | q (n : Nat) (x : BitVec 16)
  | m (n : Nat) (v : W32)
  /-- a special register, by its number of R234 -/
  | special (x : Nat) (v : Word)
  /-- flags of fcsr to set (R122) -/
  | flags (f : BitVec 6)
  /-- a rotation of p8-p15 with this stage bit (R213) -/
  | rot (stage : Bool)
  deriving DecidableEq, Repr

/-- Where the value of a late access lands (R278, R279, R284). -/
inductive LateDst where
  | s (d : Nat) (size : MSize)
  | v (d : Nat) (size : MSize)
  deriving DecidableEq, Repr

/-- One element of a late access: its lane, the byte offset in its first word, its VA, and the words that have arrived. -/
structure LateElem where
  lane : Nat := 0
  off : Nat := 0
  va : Nat := 0
  words : List (Option Lane) := []
  /-- an error has come: the element is 0, poisoned (R283, R377) -/
  err : LandErr := .none
  /-- its first word, PA / 4: lanes that share a word read it once (R74) -/
  w : Nat := 0
  /-- hotness buffer charged (R105) -/
  buf : Nat := 0
  deriving DecidableEq, Repr

/-- A global load, gather or atomic whose value may still be on its way (R182). -/
structure Late where
  tag : Nat
  slot : Nat
  dst : LateDst
  elems : List LateElem
  /-- speculative: errors give poison and no landing fault (R283) -/
  spec : Bool := false
  /-- a gather: of several errors the lowest lane reports, of any other access the lowest address (R28) -/
  lanes : Bool := false
  deriving DecidableEq, Repr

/-- A result in flight: remaining bundle times, the slot that made it, its writes, and the late access it waits for. -/
structure InFlight where
  rem : Nat
  slot : Nat
  writes : List LandW
  late : Option Nat := none
  deriving DecidableEq, Repr

/-- Kind of a sequencer (R169). -/
inductive SeqKind where
  | absent | active | dormant
  deriving DecidableEq, Repr

/-- State of a sequencer (R177). -/
inductive SeqSt where
  | absent | dormant | running | frozen | halted | stopped
  deriving DecidableEq, Repr

/-- An atomic that waits for its release (R81): word, size, request words and place. -/
structure PendAtom where
  pa : Nat
  kind : AKind
  size : MSize
  scope : Nat
  acq : Bool
  x : Word
  y : Word
  tag : Nat
  region : Nat
  deriving DecidableEq, Repr

/-- What a bundle that has issued still waits for (R182). -/
inductive Wait where
  /-- a release at a scope, and the atomic behind it (R77, R81) -/
  | rel (scope : Nat) (thenAtom : Option PendAtom)
  /-- an acquire at a scope for a region mask (R78) -/
  | acq (scope : Nat) (mask : Word)
  /-- drain, with its trap bit (R87) -/
  | drain (trap : Bool)
  /-- cln of a region mask (R287) -/
  | cln (mask : Word)
  /-- semwait: index and threshold (R237) -/
  | sem (idx : Nat) (thr : Word)
  | wfe
  | join
  /-- the loads and atomics before it in its bundle have read (R73) -/
  | order
  /-- an atomic of the bundle that comes behind them -/
  | atom (a : PendAtom)
  /-- one element of a store of the bundle that comes behind them -/
  | store (slot size : Nat) (data : Word) (poison : Bool) (va pa region buf : Nat)
  /-- the same in the scratchpad -/
  | spm (off size : Nat) (data : Word) (poison : Bool)
  /-- accesses behind it, unperformed when their task was saved, repeat their checks (R380, R382) -/
  | check
  /-- one element of a load of M1, behind an acquire in M0 -/
  | load (tag elem size va pa region : Nat)
  deriving DecidableEq, Repr

/-- What a sequencer does once the results in flight have landed (R183, R241-R243). -/
inductive Ending where
  | stop
  | trap (cause : Nat) (xval : Word) (next : Word)
  | eret
  | halt (next : Word)
  deriving DecidableEq, Repr

/-- A cause of R371 with its xval (R372). -/
structure Trap where
  cause : Nat
  xval : Word
  deriving DecidableEq, Repr

/-- A pending transfer (R209): delay slots still to issue and the target, none for a branch that does not transfer. -/
structure Xfer where
  left : Nat
  target : Option Word
  deriving DecidableEq, Repr

/-- One sequencer (R167, R174). s registers absent from `s` hold 0, lanes absent from `v` hold 0; s0, p0 and q0 are
hard-wired by the operations that read them (R199). -/
structure Seq where
  kind : SeqKind := .absent
  st : SeqSt := .absent
  pc : Word := 0
  s : FMap SVal := []
  /-- lane l of v register n under key 16 n + l -/
  v : FMap Lane := []
  p : BitVec 16 := 1
  q : FMap (BitVec 16) := []
  m : FMap W32 := []
  lc : Word := 0
  ec : Word := 0
  taskid : W32 := 0
  fcsr : W32 := 0
  /-- dstat (R89): COUNT, PEER, UND, and the writes recorded since the previous drain (R88) -/
  dCount : Nat := 0
  dPeer : Nat := 0
  dUnd : Bool := false
  dSince : Nat := 0
  /-- wfe pending bit (R239) -/
  evp : Bool := false
  pmode : Bool := false
  mode : Bool := false
  xpc : Word := 0
  xcause : Word := 0
  xval : Word := 0
  xvec : Word := 0
  xsc : FMap Word := []
  /-- start queue: handler PC, argument and scope of the invalidation, oldest first (R86, R178) -/
  starts : List (Word × Word × Nat) := []
  infl : List InFlight := []
  lates : List Late := []
  xfer : Option Xfer := none
  bankU : List InFlight := []
  savedXfer : Option Xfer := none
  waits : List Wait := []
  ending : Option Ending := none
  /-- the ending that a landing fault interrupted: the model keeps it for eret -/
  savedEnding : Option Ending := none
  /-- boundary faults to take before the next bundle (R377, R88) -/
  boundary : List Trap := []
  /-- markers of this sequencer not yet reached (R85, R286) -/
  marks : List Nat := []
  /-- this sequencer waits at the checks of its next bundle: a walk, late translation, a full queue (R182); for a page that moves (R188) -/
  stalled : Bool := false
  onMove : Bool := false
  /-- slot of the access whose fault pends (R372) -/
  pendSlot : Nat := 0
  /-- first tag of the late accesses of the bundle issued last: bundles of all sequencers in issue order (R84) -/
  tag0 : Nat := 0
  /-- the return address given to a branch whose delay slots could not all be read ahead, until it is known (R210) -/
  relink : Option Word := none
  deriving DecidableEq, Repr

/-! ## Engine commands (R180, R288-R304) -/

/-- A frozen tensor descriptor (R32, R34). -/
structure TDesc where
  rank : Nat
  base : Nat
  pad : W32
  swz : Nat
  fmt : Nat
  sizes : List Nat
  strides : List Int
  deriving DecidableEq, Repr

/-- A tile move: descriptor, columns, rows, pitch, origin (R295, R300, R301). -/
structure TileMove where
  t : TDesc
  cols : Nat
  rows : Nat
  pitch : Nat
  org : List Int
  deriving DecidableEq, Repr

/-- Progress of a command (R84). -/
inductive CmdSt where
  | waiting | started | done
  /-- step 6 performed; writes may still be on their way -/
  | completed
  deriving DecidableEq, Repr

/-- An engine command with what it took at issue (R288). -/
structure Cmd where
  id : Nat
  q : Nat
  opc : Nat
  variant : Nat
  seq : Nat
  /-- s_A, s_(A+1), ... as the command reads them; tile descriptor lanes for tensor kinds are in `lanes` -/
  regs : List Word := []
  b : Word := 0
  lanes : List W32 := []
  /-- m0-m7 of an mcall -/
  m : List W32 := []
  scope : Nat := 0
  acq : Bool := false
  rel : Bool := false
  w : WaitSig := ⟨0, 0, 0, 0⟩
  st : CmdSt := .waiting
  status : Nat := 0
  eva : Nat := 0
  rm : BitVec 2 := 0
  ftz : Bool := false
  fet : Bool := false
  system : Bool := false
  /-- head of the command's bundle (FLT_REC_B), and that bundle's first tag (R84) -/
  pc : Word := 0
  tag0 : Nat := 0
  /-- step 1 is already met: a fired triggered transfer (R299) -/
  fired : Bool := false
  /-- step 1 is passed (R84, R303) -/
  passed : Bool := false
  /-- it is a cancelled triggered entry: it stands in no queue (R304) -/
  entry : Bool := false
  /-- writes still to be performed at their homes -/
  left : Nat := 0
  /-- module of the destination of an xfer or xred, 64 for this one, once it is known (R293) -/
  dest : Option Nat := none
  /-- the move of a tensor-kind command, as it stood at its start (R300) -/
  tile : Option TileMove := none
  /-- flags gathered by the command (R122) -/
  flags : BitVec 6 := 0
  /-- bytes already moved, when a fault stopped the command (R29) -/
  pos : Nat := 0
  /-- an xred's whole source once it is read: destination VA and datum of each word (R84, R354) -/
  data : Option (List (Nat × W32 × Bool)) := none
  /-- the flash page number the signal waits for (R102) -/
  durable : Option (Nat × Nat × Nat) := none
  /-- remote parts (R293): 0 none or performed, 1 to perform, 2 on their way -/
  remote : Nat := 0
  deriving DecidableEq, Repr

/-- An entry of an engine queue: a command's place or a marker (R180, R85). -/
inductive QEnt where
  | cmd (id : Nat)
  | marker (seq mark : Nat)
  deriving DecidableEq, Repr

/-- A triggered entry (R298): armed with a stored transfer, or fired and waiting for room (R299). -/
structure Trig where
  cmd : Cmd
  sem : Nat
  thr : Nat
  fired : Bool := false
  deriving DecidableEq, Repr

/-! ## The matrix engine (R305-R314) -/

/-- One accumulator entry (R308). -/
structure AccEnt where
  v : BitVec 128 := 0
  e : Int := 0
  pinf : Bool := false
  ninf : Bool := false
  nan : Bool := false
  empty : Bool := true
  poison : Bool := false
  deriving DecidableEq, Repr

/-- A decoded position of an operand latch (R317): the element's bits or (s, x) of R129, read poison, unscanned mark. -/
structure LatEl where
  /-- mantissa s of R129, or the element's bits for the F32, C32 and INT modes -/
  s : Int := 0
  x : Int := 0
  bits : BitVec 64 := 0
  inf : Bool := false
  nan : Bool := false
  /-- unscanned position (R317) -/
  dead : Bool := false
  poison : Bool := false
  deriving DecidableEq, Repr

/-- State of the matrix engine outside tiles and accumulators (R314). -/
structure Mx where
  /-- the call in progress: its command -/
  call : Option Nat := none
  upc : Nat := 0
  m : List W32 := []
  k : FMap (BitVec 16) := []
  /-- latches: position k of row r under key 1024 r + k; positions held -/
  la : FMap LatEl := []
  laN : Nat := 0
  lb : FMap LatEl := []
  lbN : Nat := 0
  /-- selector bytes: word w of row r under key 16 r + w -/
  sr : FMap Lane := []
  bmr : W32 := 0xFFFFFFFF
  bmrPois : Bool := false
  /-- scanned exponents and exact pending sums, entry (i, j) under key 32 i + j -/
  xe : FMap Int := []
  sum : FMap Int := []
  /-- read-out latch -/
  ol : FMap (Word × Bool) := []
  flags : BitVec 6 := 0
  deriving DecidableEq, Repr

/-! ## A core (R167) -/

/-- State of a word in an L1 (R45): V, O, or a registration with fetch under way with the bytes already stored, and whether one
of those stores covered the whole word (R60). -/
inductive L1St where
  | v | o | pend (mask : BitVec 4) (whole : Bool)
  deriving DecidableEq, Repr
structure L1Word where
  st : L1St
  v : W32
  p : Bool := false
  deriving DecidableEq, Repr

/-- A registration of a store that some level has still to acknowledge (R47). -/
structure Outst where
  w : Nat
  seq : Nat
  /-- places that have acknowledged; 0x2000 once the last one has -/
  acked : List Nat := []
  /-- the store found the word's registration under way: it joins the entry before it -/
  join : Bool := false
  /-- VA and slot of the store, for a landing fault (R377); slot 0 for an atomic -/
  va : Nat := 0
  slot : Nat := 0
  /-- REGION of its page (R53) and hotness buffer charged (R105) -/
  region : Nat := 0
  buf : Nat := 0
  /-- first tag of its bundle (R84) -/
  tag0 : Nat := 0
  deriving DecidableEq, Repr

/-- An extent (R25): page range, physical base, attributes. -/
structure Extent where
  va : Nat
  pa : Nat
  len : Nat
  r : Bool
  w : Bool
  s : Bool
  d : Bool
  p : Bool
  hk : Nat
  f : Bool
  region : Nat
  hotbuf : Nat
  deriving DecidableEq, Repr

/-- Kinds of access that a walk serves (R379 KIND). -/
inductive AccKind where
  | load | store | atomic | fetch | engRead | engWrite
  deriving DecidableEq, Repr

/-- A slow-path walk in flight (R27): sequencer 0-31, or 32 + queue. -/
structure Walk where
  core : Nat
  idx : Nat
  ctx : Nat
  va : Nat
  kind : AccKind
  system : Bool
  /-- the access may not go on a fault: a speculative load takes poison instead (R283) -/
  spec : Bool := false
  /-- an atomic of scope .pd; an engine read that may come from flash (R21) -/
  opt : Bool := false
  pc : Word := 0
  /-- the slot of the access, 8 for a fetch (R372); the number of an engine command -/
  slot : Nat := 0
  deriving DecidableEq, Repr

/-- One core (R167): what its sequencers share. -/
structure Core where
  /-- the task that runs here, by its index in the command processor, and the core's logical index -/
  task : Option Nat := none
  logical : Nat := 0
  ctx : Nat := 0
  strict : Bool := false
  spmSize : Nat := 0
  seqs : FMap Seq := []
  /-- scratchpad words (R14, R277) -/
  spm : FMap Lane := []
  sems : FMap Nat := []
  trig : FMap Trig := []
  /-- slots that have fired and whose transfers have not entered the queue, in firing order (R299) -/
  fireQ : List Nat := []
  mq : List QEnt := []
  tq : List QEnt := []
  cmds : FMap Cmd := []
  nextId : Nat := 0
  /-- the command whose fault pends, by queue (R29, R378) -/
  pendCmd : FMap Nat := []
  /-- CTX_XVEC as last applied to the task, and how often it had been written (R374) -/
  xvIn : Word := 0
  xvN : Nat := 0
  /-- word w of tile t under key 1024 t + w (R305) -/
  tile : FMap Lane := []
  /-- plane entry b of tile t under key 64 t + b: 3 bytes and poison (R306) -/
  plane : FMap (BitVec 24 × Bool) := []
  shape : FMap W32 := []
  /-- entry (i, j) of accumulator c under key 1024 c + 32 i + j (R308); AM under c (R309) -/
  acc : FMap AccEnt := []
  am : FMap Nat := []
  lex : FMap Word := []
  mx : Mx := {}
  l1 : FMap L1Word := []
  /-- the L1's lines, each with the REGIONs under which it was reached (R53) -/
  l1reg : FMap (BitVec 64) := []
  outst : List Outst := []
  /-- owned words that a check found uncorrectable and no own read has met yet (R58) -/
  l1err : List Nat := []
  /-- stores and atomics of speculative walks that gave poison: VAs whose walk faulted (R283) -/
  specFail : List (Nat × Nat) := []
  extents : List Extent := []
  descs : FMap (Option TDesc) := []
  /-- operand ranges with a hotness buffer (R105): base, length, buffer -/
  bufs : List (Nat × Nat × Nat) := []
  /-- clk of the last sink (R188) -/
  sink : Nat := 0
  /-- energy of the current window and the settings in force (R400, R402) -/
  esum : Nat := 0
  swal : BitVec 16 := 0xFFFF
  budget : Nat := 0x7BC0
  /-- the sequencer that issued first in this clk, and in the last clk in which one did; clk + 1 of the last micro-word (R402) -/
  firstNow : Option Nat := none
  firstPrev : Nat := 31
  mxClk : Nat := 0
  /-- set-up of the placed task has finished on this core (R175) -/
  ready : Bool := false
  deriving DecidableEq, Repr

/-! ## Levels above L1 (R39-R44) -/

/-- State of a word at a landing, RDC, home L2, reticle registry or host gateway (R44); Absent is not listed, and
Poisoned at the home is the poison bit of the home's memory word. -/
inductive Lvl where
  | copy (v : W32) (p : Bool)
  | held (v : W32) (p : Bool)
  | owner (id : Nat)
  deriving DecidableEq, Repr

/-- A line in its home L2 (R100): its physical line, its sectors, the number of its last use, the task (plus 1, 0 for none) and
hotness buffer of that use. -/
structure L2Line where
  phys : Nat
  secs : Nat
  used : Nat
  task : Nat := 0
  buf : Nat := 0
  deriving DecidableEq, Repr

/-- A use of a line at its home: the line, the task (plus 1, 0 for none) and buffer charged (R105), and whether it wrote. -/
structure L2Use where
  line : Nat
  task : Nat
  buf : Nat
  write : Bool
  deriving DecidableEq, Repr

/-- How a host gateway holds a host-homed line (R64). -/
inductive GwLine where
  | shared | owned
  deriving DecidableEq, Repr

/-- A walker-cache entry (R24): chiplet, context, level, VA prefix of the entry, entry word. -/
structure WEnt where
  chip : Nat
  ctx : Nat
  level : Nat
  prefix_ : Nat
  ent : Word
  deriving DecidableEq, Repr

/-- A page-home move under way (R65). -/
structure Move where
  q : Nat
  pk : Nat
  ctx : Nat
  va : Nat
  oldPa : Nat
  newPa : Nat
  size : Nat
  /-- where the leaf stands, and the leaf before the move -/
  leafPa : Nat
  leaf : Word
  deriving DecidableEq, Repr

/-! ## HBM and flash (R95-R104) -/

/-- Repair state of a lane group (R97). -/
inductive GrpSt where
  | normal | pending | switch | retrain | failed
  deriving DecidableEq, Repr

/-- One group of 32 data lanes and its tracking lane (R96, R97). -/
structure LaneGrp where
  st : GrpSt := .normal
  /-- bursts of the group so far, and its CRC errors: lane and burst number (R97) -/
  bursts : Nat := 0
  errs : List (Nat × Nat) := []
  /-- the tracking lane has taken the place of this lane -/
  spare : Option Nat := none
  /-- lane wanted for repair -/
  want : Option Nat := none
  /-- sampling phase moves made (R96) -/
  phase : Nat := 0
  /-- failed replays, by burst, and the clk of the last bad CRC -/
  replays : FMap Nat := []
  lastBad : Nat := 0
  /-- clk at which the state was entered -/
  since : Nat := 0
  deriving DecidableEq, Repr

/-! ## The coding group (R135-R166) -/

/-- A journal record (R150): data or parity line, its pre-image with the poison bits of its words. -/
structure JRec where
  parity : Bool
  pre : List Lane
  deriving DecidableEq, Repr

/-- A member's answer in an exchange (R159). -/
structure VAns where
  member : Nat
  crn : Nat
  votes : W32
  committed : Bool
  restored : Bool
  dec : Option Decision
  deriving DecidableEq, Repr

/-- An exchange in progress (R159). -/
structure Exch where
  /-- STATE entered from -/
  from_ : Nat
  suspects : W32 := 0
  coord : Nat := 0
  answers : List VAns := []
  deriving DecidableEq, Repr

/-- A DELTA sent and not yet acknowledged (R151, R152): the member it went to, its round, parity line and clk, and the chiplet whose
erasure engine sent it. -/
structure DeltaOut where
  member : Nat
  round : Nat
  line : Nat
  clk : Nat
  chip : Nat
  deriving DecidableEq, Repr

/-- The coding-group member (R135-R166, R417); registers lie among the device registers. -/
structure Group where
  journal : FMap JRec := []
  /-- DELTAs sent and not yet acknowledged -/
  deltas : List DeltaOut := []
  /-- PREPARED votes held for the open round -/
  votes : W32 := 0
  /-- DELTAs of the next round held (R166) -/
  held : List Instr := []
  /-- PREPARED votes of the next round held (R166) -/
  heldVotes : W32 := 0
  exch : Option Exch := none
  /-- last DECIDE received and its round; the round last restored -/
  dec : Option (Nat × Decision) := none
  restored : Option Nat := none
  /-- HIGH raised in this round -/
  high : Bool := false
  /-- ROUND packets that complete with the outcome of the open round: queue and packet -/
  rounds : List (Nat × Nat) := []
  /-- the write-back of prepare is done -/
  wrote : Bool := false
  /-- a write of EN = 1 asks every member for its settings, and the members that have reported the same ones (R139) -/
  asking : Bool := false
  confs : W32 := 0
  /-- PG_RBLD values whose spare has not reported its settings yet, by index (R164) -/
  rblds : FMap Word := []
  /-- members in Encoding, those whose shares of the own parity units are all here, those that have encoded (R139) -/
  ready : W32 := 0
  shared : W32 := 0
  encoded : W32 := 0
  /-- a rebuild into this module: stripes written, what a survivor told of its rounds and of the missing members, and the other indices
  whose rebuild has ended meanwhile (R160, R164) -/
  got : List Nat := []
  gotRnd : Option (Nat × Nat × RebuildNote) := none
  joined : List Nat := []
  /-- the round is restored, and a damaged unit may be rebuilt in place (R161) -/
  mend : Bool := false
  /-- indices under rebuild, oldest first, and members that have joined while one of them was: they start no sum of it (R164) -/
  rebuilds : List Nat := []
  late : List Nat := []
  /-- in Restoring: an exchange about the round is under way elsewhere, and members suspected meanwhile (R159, R399) -/
  await : Bool := false
  suspects : W32 := 0
  /-- clk at which STATE last changed -/
  since : Nat := 0
  deriving DecidableEq, Repr

/-! ## The command processor (R330-R345) -/

/-- A collective in progress (R358-R361). -/
structure Coll where
  typ : Nat
  gid : Nat
  sq : Nat
  n : Nat
  rank : Nat
  memb : List Nat
  h : Word
  src : Nat
  dst : Nat
  stage : Nat
  count : Nat
  op : Nat
  root : Nat
  sparse : Bool
  /-- SIGs held from members: pod, signature -/
  sigs : List (Nat × Word) := []
  /-- arrival announced: SIG sent -/
  announced : Bool := false
  /-- handshake complete -/
  shaken : Bool := false
  /-- payloads received, in arrival order: 0 with a rank, for one folded here, 1 with a chunk, for one gathered; the pairs of a
  sparse chunk -/
  got : List (Nat × Nat × List (W32 × Bool)) := []
  /-- phase of the chain: 0 nothing sent, 1 inputs awaited, 2 gathering -/
  step : Nat := 0
  /-- steps of the chain already sent -/
  sent : Nat := 0
  deriving DecidableEq, Repr

/-- A node that runs packet lists (R339): the list under way, its next packet, the passes begun. -/
structure Node where
  list : Nat
  len : Nat
  next : Nat
  passes : Nat
  deriving DecidableEq, Repr

/-- A packet taken and not yet completed, or the child of a node (R334-R339). -/
structure Pkt where
  id : Nat
  /-- eight 64-bit words -/
  words : List Word
  parent : Option Nat := none
  depth : Nat := 0
  started : Bool := false
  done : Bool := false
  /-- outcome bits 56-62 as flags 0-6 (R335) -/
  out : BitVec 7 := 0
  node : Option Node := none
  coll : Option Coll := none
  /-- clk at which it started (timeouts) -/
  clk0 : Nat := 0
  deriving DecidableEq, Repr

/-- A hardware queue beside its registers (R332). -/
structure Queue where
  pkts : List Pkt := []
  next : Nat := 0
  /-- a peer-bound write of this queue's packets was recorded undeliverable since its last default barrier (R91) -/
  und : Bool := false
  /-- a node stands stopped: at its next list packet, or itself where `stopSelf` is set (R332 SKIP) -/
  stopNode : Option Nat := none
  stopSelf : Bool := false
  /-- a SKIP whose slot still has to be read or written -/
  skip : Bool := false
  deriving DecidableEq, Repr

/-- Phase of a task (R175, R186, R380). -/
inductive TaskSt where
  | ready | setup | running | saving | preempted
  deriving DecidableEq, Repr

/-- Counters of one hotness buffer (R105). -/
structure Hot where
  bytes : Nat := 0
  stall : Nat := 0
  casc : Nat := 0
  deriving DecidableEq, Repr

/-- A task image as read at its dispatch (R168-R170): operand ranges as base, length and ATTR, verbs as first µ-word address
and µ-words, semaphores as index and value. -/
structure TaskImg where
  ncores : Nat := 0
  flags : Nat := 0
  spm : Nat := 0
  entry : Nat := 0
  dormant : Nat := 0
  pcs : List Word := []
  ranges : List (Nat × Nat × Nat) := []
  tensors : List Nat := []
  verbs : List (Nat × List Word) := []
  sems : List (Nat × Nat) := []
  deriving DecidableEq, Repr

/-- A task from its dispatch to its report (R168-R187, R338). -/
structure Task where
  q : Nat
  pk : Nat
  ctx : Nat
  img : TaskImg := {}
  arg : Word
  taskid : W32
  slot : Nat
  cores : List Nat
  st : TaskSt := .ready
  prio : Nat := 0
  readyClk : Nat := 0
  aged : Bool := false
  clkbeg : Nat := 0
  /-- clk from which the time it has run counts; while it does not run, the time run so far -/
  runClk : Nat := 0
  minrun : Bool := false
  xover : Nat := 0
  engErr : Bool := false
  hot : FMap Hot := []
  /-- ended early: CODE and DETAIL of R187 -/
  ended : Option (Nat × Nat) := none
  /-- its report is written; its completion signal may still have to change (R186) -/
  reported : Bool := false
  deriving DecidableEq, Repr

/-- A saved core image (R381): task, core, image. -/
structure SaveImg where
  task : Nat
  core : Nat
  img : Core
  deriving DecidableEq, Repr

/-! ## Fabric and parameter engines (R346-R369) -/

/-- A write or atomic sent to a peer and not yet acknowledged (R87, R88). -/
structure PeerOut where
  id : Nat
  pod : Nat
  body : PeerBody
  src : WSrc
  /-- the queue of the packet that made it, 64 for none (R91) -/
  queue : Nat := 64
  /-- the contribution it is, and whether the peer's ordering point holds it (R353) -/
  contrib : Option OrdContrib := none
  accepted : Bool := false
  deriving DecidableEq, Repr

/-- An open key of ordered reductions (R353): chiplet, key and tag, next rank, NCON, contributions held. -/
structure OrdKey where
  chip : Nat
  key : Nat
  tag : BitVec 16
  next : Nat
  ncon : Nat
  held : List OrdContrib := []
  deriving DecidableEq, Repr

/-- A block of a parameter engine (R364, R366). -/
structure PeBlk where
  master : Nat := 0
  mom : Nat := 0
  hyp : Nat := 0
  /-- distribution entries: destination VA and XCTL -/
  dlist : List (Word × Word) := []
  nelem : Nat := 0
  intoff : Nat := 0
  ebase : Word := 0
  ncon : Nat := 0
  ofmt : Nat := 0
  valid : Bool := false
  step : Nat := 0
  /-- step at the last commit (R369) -/
  saved : Nat := 0
  /-- ranks received for the halves 0 and 1, and contributions held for ordered folding -/
  got0 : List Nat := []
  got1 : List Nat := []
  held : List (Nat × OrdContrib) := []
  /-- clk from which the step timeout counts -/
  since : Nat := 0
  deriving DecidableEq, Repr

/-- A push whose writes are under way (R94, R367): where its remote signal goes, 64 for this module, the signal, and its peer-bound writes. -/
structure Push where
  pod : Nat
  sig : Option Remote
  ids : List Nat
  deriving DecidableEq, Repr

/-- A parameter engine beside its registers (R363). -/
structure Pe where
  /-- the loaded rule: bytes of the image -/
  rule : List Byte := []
  blocks : FMap PeBlk := []
  /-- pushes under way -/
  pushes : List Push := []
  deriving DecidableEq, Repr

/-- A link port beside its registers (R347, R348). -/
structure Port where
  /-- failed trainings in a row -/
  fails : Nat := 0
  /-- replays, by flit -/
  replays : FMap Nat := []
  since : Nat := 0
  deriving DecidableEq, Repr

/-! ## Power and service (R400-R415) -/

/-- A firmware record (R412): module, version, image, the image's SHA-512 digest and the signature over digest and header. -/
structure FwRec where
  m : Nat
  ver : Nat
  image : List Byte
  rejected : Bool := false
  digest : BitVec 512 := 0
  sig : BitVec 1056 := 0
  deriving DecidableEq, Repr

/-- An error-log record (R414): kind, unit, clk, and the error itself: the words that tell it. -/
structure LogRec where
  kind : Nat
  unit : Nat
  clk : Nat
  info : List Word := []
  deriving DecidableEq, Repr

/-! ## The step -/

/-- A choice of the schedule: an event that comes from outside, a message in flight, a sequencer. -/
inductive Pick where
  | event (i : Instr)
  | net (k : Nat)
  | seq (core q : Nat)
  /-- a level drops a line (R39, R49) -/
  | drop (place line : Nat)
  /-- a chiplet fails (R58, R62) -/
  | chipDead (chip : Nat)
  deriving DecidableEq, Repr

/-- Where the slot that executes stands: its sequencer, its slot number, the head of its bundle and the bundle after it. -/
structure Cur where
  core : Nat := 0
  seq : Nat := 0
  slot : Nat := 0
  pc : Word := 0
  next : Word := 0
  /-- return address of brl and brrl, and whether a delay slot kept it from being known (R210) -/
  link : Word := 0
  short : Bool := false
  /-- first tag of the late accesses of this bundle (R73) -/
  tag0 : Nat := 0
  /-- the bundle has STOP set (R244) -/
  stop : Bool := false
  /-- dstat as a slot of this bundle has already read it (R89, R205) -/
  dstat : Option Word := none
  /-- the wfe pending bit at issue (R205, R239) -/
  evp : Bool := false
  deriving DecidableEq, Repr

/-- Why the bundle under way does not issue: a fault, a walk it has to start, or late memory (R182, R193). -/
inductive Raise where
  | trap (t : Trap)
  /-- page fault of a kind that pends (R373 step 2), found with a cached translation -/
  | walk (w : Walk)
  | stall
  /-- a page that moves (R65, R188) -/
  | move
  deriving DecidableEq, Repr

/-- The whole machine: one L6 module. Inputs from outside arrive through `script`, messages under way through `net`. -/
structure State where
  /-- device memory (HBM 0x0, flash 0x1) and host memory (0x4-0x7) by PA; an unlisted byte reads as 0 -/
  mem : List Host.Cell := []
  /-- home words whose value is poisoned or lost, by PA / 4 (R44, R277) -/
  pois : FMap Bool := []
  /-- words with an uncorrectable error that no write has yet removed (R107, R151): in the home's cells by PA / 4, Held at place p
  under key p 2^50 + word -/
  bad : FMap Bool := []
  /-- device registers by PA (Reg.key); an unlisted register holds its reset value (R11) -/
  dev : FMap Word := []
  /-- master clocks since package reset (R1, R234) -/
  clk : Nat := 0
  cores : FMap Core := []
  /-- levels above L1: place p, word w under key p 2^50 + w (R39-R44) -/
  lvl : FMap Lvl := []
  /-- lines of landings and RDCs, each with the REGIONs under which it was reached: place p, line under key p 2^50 + line (R53) -/
  reg : FMap (BitVec 64) := []
  /-- lines in the home L2s, by PA / 128, with the uses still to be counted there and the number of the next use (R100) -/
  l2 : FMap L2Line := []
  l2q : List L2Use := []
  l2n : Nat := 0
  /-- registrations recorded in this clk: place, word, source owner identifier (R48) -/
  regNow : List (Nat × Nat × Nat) := []
  /-- sequencers that may still issue in this clk, by core: those from this number on; 64 once an engine, a message or another event has
  acted on the core's semaphores or queues (R180, R238, R278) -/
  clkSeq : FMap Nat := []
  /-- chiplets marked dead (R58, R62) -/
  deadChips : List Nat := []
  /-- words locked at a place by a forwarded read (R51) -/
  locks : List (Nat × Nat) := []
  /-- clk at which a request was sent on to the owner of a word and not yet answered (R58, R61), by word -/
  ownReq : FMap Nat := []
  /-- host-homed lines at the gateways: port p, line under key p 2^50 + line (R64) -/
  gw : FMap GwLine := []
  /-- walker caches of the chiplets (R24) and walks in flight (R27) -/
  wcache : List WEnt := []
  walks : List Walk := []
  /-- contexts whose XLT_WINV write has still to complete (R23) -/
  winv : List Nat := []
  /-- writes of each context's CTX_XVEC (R374) -/
  xvN : FMap Nat := []
  /-- contexts stopped by CTX_CFG.STOP (R331) -/
  ctxStop : List Nat := []
  moves : List Move := []
  /-- lane groups: stack s, channel c, group g under key 64 s + 2 c + g (R97) -/
  grps : FMap LaneGrp := []
  /-- channels Failed: stack s, channel c under key 32 s + c (R97) -/
  chFail : List Nat := []
  /-- clk of the last access to a stack (R98) -/
  stackUse : FMap Nat := []
  /-- written flash pages: page n of tier t under key t 2^29 + n (R101) -/
  flashW : FMap Bool := []
  group : Group := {}
  queues : FMap Queue := []
  tasks : FMap Task := []
  nextTask : Nat := 0
  /-- queue last granted (R341) -/
  lastQ : Nat := 63
  /-- save areas, oldest first (R342, R381), and the emergency area (R408) -/
  saves : List SaveImg := []
  emerg : List SaveImg := []
  ports : FMap Port := []
  /-- clk + 1 at which the route to a pod left Up (R88) -/
  routeLeft : FMap Nat := []
  peerOut : List PeerOut := []
  nextPeer : Nat := 0
  ordKeys : List OrdKey := []
  /-- ordered contributions refused for want of room, waiting to be sent again: clk and contribution (R353) -/
  resend : List (Nat × OrdContrib) := []
  /-- SIGs that arrived before their collective started: pod, GID, SEQ, h (R358) -/
  early : List (Nat × Nat × Nat × Word) := []
  /-- CABORTs held for collectives that have not started: pod, GID, SEQ (R358) -/
  aborts : List (Nat × Nat × Nat) := []
  pes : FMap Pe := []
  /-- power windows whose boundary has passed (R402), the sum of the package's last one, and the core on which ballast runs (R404) -/
  winN : Nat := 0
  lastW : Nat := 0
  ballast : Option Nat := none
  /-- exposed numbers that are retired, and chiplets whose spare is taken (R3, R410) -/
  retired : List Nat := []
  sparesUsed : List Nat := []
  /-- emergency entered at this clk + 1 (R406) -/
  emergClk : Nat := 0
  /-- context that THM_RES restores (R409) -/
  resCtx : Nat := 0
  fw : List FwRec := []
  fwActive : FMap Nat := []
  /-- the module that is being replaced: one at a time (R412) -/
  fwSwap : Option Nat := none
  errLog : List LogRec := []
  /-- clk of the runs before the last cold reset, and when uncorrectable errors of the last 24 h were found, counted with them (R411) -/
  past : Nat := 0
  uncErrs : List Nat := []
  /-- per-kind totals of merged records (R414) -/
  logTotals : FMap Nat := []
  /-- quotes made (R413): nonce and signature -/
  quotes : List (BitVec 512 × BitVec 1056) := []
  /-- steps of bring-up completed (R415) -/
  bringup : Nat := 0
  /-- values of registers read by system software, newest first -/
  sysRd : List Word := []
  /-- event records that wait, oldest first: SRC, UNIT, DATA; words of the record under way still to be written, and whether one of them
  could not be (R344) -/
  evWait : List (Nat × Nat × Word) := []
  evLeft : Nat := 0
  evBad : Bool := false
  /-- messages and flits sent to other modules: pod index and message -/
  outbox : List (Nat × Instr) := []
  /-- messages in flight inside the module, oldest first -/
  net : List Instr := []
  /-- accesses that wait at their homes, in order of arrival: for a page that moves (R65, R66), for the group to run (R93, R155) -/
  held : List Instr := []
  /-- the schedule: choices still to come, clk advances still to come, phase and round-robin position -/
  script : List Pick := []
  pace : List Nat := []
  phase : Nat := 0
  rr : Nat := 0
  /-- the slot under way and what it raised -/
  cur : Cur := {}
  /-- slot and what it raised; the lowest slot stands -/
  raised : Option (Nat × Raise) := none
  /-- number of the next late access -/
  nextTag : Nat := 1
  /-- free values drawn so far (the model's own counter) -/
  fresh : Nat := 0
  deriving DecidableEq, Repr

/-- Why a step cannot go on. -/
inductive Fault where
  /-- no rule gives the step a next state; raised by no meaning of this model. Safe. -/
  | stuck
  deriving DecidableEq, Repr

/-- Why an instruction has no meaning. -/
inductive Refusal where
  /-- raised only by an arm of exec whose meaning is not written; names the mnemonic. Safe. -/
  | notModelled (mnemonic : String)
  deriving DecidableEq, Repr

/-- The machine at the start of a cold reset (R415): no bring-up step done, every register at its reset value, memory
with nothing listed, every core without a task. -/
def State.reset : State := {}

end Sys2Proof.Machine
end

