-- ==== Sys2Proof/Machine/Maps.lean ====
section
/-! DEFINITION. Finite maps, bit fields, memory bytes and words, cores, sequencers and device registers: the reads and
writes every other file goes through. -/
namespace Sys2Proof.Machine

/-! ## Finite maps -/

/-- The entry under a key, if one is listed. -/
def mlook {α : Type} (m : FMap α) (k : Nat) : Option α :=
  match m with
  | [] => none
  | (j, v) :: r => if j = k then some v else mlook r k

/-- The value under a key, `d` where none is listed. -/
def mget {α : Type} (d : α) (m : FMap α) (k : Nat) : α := (mlook m k).getD d

/-- Lists `v` under `k`, keeping the keys rising. -/
def mput {α : Type} (m : FMap α) (k : Nat) (v : α) : FMap α :=
  match m with
  | [] => [(k, v)]
  | (j, w) :: r => if k < j then (k, v) :: (j, w) :: r else if j = k then (k, v) :: r else (j, w) :: mput r k v

/-- Removes a key. -/
def mdel {α : Type} (m : FMap α) (k : Nat) : FMap α :=
  match m with
  | [] => []
  | (j, w) :: r => if j = k then mdel r k else (j, w) :: mdel r k

/-- Writes `v` under `k`, where an unlisted key reads as `d`: the default is not listed. -/
def mset {α : Type} [DecidableEq α] (d : α) (m : FMap α) (k : Nat) (v : α) : FMap α :=
  if v = d then mdel m k else mput m k v

/-! ## Bit fields -/

/-- Bits [lo + len - 1 : lo] of a 64-bit word. -/
def bits (v : Word) (lo len : Nat) : Nat := v.toNat / 2 ^ lo % 2 ^ len

/-- Bit `i` of a 64-bit word. -/
def bit (v : Word) (i : Nat) : Bool := v.getLsbD i

/-- `v` with bits [lo + len - 1 : lo] replaced by `x`. -/
def setBits (v : Word) (lo len x : Nat) : Word :=
  let mask : Word := BitVec.ofNat 64 ((2 ^ len - 1) * 2 ^ lo)
  (v &&& ~~~mask) ||| (BitVec.ofNat 64 (x % 2 ^ len * 2 ^ lo))

/-- The low `w` bits of `x` as a signed integer (R214 Sext). -/
def sext (w : Nat) (x : Nat) : Int := if x % 2 ^ w < 2 ^ (w - 1) then (x % 2 ^ w : Nat) else (x % 2 ^ w : Nat) - (2 ^ w : Nat)

/-- An integer reduced modulo 2^64. -/
def ofI (x : Int) : Word := BitVec.ofInt 64 x

/-- Sets a field saturating at its width. -/
def satField (v : Word) (lo len x : Nat) : Word := setBits v lo len (if x < 2 ^ len then x else 2 ^ len - 1)

/-- A field increased by `n`, saturating. -/
def bumpField (v : Word) (lo len n : Nat) : Word := satField v lo len (bits v lo len + n)

/-! ## Memory (R10, R39) -/

/-- Strictly rising addresses and no byte that an unlisted address already reads as. -/
def Memory.wf : List Host.Cell → Bool
  | [] => true
  | [(_, b)] => b != 0
  | (a, b) :: (c, d) :: r => decide (a < c) && b != 0 && Memory.wf ((c, d) :: r)

/-- The byte at a PA; an unlisted byte reads as 0 (log entry 1). -/
def rdByte (s : State) (a : Nat) : Byte := mget 0 s.mem a

/-- Writes one byte at a PA. -/
def wrByte (s : State) (a : Nat) (b : Byte) : State := { s with mem := mset 0 s.mem a b }

/-- Little-endian number of `n` bytes at `a` (R10). -/
def rdLe (s : State) (a : Nat) : Nat → Nat
  | 0 => 0
  | n + 1 => (rdByte s a).toNat + 256 * rdLe s (a + 1) n

/-- Writes the low `n` bytes of `v`, lowest first (R10). -/
def wrLe (s : State) (a : Nat) (v : Nat) : Nat → State
  | 0 => s
  | n + 1 => wrLe (wrByte s a (BitVec.ofNat 8 v)) (a + 1) (v / 256) n

/-- The home's memory word (word number PA / 4) with its poison bit (R44, R277). -/
def memWord (s : State) (w : Nat) : Lane := ⟨BitVec.ofNat 32 (rdLe s (4 * w) 4), mget false s.pois w⟩

/-- Writes a word and its poison bit at the home; the cells hold good data again. -/
def setMemWord (s : State) (w : Nat) (x : Lane) : State :=
  { wrLe s (4 * w) x.v.toNat 4 with pois := mset false s.pois w x.p, bad := mset false s.bad w false }

/-- Bytes of a word named by a mask. -/
def mergeW (old new : W32) (mask : BitVec 4) : W32 :=
  let m : W32 := (if mask.getLsbD 0 then 0xFF#32 else 0) ||| (if mask.getLsbD 1 then 0xFF00#32 else 0) |||
    (if mask.getLsbD 2 then 0xFF0000#32 else 0) ||| (if mask.getLsbD 3 then 0xFF000000#32 else 0)
  (old &&& ~~~m) ||| (new &&& m)

/-! ## Cores and sequencers -/

/-- Core `k`. -/
def core (s : State) (k : Nat) : Core := mget {} s.cores k
/-- Replaces core `k`. -/
def setCore (s : State) (k : Nat) (c : Core) : State := { s with cores := mput s.cores k c }
/-- Changes core `k`. -/
def modCore (s : State) (k : Nat) (f : Core → Core) : State := setCore s k (f (core s k))

/-- Sequencer `q` of core `k`. -/
def seqOf (s : State) (k q : Nat) : Seq := mget {} (core s k).seqs q
/-- Replaces sequencer `q` of core `k`. -/
def setSeq (s : State) (k q : Nat) (x : Seq) : State :=
  modCore s k fun c => { c with seqs := mput c.seqs q x }
/-- Changes sequencer `q` of core `k`. -/
def modSeq (s : State) (k q : Nat) (f : Seq → Seq) : State := setSeq s k q (f (seqOf s k q))

/-- The sequencer whose slot executes. -/
def me (s : State) : Seq := seqOf s s.cur.core s.cur.seq
/-- Changes the sequencer whose slot executes. -/
def modMe (s : State) (f : Seq → Seq) : State := modSeq s s.cur.core s.cur.seq f

/-- The core whose slot executes. -/
def myCore (s : State) : Core := core s s.cur.core

/-- Layer, chiplet and reticle of a core (R2). -/
def layerOf (k : Nat) : Nat := k / 8
def chipOf (k : Nat) : Nat := k / 16
def retOf (k : Nat) : Nat := k / 64

/-! ## Device registers -/

/-- The device registers of the module, each with its unit number. -/
inductive Reg where
  | ownTmo | ownLogA (c : Nat) | ownLogB (c : Nat)
  | hbmSts (s : Nat)
  | fahCtl (t h : Nat) | fahPtr (t h : Nat)
  | pgCfg | pgAreaD | pgAreaP | pgJrn | pgTmo | pgSts | pgRnd | pgJfill | pgEvt | pgRbld | pgPreset | pgMemb (i : Nat)
  | wdgCfg (k : Nat) | wdgSts (k : Nat) | wdgSeq (k : Nat) | seqHalt (k : Nat) | seqResume (k : Nat)
  | engErr (k : Nat) | engEva (k : Nat)
  | qRing (q : Nat) | qCfg (q : Nat) | qNtf (q : Nat) | qSts (q : Nat)
  | xltRoot (x : Nat) | xltWinv (x : Nat) | tdtBase (x : Nat) | ctxCfg (x : Nat) | ctxXvec (x : Nat) | pmap (x i : Nat)
  | schCfg | actFcst | evqBase | evqCfg | evqWr | evqRd
  | lnkSts (p : Nat) | lnkCfg (p : Nat) | fabCfg | route (j : Nat)
  | peCfg (e : Nat) | peBtab (e : Nat) | peIntk (e : Nat) | peRule (e : Nat) | peKey (e : Nat) | peSts (e : Nat) | peFlg (e : Nat)
  | collErr
  | fltPend (k : Nat) | fltCmd (k : Nat) | fltRecA (k i : Nat) | fltRecB (k i : Nat)
  | pwrCore (k : Nat) | pwrProf | pwrRamp | thmSts | replSts | coreRet | thmArea | thmRes
  deriving DecidableEq, Repr

/-- Device-register space 0x2 (R16). -/
def devBase : Nat := 0x2000000000000

/-- PA of each register (R61, R62, R99, R104, R140-R149, R189, R245, R290, R291, R330, R332, R342, R344, R345, R347, R349,
R350, R359, R363, R374, R379, R400-R410). -/
def Reg.pa (r : Reg) : Nat := devBase + match r with
  | .ownTmo => 0x4000 | .ownLogA c => 0x4100 + 16 * c | .ownLogB c => 0x4108 + 16 * c
  | .hbmSts s => 0x5000 + 8 * s
  | .fahCtl t h => 0x10000 + 0x1000 * t + 16 * h | .fahPtr t h => 0x10008 + 0x1000 * t + 16 * h
  | .pgCfg => 0x20000 | .pgAreaD => 0x20008 | .pgAreaP => 0x20010 | .pgJrn => 0x20018 | .pgTmo => 0x20020
  | .pgSts => 0x20028 | .pgRnd => 0x20030 | .pgJfill => 0x20038 | .pgEvt => 0x20040 | .pgRbld => 0x20048
  | .pgPreset => 0x20050 | .pgMemb i => 0x20100 + 8 * i
  | .wdgCfg k => 0x30000 + 0x40 * k | .wdgSts k => 0x30008 + 0x40 * k | .wdgSeq k => 0x30010 + 0x40 * k
  | .seqHalt k => 0x30018 + 0x40 * k | .seqResume k => 0x30020 + 0x40 * k
  | .engErr k => 0x30028 + 0x40 * k | .engEva k => 0x30030 + 0x40 * k
  | .qRing q => 0x40000 + 0x40 * q | .qCfg q => 0x40008 + 0x40 * q | .qNtf q => 0x40010 + 0x40 * q
  | .qSts q => 0x40018 + 0x40 * q
  | .xltRoot x => 0x50000 + 0x1000 * x | .xltWinv x => 0x50008 + 0x1000 * x | .tdtBase x => 0x50010 + 0x1000 * x
  | .ctxCfg x => 0x50018 + 0x1000 * x | .ctxXvec x => 0x50020 + 0x1000 * x
  | .pmap x i => 0x50100 + 0x1000 * x + 8 * i
  | .schCfg => 0x60000 | .actFcst => 0x60008 | .evqBase => 0x60010 | .evqCfg => 0x60018 | .evqWr => 0x60020
  | .evqRd => 0x60028
  | .lnkSts p => 0x70000 + 0x20 * p | .lnkCfg p => 0x70008 + 0x20 * p | .fabCfg => 0x70400 | .route j => 0x71000 + 8 * j
  | .peCfg e => 0x80000 + 0x100 * e | .peBtab e => 0x80008 + 0x100 * e | .peIntk e => 0x80010 + 0x100 * e
  | .peRule e => 0x80018 + 0x100 * e | .peKey e => 0x80020 + 0x100 * e | .peSts e => 0x80028 + 0x100 * e
  | .peFlg e => 0x80030 + 0x100 * e
  | .collErr => 0x90000
  | .fltPend k => 0xA0000 + 0x400 * k | .fltCmd k => 0xA0008 + 0x400 * k
  | .fltRecA k i => 0xA0100 + 0x400 * k + 16 * i | .fltRecB k i => 0xA0108 + 0x400 * k + 16 * i
  | .pwrCore k => 0xB0000 + 8 * k | .pwrProf => 0xB0400 | .pwrRamp => 0xB0408 | .thmSts => 0xB0410
  | .replSts => 0xB0418 | .coreRet => 0xB0420 | .thmArea => 0xB0428 | .thmRes => 0xB0430

/-- Reset value of each register, from its Reset column. -/
def Reg.reset (r : Reg) : Word := match r with
  | .ownTmo => 0x0960
  | .hbmSts _ => 0x0040000000000000
  | .pgJrn => 0x00E0000000000000
  | .pgTmo => 0x0000004000800100
  | .wdgCfg _ => 0x0000000100008F0D
  | .schCfg => 0x0010000A
  | .lnkCfg _ => 0x8000000000000000
  | .fabCfg => 0x0000400000000258
  | .pwrCore _ => 0x000000007BC0FFFF
  | .pwrRamp => 0x00010000
  | .thmArea => 0x00001000000BF000
  | _ => 0

/-- Where State holds a register: its PA; R379 and R400-R405 give some PAs twice, so those of power stand apart (log entry 40). -/
def Reg.key (r : Reg) : Nat := match r with
  | .pwrCore _ | .pwrProf | .pwrRamp => r.pa + 2 ^ 52
  | _ => r.pa

/-- Bits that a write of ones clears (R11). -/
def Reg.w1c (r : Reg) : Word := match r with
  | .ownLogB _ | .wdgSts _ | .engErr _ | .collErr | .thmSts => 0x8000000000000000
  | .fahCtl _ _ | .qCfg _ | .thmRes => 0x2000000000000000
  | .ctxCfg _ | .evqCfg | .peCfg _ => 0x4000000000000000
  | .pgCfg => 0x40000000
  | .thmArea => 0x80000000
  | .pgEvt => 0x1FF
  | .peFlg _ => 0x3F
  | .replSts => 0xFFFF
  | _ => 0

/-- The value of a register. -/
def rdReg (s : State) (r : Reg) : Word := mget r.reset s.dev r.key
/-- Stores a register's value. -/
def wrReg (s : State) (r : Reg) (v : Word) : State := { s with dev := mset r.reset s.dev r.key v }

end Sys2Proof.Machine
end

