-- ==== Sys2Proof/WellFormed.lean ====
section
/-! DEFINITION. Which terms of `Instr` an encoding of the spec can hold: accepted types, sizes, scopes, register limits
and unit numbers. -/
namespace Sys2Proof

/-- Element width in bits (R195). -/
def VType.width : VType → Nat
  | .f32 | .i32 | .n32 => 32
  | .f16 | .b16 | .i16 | .n16 => 16

/-- The three float types (R250). -/
def VType.isFloat : VType → Bool
  | .f32 | .f16 | .b16 => true
  | _ => false

/-- Signed integer types (R251). -/
def VType.isSigned : VType → Bool
  | .i32 | .i16 => true
  | _ => false

/-- Sizes a store accepts (R278). -/
def MSize.storable : MSize → Bool
  | .n8 | .n16 | .n32 | .n64 => true
  | _ => false

/-- Element sizes a vector load accepts (R279). -/
def MSize.vecLoad : MSize → Bool
  | .n8 | .n16 | .n32 | .i8 | .i16 => true
  | _ => false

/-- Element sizes a vector store accepts (R279). -/
def MSize.vecStore : MSize → Bool
  | .n8 | .n16 | .n32 => true
  | _ => false

/-- Sizes an atomic accepts (R284). -/
def MSize.atomic : MSize → Bool
  | .n32 | .n64 | .i32 | .i64 => true
  | _ => false

/-- Special registers that exist (R234). -/
def specialExists (x : BitVec 6) : Bool := x.toNat ≤ 9 || (16 ≤ x.toNat && x.toNat ≤ 24)

/-- Scope and flags of the eng form (R197): scope 0 without a flag, not 7 with one. -/
def MEng.scopeOk (f : MEng) : Bool := if f.acq || f.rel then f.scope != 7 else f.scope == 0

/-- Types vred and vscan accept for an operation (R267). -/
def redTypeOk (op : RedOp) (ty : VType) : Bool :=
  match ty, op with
  | .i32, _ | .n32, _ => true
  | .f32, .add | .f32, .min | .f32, .max => true
  | _, _ => false

/-- Unit numbers in range: cores, sequencers, queues, contexts and so on (R2, R330, R332). -/
def unitsOk : Instr → Bool
  | .bundleFetch c q | .handlerStart c q => c < 128 && q < 32
  | .loadValueArrives c q _ _ _ _ _ _ => c < 128 && q < 32
  | .verbCallStart c | .coreReset c | .watchdogExpiry c | .wdgStsRead c | .engErrRead c
  | .invalidMicroWord c => c < 128
  | .seqResumeWrite c _ | .pwrCoreWrite c _ => c < 128
  | .engineCommandStart c q _ | .engineCommandComplete c q _ => c < 128 && q < 2
  | .firedTransferEnqueue c n => c < 128 && n < 512
  | .walkComplete c i | .fltCmdResume c i | .fltCmdDeliver c i | .fltCmdKill c i => c < 128 && i < 34
  | .contributionResend c _ => c < 128
  | .undeliverableRecording p => p < 64
  | .hostLineRecall p _ | .hostLineInvalidate p _ => p < 2
  | .burstCrcError s c g e => s < 16 && c < 32 && g < 2 && e.lane < 32
  | .trackingPhaseMove s c g | .repairSwitch s c g | .repairSwitchDone s c g | .retrainDone s c g
  | .retrainTimeout s c g => s < 16 && c < 32 && g < 2
  | .hbmPowerDown s | .hbmStsRead s => s < 16
  | .hbmStsWrite s _ => s < 16
  | .flashPageDurable t h | .fahSealDone t h => t < 4 && h < 64
  | .fahOpen t h _ | .fahSeal t h _ | .fahTrim t h _ => t < 4 && h < 64
  | .ownLogbRead c => c < 8
  | .xltWinvWrite x _ | .ctxCfgEnSet x _ | .ctxCfgEnClear x _ | .ctxCfgStop x _ | .ctxCfgGo x _ => x < 16
  | .xltWinvComplete x => x < 16
  | .homemove q _ | .homemoveComplete q _ | .homemoveFailed q _ | .dispatch q _ | .round q _ | .cond q _
  | .loopNode q _ | .loopPass q _ | .switch q _ | .wait q _ | .waitTimeout q _ | .broadcast q _ | .allGather q _
  | .reduceScatter q _ | .allReduce q _ | .defaultBarrier q _ | .expertBarrier q _ | .collectiveTimeout q _ => q < 64
  | .qCfgEnSet q _ | .qCfgEnClear q _ | .qCfgSkip q _ => q < 64
  | .queueNotify q => q < 64
  | .linkTraining p _ _ | .linkUp p | .linkTrainingTimeout p | .linkRetrainTimeout p
  | .lnkStsRead p => p < 26
  | .flitReplay e => e.port < 26
  | .lnkCfgEn p _ | .lnkCfgRetrain p _ => p < 26
  | .peCfgEnSet e _ | .peCfgEnClear e _ => e < 16
  | .peStsRead e => e < 16
  | .peContribution e _ _ _ => e < 16
  | .peStepApply e b | .peStepTimeout e b => e < 16 && b < 4096
  | .firmwareRecordAppend m _ _ => m < 64
  | .firmwareActivate m => m < 64
  | .podForm i n => n ≤ 64 && i < n
  | _ => true

/-- The checks of R193 step 5 on one slot or micro-word; for the other steps, unit numbers in range. -/
def Instr.wf (i : Instr) : Bool :=
  match i with
  | .mfs _ _ x | .mts _ x _ => specialExists x
  | .vabs _ ty | .vneg _ ty => ty.isFloat || ty.isSigned
  | .vshl _ ty | .vshr _ ty => !ty.isFloat
  | .vsar _ ty => ty.isSigned
  | .vcmpeq _ ty | .vcmplt _ ty | .vcmple _ ty => ty.width == 32
  | .vcvt _ _ _ s d => s.width == d.width && s != d
  | .vperm _ p k => (match p with | .rot | .xor | .shd => true | _ => k == 0)
  | .vred _ op ty => redTypeOk op ty
  | .vscan _ op _ ty => redTypeOk op ty
  | .rng f => f.a.toNat % 2 == 0
  | .crc f _ sz => (match f.form with | .scalar => true | .vector _ => sz != 3)
  | .st f | .stSpm f => f.size.storable
  | .vld f | .vldr f | .vgather f | .vsld f | .vldSpm f | .vgatherSpm f => f.size.vecLoad
  | .vst f | .vstr f | .vscatter f | .vstSpm f | .vscatterSpm f => f.size.vecStore
  | .aadd f | .amin f | .amax f | .aand f | .aor f | .axor f | .aswp f => f.size.atomic && f.scope != 7
  | .acas f => f.size.atomic && f.scope != 7 && f.data.toNat % 2 == 0
  | .acq f s | .inval f s => s != 7 && (!f.all || f.a == 0)
  | .cln f => !f.all || f.a == 0
  | .rel _ s => s != 7
  | .mark _ qm => qm != 0
  | .xferGg f | .xferSg f | .xferGs f | .xferSs f => f.scopeOk && f.a.toNat ≤ 60
  | .xferGa f | .xferSa f => f.scopeOk && f.a.toNat ≤ 62
  | .xferTg f | .xferTs f | .xferGt f | .xferSt f | .tldT f | .tldS f | .tstT f | .tstS f => f.scopeOk
  | .xredAddF32 f | .xredAddoF32 f | .xredAddB16 f | .xredAddI32 f | .xredMinF32 f | .xredMaxF32 f
  | .xredMinI32 f | .xredMaxI32 f => f.scopeOk && f.a.toNat ≤ 61
  | .trig f _ => f.scopeOk && f.a.toNat ≤ 59
  | .tcfgM2 _ _ n => n.toNat % 2 == 0
  | .qcut _ which _ => which != 0
  | .lxBr k c _ => (match c with | .always | .bmrZero => k == 0 | _ => true)
  | .lxCvt _ mu ms _ => mu || ms == 0
  | i => unitsOk i

end Sys2Proof
end

