-- ==== Sys2Proof/Machine/Ops.lean ====
section
/-! DEFINITION. Shared operations of the sequencer: register reads and results in flight (R181, R199, R205, R206), raising and
taking a trap and the return from it (R373-R376), ending a task (R384), the core's semaphores (R179, R238, R239) and the
triggered entries they fire (R299). -/
namespace Sys2Proof.Machine

/-- The outcome of a meaning. -/
abbrev Out := Host.Outcome State Fault Refusal

/-! ## Registers (R199, R205) -/

/-- s register; s0 reads as zero, clean (R199). -/
def rdS (x : Seq) (n : BitVec 6) : SVal := if n = 0 then {} else mget {} x.s n.toNat
/-- Lane l of a v register. -/
def rdV (x : Seq) (n : BitVec 6) (l : Nat) : Lane := mget {} x.v (16 * n.toNat + l)
/-- Predicate; p0 reads as 1 (R199). -/
def rdP (x : Seq) (n : BitVec 4) : Bool := n = 0 || x.p.getLsbD n.toNat
/-- Lane predicate; q0 reads as 0xFFFF (R199). -/
def rdQ (x : Seq) (n : BitVec 4) : BitVec 16 := if n = 0 then 0xFFFF else mget 0 x.q n.toNat

/-- Lanes 0-15 whose bit of the lane predicate is 1 (R212). -/
def active (q : BitVec 16) : List Nat := (List.range 16).filter fun l => q.getLsbD l

/-! ## Writes that land (R181, R199, R206, R213) -/

/-- p8-p15 rotated by one, with the stage bit at p8 (R213). -/
def rotate (p : BitVec 16) (stage : Bool) : BitVec 16 :=
  (p &&& 0x00FF) ||| ((p &&& 0x7F00) <<< 1) ||| (if stage then 0x0100 else 0)

/-- A write of one predicate; a write of p0 is discarded (R199). -/
def setPred (p : BitVec 16) (n : Nat) (b : Bool) : BitVec 16 :=
  if n = 0 then p else (p &&& ~~~(1#16 <<< n)) ||| (if b then 1#16 <<< n else 0)

/-- A write of fcsr: FTZ, RM and FET are written, flags are cleared by ones (R121). -/
def writeFcsr (old : W32) (v : Word) : W32 :=
  let v32 : W32 := v.truncate 32
  (v32 &&& 0x1E00) ||| (old &&& 0x3F &&& ~~~v32)

/-- A landing write of a special register (R233-R236, R239, R376); read-only registers ignore it. -/
def writeSpecial (x : Seq) (n : Nat) (v : Word) : Seq :=
  match n with
  | 0 => { x with lc := v }
  | 1 => { x with ec := v }
  | 6 => { x with fcsr := writeFcsr x.fcsr v }
  | 8 => { x with p := (v.truncate 16 &&& 0xFFFE) ||| 1 }
  | 9 => { x with evp := bit v 0 }
  | 16 => { x with pmode := bit v 1 }
  | 17 => { x with xpc := v, bankU := [], savedXfer := none, savedEnding := none }
  | 18 => { x with xcause := v }
  | 19 => { x with xval := v }
  | 20 => { x with xvec := v }
  | 21 | 22 | 23 | 24 => { x with xsc := mset 0 x.xsc (n - 21) v }
  | _ => x

/-- The value mfs reads (R234, R235, R89); seqid and coreid name the sequencer itself (R174). -/
def readSpecial (x : Seq) (core seq clk n : Nat) : Word :=
  match n with
  | 0 => x.lc
  | 1 => x.ec
  | 2 => BitVec.ofNat 64 seq
  | 3 => BitVec.ofNat 64 core
  | 4 => x.taskid.zeroExtend 64
  | 5 => BitVec.ofNat 64 clk
  | 6 => x.fcsr.zeroExtend 64
  | 7 => BitVec.ofNat 64 (x.dPeer % 64 * 2 ^ 50 + (if x.dCount < 2 ^ 31 then x.dCount else 2 ^ 31 - 1) * 2 + (if x.dUnd then 1 else 0))
  | 8 => (x.p ||| 1).zeroExtend 64
  | 9 => if x.evp then 1 else 0
  | 16 => (if x.pmode then 2 else 0) ||| (if x.mode then 1 else 0)
  | 17 => x.xpc
  | 18 => x.xcause
  | 19 => x.xval
  | 20 => x.xvec
  | 21 | 22 | 23 | 24 => mget 0 x.xsc (n - 21)
  | _ => 0

/-- One write lands; s0, p0 and q0 discard it (R199). -/
def applyW (x : Seq) (w : LandW) : Seq :=
  match w with
  | .s d v p => if d = 0 then x else { x with s := mset {} x.s d ⟨v, p⟩ }
  | .lane d l v p => { x with v := mset {} x.v (16 * d + l) ⟨v, p⟩ }
  | .pred n b => { x with p := setPred x.p n b }
  | .q n v => if n = 0 then x else { x with q := mset 0 x.q n v }
  | .m n v => { x with m := mset 0 x.m n v }
  | .special n v => writeSpecial x n v
  | .flags f => { x with fcsr := x.fcsr ||| f.zeroExtend 32 }
  | .rot b => { x with p := rotate x.p b }

/-- All words of an element have arrived. -/
def LateElem.full (e : LateElem) : Bool := e.words.all Option.isSome
/-- Every value of a late access has arrived, or an error stands for it (R182, R377). -/
def Late.full (l : Late) : Bool := l.elems.all LateElem.full

/-- Bytes per element (R197, R279). -/
def sizeBytes : MSize → Nat
  | .n8 | .i8 => 1
  | .n16 | .i16 => 2
  | .n32 | .i32 => 4
  | .n64 | .i64 => 8

/-- Sign-extending size codes. -/
def sizeSigned : MSize → Bool
  | .i8 | .i16 | .i32 | .i64 => true
  | _ => false

/-- The words of an element joined, lowest first. -/
def joinWords : List (Option Lane) → Nat
  | [] => 0
  | none :: r => 2 ^ 32 * joinWords r
  | some x :: r => x.v.toNat + 2 ^ 32 * joinWords r

/-- `n` low bytes of `raw`, extended to `w` bits as the size code says (R278, R279). -/
def extend (size : MSize) (w raw : Nat) : Nat :=
  let b := 8 * sizeBytes size
  let x := raw % 2 ^ b
  if sizeSigned size then ((sext b x) % (2 ^ w : Nat)).toNat else x

/-- The register write of one element (R277, R278, R279). -/
def LateElem.write (e : LateElem) (dst : LateDst) : LandW :=
  let p := e.err ≠ .none || e.words.any fun x => match x with | some y => y.p | none => true
  let raw := if e.err ≠ .none then 0 else joinWords e.words / 2 ^ (8 * e.off)
  match dst with
  | .s d size => .s d (BitVec.ofNat 64 (extend size 64 raw)) p
  | .v d size => .lane d e.lane (BitVec.ofNat 32 (extend size 32 raw)) p

/-- A cause in the memory layout (R372). -/
def memVal (detail va : Nat) : Word := BitVec.ofNat 64 (detail % 16 * 2 ^ 60 + va % 2 ^ 56)

/-- A result in flight can land: its value has arrived. -/
def InFlight.ready (x : Seq) (f : InFlight) : Bool :=
  match f.late with
  | none => true
  | some t => (x.lates.filter fun l => l.tag = t).all Late.full

/-- Every result due now has its value (R182). -/
def dueReady (x : Seq) : Bool := x.infl.all fun f => f.rem ≠ 0 || f.ready x

/-- The element that reports the errors of a late access: the lowest lane of a gather, else the lowest address (R28, R372). -/
def Late.first (l : Late) : Option LateElem :=
  (l.elems.filter fun e => e.err ≠ .none).foldl (fun o e => match o with
    | none => some e
    | some f => if (if l.lanes then e.lane < f.lane else e.va < f.va) then some e else some f) none

/-- One result lands; a late error makes a boundary fault unless the access was speculative (R377, R283). -/
def landOne (x : Seq) (f : InFlight) : Seq :=
  let x := f.writes.foldl applyW x
  match f.late with
  | none => x
  | some t =>
    match x.lates.find? fun l => l.tag = t with
    | none => x
    | some l =>
      let x := (l.elems.map fun e => e.write l.dst).foldl applyW x
      let x := { x with lates := x.lates.filter fun m => m.tag ≠ t }
      if l.spec then x else
      match l.first with
      | none => x
      | some e => { x with boundary := x.boundary ++ [⟨if e.err = .ownerLost then 9 else 18, memVal l.slot e.va⟩] }

/-- Results due at this bundle time land in issue order, slot order within a bundle (R206). -/
def landDue (x : Seq) : Seq :=
  let due := x.infl.filter fun f => f.rem = 0
  due.foldl landOne { x with infl := x.infl.filter fun f => f.rem ≠ 0 }

/-- One bundle time passes (R181). -/
def tick (x : Seq) : Seq := { x with infl := x.infl.map fun f => { f with rem := f.rem - 1 } }

/-- Results of the slot under way, to land after `lat` bundle times (R181, R204). -/
def result (s : State) (lat : Nat) (ws : List LandW) : State :=
  modMe s fun x => { x with infl := x.infl ++ [⟨lat, s.cur.slot, ws, none⟩] }

/-! ## Raising (R193, R371, R372) -/

/-- The slot under way raises something; of several slots the lowest stands. -/
def raise (s : State) (r : Raise) : State :=
  match s.raised with
  | none => { s with raised := some (s.cur.slot, r) }
  | some (n, _) => if s.cur.slot < n then { s with raised := some (s.cur.slot, r) } else s

/-- A precise fault of the slot under way (R371). -/
def fault (s : State) (cause : Nat) (xval : Word) : State := raise s (.trap ⟨cause, xval⟩)

/-- xval in the slot layout (R372). -/
def slotVal (s : State) : Word := BitVec.ofNat 64 s.cur.slot
/-- xval in the poison layout (R372). -/
def poisonVal (s : State) (lanes : Nat) : Word := BitVec.ofNat 64 (s.cur.slot + 2 ^ 16 * (lanes % 2 ^ 16))

/-- Poison consumed by a scalar source (R222). -/
def poisonFault (s : State) : State := fault s 8 (poisonVal s 1)

/-! ## Ending a task (R384) -/

/-- Steps 1, 2 and 4 of R384 on one core. -/
def endCore (c : Core) : Core :=
  { c with
    seqs := c.seqs.map fun (i, x) => (i, { x with
      st := if x.st = .absent then .absent else .stopped, infl := [], lates := [], bankU := [], waits := [], ending := none, savedEnding := none,
      boundary := [], stalled := false, xfer := none, marks := [] })
    mq := [], tq := [], cmds := [], trig := [], fireQ := [], mx := { c.mx with call := none } }

/-- Every fault that pends on a core is withdrawn (R378, R380, R384). -/
def unpend (s : State) (k : Nat) : State :=
  let pend := rdReg s (.fltPend k)
  let s := (List.range 34).foldl (fun s i =>
    if bit pend i then wrReg s (.fltRecB k i) (setBits (rdReg s (.fltRecB k i)) 63 1 0) else s) s
  wrReg s (.fltPend k) 0

/-- The task of index `t` ends with CODE and DETAIL (R187, R384): its sequencers and commands stop at once, and a contribution of theirs that found
no room is not sent again; the report and the completion signal follow at its retirement. -/
def endTask (s : State) (t code detail : Nat) : State :=
  match mlook s.tasks t with
  | none => s
  | some k =>
    if k.ended.isSome then s else
    let mine := k.cores.filter fun c => (core s c).task = some t
    let s := mine.foldl (fun s c => modCore s c endCore) s
    let s := { s with resend := s.resend.filter fun x => match x.2.src with
      | .cmd c _ _ => !mine.contains c
      | _ => true }
    let s := { s with tasks := mput s.tasks t { k with ended := some (code, detail) },
                      walks := s.walks.filter fun w => !mine.contains w.core }
    mine.foldl unpend s

/-- The task of a core ends (R384); a core without a task stops its sequencers. -/
def endCoreTask (s : State) (k code detail : Nat) : State :=
  match (core s k).task with
  | some t => endTask s t code detail
  | none => modCore s k endCore

/-! ## Traps (R373, R375, R376) -/

/-- Entry to the handler (R375): results in flight into BankU, the pending transfer into SavedXfer, xpc, xcause, xval,
PMODE and MODE written, PC at xvec. -/
def enterHandler (x : Seq) (pc : Word) (t : Trap) : Seq :=
  { x with bankU := x.infl, infl := [], savedXfer := x.xfer, xfer := none, savedEnding := x.ending, ending := none, xpc := pc,
           xcause := BitVec.ofNat 64 t.cause, xval := t.xval, pmode := x.mode, mode := true, pc := x.xvec }

/-- Entry by trap or sys after the drain (R241): nothing in flight, no transfer. -/
def enterDrained (x : Seq) (next : Word) (t : Trap) : Seq :=
  { x with ending := none, bankU := [], savedXfer := none, savedEnding := none, xpc := next, xcause := BitVec.ofNat 64 t.cause, xval := t.xval,
           pmode := x.mode, mode := true, pc := x.xvec }

/-- Return from the handler (R242, R376): PC and MODE restored, PMODE cleared, BankU and SavedXfer resume. -/
def returnFrom (x : Seq) : Seq :=
  { x with pc := x.xpc, mode := x.pmode, pmode := false, infl := x.bankU ++ x.infl, bankU := [],
           xfer := x.savedXfer, savedXfer := none, ending := x.savedEnding, savedEnding := none }

/-- The context of a core has a trap handler, as CTX_XVEC stood at set-up or at the last resumption (R374). -/
def hasHandler (s : State) (k : Nat) : Bool := bit (core s k).xvIn 63

/-- A fault is taken: a record of the error log, with its cause and xval (R414). -/
def logFault (s : State) (unit : Nat) (t : Trap) : State := { s with errLog := s.errLog ++ [⟨4, unit, s.clk, [BitVec.ofNat 64 t.cause, t.xval]⟩] }

/-- A fault of a sequencer takes its route (R373 steps 3 and 4). -/
def takeTrap (s : State) (k q : Nat) (pc : Word) (t : Trap) : State :=
  let s := logFault s (64 * k + q) t
  if (seqOf s k q).mode || !hasHandler s k then endCoreTask s k 2 t.cause
  else modSeq s k q fun x => enterHandler x pc t

/-- The task of a core runs, so its engines do (R185); a core outside any task runs too. -/
def engineRuns (s : State) (k : Nat) : Bool :=
  match (core s k).task with
  | none => true
  | some t => match mlook s.tasks t with
    | none => true
    | some x => x.st = .running

/-! ## Semaphores and triggered entries (R179, R238, R239, R299) -/

/-- Value of a semaphore. -/
def semVal (c : Core) (i : Nat) : Nat := mget 0 c.sems i

/-- Sets the wfe pending bit of every sequencer of the core (R239). -/
def wakeAll (c : Core) : Core := { c with seqs := c.seqs.map fun (i, x) => (i, { x with evp := true }) }

/-- Entries on semaphore `i` that hold now fire, in ascending slot order (R299). -/
def fireOn (c : Core) (i : Nat) : Core :=
  let hit := (c.trig.filter fun (_, t) => !t.fired && t.sem = i && t.thr ≤ semVal c i).map (·.1)
  if hit.isEmpty then c else
  wakeAll { c with
    trig := c.trig.map fun (k, t) => (k, if hit.contains k then { t with fired := true } else t)
    fireQ := c.fireQ ++ hit }

/-- The waits of a sequencer on semaphore `i` that a value meets end (R238). -/
def metSem (i v : Nat) (x : Seq) : Seq :=
  { x with waits := x.waits.filter fun w => match w with
    | .sem j t => !(j = i && t.toNat ≤ v)
    | _ => true }

/-- The commands of a queue that pass step 1 of R84 now: in queue order, each once the one ahead of it has and its wait semaphore has reached
its threshold (R180, R303); a trig passes it only when it arms (R298). -/
def passing (c : Core) : List QEnt → List Nat
  | [] => []
  | .marker _ _ :: r => passing c r
  | .cmd i :: r =>
    match mlook c.cmds i with
    | none => passing c r
    | some m =>
      if m.passed then passing c r
      else if m.opc ≠ 0x23 && (m.fired || m.w.wthr.toNat ≤ semVal c m.w.wsem.toNat) then i :: passing c r
      else []

/-- Commands of both queues pass step 1. -/
def passStep1 (c : Core) : Core :=
  match passing c c.mq ++ passing c c.tq with
  | [] => c
  | l => { c with cmds := c.cmds.map fun (i, m) => (i, if l.contains i then { m with passed := true } else m) }

/-- A semaphore takes a value at its place in the order (R238): waits that end, commands that pass step 1, pending bits, then firing
entries. -/
def semPut (c : Core) (i v : Nat) : Core :=
  fireOn (wakeAll (passStep1 { c with sems := mset 0 c.sems i v, seqs := c.seqs.map fun (j, x) => (j, metSem i v x) })) i

/-- Commands a queue holds: 64 in the matrix queue, 128 in the transfer queue (R288). -/
def queueCap (q : Nat) : Nat := if q = 0 then 64 else 128
/-- The entries of an engine queue. -/
def Core.queue (c : Core) (q : Nat) : List QEnt := if q = 0 then c.mq else c.tq
/-- Replaces an engine queue. -/
def Core.setQueue (c : Core) (q : Nat) (l : List QEnt) : Core := if q = 0 then { c with mq := l } else { c with tq := l }
/-- Places taken in a queue: markers take none (R286). -/
def Core.places (c : Core) (q : Nat) : Nat :=
  ((c.queue q).filter fun e => match e with | .cmd _ => true | .marker _ _ => false).length

/-- A command enters its queue under a fresh number (R180). -/
def enqueue (c : Core) (m : Cmd) : Core :=
  let m := { m with id := c.nextId }
  passStep1 { (c.setQueue m.q (c.queue m.q ++ [.cmd m.id])) with cmds := mput c.cmds m.id m, nextId := c.nextId + 1 }

/-- The first fired transfer enters the transfer queue if a place is free, and its slot is free again (R299). -/
def enqueueFired (c : Core) : Core :=
  match c.fireQ with
  | [] => c
  | n :: r =>
    if queueCap 1 ≤ c.places 1 then c else
    match mlook c.trig n with
    | none => { c with fireQ := r }
    | some t => enqueue { c with fireQ := r, trig := mdel c.trig n } { t.cmd with fired := true, st := .waiting }

/-- All fired transfers that find room enter the queue, in firing order. -/
def enqueueAllFired (c : Core) : Core := c.fireQ.foldl (fun c _ => enqueueFired c) c

/-- The core made a sink (R188). -/
def sink (s : State) (k : Nat) : State := modCore s k fun c => { c with sink := s.clk }

/-- An agent other than a sequencer has acted on a core's semaphores or queues: no sequencer of the core comes after it in this clk
(R180, R238). -/
def afterSeqs (s : State) (k : Nat) : State := { s with clkSeq := mput s.clkSeq k 64 }

/-- An increment by an agent other than the core's own semsig or qcut (R179): an increment of 0 changes nothing; past 0xFFFF
the value stays there and the task of the core ends with cause 14. Transfers that it fires enter their queue at once (R180). -/
def semIncr (s : State) (k i n : Nat) : State :=
  if n = 0 then s else
  let s := afterSeqs s k
  let v := semVal (core s k) i + n
  if v ≤ 0xFFFF then modCore s k fun c => enqueueAllFired (semPut c i v)
  else endCoreTask (logFault (modCore s k fun c => semPut c i 0xFFFF) (64 * k) ⟨14, BitVec.ofNat 64 i⟩) k 2 14

end Sys2Proof.Machine
end

