-- ==== Sys2Proof/Machine/Places.lean ====
section
/-! DEFINITION. Homes, chains and the places that hold word states (R16, R17, R39-R44), following an Owner chain to the word's
value (R43, R50), and the state of the memory behind a home (R95, R97, R98). -/
namespace Sys2Proof.Machine

/-! ## Homes (R16, R17) -/

/-- PA space (R16). -/
def spaceOf (pa : Nat) : Nat := pa / 2 ^ 48
/-- HBM stack of a device PA (R16). -/
def stackOf (pa : Nat) : Nat := pa / 2 ^ 36 % 16
/-- Offset in the stack. -/
def stackOff (pa : Nat) : Nat := pa % 2 ^ 36
/-- A PA in device HBM (R16). -/
def isHbm (pa : Nat) : Bool := pa / 2 ^ 40 = 0 && stackOff pa < 0xC00000000
/-- A PA in host memory (R16). -/
def isHostPa (pa : Nat) : Bool := 4 ≤ spaceOf pa && spaceOf pa < 8
/-- A PA in a peer window, and the peer's pod index (R16). -/
def isPeerPa (pa : Nat) : Bool := spaceOf pa = 8
def peerPod (pa : Nat) : Nat := pa / 2 ^ 40 % 64
/-- A PA in a flash tier (R16). -/
def isFlashPa (pa : Nat) : Bool := spaceOf pa = 1
/-- Home chiplet of a device line (R17). -/
def homeChip (pa : Nat) : Nat := stackOf pa / 2

/-! ## Places (R39, R41, R43): KIND × 512 + INDEX, home L2 of chiplet c as 0x1000 + c -/

def plLanding (i : Nat) : Nat := 0x200 + i
def plRdc (c : Nat) : Nat := 0x400 + c
def plRr (r : Nat) : Nat := 0x600 + r
def plGw (p : Nat) : Nat := 0x800 + p
def plHome (c : Nat) : Nat := 0x1000 + c

/-- The levels above core k's L1 for a word, from the landing up to the home; a host gateway stands for the host (R41). -/
def chain (k w : Nat) : List Nat :=
  let pa := 4 * w
  if isHostPa pa then [plLanding (layerOf k), plRdc (chipOf k), plGw (retOf k)]
  else
    let h := homeChip pa
    let c := chipOf k
    [plLanding (layerOf k)] ++ (if h = c then [] else [plRdc c]) ++
      (if h / 4 = c / 4 then [] else [plRr (c / 4)]) ++ [plHome h]

/-- The level above place p in core k's chain. -/
def nextUp (k w p : Nat) : Option Nat := ((chain k w).dropWhile fun q => q ≠ p)[1]?

/-- The meeting point of a scope for a word, from core k (R42, R72). -/
def meetOf (k w scope : Nat) : Nat :=
  let pa := 4 * w
  let h := if isHostPa pa then 3 else if homeChip pa = chipOf k then 0 else if homeChip pa / 4 = retOf k then 1 else 2
  let home := if isHostPa pa then plGw (retOf k) else plHome (homeChip pa)
  match scope with
  | 0 | 1 => k
  | 2 => plLanding (layerOf k)
  | 3 => if h = 0 then home else plRdc (chipOf k)
  | 4 => if h = 2 then plRr (retOf k) else home
  | _ => home

/-- Key of a word's state at a place. -/
def lkey (p w : Nat) : Nat := p * 2 ^ 50 + w
/-- State of a word at a place above L1 (R44); none is Absent. -/
def lvlAt (s : State) (p w : Nat) : Option Lvl := mlook s.lvl (lkey p w)
/-- Writes a word's state at a place; good data replaces what a check had found bad (R107). -/
def setLvl (s : State) (p w : Nat) (x : Lvl) : State :=
  { s with lvl := mput s.lvl (lkey p w) x, bad := mset false s.bad (lkey p w) false }
/-- A word becomes Absent at a place. -/
def delLvl (s : State) (p w : Nat) : State :=
  { s with lvl := mdel s.lvl (lkey p w), bad := mset false s.bad (lkey p w) false }
/-- The value of a word that stands at a place (0x2000: in the home's memory) has an uncorrectable error (R107). -/
def badAt (s : State) (p w : Nat) : Bool := mget false s.bad (if p = 0x2000 then w else lkey p w)

/-- A place holds the word locked (R51). -/
def locked (s : State) (p w : Nat) : Bool := s.locks.contains (p, w)
/-- Adds locks; removes one lock each. -/
def lockAll (s : State) (ps : List Nat) (w : Nat) : State := { s with locks := ps.map (fun p => (p, w)) ++ s.locks }
def unlockAll (s : State) (ps : List Nat) (w : Nat) : State :=
  { s with locks := ps.foldl (fun l p => l.erase (p, w)) s.locks }

/-- L1 word of a core (R45); none is I. -/
def l1At (s : State) (k w : Nat) : Option L1Word := mlook (core s k).l1 w
def setL1 (s : State) (k w : Nat) (x : L1Word) : State := modCore s k fun c => { c with l1 := mput c.l1 w x }
def delL1 (s : State) (k w : Nat) : State := modCore s k fun c => { c with l1 := mdel c.l1 w }

/-! ## Lines and their REGIONs (R53) -/

/-- A request under a REGION reaches a line of a core's L1: it installs a copy there, hits it or registers a word. -/
def reachL1 (s : State) (k w region : Nat) : State :=
  modCore s k fun c => { c with l1reg := mput c.l1reg (w / 32) (mget 0 c.l1reg (w / 32) ||| (1#64 <<< region)) }
/-- The same at a landing or RDC. -/
def reachLvl (s : State) (p w region : Nat) : State :=
  if p < 0x200 || 0x600 ≤ p then s else
  { s with reg := mput s.reg (lkey p (w / 32)) (mget 0 s.reg (lkey p (w / 32)) ||| (1#64 <<< region)) }

/-- Lines that have left an L1 are no longer listed, nor their REGIONs. -/
def Core.prune (c : Core) : Core := { c with l1reg := c.l1reg.filter fun (l, _) => c.l1.any fun (w, _) => w / 32 = l }
/-- The same for the landings and RDCs. -/
def pruneLvl (s : State) : State :=
  { s with reg := s.reg.filter fun (key, _) => s.lvl.any fun (x, _) => x / 2 ^ 50 = key / 2 ^ 50 && x % 2 ^ 50 / 32 = key % 2 ^ 50 }

/-! ## Following an Owner chain (R43, R50) -/

/-- State of a link port (R347, R348). -/
def portState (s : State) (p : Nat) : Nat := bits (rdReg s (.lnkSts p)) 61 3
/-- The host port of a reticle is Up (R370). -/
def hostUp (s : State) (port : Nat) : Bool := portState s (24 + port) = 2

/-- Where the current value of a word below a place is. -/
inductive Found where
  /-- at this place (a core number, or a place that holds the word), reached through these places -/
  | val (x : Lane) (holder : Nat) (path : List Nat)
  /-- on its way: a registration with fetch is under way, the path is locked, or its link is retraining -/
  | busy
  /-- the owner named last does not hold it, or is dead or unreachable: places of the path, that owner's identifier, CAUSE of R62 -/
  | lost (path : List Nat) (id cause : Nat)
  deriving DecidableEq, Repr

/-- Chiplet on which a place below the home stands; 8 for those that stand on none or on a bridge. -/
def placeChip (p : Nat) : Nat := if p < 0x200 then chipOf p else if p < 0x400 then (p - 0x200) / 2 else if p < 0x600 then p - 0x400 else 8

/-- At a device home, the host reached through a port (R43, R63). -/
def viaPort (p w : Nat) : Bool := 0x800 ≤ p && p < 0xA00 && !isHostPa (4 * w)

/-- A request for a word has gone to an owner and had no answer within OWN_TMO (R58, R61). -/
def ownerDue (s : State) (w : Nat) : Bool :=
  match mlook s.ownReq w with
  | none => false
  | some t => bits (rdReg s .ownTmo) 0 16 * 1024 ≤ s.clk - t

/-- An access waits for the owner of a word: the time of OWN_TMO begins, where a chiplet is dead or a host port does not answer (R58). -/
def askOwner (s : State) (w : Nat) : State :=
  if (mlook s.ownReq w).isSome || (s.deadChips.isEmpty && hostUp s 0 && hostUp s 1) then s
  else { s with ownReq := mput s.ownReq w s.clk }

/-- Follows Owner entries from a place down (at most five levels). A dead chiplet or a link that retrains does not answer until OWN_TMO has
passed (R58); a link that is down answers at once. -/
def follow (s : State) (w : Nat) : Nat → Nat → List Nat → Found
  | 0, p, path => .lost path p 0
  | n + 1, p, path =>
    if s.deadChips.contains (placeChip p) then (if ownerDue s w then .lost path p 4 else .busy)
    else if p < 0x200 then
      match l1At s p w with
      | some ⟨.o, v, pz⟩ => .val ⟨v, pz⟩ p path
      | some ⟨.pend _ _, _, _⟩ => .busy
      | _ => .lost path p 0
    else if locked s p w then .busy
    else if viaPort p w && !hostUp s (p - 0x800) then
      if portState s (24 + (p - 0x800)) ≠ 3 then .lost path p 3 else if ownerDue s w then .lost path p 2 else .busy
    else match lvlAt s p w with
      | some (.owner q) => follow s w n q (path ++ [p])
      | some (.held v pz) => .val ⟨v, pz⟩ p (path ++ [p])
      | _ => .lost (path ++ [p]) p 0

/-- The top place of a word: its home L2, or the gateway that owns its host line (R41, R64). -/
def topOf (s : State) (w : Nat) : Option Nat :=
  let pa := 4 * w
  if isHostPa pa then
    if mlook s.gw (lkey 0 (w / 32)) = some .owned then some (plGw 0)
    else if mlook s.gw (lkey 1 (w / 32)) = some .owned then some (plGw 1)
    else none
  else some (plHome (homeChip pa))

/-- The word's current value, as an agent at its home reads it (R50, R52, R57). -/
def homeFind (s : State) (w : Nat) : Found :=
  match topOf s w with
  | none => .val (memWord s w) 0x2000 []
  | some p =>
    match lvlAt s p w with
    | some (.owner _) => follow s w 6 p []
    | some (.held v pz) => .val ⟨v, pz⟩ p [p]
    | _ => .val (memWord s w) 0x2000 []

/-- Removes a word from the places of a path and from the L1 that holds it: displacement without data (R46). -/
def clearPath (s : State) (w holder : Nat) (path : List Nat) : State :=
  let s := path.foldl (fun s p => delLvl s p w) { s with ownReq := mdel s.ownReq w }
  if holder < 0x200 then delL1 s holder w else s

/-! ## Queue notify words (R333) -/

/-- Queues whose notify word a message for word `w` reaches: they are notified by a message of their own. -/
def notify (s : State) (w : Nat) : State :=
  let qs := (List.range 64).filter fun q =>
    bit (rdReg s (.qCfg q)) 63 && (bits (rdReg s (.qNtf q)) 0 52 / 8 = w / 2)
  { s with net := s.net ++ qs.map .queueNotify }

/-- A message into the module's own network. -/
def send (s : State) (i : Instr) : State := { s with net := s.net ++ [i] }
/-- A message to another module. -/
def sendOut (s : State) (pod : Nat) (i : Instr) : State := { s with outbox := s.outbox ++ [(pod, i)] }

/-! ## The memory behind a home (R95, R97, R98) -/

/-- How HBM answers an access. -/
inductive HbmRes where
  | served | held | failed
  deriving DecidableEq, Repr

/-- Channel of a stack offset (R95). -/
def channelOf (off : Nat) : Nat := Nat.xor (off / 2 ^ 7 % 32) (off / 2 ^ 16 % 32)

/-- The answer of HBM to an access at a device PA (R97, R98). -/
def hbmRes (s : State) (pa : Nat) : HbmRes :=
  if !isHbm pa then .served else
  let st := stackOf pa
  let ch := channelOf (stackOff pa)
  let ps := bits (rdReg s (.hbmSts st)) 0 3
  if ps = 4 || s.chFail.contains (32 * st + ch) then .failed
  else if ps = 3 then .held
  else
    let waits (g : Nat) : Bool :=
      match (mget {} s.grps (64 * st + 2 * ch + g)).st with
      | .pending | .switch | .retrain => true
      | _ => false
    if waits 0 || waits 1 then .held else .served

/-- An access reaches a stack: Power-down and self-refresh end (R98). -/
def touchStack (s : State) (pa : Nat) : State :=
  if !isHbm pa then s else
  let st := stackOf pa
  let v := rdReg s (.hbmSts st)
  let ch := channelOf (stackOff pa)
  let burst (m : FMap LaneGrp) (g : Nat) : FMap LaneGrp :=
    let key := 64 * st + 2 * ch + g
    let x := mget {} m key
    mput m key { x with bursts := x.bursts + 1 }
  let s := { s with stackUse := mput s.stackUse st s.clk, grps := burst (burst s.grps 0) 1 }
  if bits v 0 3 = 1 || bits v 0 3 = 2 then wrReg s (.hbmSts st) (setBits v 0 3 0) else s

/-- A line stands in its home L2 (R44 Copy, R100). -/
def inL2 (s : State) (pa : Nat) : Bool := (mlook s.l2 (pa / 128)).isSome
/-- The answer to a read at the home: the L2 serves a line it has, HBM any other (R44, R97, R98). -/
def hbmRead (s : State) (pa : Nat) : HbmRes := if inL2 s pa then .served else hbmRes s pa
/-- Reads at the home touch the stacks of the lines that the L2 does not have, once a line (R98). -/
def touchReads (s : State) (ws : List Nat) : State :=
  (ws.map (· / 32)).eraseDups.foldl (fun s l => if inL2 s (128 * l) then s else touchStack s (128 * l)) s

/-- Uses of home lines are counted for the L2, each line once until they are settled there (R100, R105). -/
def l2Use (s : State) (pa : Nat) (who : Option (Nat × Nat)) (write : Bool) : State :=
  if !isHbm pa then s else
  match who with
  | some (t, b) => { s with l2q := s.l2q ++ [⟨pa / 128, t + 1, b, write⟩] }
  | none => if s.l2q.any fun u => u.line = pa / 128 && u.write = write then s else { s with l2q := s.l2q ++ [⟨pa / 128, 0, 0, write⟩] }

/-! ## The coding group's data area (R135, R138) -/

/-- PG_CFG.EN. -/
def pgOn (s : State) : Bool := bit (rdReg s .pgCfg) 31
/-- STATE of PG_STS (R143). -/
def pgState (s : State) : Nat := bits (rdReg s .pgSts) 60 4
/-- BASE and LEN of an area register, in bytes of stack offset (R141). -/
def areaOf (s : State) (r : Reg) : Nat × Nat :=
  let v := rdReg s r
  (bits v 0 20 * 65536, bits v 20 20 * 65536)
/-- The module is a member of a group, or a spare that receives the data of one, or has been turned away while it did so: in Exchange,
Isolated and Lost a module with EN = 0 was a spare (R135, R155, R160, R164). -/
def pgMember (s : State) : Bool := pgOn s || [5, 8, 9, 11].contains (pgState s)
/-- A device PA lies in the data area of an enabled group (R135). -/
def protectedPa (s : State) (pa : Nat) : Bool :=
  let (b, n) := areaOf s .pgAreaD
  pgMember s && isHbm pa && b ≤ stackOff pa && stackOff pa < b + n
/-- Isolated or Lost: an access that reaches the home of a protected line performs nothing (R417). -/
def dropsPa (s : State) (pa : Nat) : Bool := protectedPa s pa && (pgState s = 8 || pgState s = 9)

/-- The page of a PA is being moved, and a write to it waits (R65 step 1). -/
def movingPa (s : State) (pa : Nat) : Bool := s.moves.any fun m => m.oldPa ≤ pa && pa < m.oldPa + m.size

/-- The host owns a word of the line at its device home: the line is recalled before a device writes to it (R63). -/
def hostHolds (s : State) (w : Nat) : Bool :=
  !isHostPa (4 * w) && (List.range 32).any fun i => match lvlAt s (plHome (homeChip (4 * w))) (w / 32 * 32 + i) with
    | some (.owner q) => 0x800 ≤ q
    | _ => false

/-- A write of a word can be performed at its home at once. -/
def pokeReady (s : State) (w : Nat) : Bool :=
  !hostHolds s w && !protectedPa s (4 * w) && !movingPa s (4 * w) && hbmRes s (4 * w) = .served && match homeFind s w with
    | .val _ _ _ => true
    | _ => false

/-- A write that displaces any owner and stands in memory at once; where it cannot, a home-write message performs it. -/
def homePoke (s : State) (w : Nat) (v : W32) (src : WSrc) : State :=
  match homeFind s w with
  | .val _ h p =>
    if pokeReady s w then notify (setMemWord (clearPath (touchStack s (4 * w)) w h p) w ⟨v, false⟩) w
    else send s (.homeWrite ⟨w, 15, v, false, .write, src⟩)
  | _ => send s (.homeWrite ⟨w, 15, v, false, .write, src⟩)

end Sys2Proof.Machine
end

