-- ==== Sys2Proof/Machine/Events.lean ====
section
/-! DEFINITION. The event ring (R344), the error log (R414), the replacement request (R411) and the group's events (R146). -/
namespace Sys2Proof.Machine

/-- A record in the error log (R414): kind, unit, the clk, the words that tell the error. -/
def logErr (s : State) (kind unit : Nat) (info : List Word) : State := { s with errLog := s.errLog ++ [⟨kind, unit, s.clk, info⟩] }

/-- The event ring is in host memory behind a port that is not Up (R344). -/
def evqDead (s : State) (pa : Nat) : Bool := isHostPa pa && !hostUp s 0

/-- A record is dropped; a failed write of one disables the ring (R344). -/
def evLose (s : State) (failed : Bool) : State :=
  let lost := bumpField (rdReg s .evqCfg) 16 16 1
  wrReg s .evqCfg (if failed then setBits (setBits lost 63 1 0) 62 1 1 else lost)

/-- A record is written: WR moves (R344). -/
def evCount (s : State) : State := wrReg s .evqWr (BitVec.ofNat 64 ((bits (rdReg s .evqWr) 0 32 + 1) % 2 ^ 32))

/-- The words of a record. -/
def evWords (src unit : Nat) (data : Word) : List W32 :=
  [BitVec.ofNat 32 (src % 2 ^ 16 + 2 ^ 16 * (unit % 2 ^ 16)), 0, data.truncate 32, (data >>> 32).truncate 32]

/-- A record is dropped, or its words are written at WR; WR moves once they stand there (R344). -/
def evStart (s : State) (src unit : Nat) (data : Word) : State :=
  let cfg := rdReg s .evqCfg
  let wr := bits (rdReg s .evqWr) 0 32
  let rd := bits (rdReg s .evqRd) 0 32
  let sz := bits cfg 0 4
  let pa := bits (rdReg s .evqBase) 0 52 + 16 * (wr % 2 ^ sz)
  if !bit cfg 63 || (wr + 2 ^ 32 - rd) % 2 ^ 32 = 2 ^ sz then evLose s false
  else if evqDead s pa then evLose s true
  else
    let ws := (evWords src unit data).mapIdx fun i v => (pa / 4 + i, v)
    if ws.all fun x => pokeReady s x.1 then evCount (ws.foldl (fun s x => homePoke s x.1 x.2 .evq) s)
    else ws.foldl (fun s x => send s (.homeWrite ⟨x.1, 15, x.2, false, .write, .evq⟩)) { s with evLeft := 4, evBad := false }

/-- Records that wait follow one another until one has to wait again. -/
def evNext (s : State) : State :=
  s.evWait.foldl (fun s r => if s.evLeft ≠ 0 then { s with evWait := s.evWait ++ [r] } else evStart s r.1 r.2.1 r.2.2) { s with evWait := [] }

/-- An event record (R344), behind those under way. -/
def evPost (s : State) (src unit : Nat) (data : Word) : State :=
  let s := logErr s (100 + src) unit [data]
  if s.evLeft = 0 then evStart s src unit data else { s with evWait := s.evWait ++ [(src, unit, data)] }

/-- A word of the record under way has been written, or could not be. -/
def evWritten (s : State) (failed : Bool) : State :=
  let s := { s with evLeft := s.evLeft - 1, evBad := s.evBad || failed }
  if s.evLeft ≠ 0 then s else evNext (if s.evBad then evLose s true else evCount s)

/-- A new reason for replacement (R411): REASON bit and REQ, with an event record of SRC 9. -/
def replReason (s : State) (b : Nat) : State :=
  let v := rdReg s .replSts
  let s := logErr s 200 b []
  if bit v b then wrReg s .replSts (setBits v 63 1 1) else
  let v := setBits (setBits v b 1 1) 63 1 1
  evPost (wrReg s .replSts v) 9 0 v

/-- An event of the group (R146): its bit in PG_EVT and an event record of SRC 4. -/
def pgEvent (s : State) (b : Nat) : State :=
  let v := setBits (rdReg s .pgEvt) b 1 1
  evPost (wrReg s .pgEvt v) 4 0 v

/-- STATE of PG_STS (R143). -/
def setPgState (s : State) (n : Nat) : State :=
  let s := wrReg s .pgSts (setBits (rdReg s .pgSts) 60 4 n)
  { s with group := { s.group with since := s.clk } }
/-- REASON of PG_STS (R143). -/
def setPgReason (s : State) (n : Nat) : State := wrReg s .pgSts (setBits (rdReg s .pgSts) 56 4 n)

end Sys2Proof.Machine
end

