-- ==== Sys2Proof/Machine/Operands.lean ====
section
/-! DEFINITION. Operand forms: guards (R211), lane predicates (R212), immediates, bit fields, global and scratchpad
addresses (R276), and the result forms of the scalar slots (R222-R228). -/
namespace Sys2Proof.Machine

/-- A slot under a scalar guard: a false guard performs nothing (R211). -/
def guarded (g : BitVec 4) (s : State) (k : State → State) : Out := .next (if rdP (me s) g then k s else s)

/-- A value computed from two s registers, poisoned when either is (R222). -/
def bin (f : SReg) (lat : Nat) (op : Word → Word → Word) (s : State) : Out :=
  guarded f.g s fun s =>
    let a := rdS (me s) f.a
    let b := rdS (me s) f.b
    result s lat [.s f.d.toNat (op a.v b.v) (a.p || b.p)]

/-- A value computed from one s register (R223). -/
def un (f : SUn) (op : Word → Word) (s : State) : Out :=
  guarded f.g s fun s =>
    let a := rdS (me s) f.a
    result s 1 [.s f.d.toNat (op a.v) a.p]

/-- A value computed from an s register and a constant (R225). -/
def imm (g : BitVec 4) (d a : BitVec 6) (op : Word → Word) (s : State) : Out :=
  guarded g s fun s =>
    let x := rdS (me s) a
    result s 1 [.s d.toNat (op x.v) x.p]

/-- A compare: the condition to pt after its negation to pf, so that pt stands when they are one (R206, R227). -/
def compare (g pt pf : BitVec 4) (poisoned c : Bool) (s : State) : Out :=
  guarded g s fun s =>
    if poisoned then poisonFault s else result s 1 [.pred pf.toNat (!c), .pred pt.toNat c]

/-- A compare of two registers (R227). -/
def cmpRR (f : SCmp) (c : Word → Word → Bool) (s : State) : Out :=
  let a := rdS (me s) f.a
  let b := rdS (me s) f.b
  compare f.g f.pt f.pf (a.p || b.p) (c a.v b.v) s

/-- A compare with an immediate (R227). -/
def cmpRI (f : SCmpi) (c : Word → Word → Bool) (s : State) : Out :=
  let a := rdS (me s) f.a
  compare f.g f.pt f.pf a.p (c a.v (f.imm.signExtend 64)) s

/-- Predicate logic (R228). -/
def predOp (f : SPred) (op : Bool → Bool → Bool) (s : State) : Out :=
  guarded f.g s fun s => result s 1 [.pred f.d.toNat (op (rdP (me s) f.a) (rdP (me s) f.b))]

/-- Set bits of a bit vector. -/
def popCount {w : Nat} (v : BitVec w) : Nat := ((List.range w).filter fun i => v.getLsbD i).length
/-- Leading zeros. -/
def leadZeros {w : Nat} (v : BitVec w) : Nat := ((List.range w).takeWhile fun i => !v.getLsbD (w - 1 - i)).length
/-- Trailing zeros. -/
def trailZeros {w : Nat} (v : BitVec w) : Nat := ((List.range w).takeWhile fun i => !v.getLsbD i).length

/-- Position and width of the field that bfx, bfxu and bfi take from y (R224). -/
def fieldOf (y : Word) : Nat × Nat :=
  let pos := bits y 0 6
  let w := bits y 8 7
  (pos, if w > 64 - pos then 64 - pos else w)

/-- Zero-extended field (R224). -/
def fieldU (x y : Word) : Word := let (pos, w) := fieldOf y; BitVec.ofNat 64 (bits x pos w)
/-- Sign-extended field (R224). -/
def fieldS (x y : Word) : Word := let (pos, w) := fieldOf y; if w = 0 then 0 else ofI (sext w (bits x pos w))
/-- `r` with the field replaced by the low bits of x (R224). -/
def fieldI (r x y : Word) : Word := let (pos, w) := fieldOf y; if w = 0 then r else setBits r pos w (bits x 0 w)

/-- Shifts by a register count (R223). -/
def shiftL (x y : Word) : Word := if y.toNat < 64 then x <<< y.toNat else 0
def shiftR (x y : Word) : Word := if y.toNat < 64 then x >>> y.toNat else 0
def shiftA (x y : Word) : Word := if y.toNat < 64 then x.sshiftRight y.toNat else if x.msb then -1 else 0

/-- The branch of this bundle transfers to a target, or not: three delay slots either way (R208). -/
def branch (s : State) (target : Option Word) : State := modMe s fun x => { x with xfer := some ⟨3, target⟩ }

/-- PC-relative target (R207). -/
def relTarget (s : State) (off : Int) : Word := s.cur.pc + ofI (2 * off)

/-- A branch slot: a false guard or condition leaves fetch in sequence, its delay slots count (R208, R211). -/
def branchSlot (g : BitVec 4) (s : State) (k : State → State) : Out :=
  .next (if rdP (me s) g then k s else branch s none)

/-- The semaphore index of an operand (R237). -/
def semIdx (x : Seq) (f : SImm) : Nat := ((rdS x f.a).v + f.imm.signExtend 64).toNat % 256

/-- Address of a mem form with a scalar index (R276). -/
def memAddr (x : Seq) (base idx : BitVec 6) (off : Int) : Word := (rdS x base).v + (rdS x idx).v + ofI off

end Sys2Proof.Machine
end

