-- ==== Sys2Proof/Machine/Flags.lean ====
section
/-! DEFINITION. Number formats, the one rounding function and the flags of fcsr (R108-R134): every instruction that rounds,
converts or flags goes through here. -/
namespace Sys2Proof.Machine

/-! ## Formats (R110, R111) -/

/-- A floating-point format: exponent bits, fraction bits, bias, and whether the top exponent is reserved. -/
structure Fmt where
  eb : Nat
  fb : Nat
  bias : Nat
  hasInf : Bool
  deriving DecidableEq, Repr

def fF32 : Fmt := ⟨8, 23, 127, true⟩
def fF16 : Fmt := ⟨5, 10, 15, true⟩
def fB16 : Fmt := ⟨8, 7, 127, true⟩
def fF8E4 : Fmt := ⟨4, 3, 7, false⟩
def fF8E5 : Fmt := ⟨5, 2, 15, true⟩

/-- A decoded float: ±man × 2^exp, an infinity, or a NaN with its fraction. -/
inductive Fv where
  | fin (neg : Bool) (man : Nat) (exp : Int)
  | inf (neg : Bool)
  | nan (neg : Bool) (frac : Nat)
  deriving DecidableEq, Repr

/-- Bits of a format decoded (R110, R111). -/
def Fmt.decode (f : Fmt) (b : Nat) : Fv :=
  let neg := b / 2 ^ (f.eb + f.fb) % 2 == 1
  let e := b / 2 ^ f.fb % 2 ^ f.eb
  let m := b % 2 ^ f.fb
  if f.hasInf && e == 2 ^ f.eb - 1 then (if m = 0 then .inf neg else .nan neg m)
  else if !f.hasInf && e == 2 ^ f.eb - 1 && m == 2 ^ f.fb - 1 then .nan neg m
  else if e = 0 then .fin neg m (1 - (f.bias : Int) - f.fb)
  else .fin neg (2 ^ f.fb + m) ((e : Int) - f.bias - f.fb)

/-- The sign bit in place. -/
def Fmt.sign (f : Fmt) (neg : Bool) : Nat := if neg then 2 ^ (f.eb + f.fb) else 0
/-- Infinity of a sign; F8E4 has none and takes 448 (R127). -/
def Fmt.infBits (f : Fmt) (neg : Bool) : Nat :=
  f.sign neg + if f.hasInf then (2 ^ f.eb - 1) * 2 ^ f.fb else 2 ^ (f.eb + f.fb) - 2
/-- Largest finite value of a sign (R111). -/
def Fmt.maxBits (f : Fmt) (neg : Bool) : Nat :=
  f.sign neg + if f.hasInf then (2 ^ f.eb - 1) * 2 ^ f.fb - 1 else 2 ^ (f.eb + f.fb) - 2
/-- Canonical NaN (R111). -/
def Fmt.canon (f : Fmt) : Nat := if f.hasInf then (2 ^ f.eb - 1) * 2 ^ f.fb + 2 ^ (f.fb - 1) else 2 ^ (f.eb + f.fb) - 1
/-- A quietened NaN with sign and fraction (R112). -/
def Fmt.quietNan (f : Fmt) (neg : Bool) (frac : Nat) : Nat :=
  f.sign neg + if f.hasInf then (2 ^ f.eb - 1) * 2 ^ f.fb + 2 ^ (f.fb - 1) + frac % 2 ^ (f.fb - 1) else 2 ^ (f.eb + f.fb) - 1
/-- A signalling NaN (R112). -/
def Fmt.snan (f : Fmt) (v : Fv) : Bool :=
  match v with
  | .nan _ m => f.hasInf && m < 2 ^ (f.fb - 1)
  | _ => false
def Fv.isNan : Fv → Bool
  | .nan _ _ => true
  | _ => false

/-! ## Flags (R121) -/

abbrev Flags := BitVec 6
def flNX : Flags := 1
def flUF : Flags := 2
def flOF : Flags := 4
def flDZ : Flags := 8
def flNV : Flags := 16
def flFE : Flags := 32
/-- A flag under a condition. -/
def flIf (c : Bool) (f : Flags) : Flags := if c then f else 0

/-! ## Rounding (R123, R124, R127) -/

/-- How to round: a mode of RM, or stochastically with a 16-bit number (R123). -/
inductive RMode where
  | rm (m : BitVec 2)
  | stoch (u : Nat)
  deriving DecidableEq, Repr

/-- Environment of a rounding: mode, flushing, and the saturate option. -/
structure REnv where
  mode : RMode := .rm 0
  ftz : Bool := false
  sat : Bool := false
  deriving DecidableEq, Repr

/-- Whether the magnitude rounds up: last kept bit odd, remainder `r` of 2^d, something nonzero below. -/
def roundUp (mode : RMode) (neg odd : Bool) (r d : Nat) (sticky : Bool) : Bool :=
  let inexact := r != 0 || sticky
  match mode with
  | .rm 0 => if d = 0 then false else
      let h := 2 ^ (d - 1)
      h < r || (r == h && (sticky || odd))
  | .rm 1 => false
  | .rm 2 => neg && inexact
  | .rm _ => !neg && inexact
  | .stoch u => inexact && 2 ^ 16 ≤ r * 2 ^ 16 / 2 ^ d + u

/-- Magnitude man × 2^exp (and something below when sticky) as a multiple of 2^q: kept, remainder, remainder's bits. -/
def splitAt (man : Nat) (exp q : Int) : Nat × Nat × Nat :=
  if q ≤ exp then (man * 2 ^ (exp - q).toNat, 0, 0)
  else let d := (q - exp).toNat; (man / 2 ^ d, man % 2 ^ d, d)

/-- Rounds ±man × 2^exp to a format (R123, R124, R127). Sticky says that the exact magnitude lies above by less than
2^exp. -/
def Fmt.round (f : Fmt) (env : REnv) (neg : Bool) (man : Nat) (exp : Int) (sticky : Bool) : Nat × Flags :=
  if man = 0 && !sticky then (f.sign neg, 0) else
  let (man, exp) := if man = 0 then (1, exp - 1) else (man, exp)
  let lead : Int := exp + (Nat.log2 man : Int)
  let emin : Int := 1 - (f.bias : Int)
  let rnd (q : Int) : Nat × Bool :=
    let (k, r, d) := splitAt man exp q
    (if roundUp env.mode neg (k % 2 == 1) r d sticky then k + 1 else k, r != 0 || sticky)
  let tiny := decide (lead < emin) &&
    !(decide (lead = emin - 1) && (rnd (lead - f.fb)).1 == 2 ^ (f.fb + 1))
  let q := if lead < emin then emin - f.fb else lead - f.fb
  let (k, inexact) := rnd q
  if tiny && env.ftz then (f.sign neg, flUF ||| flNX) else
  let (k, q) := if k = 2 ^ (f.fb + 1) then (2 ^ f.fb, q + 1) else (k, q)
  let e : Nat := if k < 2 ^ f.fb then 0 else (q + f.fb + f.bias).toNat
  let mag := e * 2 ^ f.fb + (if k < 2 ^ f.fb then k else k - 2 ^ f.fb)
  if f.maxBits false < mag then
    let toMax := env.sat || f.eb < 5 || f.fb < 3 ||
      (match env.mode with
       | .rm 1 => true
       | .rm 2 => !neg
       | .rm 3 => neg
       | _ => false)
    (if toMax then f.maxBits neg else f.infBits neg, flOF ||| flNX)
  else (f.sign neg + mag, flIf inexact flNX ||| flIf (tiny && inexact) flUF)

/-- An input below 2^-126 in magnitude is flushed to a zero of its sign under FTZ (R124). -/
def flushIn (ftz : Bool) (v : Fv) : Fv :=
  match v with
  | .fin neg man exp => if ftz && man != 0 && decide (exp + (Nat.log2 man : Int) < -126) then .fin neg 0 exp else v
  | _ => v

/-! ## NaN results (R125) -/

/-- The first NaN of the operands, quietened, with NV when any of them signals. -/
def nanOf (f : Fmt) (vs : List Fv) : Option (Nat × Flags) :=
  match vs.find? Fv.isNan with
  | some (.nan n m) => some (f.quietNan n m, flIf (vs.any f.snan) flNV)
  | _ => none

/-- An invalid operation (R125). -/
def invalid (f : Fmt) : Nat × Flags := (f.canon, flNV)

/-! ## Exact sums and products -/

/-- Signed sum of two magnitudes: sign, magnitude, exponent; an exact zero from unlike signs, whose sign R123
leaves open, is -0 in the mode toward minus infinity and +0 in every other: that is the model's choice (log entry 84). -/
def addExact (mode : RMode) (n1 : Bool) (m1 : Nat) (e1 : Int) (n2 : Bool) (m2 : Nat) (e2 : Int) : Bool × Nat × Int :=
  let e := if e1 ≤ e2 then e1 else e2
  let a := m1 * 2 ^ (e1 - e).toNat
  let b := m2 * 2 ^ (e2 - e).toNat
  if n1 = n2 then (n1, a + b, e)
  else if b < a then (n1, a - b, e)
  else if a < b then (n2, b - a, e)
  else (mode == .rm 2, 0, e)

/-- a + b in a format. -/
def fAdd (f : Fmt) (env : REnv) (a b : Nat) : Nat × Flags :=
  let va := flushIn env.ftz (f.decode a)
  let vb := flushIn env.ftz (f.decode b)
  match nanOf f [va, vb] with
  | some r => r
  | none =>
    match va, vb with
    | .inf n, .inf m => if n = m then (f.infBits n, 0) else invalid f
    | .inf n, _ => (f.infBits n, 0)
    | _, .inf n => (f.infBits n, 0)
    | .fin n1 m1 e1, .fin n2 m2 e2 =>
      let (n, m, e) := addExact env.mode n1 m1 e1 n2 m2 e2
      f.round env n m e false
    | _, _ => invalid f

/-- The negation of a float: its sign bit flipped. -/
def Fmt.neg (f : Fmt) (a : Nat) : Nat :=
  if a / 2 ^ (f.eb + f.fb) % 2 = 1 then a - 2 ^ (f.eb + f.fb) else a + 2 ^ (f.eb + f.fb)

/-- a × b in a format. -/
def fMul (f : Fmt) (env : REnv) (a b : Nat) : Nat × Flags :=
  let va := flushIn env.ftz (f.decode a)
  let vb := flushIn env.ftz (f.decode b)
  match nanOf f [va, vb] with
  | some r => r
  | none =>
    match va, vb with
    | .inf n, .inf m => (f.infBits (n != m), 0)
    | .inf n, .fin m x _ => if x = 0 then invalid f else (f.infBits (n != m), 0)
    | .fin m x _, .inf n => if x = 0 then invalid f else (f.infBits (n != m), 0)
    | .fin n1 m1 e1, .fin n2 m2 e2 => f.round env (n1 != n2) (m1 * m2) (e1 + e2) false
    | _, _ => invalid f

/-- a × b + c rounded once; the NaN of c is chosen before those of a and b (R125). -/
def fFma (f : Fmt) (env : REnv) (a b c : Nat) : Nat × Flags :=
  let va := flushIn env.ftz (f.decode a)
  let vb := flushIn env.ftz (f.decode b)
  let vc := flushIn env.ftz (f.decode c)
  let badProd := match va, vb with
    | .inf _, .fin _ 0 _ => true
    | .fin _ 0 _, .inf _ => true
    | _, _ => false
  match nanOf f [vc, va, vb] with
  | some (r, fl) => (r, fl ||| flIf badProd flNV)
  | none =>
    if badProd then invalid f else
    let prodInf := match va, vb with
      | .inf n, .inf m => some (n != m)
      | .inf n, .fin m _ _ => some (n != m)
      | .fin m _ _, .inf n => some (n != m)
      | _, _ => none
    match prodInf, vc with
    | some n, .inf m => if n = m then (f.infBits n, 0) else invalid f
    | some n, _ => (f.infBits n, 0)
    | none, .inf m => (f.infBits m, 0)
    | none, _ =>
      match va, vb, vc with
      | .fin n1 m1 e1, .fin n2 m2 e2, .fin n3 m3 e3 =>
        let (n, m, e) := addExact env.mode (n1 != n2) (m1 * m2) (e1 + e2) n3 m3 e3
        f.round env n m e false
      | _, _, _ => invalid f

/-! ## Order -/

/-- A finite or infinite value as a rational scaled for comparison: (sign-magnitude at a common exponent). -/
def fLt (a b : Fv) : Bool :=
  match a, b with
  | .inf n, .inf m => n && !m
  | .inf n, .fin _ _ _ => n
  | .fin _ _ _, .inf m => !m
  | .fin n1 m1 e1, .fin n2 m2 e2 =>
    let e := if e1 ≤ e2 then e1 else e2
    let x : Int := (m1 * 2 ^ (e1 - e).toNat : Nat)
    let y : Int := (m2 * 2 ^ (e2 - e).toNat : Nat)
    decide ((if n1 then -x else x) < (if n2 then -y else y))
  | _, _ => false

/-- Neither is a NaN and neither is below the other. -/
def fEq (a b : Fv) : Bool := !a.isNan && !b.isNan && !fLt a b && !fLt b a

/-! ## Conversions (R126, R127) -/

/-- Float to float (R126, R127). -/
def cvtFloat (src dst : Fmt) (env : REnv) (b : Nat) : Nat × Flags :=
  let v := src.decode b
  match v with
  | .nan n m =>
    let m' := if src.fb ≤ dst.fb then m * 2 ^ (dst.fb - src.fb) else m / 2 ^ (src.fb - dst.fb)
    (dst.quietNan n m', flIf (src.snan v) flNV)
  | .inf n =>
    if env.sat && dst.fb > 3 then (dst.maxBits n, flOF)
    else if dst.hasInf then (dst.infBits n, 0)
    else (dst.maxBits n, flOF)
  | _ =>
    match flushIn env.ftz v with
    | .fin n m e => dst.round env n m e false
    | _ => (0, 0)

/-- ±man × 2^exp rounded to an integer: value and whether it was inexact. -/
def roundInt (mode : RMode) (neg : Bool) (man : Nat) (exp : Int) : Int × Bool :=
  let (k, r, d) := splitAt man exp 0
  let k := if roundUp mode neg (k % 2 == 1) r d false then k + 1 else k
  (if neg then -(k : Int) else k, r != 0)

/-- Limits of an integer type of `w` bits. -/
def intLo (w : Nat) (sgn : Bool) : Int := if sgn then -(2 ^ (w - 1) : Nat) else 0
def intHi (w : Nat) (sgn : Bool) : Int := if sgn then (2 ^ (w - 1) : Nat) - 1 else (2 ^ w : Nat) - 1

/-- An integer as `w` bits. -/
def intBits (w : Nat) (x : Int) : Nat := (x % (2 ^ w : Nat)).toNat

/-- Float to integer (R127). -/
def cvtToInt (src : Fmt) (env : REnv) (w : Nat) (sgn : Bool) (b : Nat) : Nat × Flags :=
  match flushIn env.ftz (src.decode b) with
  | .nan _ _ => (0, flNV)
  | .inf n => (intBits w (if n then intLo w sgn else intHi w sgn), flNV)
  | .fin n m e =>
    let (x, inexact) := roundInt env.mode n m e
    if x < intLo w sgn then (intBits w (intLo w sgn), flNV)
    else if intHi w sgn < x then (intBits w (intHi w sgn), flNV)
    else (intBits w x, flIf inexact flNX)

/-- Integer to float (R127). -/
def cvtFromInt (dst : Fmt) (env : REnv) (x : Int) : Nat × Flags :=
  dst.round env (decide (x < 0)) x.natAbs 0 false

/-- Float format of a lane type, if it is one (R195, R250). -/
def floatOf : VType → Option Fmt
  | .f32 => some fF32
  | .f16 => some fF16
  | .b16 => some fB16
  | _ => none

/-- A 16-bit or 32-bit value widened exactly to F32 (R134). -/
def toF32 (f : Fmt) (b : Nat) : Nat := (cvtFloat f fF32 {} b).1

/-! ## Q4X (R113, R114) -/

/-- Sign extension of a nibble. -/
def nibbleVal (c : Nat) : Int := if c < 8 then (c : Int) else (c : Int) - 16

/-- One decoded Q4X position: a small integer, an F8E4 code, or a marker that may not stand there. -/
inductive QVal where
  | small (v : Int)
  | code (f : Nat)
  | bad
  deriving DecidableEq, Repr

/-- The walk of R114 over the nibbles of one scale group. -/
def q4Walk : List Nat → List QVal
  | [] => []
  | c :: r =>
    if c ≠ 8 then .small (nibbleVal c) :: q4Walk r
    else match r with
      | x :: y :: r' => .code (x + 16 * y) :: .small 0 :: .small 0 :: q4Walk r'
      | x :: [] => .bad :: q4Walk [x]
      | [] => [.bad]

/-- Whether the walk of R114 takes a nibble as a marker (R118 HINT). -/
def q4HasMarker (l : List Nat) : Bool := (q4Walk l).any fun v => match v with | .small _ => false | _ => true

/-! ## GF(2^8) (R136, R275) -/

/-- Carry-less product of two bytes, before reduction. -/
def clmul (a b : Nat) : Nat := (List.range 8).foldl (fun z i => if b / 2 ^ i % 2 = 1 then Nat.xor z (a * 2 ^ i) else z) 0

/-- GfMul modulo the polynomial 0x11D (R136). -/
def gfMul (a b : Nat) : Nat :=
  (List.range 7).foldl (fun z i => let k := 14 - i; if z / 2 ^ k % 2 = 1 then Nat.xor z (0x11D * 2 ^ (k - 8)) else z) (clmul a b)

/-- GF(2^8) inverse: a^254 (R136). -/
def gfInv (a : Nat) : Nat :=
  let a2 := gfMul a a; let a4 := gfMul a2 a2; let a8 := gfMul a4 a4; let a16 := gfMul a8 a8
  let a32 := gfMul a16 a16; let a64 := gfMul a32 a32; let a128 := gfMul a64 a64
  gfMul a128 (gfMul a64 (gfMul a32 (gfMul a16 (gfMul a8 (gfMul a4 a2)))))

/-- Rounding environment of a sequencer (R122). -/
def envOf (x : Seq) : REnv := { mode := .rm (x.fcsr.extractLsb' 10 2), ftz := x.fcsr.getLsbD 12 }

end Sys2Proof.Machine
end

