-- ==== Sys2Proof/Machine/Erasure.lean ====
section
/-! DEFINITION. The erasure engine: where data and parity lie (R136-R138), page-table contexts that reach the data area
(R135), the write of a protected line with its journal record and deltas (R150-R153), and the abort of a round (R158). -/
namespace Sys2Proof.Machine

/-! ## The group's settings (R140, R147) -/

/-- N, M and SELF of PG_CFG. -/
def pgN (s : State) : Nat := bits (rdReg s .pgCfg) 16 6
def pgM (s : State) : Nat := bits (rdReg s .pgCfg) 8 3
def pgSelf (s : State) : Nat := bits (rdReg s .pgCfg) 0 5
def pgK (s : State) : Nat := pgN s - pgM s
/-- ORN and CRN of PG_RND (R144). -/
def pgOrn (s : State) : Nat := bits (rdReg s .pgRnd) 32 32
def pgCrn (s : State) : Nat := bits (rdReg s .pgRnd) 0 32
/-- Writes PG_RND. -/
def setRnd (s : State) (orn crn : Nat) : State :=
  wrReg s .pgRnd (BitVec.ofNat 64 (orn % 2 ^ 32 * 2 ^ 32 + crn % 2 ^ 32))
/-- MISSING of PG_STS (R143). -/
def pgMissing (s : State) : Nat := bits (rdReg s .pgSts) 0 32
/-- Pod index of member i (R147). -/
def memberPod (s : State) (i : Nat) : Nat := bits (rdReg s (.pgMemb i)) 16 6
/-- The other members. -/
def others (s : State) : List Nat := (List.range (pgN s)).filter fun i => i ≠ pgSelf s
/-- A message to a member over Trarel-P (R166). -/
def toMember (s : State) (i : Nat) (m : Instr) : State := sendOut s (memberPod s i) m
/-- A message to every other member. -/
def toMembers (s : State) (m : Instr) : State := (others s).foldl (fun s i => toMember s i m) s

/-! ## Layout (R136-R138) -/

/-- Coefficient of data index d in parity j (R136). -/
def coef (k d j : Nat) : Nat := gfInv (Nat.xor d (k + j))

/-- Stripe and data index of data unit u of member i (R137). -/
def stripeOf (n m i u : Nat) : Nat × Nat :=
  let k := n - m
  let row := u / k
  let t := ((List.range n).filter fun t => m ≤ (i + n - t) % n).getD (u % k) 0
  let st := n * row + t
  (st, (i + 2 * n - st % n - m) % n)

/-- Holder and parity unit of parity j of stripe st (R137). -/
def parityOf (n m st j : Nat) : Nat × Nat := ((st + j) % n, st / n * m + j)

/-- PA of a unit of an area (R138). -/
def unitPa (base len u : Nat) : Nat :=
  let per := len / 4096
  u / per * 2 ^ 36 + base + u % per * 4096

/-- Data unit of a device PA (R138). -/
def dataUnit (s : State) (pa : Nat) : Nat :=
  let (b, n) := areaOf s .pgAreaD
  stackOf pa * (n / 4096) + (stackOff pa - b) / 4096

/-- PA of a parity unit of this member. -/
def parityPa (s : State) (p : Nat) : Nat := let (b, n) := areaOf s .pgAreaP; unitPa b n p

/-- Capacity of the journal and its records used (R145). -/
def jCap (s : State) : Nat := bits (rdReg s .pgJrn) 20 20 * 7168
def jUsed (s : State) : Nat := bits (rdReg s .pgJfill) 0 40

/-! ## Lines -/

/-- The 32 words of the line that starts at word 32 × line. -/
def memLine (s : State) (line : Nat) : List Lane := (List.range 32).map fun i => memWord s (32 * line + i)
/-- Writes the words of a line. -/
def setMemLine (s : State) (line : Nat) (xs : List Lane) : State :=
  (List.range xs.length).foldl (fun s i => setMemWord s (32 * line + i) (xs.getD i {})) s
/-- Bytes of words, lowest first (R10). -/
def laneBytes (xs : List Lane) : List Byte :=
  xs.flatMap fun x => (List.range 4).map fun i => BitVec.ofNat 8 (x.v.toNat / 2 ^ (8 * i))
/-- Words of bytes. -/
def bytesWord (bs : List Byte) (i : Nat) : W32 :=
  BitVec.ofNat 32 ((List.range 4).foldl (fun z j => z + (bs.getD (4 * i + j) 0).toNat * 2 ^ (8 * j)) 0)

/-! ## Contexts that map the data area (R135) -/

/-- A page-table entry as a walker reads it at its home (R50, R52); the home's own value where a word of it is on its way or lost. -/
def rawEntry (s : State) (pa : Nat) : Word :=
  let word (w : Nat) : Nat := match homeFind s w with
    | .val x _ _ => x.v.toNat
    | _ => (memWord s w).v.toNat
  BitVec.ofNat 64 (word (pa / 4) + word (pa / 4 + 1) * 2 ^ 32)

/-- Some leaf under the table at `pa` of a level (R18) reaches the data area. -/
def tableMaps (s : State) : Nat → Nat → Bool
  | 0, pa => (List.range 32).any fun i =>
      let e := rawEntry s (pa + 8 * i)
      bit e 0 && bit e 1 && protectedPa s (bits e 16 36 * 65536)
  | l + 1, pa => (List.range (if l + 1 = 4 then 256 else 512)).any fun i =>
      let e := rawEntry s (pa + 8 * i)
      let size := if l + 1 = 1 then 2 ^ 21 else 2 ^ 30
      bit e 0 && (if bit e 1 then
        (List.range (size / 65536)).any fun j => protectedPa s (bits e 16 36 * 65536 + 65536 * j)
      else tableMaps s l (bits e 8 44 * 256))

/-- A context maps the group's protected pages: any of its leaves reaches the data area (R135). -/
def ctxMaps (s : State) (x : Nat) : Bool :=
  let r := rdReg s (.xltRoot x)
  pgMember s && bit r 0 && isHbm (bits r 11 41 * 2048) && tableMaps s 4 (bits r 11 41 * 2048)

/-! ## Aborting a round (R158) -/

/-- Step 2 of R158: every running task of a context that maps protected pages ends with the round aborted cause. -/
def stopProtected (s : State) : State :=
  s.tasks.foldl (fun s (t, k) => if ctxMaps s k.ctx && (k.st = .running || k.st = .setup) then endTask s t 3 23 else s) s

/-- R158 with a reason: ABORT to every member, protected tasks stopped, Restoring; only in Running or Preparing. -/
def abortRound (s : State) (reason : Nat) : State :=
  if pgState s = 2 || pgState s = 3 then
    let s := toMembers s (.abort (pgSelf s) (pgOrn s) reason)
    setPgReason (setPgState (stopProtected s) 6) reason
  else s

/-! ## Writing a protected line (R151, R153) -/

/-- What the erasure engine made of a write. -/
inductive EWrite where
  | done (s : State)
  /-- 4,096 deltas are unacknowledged: the write waits -/
  | wait
  /-- not performed: the round aborts -/
  | refused (s : State)

/-- A journal record of a line is made where the round has none (R150-R153). -/
def jRecord (s : State) (line : Nat) (parity : Bool) : Option State :=
  if (mlook s.group.journal line).isSome then some s
  else if jCap s ≤ jUsed s then none
  else
    let s := { s with group := { s.group with journal := mput s.group.journal line ⟨parity, memLine s line⟩ } }
    let used := jUsed s + 1
    let s := wrReg s .pgJfill (BitVec.ofNat 64 used)
    if !s.group.high && bits (rdReg s .pgJrn) 48 8 * jCap s / 256 < used then
      some (pgEvent { s with group := { s.group with high := true } } 2)
    else some s

/-- The deltas of a line's write go to the parity holders (R151 step 4). -/
def sendDeltas (s : State) (line : Nat) (old new : List Lane) : State :=
  let pa := 128 * line
  let n := pgN s
  let m := pgM s
  let (st, d) := stripeOf n m (pgSelf s) (dataUnit s pa)
  let diff := (List.zip (laneBytes old) (laneBytes new)).map fun (a, b) => a ^^^ b
  (List.range m).foldl (fun s j =>
    let (h, p) := parityOf n m st j
    let c := coef (n - m) d j
    let bs := diff.map fun x => BitVec.ofNat 8 (gfMul c x.toNat)
    let s := toMember s h (.delta (pgSelf s) (pgOrn s) p (pa % 4096) bs)
    { s with group := { s.group with deltas := s.group.deltas ++ [⟨h, pgOrn s, 32 * p + pa % 4096 / 128, s.clk, homeChip pa⟩] } }) s

/-- DELTAs of a chiplet's erasure engine that are unacknowledged (R151). -/
def unacked (s : State) (chip : Nat) : Nat := (s.group.deltas.filter fun x => x.chip = chip).length

/-- A write of a protected data line into HBM (R151); a line that cannot be read or written there aborts the round (R97, R158). -/
def erasureWrite (s : State) (line : Nat) (new : List Lane) : EWrite :=
  if 4096 < unacked s (homeChip (128 * line)) + pgM s || hbmRes s (128 * line) = .held then .wait else
  if hbmRes s (128 * line) = .failed || (List.range 32).any fun i => mget false s.bad (32 * line + i) then .refused (abortRound s 5) else
  let old := memLine s line
  match jRecord s line false with
  | none => .refused (abortRound (pgEvent s 3) 2)
  | some s => .done (sendDeltas (setMemLine (touchStack s (128 * line)) line new) line old new)

/-- The words of a line with one of them replaced. -/
def lineWith (s : State) (w : Nat) (x : Lane) : List Lane := (memLine s (w / 32)).set (w % 32) x

end Sys2Proof.Machine
end

