-- ==== Sys2Proof/Machine/Vector.lean ====
section
/-! DEFINITION. The V slots: lane arithmetic, logic, compares, conversions, packing, lane movement, reductions and scans
(R246-R267). -/
namespace Sys2Proof.Machine

/-! ## Lane results (R246, R247) -/

/-- One lane's result. -/
structure LaneRes where
  v : W32
  fl : Flags := 0
  p : Bool := false
  deriving DecidableEq, Repr

/-- Results of the active lanes land together with their flags (R246, R122). -/
def laneResult (s : State) (lat : Nat) (vd : BitVec 6) (rs : List (Nat × LaneRes)) : State :=
  let fl := rs.foldl (fun f r => f ||| r.2.fl) 0
  result s lat ((rs.map fun (l, r) => .lane vd.toNat l r.v r.p) ++ (if fl = 0 then [] else [.flags fl]))

/-- A computation of each active lane (R246, R212). -/
def perLane (s : State) (lat : Nat) (q : BitVec 4) (vd : BitVec 6) (k : Seq → Nat → LaneRes) : Out :=
  .next (laneResult s lat vd ((active (rdQ (me s) q)).map fun l => (l, k (me s) l)))

/-- An element operation on a lane: once for 32-bit types, on both halves for 16-bit types (R246). -/
def byElem (ty : VType) (op : Nat → Nat → Nat → Nat × Flags) (a b d : W32) : W32 × Flags :=
  if ty.width = 32 then
    let (x, f) := op a.toNat b.toNat d.toNat
    (BitVec.ofNat 32 x, f)
  else
    let lo (w : W32) := w.toNat % 2 ^ 16
    let hi (w : W32) := w.toNat / 2 ^ 16
    let (x, f) := op (lo a) (lo b) (lo d)
    let (y, g) := op (hi a) (hi b) (hi d)
    (BitVec.ofNat 32 (x % 2 ^ 16 + 2 ^ 16 * (y % 2 ^ 16)), f ||| g)

/-! ## Element arithmetic (R249-R251) -/

/-- The smaller or larger of two floats: a lone NaN loses, two NaNs give the quietened first, −0 lies below +0 (R250). -/
def fMinMax (f : Fmt) (env : REnv) (wantMax : Bool) (a b : Nat) : Nat × Flags :=
  let va := flushIn env.ftz (f.decode a)
  let vb := flushIn env.ftz (f.decode b)
  let nv := flIf (f.snan va || f.snan vb) flNV
  let give (v : Fv) : Nat × Flags :=
    match v with
    | .fin n m e => let (r, fl) := f.round env n m e false; (r, fl ||| nv)
    | .inf n => (f.infBits n, nv)
    | .nan n m => (f.quietNan n m, nv)
  match va, vb with
  | .nan n m, .nan _ _ => give (.nan n m)
  | .nan _ _, _ => give vb
  | _, .nan _ _ => give va
  | _, _ =>
    let zeroNeg (v : Fv) : Bool := match v with | .fin true 0 _ => true | _ => false
    let below := fLt va vb || (fEq va vb && zeroNeg va)
    give (if below != wantMax then va else vb)

/-- a − b in a format: a NaN of b keeps its sign. -/
def fSub (f : Fmt) (env : REnv) (a b : Nat) : Nat × Flags :=
  if (f.decode b).isNan then fAdd f env a b else fAdd f env a (f.neg b)

/-- An element as an integer of its type. -/
def intOf (ty : VType) (x : Nat) : Int := if ty.isSigned then sext ty.width x else (x : Int)

/-- Operations of R249. -/
inductive VArith where
  | add | sub | mul | fma | fms | min | max | abs | neg | clamp
  deriving DecidableEq, Repr

/-- One element of R249, by R250 for float types and R251 for integer types. -/
def arith (op : VArith) (ty : VType) (env : REnv) (a b d : Nat) : Nat × Flags :=
  match floatOf ty with
  | some f =>
    match op with
    | .add => fAdd f env a b
    | .sub => fSub f env a b
    | .mul => fMul f env a b
    | .fma => fFma f env a b d
    | .fms => fFma f env (f.neg a) b d
    | .min => fMinMax f env false a b
    | .max => fMinMax f env true a b
    | .abs => (a % 2 ^ (f.eb + f.fb), 0)
    | .neg => (f.neg a, 0)
    | .clamp =>
      let (x, g) := fMinMax f env true d a
      let (y, h) := fMinMax f env false x b
      (y, g ||| h)
  | none =>
    let w := ty.width
    let i := intOf ty
    let lim (x y : Nat) (wantMax : Bool) : Nat := if decide (i x < i y) != wantMax then x else y
    match op with
    | .add => ((a + b) % 2 ^ w, 0)
    | .sub => ((a + 2 ^ w - b) % 2 ^ w, 0)
    | .mul => (a * b % 2 ^ w, 0)
    | .fma => ((a * b + d) % 2 ^ w, 0)
    | .fms => (intBits w ((d : Int) - a * b), 0)
    | .min => (lim a b false, 0)
    | .max => (lim a b true, 0)
    | .abs => (intBits w (if i a < 0 then -(i a) else i a), 0)
    | .neg => (intBits w (-(i a)), 0)
    | .clamp => (lim (lim d a true) b false, 0)

/-- A two-source arithmetic slot; `useD` when it reads vd (R247, R249). -/
def arithSlot (op : VArith) (useD : Bool) (lat : Nat) (f : VBin) (ty : VType) (s : State) : Out :=
  perLane s lat f.q f.vd fun x l =>
    let a := rdV x f.va l
    let b := rdV x f.vb l
    let d := rdV x f.vd l
    let (v, fl) := byElem ty (arith op ty (envOf x)) a.v b.v d.v
    ⟨v, fl, a.p || b.p || (useD && d.p)⟩

/-- A one-source arithmetic slot. -/
def arithUn (op : VArith) (f : VUn) (ty : VType) (s : State) : Out :=
  perLane s 2 f.q f.vd fun x l =>
    let a := rdV x f.va l
    let (v, fl) := byElem ty (arith op ty (envOf x)) a.v 0 0
    ⟨v, fl, a.p⟩

/-- R249. -/
def execVadd (f : VBin) (ty : VType) (s : State) : Out := arithSlot .add false 2 f ty s
/-- R249. -/
def execVsub (f : VBin) (ty : VType) (s : State) : Out := arithSlot .sub false 2 f ty s
/-- R249, R204: latency 4. -/
def execVmul (f : VBin) (ty : VType) (s : State) : Out := arithSlot .mul false 4 f ty s
/-- R249: fused, reads vd. -/
def execVfma (f : VBin) (ty : VType) (s : State) : Out := arithSlot .fma true 4 f ty s
/-- R249: fused, reads vd. -/
def execVfms (f : VBin) (ty : VType) (s : State) : Out := arithSlot .fms true 4 f ty s
/-- R249. -/
def execVmin (f : VBin) (ty : VType) (s : State) : Out := arithSlot .min false 2 f ty s
/-- R249. -/
def execVmax (f : VBin) (ty : VType) (s : State) : Out := arithSlot .max false 2 f ty s
/-- R249. -/
def execVabs (f : VUn) (ty : VType) (s : State) : Out := arithUn .abs f ty s
/-- R249. -/
def execVneg (f : VUn) (ty : VType) (s : State) : Out := arithUn .neg f ty s
/-- R249: reads vd. -/
def execVclamp (f : VBin) (ty : VType) (s : State) : Out := arithSlot .clamp true 2 f ty s

/-! ## Logic, shifts, counts (R252) -/

/-- A bitwise operation on whole lanes. -/
def logicSlot (op : W32 → W32 → W32) (f : VBin) (s : State) : Out :=
  perLane s 2 f.q f.vd fun x l =>
    let a := rdV x f.va l
    let b := rdV x f.vb l
    ⟨op a.v b.v, 0, a.p || b.p⟩

/-- R252. -/
def execVand (f : VBin) (s : State) : Out := logicSlot (fun a b => a &&& b) f s
/-- R252. -/
def execVor (f : VBin) (s : State) : Out := logicSlot (fun a b => a ||| b) f s
/-- R252. -/
def execVxor (f : VBin) (s : State) : Out := logicSlot (fun a b => a ^^^ b) f s
/-- R252. -/
def execVandn (f : VBin) (s : State) : Out := logicSlot (fun a b => a &&& ~~~b) f s

/-- An element shift by the whole element of vb (R252). -/
def shiftSlot (op : Nat → Nat → Nat → Nat) (f : VBin) (ty : VType) (s : State) : Out :=
  perLane s 2 f.q f.vd fun x l =>
    let a := rdV x f.va l
    let b := rdV x f.vb l
    ⟨(byElem ty (fun x n _ => (op ty.width x n % 2 ^ ty.width, 0)) a.v b.v 0).1, 0, a.p || b.p⟩

/-- R252: 0 for counts of the width or more. -/
def execVshl (f : VBin) (ty : VType) (s : State) : Out :=
  shiftSlot (fun w x n => if n < w then x * 2 ^ n else 0) f ty s
/-- R252: zero fill. -/
def execVshr (f : VBin) (ty : VType) (s : State) : Out :=
  shiftSlot (fun w x n => if n < w then x / 2 ^ n else 0) f ty s
/-- R252: sign fill. -/
def execVsar (f : VBin) (ty : VType) (s : State) : Out :=
  shiftSlot (fun w x n => intBits w (sext w x / (2 ^ (if n < w then n else w - 1) : Nat))) f ty s

/-- A count of one lane. -/
def countSlot (op : W32 → Nat) (f : VUn) (s : State) : Out :=
  perLane s 2 f.q f.vd fun x l => let a := rdV x f.va l; ⟨BitVec.ofNat 32 (op a.v), 0, a.p⟩

/-- R252. -/
def execVpopc (f : VUn) (s : State) : Out := countSlot (fun v => popCount v) f s
/-- R252: 32 for 0. -/
def execVclz (f : VUn) (s : State) : Out := countSlot (fun v => leadZeros v) f s

/-! ## Compares and lane predicates (R253-R256) -/

/-- A lane predicate of the lanes where a condition holds. -/
def maskOf (ls : List Nat) : BitVec 16 := ls.foldl (fun m l => m ||| (1#16 <<< l)) 0

/-- Conditions of R253. -/
inductive VCond where
  | eq | lt | le
  deriving DecidableEq, Repr

/-- One compare with its flags (R253). -/
def cond (c : VCond) (ty : VType) (ftz : Bool) (a b : Nat) : Bool × Flags :=
  match floatOf ty with
  | some f =>
    let va := flushIn ftz (f.decode a)
    let vb := flushIn ftz (f.decode b)
    let nan := va.isNan || vb.isNan
    let sig := f.snan va || f.snan vb
    match c with
    | .eq => (fEq va vb, flIf sig flNV)
    | .lt => (fLt va vb, flIf nan flNV)
    | .le => (fLt va vb || fEq va vb, flIf nan flNV)
  | none =>
    let i := intOf ty
    match c with
    | .eq => (a == b, 0)
    | .lt => (decide (i a < i b), 0)
    | .le => (decide (i a ≤ i b), 0)

/-- Register writes of a compare of some lanes. -/
def cmpWrites (c : VCond) (f : VCmp) (ty : VType) (x : Seq) (ls : List Nat) : List LandW :=
  let rs := ls.map fun l => (l, cond c ty (envOf x).ftz (rdV x f.va l).v.toNat (rdV x f.vb l).v.toNat)
  let fl := rs.foldl (fun g r => g ||| r.2.2) 0
  .q f.qd.toNat (maskOf ((rs.filter fun r => r.2.1).map (·.1))) :: if fl = 0 then [] else [.flags fl]

/-- Active lanes of a compare that read poison (R254). -/
def cmpBad (f : VCmp) (x : Seq) : List Nat :=
  (active (rdQ x f.q)).filter fun l => (rdV x f.va l).p || (rdV x f.vb l).p

/-- A compare slot: poisoned active lanes fault, inactive lanes give 0 (R253, R254, R212). -/
def cmpSlot (c : VCond) (f : VCmp) (ty : VType) (s : State) : Out :=
  let x := me s
  let bad := cmpBad f x
  if bad ≠ [] then .next (fault s 8 (poisonVal s (maskOf bad).toNat)) else
  .next (result s 2 (cmpWrites c f ty x (active (rdQ x f.q))))

/-- R253: NV for a signalling NaN only. -/
def execVcmpeq (f : VCmp) (ty : VType) (s : State) : Out := cmpSlot .eq f ty s
/-- R253. -/
def execVcmplt (f : VCmp) (ty : VType) (s : State) : Out := cmpSlot .lt f ty s
/-- R253. -/
def execVcmple (f : VCmp) (ty : VType) (s : State) : Out := cmpSlot .le f ty s

/-- Lane-predicate logic; inactive lanes give 0 (R255). -/
def qSlot (op : BitVec 16 → BitVec 16 → BitVec 16) (f : QLog) (s : State) : Out :=
  let x := me s
  .next (result s 2 [.q f.qd.toNat (op (rdQ x f.qa) (rdQ x f.qb) &&& rdQ x f.q)])

/-- R255. -/
def execQand (f : QLog) (s : State) : Out := qSlot (fun a b => a &&& b) f s
/-- R255. -/
def execQor (f : QLog) (s : State) : Out := qSlot (fun a b => a ||| b) f s
/-- R255. -/
def execQxor (f : QLog) (s : State) : Out := qSlot (fun a b => a ^^^ b) f s
/-- R255. -/
def execQandn (f : QLog) (s : State) : Out := qSlot (fun a b => a &&& ~~~b) f s

/-- R256: only the chosen lane is read. -/
def execVsel (f : VBin) (n : BitVec 4) (s : State) : Out :=
  perLane s 2 f.q f.vd fun x l =>
    let a := rdV x (if (rdQ x n).getLsbD l then f.va else f.vb) l
    ⟨a.v, 0, a.p⟩

/-! ## Conversions (R257) -/

/-- One element from a type to another of the same width (R257, R127). -/
def cvtElem (src dst : VType) (env : REnv) (a : Nat) : Nat × Flags :=
  match floatOf src, floatOf dst with
  | some f, some g => cvtFloat f g env a
  | some f, none => cvtToInt f env dst.width dst.isSigned a
  | none, some g => cvtFromInt g { env with sat := false } (intOf src a)
  | none, none =>
    let x := intOf src a
    if !env.sat then (a, 0)
    else if x < intLo dst.width dst.isSigned then (intBits dst.width (intLo dst.width dst.isSigned), flOF)
    else if intHi dst.width dst.isSigned < x then (intBits dst.width (intHi dst.width dst.isSigned), flOF)
    else (a, 0)

/-- R257, R204: latency 4. -/
def execVcvt (f : VUn) (sat rtz : Bool) (src dst : VType) (s : State) : Out :=
  perLane s 4 f.q f.vd fun x l =>
    let a := rdV x f.va l
    let env := envOf x
    let env := { env with sat := sat, mode := if rtz then .rm 1 else env.mode }
    let (v, fl) := byElem dst (fun a _ _ => cvtElem src dst env a) a.v 0 0
    ⟨v, fl, a.p⟩

/-! ## Packing (R258-R263) -/

/-- The 512-bit image of a register (R258). -/
def image (x : Seq) (n : BitVec 6) : Nat :=
  (List.range 16).foldl (fun z l => z + (rdV x n l).v.toNat * 2 ^ (32 * l)) 0
/-- Bits of an image. -/
def imgBits (img lo len : Nat) : Nat := img / 2 ^ lo % 2 ^ len
/-- An image with bits replaced. -/
def imgPut (img lo len v : Nat) : Nat := img - imgBits img lo len * 2 ^ lo + v % 2 ^ len * 2 ^ lo

/-- Position in the image of element p: bit offset and width, for a block by its CODE (R258). -/
def elemAt (fmt : PkFmt) (code p : Nat) : Nat × Nat :=
  match fmt with
  | .f16 | .b16 | .i16 => (16 * p, 16)
  | .f8e4 | .f8e5 | .i8 => (8 * p, 8)
  | .q4x => (4 * p, 4)
  | .bin1 => (p, 1)
  | .blk => if code = 0x18 then (16 + 4 * p, 4) else (16 + 8 * p, 8)

/-- A block code that names a described block with elements (R117, R120). -/
def blkCode (code : Nat) : Bool := code == 0x10 || code == 0x11 || code == 0x18

/-- Element count (R258). -/
def elemCount (fmt : PkFmt) (code : Nat) : Nat :=
  match fmt with
  | .f16 | .b16 | .i16 => 32
  | .f8e4 | .f8e5 | .i8 => 64
  | .q4x => 128
  | .bin1 => 512
  | .blk => if code = 0x18 then 120 else if blkCode code then 60 else 0

/-- Group exponent B + offset of the group of element p (R118, R119); SCALE and trailer T are given. -/
def groupExp (code scale t p : Nat) : Int :=
  let b : Int := (scale : Int) - 127
  let k := p / 24
  if code = 0x18 then b + sext 3 (t / 2 ^ (3 * k))
  else if k = 0 then b else if k = 1 then b + sext 3 t else b + sext 3 (t / 8)

/-- Conversion to a Q4X nibble's value with its overflow (R127): the integer −7 to 7, flags, and whether it overflowed. -/
def toQ4 (mode : RMode) (v : Fv) : Int × Flags × Bool :=
  match v with
  | .nan _ _ => (0, flNV, false)
  | .inf n => (if n then -7 else 7, flOF, true)
  | .fin n m e =>
    let (x, inexact) := roundInt mode n m e
    if x < -7 || 7 < x then (if n then -7 else 7, flOF ||| flNX, true) else (x, flIf inexact flNX, false)

/-- A value scaled by a power of two. -/
def Fv.scale (v : Fv) (k : Int) : Fv :=
  match v with
  | .fin n m e => .fin n m (e + k)
  | v => v

/-- A decoded value in a format (R126, R127): a NaN is carried from F32. -/
def encodeFv (dst : Fmt) (env : REnv) (bits : Nat) (v : Fv) : Nat × Flags :=
  match v with
  | .fin n m e => dst.round env n m e false
  | _ => cvtFloat fF32 dst env bits

/-- vpack of one lane (R260, R261): image and poison of its lanes afterwards, flags. -/
def packLane (fmt : PkFmt) (env : REnv) (code : Nat) (acc : Nat × BitVec 16 × Flags) (va vb : Lane) :
    Nat × BitVec 16 × Flags :=
  let (img, pois, fl) := acc
  let c := vb.v.toNat
  let p := c / 2 ^ 8 % 2 ^ 9
  let opt := c / 2 ^ 17 % 2 = 1
  if elemCount fmt code ≤ p then acc else
  let (lo, len) := elemAt fmt code p
  let poison (m : BitVec 16) (lo : Nat) : BitVec 16 := if va.p || vb.p then m ||| (1#16 <<< (lo / 32)) else m
  let put (y : Nat) (g : Flags) : Nat × BitVec 16 × Flags := (imgPut img lo len y, poison pois lo, fl ||| g)
  let k : Int := sext 8 c + (if fmt = .blk then groupExp code (imgBits img 8 8) (imgBits img 496 16) p else 0)
  let v := (flushIn env.ftz (fF32.decode va.v.toNat)).scale (-k)
  let pack (f : Fmt) (sat : Bool) : Nat × BitVec 16 × Flags :=
    let (y, g) := encodeFv f { env with sat := sat } va.v.toNat v
    put y g
  let packInt (w : Nat) : Nat × BitVec 16 × Flags :=
    let x := sext 32 va.v.toNat
    if !opt then put (intBits w x) 0
    else if x < intLo w true then put (intBits w (intLo w true)) flOF
    else if intHi w true < x then put (intBits w (intHi w true)) flOF
    else put (intBits w x) 0
  let packQ : Nat × BitVec 16 × Flags :=
    let n := if fmt = .q4x && p / 24 = 5 then 8 else 24
    let (y, g, ovf) := toQ4 env.mode v
    let fin := match v with | .fin _ _ _ => true | _ => false
    if opt && ovf && fin && p % 24 + 3 ≤ n then
      let (o, h) := encodeFv fF8E4 { env with sat := true } va.v.toNat v
      let img := imgPut (imgPut (imgPut img lo 4 8) (lo + 4) 4 o) (lo + 8) 4 (o / 16)
      let pois := poison (poison (poison pois lo) (lo + 4)) (lo + 8)
      if fmt = .blk then (imgPut img 511 1 1, poison pois 511, fl ||| h) else (img, pois, fl ||| h)
    else put (intBits 4 y) g
  match fmt with
  | .f16 => pack fF16 opt
  | .b16 => pack fB16 opt
  | .f8e4 => pack fF8E4 true
  | .f8e5 => pack fF8E5 false
  | .q4x => packQ
  | .bin1 => put (va.v.toNat / 2 ^ 31) 0
  | .i16 => packInt 16
  | .i8 => packInt 8
  | .blk => if code = 0x18 then packQ else if code = 0x10 then pack fF8E4 true else pack fF8E5 false

/-- A slot result that may raise FE: with FET = 1 the format error fault is taken instead (R122). -/
def checkFE (s : State) (fl : Flags) (ok : State) : State :=
  if fl.getLsbD 5 && (me s).fcsr.getLsbD 9 then fault s 19 (slotVal s) else ok

/-- R260, R204: latency 4; the whole image is written back. -/
def execVpack (f : VBin) (fmt : PkFmt) (s : State) : Out :=
  let x := me s
  let img := image x f.vd
  let code := img % 256
  let ls := active (rdQ x f.q)
  let pois := maskOf ((List.range 16).filter fun l => (rdV x f.vd l).p)
  let fe := flIf (fmt = .blk && !blkCode code && ls ≠ []) flFE
  let (img, pois, fl) := ls.foldl (fun acc l => packLane fmt (envOf x) code acc (rdV x f.va l) (rdV x f.vb l)) (img, pois, fe)
  let ws := (List.range 16).map fun l => LandW.lane f.vd.toNat l (BitVec.ofNat 32 (imgBits img (32 * l) 32)) (pois.getLsbD l)
  .next (checkFE s fl (result s 4 (ws ++ if fl = 0 then [] else [.flags fl])))

/-- A finite value rounded to F32 by vunpack: it overflows to an infinity in every rounding mode (R262). -/
def roundUnpacked (env : REnv) (n : Bool) (m : Nat) (e : Int) : Nat × Flags :=
  let (b, fl) := fF32.round env n m e false
  (if fl &&& flOF ≠ 0 then fF32.infBits n else b, fl)

/-- An element value times 2^k rounded to F32 (R262): the bits decoded in a format, the block scale kb applied first. -/
def unpackF (f : Fmt) (env : REnv) (b : Nat) (kb k : Int) : Nat × Flags :=
  let v := f.decode b
  match v with
  | .nan _ _ => cvtFloat f fF32 {} b
  | .inf n => (fF32.infBits n, 0)
  | .fin _ _ _ =>
    match flushIn env.ftz (v.scale kb) with
    | .fin n m e => roundUnpacked env n m (e + k)
    | _ => (0, 0)

/-- The nibbles of the scale group of element p, first nibble at bit `lo` (R113). -/
def groupNibbles (img lo n : Nat) : List Nat := (List.range n).map fun i => imgBits img (lo + 4 * i) 4

/-- Flags that the walk of a Q4X group raises (R114). -/
def walkFlags (l : List Nat) : Flags :=
  (q4Walk l).foldl (fun g v => g ||| match v with
    | .bad => flFE
    | .code c => flIf (c % 128 = 127) flNV
    | .small _ => 0) 0

/-- A decoded Q4X position times 2^kb times 2^k, rounded to F32. -/
def q4ToF32 (env : REnv) (v : QVal) (kb k : Int) : Nat × Flags :=
  match v with
  | .bad => (0, 0)
  | .small i =>
    match flushIn env.ftz (.fin (decide (i < 0)) i.natAbs kb) with
    | .fin n m e => roundUnpacked env n m (e + k)
    | _ => (0, 0)
  | .code c => if c % 128 = 127 then (fF32.canon, 0) else unpackF fF8E4 env c kb k

/-- vunpack of one lane (R262, R263): value, flags, and the lanes of va it read. -/
def unpackLane (fmt : PkFmt) (env : REnv) (img : Nat) (vb : W32) : Nat × Flags × List Nat :=
  let c := vb.toNat
  let p := c / 2 ^ 8 % 2 ^ 9
  let e : Int := sext 8 c
  let code := img % 256
  let blk := fmt = .blk
  let ends := if blk then [0, 15] else []
  if blk && code = 0 then (0, 0, ends)
  else if blk && !blkCode code then (0, flFE, ends)
  else if elemCount fmt code ≤ p then (0, flFE, ends)
  else
    let (lo, len) := elemAt fmt code p
    let b := imgBits img lo len
    let kb : Int := if blk then groupExp code (imgBits img 8 8) (imgBits img 496 16) p else 0
    let one (r : Nat × Flags) : Nat × Flags × List Nat := (r.1, r.2, (lo / 32) :: ends)
    let q4 : Nat × Flags × List Nat :=
      let n := if !blk && p / 24 = 5 then 8 else 24
      let glo := lo - 4 * (p % 24)
      let nib := groupNibbles img glo n
      let hint := flIf (blk && imgBits img 511 1 = 0 && q4HasMarker nib) flFE
      let (r, g) := q4ToF32 env ((q4Walk nib).getD (p % 24) (.small 0)) kb e
      (r, g ||| walkFlags nib ||| hint,
        ends ++ (List.range 16).filter fun l => glo / 32 ≤ l && l ≤ (glo + 4 * n - 1) / 32)
    match fmt with
    | .f16 => one (unpackF fF16 env b 0 e)
    | .b16 => one (unpackF fB16 env b 0 e)
    | .f8e4 => one (unpackF fF8E4 env b 0 e)
    | .f8e5 => one (unpackF fF8E5 env b 0 e)
    | .q4x => q4
    | .bin1 => one (if b = 0 then 0x3F800000 else 0xBF800000, 0)
    | .i16 => one (intBits 32 (sext 16 b), 0)
    | .i8 => one (intBits 32 (sext 8 b), 0)
    | .blk =>
      if code = 0x18 then q4 else
      let fe := flIf (imgBits img 502 10 ≠ 0) flFE
      let r := unpackF (if code = 0x10 then fF8E4 else fF8E5) env b kb e
      one (r.1, r.2 ||| fe)

/-- R262, R204: latency 4. -/
def execVunpack (f : VBin) (fmt : PkFmt) (s : State) : Out :=
  let x := me s
  let img := image x f.va
  let rs := (active (rdQ x f.q)).map fun l =>
    let c := rdV x f.vb l
    let (v, fl, ls) := unpackLane fmt (envOf x) img c.v
    (l, (⟨BitVec.ofNat 32 v, fl, c.p || ls.any fun k => (rdV x f.va k).p⟩ : LaneRes))
  .next (checkFE s (rs.foldl (fun g r => g ||| r.2.fl) 0) (laneResult s 4 f.vd rs))

/-! ## Lane movement (R264-R266) -/

/-- Source of lane l under a pattern (R264). -/
def permLane (x : Seq) (va : BitVec 6) (pat : PermPat) (k l : Nat) : Lane :=
  match pat with
  | .rot => rdV x va ((l + k) % 16)
  | .xor => rdV x va (Nat.xor l k)
  | .shd => if l + k < 16 then rdV x va (l + k) else {}
  | .rev => rdV x va (15 - l)
  | .zip => rdV x va (l % 2 * 8 + l / 2)
  | .uzp => rdV x va (l % 8 * 2 + l / 8)
  | .hsw => let a := rdV x va l; { a with v := (a.v <<< 16) ||| (a.v >>> 16) }

/-- R264. -/
def execVperm (f : VUn) (pat : PermPat) (k : BitVec 4) (s : State) : Out :=
  perLane s 4 f.q f.vd fun x l => let a := permLane x f.va pat k.toNat l; ⟨a.v, 0, a.p⟩
/-- R265: lane k, active or not. -/
def execVbcast (f : VUn) (k : BitVec 4) (s : State) : Out :=
  perLane s 4 f.q f.vd fun x _ => let a := rdV x f.va k.toNat; ⟨a.v, 0, a.p⟩
/-- R265. -/
def execVbcastS (f : VUn) (s : State) : Out :=
  perLane s 4 f.q f.vd fun x _ => let a := rdS x f.va; ⟨a.v.truncate 32, 0, a.p⟩
/-- R265: the low 16 bits in both halves. -/
def execVbcastH (f : VUn) (s : State) : Out :=
  perLane s 4 f.q f.vd fun x _ =>
    let a := rdS x f.va
    let h : W32 := a.v.truncate 32 &&& 0xFFFF
    ⟨h ||| (h <<< 16), 0, a.p⟩

/-- Cross-lane reads (R266): without Z an active lane that names an inactive one faults. -/
def crossLane (f : VBin) (z : Bool) (s : State) : Out :=
  let x := me s
  let q := rdQ x f.q
  let src (l : Nat) : Nat := (rdV x f.vb l).v.toNat % 16
  let bad := (active q).filter fun l => !q.getLsbD (src l)
  if bad ≠ [] && !z then .next (fault s 10 ((maskOf bad).zeroExtend 64)) else
  perLane s 4 f.q f.vd fun x l =>
    let c := rdV x f.vb l
    if q.getLsbD (src l) then let a := rdV x f.va (src l); ⟨a.v, 0, a.p || c.p⟩ else ⟨0, 0, c.p⟩

/-- R266. -/
def execVxlane (f : VBin) (s : State) : Out := crossLane f false s
/-- R266: the permissive form. -/
def execVxlaneZ (f : VBin) (s : State) : Out := crossLane f true s

/-! ## Reductions and scans (R267) -/

/-- One combining step (R267). -/
def redStep (op : RedOp) (ty : VType) (env : REnv) (a b : W32) : W32 × Flags :=
  match op with
  | .add => byElem ty (arith .add ty env) a b 0
  | .min => byElem ty (arith .min ty env) a b 0
  | .max => byElem ty (arith .max ty env) a b 0
  | .and => (a &&& b, 0)
  | .or => (a ||| b, 0)
  | .xor => (a ^^^ b, 0)

/-- Two places of the tree of R267; an absent place takes no part. -/
def redPair (op : RedOp) (ty : VType) (env : REnv) (a b : Option (W32 × Flags)) : Option (W32 × Flags) :=
  match a, b with
  | x, none => x
  | none, y => y
  | some (x, f), some (y, g) => let (v, h) := redStep op ty env x y; some (v, f ||| g ||| h)

/-- One level of the tree: neighbours combined. -/
def redLevel (op : RedOp) (ty : VType) (env : REnv) : List (Option (W32 × Flags)) → List (Option (W32 × Flags))
  | a :: b :: r => redPair op ty env a b :: redLevel op ty env r
  | l => l

/-- R267: the fixed tree over the active lanes. -/
def execVred (f : VUn) (op : RedOp) (ty : VType) (s : State) : Out :=
  let x := me s
  let q := rdQ x f.q
  let ls := active q
  let l0 := (List.range 16).map fun l => if q.getLsbD l then some ((rdV x f.va l).v, (0 : Flags)) else none
  let lv := redLevel op ty (envOf x)
  match lv (lv (lv (lv l0))) with
  | some (v, fl) :: _ =>
    let p := ls.any fun l => (rdV x f.va l).p
    .next (laneResult s 6 f.vd (ls.map fun l => (l, ⟨v, fl, p⟩)))
  | _ => .next (laneResult s 6 f.vd [])

/-- Identity of a scan (R267). -/
def scanStart (op : RedOp) (ty : VType) : W32 :=
  match op, ty with
  | .add, _ => 0
  | .min, .f32 => 0x7F800000
  | .max, .f32 => 0xFF800000
  | .min, .i32 => 0x7FFFFFFF
  | .max, .i32 => 0x80000000
  | .min, _ => 0xFFFFFFFF
  | .max, _ => 0
  | .and, _ => 0xFFFFFFFF
  | .or, _ => 0
  | .xor, _ => 0

/-- The scan over the lanes left: accumulator, its poison; results in lane order; flags. -/
def scanGo (op : RedOp) (ty : VType) (env : REnv) (excl : Bool) (v : Nat → Lane) : List Nat → W32 → Bool → List (Nat × LaneRes)
  | [], _, _ => []
  | l :: r, acc, p =>
    let a := v l
    let (n, fl) := redStep op ty env acc a.v
    (l, if excl then ⟨acc, fl, p⟩ else ⟨n, fl, p || a.p⟩) :: scanGo op ty env excl v r n (p || a.p)

/-- R267: ascending lanes with one accumulator. -/
def execVscan (f : VUn) (op : RedOp) (excl : Bool) (ty : VType) (s : State) : Out :=
  let x := me s
  .next (laneResult s 6 f.vd (scanGo op ty (envOf x) excl (rdV x f.va) (active (rdQ x f.q)) (scanStart op ty) false))

end Sys2Proof.Machine
end

