-- ==== Sys2Proof/Machine/Coherence.lean ====
section
/-! DEFINITION. Word registration between the levels: loads and stores at an L1 and the messages between levels (R45-R51),
home writes (R52), invalidation (R53-R55), atomics (R56, R57), lost owners (R58-R62) and host lines (R63, R64). -/
namespace Sys2Proof.Machine

/-- A word stands Held at a place with a value that comes from another one, where a check may have found it bad (R44, R107); at its home the
line is used by it, and may grow (R100). -/
def holdAt (s : State) (p w : Nat) (x : Lane) (bad : Bool) : State :=
  let s := setLvl s p w (.held x.v x.p)
  let s := if bad then { s with bad := mset false s.bad (lkey p w) true } else s
  if p = plHome (homeChip (4 * w)) && !isHostPa (4 * w) then l2Use s (4 * w) none true else s

/-- The value that a place holds has an uncorrectable error; what stands in an L1 has none (R58, R107). -/
def badFrom (s : State) (h w : Nat) : Bool := 0x200 ≤ h && badAt s h w

/-- A message that has to wait goes back to the head of the network: later messages for its word wait behind it. -/
def requeue (s : State) (i : Instr) : State := { s with net := i :: s.net }

/-- A core below a place. -/
def coreUnder (p : Nat) : Nat :=
  if p < 0x200 then p else if p < 0x400 then 8 * (p - 0x200) else if p < 0x600 then 16 * (p - 0x400)
  else if p < 0x800 then 64 * (p - 0x600) else 64 * (p - 0x800)

/-- The levels above a place up to and including `src`: those a forwarded read has locked (R51). -/
def pathAbove (p src w : Nat) : List Nat :=
  let c := chain (coreUnder p) w
  let c := if p < 0x200 then c else (c.dropWhile fun q => q ≠ p).drop 1
  if c.contains src then c.takeWhile (fun q => q ≠ src) ++ [src] else [src]

/-- The place is the top of the word's chain on this module (R41). -/
def isTop (p w : Nat) : Bool := if isHostPa (4 * w) then p = plGw 0 || p = plGw 1 else p = plHome (homeChip (4 * w))

/-- The level below a place on core k's chain for a word: the identifier that the place stores for that core (R43, R46). -/
def childOf (k w p : Nat) : Nat := ((chain k w).takeWhile fun q => q ≠ p).getLastD k

/-! ## Hotness counters (R105) -/

/-- Counts in a task's hotness buffer. -/
def chargeHot (s : State) (t buf : Nat) (f : Hot → Hot) : State :=
  match mlook s.tasks t with
  | none => s
  | some x => { s with tasks := mput s.tasks t { x with hot := mput x.hot buf (f (mget {} x.hot buf)) } }

/-- Bytes moved, saturating. -/
def Hot.addBytes (n : Nat) (h : Hot) : Hot := { h with bytes := min (2 ^ 48 - 1) (h.bytes + n) }
/-- Stall bundle times, saturating. -/
def Hot.addStall (n : Nat) (h : Hot) : Hot := { h with stall := min (2 ^ 32 - 1) (h.stall + n) }
/-- One cascade, saturating. -/
def Hot.addCasc (h : Hot) : Hot := { h with casc := min (2 ^ 16 - 1) (h.casc + 1) }

/-- Bytes charged to a buffer of the task of core k. -/
def chargeBytes (s : State) (k buf n : Nat) : State :=
  match (core s k).task with
  | none => s
  | some t => chargeHot s t buf (Hot.addBytes n)

/-- A charge to the task and buffer that last used an L2 line. -/
def chargeLine (s : State) (x : L2Line) (f : Hot → Hot) : State := if x.task = 0 then s else chargeHot s (x.task - 1) x.buf f

/-- The task and buffer of the last use of a line at its home, counted there or on its way. -/
def lastUse (s : State) (line : Nat) : Option (Nat × Nat) :=
  match s.l2q.reverse.find? fun u => u.line = line && u.task ≠ 0 with
  | some u => some (u.task - 1, u.buf)
  | none => match mlook s.l2 line with
    | some x => if x.task = 0 then none else some (x.task - 1, x.buf)
    | none => none

/-- A word that is written through to HBM is charged to the last user of its line (R105). -/
def chargeThrough (s : State) (w : Nat) : State :=
  match lastUse s (w / 32) with
  | some (t, b) => chargeHot s t b (Hot.addBytes 4)
  | none => s

/-! ## Values that arrive (R50, R182) -/

/-- Word `w` (PA / 4) arrives at an element that waits for it. -/
def LateElem.take (e : LateElem) (w : Nat) (x : Lane) (err : LandErr) : LateElem :=
  if w < e.w || e.w + e.words.length ≤ w || (e.words.getD (w - e.w) none).isSome then e
  else { e with words := e.words.set (w - e.w) (some x), err := if err = .none then e.err else err }

/-- A word of a late access arrives, at every element of the access that names it (R74); an error makes its elements 0, poisoned (R283,
R377). -/
def fillLate (s : State) (k q tag elem wi : Nat) (x : Lane) (err : LandErr) : State :=
  modSeq s k q fun y => { y with lates := y.lates.map fun l =>
    if l.tag ≠ tag || l.elems.length ≤ elem then l else
    { l with elems := l.elems.map fun e => e.take ((l.elems.getD elem {}).w + wi) x err } }

/-- R182: a value that arrives ends the freeze that waits for it; an error becomes a landing fault (R377). -/
def execLoadValueArrives (core seq tag elem wi : Nat) (v : W32) (poison : Bool) (err : LandErr) (s : State) : Out :=
  .next (fillLate s core seq tag elem wi ⟨v, poison⟩ err)

/-- An atomic that fails returns 0, poisoned, with its landing fault. -/
def atomError (s : State) (a : AtomReq) (err : LandErr) : State :=
  if a.kind = .signal then s else (List.range (if a.wide then 2 else 1)).foldl (fun s i =>
    send s (.loadValueArrives a.core a.seq a.tag 0 i 0 true err)) s

/-- Atomics that wait at core k's L1 for a word end with an error. -/
def failAtomics (s : State) (k w : Nat) (err : LandErr) : State :=
  let mine (m : Instr) : Option AtomReq := match m with
    | .atomicExecute p x a => if p = k && (x = w || (a.wide && x + 1 = w)) then some a else none
    | _ => none
  (s.net.filterMap mine).foldl (fun s a => atomError s a err) { s with net := s.net.filter fun m => (mine m).isNone }

/-! ## Lost owners (R58-R62) -/

/-- OWN_LOGA and OWN_LOGB of the chiplet charged with a loss: the home's, or that of the host gateway of the owner's chain (R62). -/
def recordLoss (s : State) (w cause owner : Nat) : State :=
  let pa := 4 * w
  let c := if isHostPa pa then 4 * retOf (coreUnder owner) else homeChip pa
  let b := bumpField (rdReg s (.ownLogB c)) 0 32 1
  let s := logErr s 5 c [BitVec.ofNat 64 pa, BitVec.ofNat 64 cause, BitVec.ofNat 64 owner]
  if bit b 63 then wrReg s (.ownLogB c) b
  else
    let b := setBits (setBits (setBits b 63 1 1) 60 3 cause) 48 12 owner
    wrReg (wrReg s (.ownLogA c) (BitVec.ofNat 64 pa)) (.ownLogB c) b

/-- A protected line has a record before a loss poisons it, so that a restore brings its committed value back (R60, R161). -/
def recordPoison (s : State) (line : Nat) : State :=
  match jRecord s line false with
  | some s => s
  | none => { s with group := { s.group with journal := mput s.group.journal line ⟨false, memLine s line⟩ } }

/-- A word's owner is lost (R59, R60): every level of the lost path clears its entry, the home is Poisoned, the loss is
recorded, and a protected word aborts the round. -/
def loseWord (s : State) (w : Nat) (path : List Nat) (owner cause : Nat) : State :=
  let path := path ++ chain (coreUnder owner) w ++ (match topOf s w with | some p => [p] | none => [])
  let s := path.foldl (fun s p => delLvl s p w) s
  let s := if protectedPa s (4 * w) then recordPoison s (w / 32) else s
  let s := setMemWord s w ⟨(memWord s w).v, true⟩
  let s := recordLoss { s with ownReq := mdel s.ownReq w } w cause owner
  if protectedPa s (4 * w) then abortRound s 3 else s

/-! ## Replies -/

/-- The value of a registration with fetch reaches its L1, which merges its bytes (R46); its poison stays unless one store covered
the word (R60). -/
def mergeFetch (s : State) (k w : Nat) (x : Lane) : State :=
  match l1At s k w with
  | some ⟨.pend mask whole, v, p⟩ => setL1 s k w ⟨.o, mergeW x.v v mask, p || (!whole && x.p)⟩
  | _ => s

/-- The stores of a core that wait for the registration of a word take a fault at their next boundary (R59, R377). -/
def faultStores (s : State) (k w cause : Nat) : State :=
  ((core s k).outst.filter fun o => o.w = w && o.slot ≠ 0).foldl (fun s o =>
    modSeq s k o.seq fun x => { x with boundary := x.boundary ++ [⟨cause, memVal o.slot o.va⟩] }) s

/-- The levels of core k's chain that name it for a word clear their entries, and its L1 word goes. -/
def unregister (s : State) (k w : Nat) : State :=
  let s := ((chain k w).foldl (fun (s, q) p => if lvlAt s p w = some (.owner q) then (delLvl s p w, p) else (s, p)) (s, k)).1
  delL1 (modCore s k fun c => { c with outst := c.outst.filter fun o => o.w ≠ w }) k w

/-- A registration with fetch whose owner is lost: whoever needed the word takes the owner-lost fault, and nothing stays registered
(R59). -/
def failFetch (s : State) (k w : Nat) : State :=
  failAtomics (unregister (faultStores s k w 9) k w) k w .ownerLost

/-- A registration with fetch whose value has an uncorrectable error: the word stays poisoned and the fault is taken at the next
boundary; an atomic that alone asked for it takes the error (R107, R377). -/
def fetchError (s : State) (k w : Nat) : State :=
  match l1At s k w with
  | some ⟨.pend 0 _, _, _⟩ => failAtomics (unregister s k w) k w .uncorrectable
  | _ => faultStores (mergeFetch s k w ⟨0, true⟩) k w 18

/-- An error for whoever asked. -/
def replyError (s : State) (w : Nat) (ret : Ret) (err : LandErr) : State :=
  match ret with
  | .load k q tag elem wi _ => send s (.loadValueArrives k q tag elem wi 0 true err)
  | .l1 k => if err = .ownerLost then failFetch s k w else fetchError s k w
  | _ => s

/-- The REGION under which an answer is asked for (R53). -/
def reached (s : State) (p w : Nat) (ret : Ret) : State :=
  match ret with
  | .load _ _ _ _ _ region => reachLvl s p w region
  | _ => s

/-- Copies installed as a reply passes down core k's chain below `src` (R50, R53), but where an acquire has passed (R55). -/
def installCopies (s : State) (k w region src : Nat) (x : Lane) (skip : BitVec 3) : State :=
  let below := (chain k w).takeWhile fun p => p ≠ src
  let s := below.foldl (fun s p =>
    if (0x600 ≤ p && p < 0x800) || (p < 0x400 && skip.getLsbD 1) || (0x400 ≤ p && p < 0x600 && skip.getLsbD 2) then s else
    match lvlAt s p w with
    | none => setLvl (reachLvl s p w region) p w (.copy x.v x.p)
    | some (.copy _ _) => setLvl (reachLvl s p w region) p w (.copy x.v x.p)
    | _ => s) s
  if skip.getLsbD 0 then s else
  match l1At s k w with
  | none => setL1 (reachL1 s k w region) k w ⟨.v, x.v, x.p⟩
  | some ⟨.v, _, _⟩ => setL1 (reachL1 s k w region) k w ⟨.v, x.v, x.p⟩
  | _ => s

/-- A reply passes down the requester's chain, installs copies and unlocks the word (R50, R51, R55). -/
def passReply (s : State) (w src : Nat) (ret : Ret) (x : Lane) (skip : BitVec 3) (locks : List Nat) : State :=
  let s := { unlockAll s locks w with ownReq := mdel s.ownReq w }
  match ret with
  | .none => s
  | .own _ => s
  | .load k q tag elem wi region => send (installCopies s k w region src x skip) (.loadValueArrives k q tag elem wi x.v x.p .none)
  | .l1 k => mergeFetch s k w x
  | .hold p => setLvl s p w (.held x.v x.p)

/-- A value for whoever asked, from the level `src`: its reply passes in the event that reads it, so that no copy older than
another on its way is left behind (R74, R75; log entry 30). -/
def reply (s : State) (w src : Nat) (ret : Ret) (x : Lane) (locks : List Nat) : State := passReply s w src ret x 0 locks

/-- R50, R51, R55: a reply on its way passes; the caches an acquire has invalidated after the read take no copy. -/
def execReadReply (w src : Nat) (ret : Ret) (v : W32) (poison : Bool) (skip : BitVec 3) (locks : List Nat) (s : State) : Out :=
  .next (passReply s w src ret ⟨v, poison⟩ skip locks)

/-- The requester of a lost word takes the owner-lost fault (R59). -/
def ownerLost (s : State) (w : Nat) (path : List Nat) (owner cause : Nat) (ret : Ret) (locks : List Nat) : State :=
  replyError (loseWord (unlockAll s locks w) w path owner cause) w ret .ownerLost

/-- R51: an L1 answered that it does not hold the word: a write-back that came before serves the read, else the owner is
lost. -/
def execNotHeldAnswer (w at_ src : Nat) (ret : Ret) (locks : List Nat) (s : State) : Out :=
  let u := unlockAll s locks w
  .next (if isTop src w && dropsPa s (4 * w) then replyError u w ret .uncorrectable else
  match follow u w 6 src [] with
  | .val x h _ => if badFrom u h w then replyError u w ret .uncorrectable else reply u w src ret x []
  | .busy => requeue s (.notHeldAnswer w at_ src ret locks)
  | .lost path id cause =>
    match lvlAt u src w with
    | some (.owner _) => ownerLost s w path id cause ret locks
    | _ => if isTop src w then reply u w src ret (memWord s w) [] else send u (.forwardedRead w (plHome (homeChip (4 * w))) (plHome (homeChip (4 * w))) ret))

/-! ## Host lines (R63, R64) -/

/-- The words of a line. -/
def lineWords (line : Nat) : List Nat := (List.range 32).map fun i => 32 * line + i

/-- Folds a step that may have to wait. -/
def foldOpt (f : State → Nat → Option State) : State → List Nat → Option State
  | s, [] => some s
  | s, w :: r => match f s w with
    | none => none
    | some s => foldOpt f s r

/-- A word below a place comes back into memory: the holder's L1 keeps it as V and the entries below are cleared (R49). -/
def recallToMem (p : Nat) (s : State) (w : Nat) : Option State :=
  match lvlAt s p w with
  | none => some s
  | some (.copy _ _) => some s
  | _ =>
    match follow s w 6 p [] with
    | .busy => none
    | .val x h path =>
      let bad := badFrom s h w
      let s := path.foldl (fun s q => delLvl s q w) { s with ownReq := mdel s.ownReq w }
      let s := if h < 0x200 then setL1 s h w ⟨.v, x.v, x.p⟩ else delLvl s h w
      let s := setMemWord s w x
      some (notify (if bad then { s with bad := mset false s.bad w true } else s) w)
    | .lost path id cause => some (loseWord s w path id cause)

/-- A gateway gives a line back to the host (R64); none while a word of it is under way. -/
def gwReturn (s : State) (g line : Nat) : Option State :=
  match foldOpt (recallToMem (plGw g)) s (lineWords line) with
  | none => none
  | some s => some { s with gw := mdel s.gw (lkey g line) }

/-- What a gateway has made of a line that a request needs. -/
inductive GwRes where
  | got (s : State)
  | wait
  /-- the host is needed, and a port it takes is not Up (R370) -/
  | down

/-- Gateway g holds a host-homed line for a request, owned where the request registers or writes below it: a line that it holds needs no
host; the other gateway gives an owned line back first (R64, R370). -/
def gwTake (s : State) (g line : Nat) (own : Bool) : GwRes :=
  let mine := mlook s.gw (lkey g line)
  let other := mlook s.gw (lkey (1 - g) line)
  if mine = some .owned || (mine = some .shared && !own) then .got s
  else if !hostUp s g || (other = some .owned && !hostUp s (1 - g)) then .down
  else match (if other = some .owned then gwReturn s (1 - g) line else some s) with
    | none => .wait
    | some s =>
      let s := if own then { s with gw := mdel s.gw (lkey (1 - g) line) } else s
      .got { s with gw := mput s.gw (lkey g line) (if own then .owned else .shared) }

/-- The other words of a device line that the host owns come back to their home before a device writes a word of it (R63); none while
one is under way. -/
def hostBack (s : State) (w : Nat) : Option State :=
  if isHostPa (4 * w) then some s else
  let home := plHome (homeChip (4 * w))
  foldOpt (fun s x =>
    if x = w then some s else
    match lvlAt s home x with
    | some (.owner q) =>
      if q < 0x800 then some s else
      match follow s x 6 home [] with
      | .busy => none
      | .val v h _ => some (notify (holdAt (delLvl { s with ownReq := mdel s.ownReq x } q x) home x v (badFrom s h x)) x)
      | .lost path id cause => some (loseWord s x path id cause)
    | _ => some s) s (lineWords (w / 32))

/-- An access waits for owners of a line below a place: OWN_TMO runs for each (R58). -/
def askBelow (s : State) (p line : Nat) : State :=
  (lineWords line).foldl (fun s w => match lvlAt s p w with
    | some (.owner _) => askOwner s w
    | _ => s) s

/-- The same for an access at the home of a word's line, or at the gateway that owns it. -/
def askLine (s : State) (w : Nat) : State := match topOf s w with
  | some p => askBelow s p (w / 32)
  | none => s

/-- R64: the host recalls a line: its registered words come back and the whole line returns. -/
def execHostLineRecall (port line : Nat) (s : State) : Out :=
  if mlook s.gw (lkey port line) = some .owned then
    .next ((gwReturn s port line).getD (requeue (askBelow s (plGw port) line) (.hostLineRecall port line)))
  else .next { s with gw := mdel s.gw (lkey port line) }

/-- R64: the host invalidates a shared line; an owned one is recalled, never invalidated. -/
def execHostLineInvalidate (port line : Nat) (s : State) : Out :=
  if mlook s.gw (lkey port line) = some .shared then .next { s with gw := mdel s.gw (lkey port line) } else .next s

/-! ## Accesses that wait at their homes (R65, R66, R93, R97, R155) -/

/-- The words of a page that an access at a home concerns. -/
def homeWordOf : Instr → Option Nat
  | .homeWrite h => some h.w
  | .registration _ w p _ _ _ => if isTop p w then some w else none
  | .atomicExecute p w _ => if 0x400 ≤ p then some w else none
  | .peerWriteArrival m => match m.body with
    | .words (h :: _) => some h.w
    | .atomic w _ => some w
    | _ => none
  | .orderedContribution o => o.words.head?
  | .collectivePayload p => p.word
  | _ => none

/-- An access at the home is a write to memory or an atomic, which a protected page holds outside Running (R93, R155). -/
def isHomeWrite : Instr → Bool
  | .registration .. => false
  | _ => true

/-- An access that reaches its home has to wait there: its page moves (R65), or is protected while the group does not run (R93, R155). -/
def pageHolds (s : State) (m : Instr) : Bool :=
  match homeWordOf m with
  | none => false
  | some w => !dropsPa s (4 * w) && (movingPa s (4 * w) || (isHomeWrite m && protectedPa s (4 * w) && pgState s ≠ 2))

/-- The word for which an access needs a burst of HBM: a read at the home, a write there, an atomic (R97). -/
def burstOf (s : State) (m : Instr) : Option Nat :=
  let read (w : Nat) : Option Nat :=
    if isHostPa (4 * w) || inL2 s (4 * w) || (lvlAt s (plHome (homeChip (4 * w))) w).isSome then none else some w
  match m with
  | .forwardedRead w p src _ => if p = src && isTop p w then read w else none
  | .registration _ w p ask _ _ => if isTop p w && ask.fetch then read w else none
  | .atomicExecute p w _ => if 0x400 ≤ p then read w else none
  | .homeWrite h => some h.w
  | .peerWriteArrival x => match x.body with
    | .words (h :: _) => some h.w
    | .atomic w _ => read w
    | _ => none
  | _ => none

/-- The channel of a word. -/
def channelAt (w : Nat) : Nat := 32 * stackOf (4 * w) + channelOf (stackOff (4 * w))

/-- The controller holds the burst of an access: a lane group is repaired, or the stack is in thermal self-refresh (R97, R98). -/
def burstHolds (s : State) (m : Instr) : Bool :=
  match burstOf s m with
  | none => false
  | some w => hbmRes s (4 * w) = .held

/-- An access that reaches its home has to wait there. -/
def mustHold (s : State) (m : Instr) : Bool := pageHolds s m || burstHolds s m

/-- A held burst of the channel comes before this one (R97). -/
def burstBefore (s : State) (m : Instr) : Bool :=
  match burstOf s m with
  | none => false
  | some w => isHbm (4 * w) && s.held.any fun x => match burstOf s x with
    | none => false
    | some y => isHbm (4 * y) && channelAt y = channelAt w

/-- An earlier access waits, and this one comes behind it: accesses to one page, writes to protected pages, and bursts of one channel perform
in order of arrival (R66, R93, R97, R155). -/
def heldBefore (s : State) (m : Instr) : Bool :=
  burstBefore s m || match homeWordOf m with
  | none => false
  | some w => !dropsPa s (4 * w) && s.held.any fun x =>
    match homeWordOf x with
    | none => false
    | some y => w / 16384 = y / 16384 || (isHomeWrite m && isHomeWrite x && protectedPa s (4 * w) && protectedPa s (4 * y))

/-- A landing that takes a word for an atomic reaches a home whose page moves: the atomic waits there (R65). -/
def waitsMove (s : State) (m : Instr) : Bool :=
  match m with
  | .atomicExecute p w a => 0x200 ≤ p && p < 0x400 && (movingPa s (4 * w) || (a.wide && movingPa s (4 * (w + 1))))
  | _ => false

/-! ## Reads (R50) -/

/-- The entry of a core's registration of a word that is not complete (R47). -/
def regEntry (c : Core) (w : Nat) : Option Outst := c.outst.find? fun o => o.w = w && !o.acked.contains 0x2000

/-- The hotness charge of a read: its core's task and the buffer of its access (R105). -/
def retCharge (s : State) (w : Nat) (ret : Ret) : Option (Nat × Nat) :=
  match ret with
  | .load k q tag i _ _ => match (core s k).task, (seqOf s k q).lates.find? fun l => l.tag = tag with
    | some t, some l => some (t, (l.elems.getD i {}).buf)
    | _, _ => none
  | .l1 k => (core s k).task.map fun t => (t, (regEntry (core s k) w).elim 0 (·.buf))
  | _ => none

/-- A read at the top of its chain, where no entry stands, is answered: by memory, or by the L2 or the gateway that has the line (R44, R97,
R98, R370, R417). -/
def topNow (s : State) (p w : Nat) (ret : Ret) : State :=
  let pa := 4 * w
  let m := Instr.forwardedRead w p p ret
  if isHostPa pa then
    match gwTake s (p - 0x800) (w / 32) false with
    | .down => replyError s w ret .uncorrectable
    | .wait => send (askBelow s (plGw (1 - (p - 0x800))) (w / 32)) m
    | .got s => reply s w p ret (memWord s w) []
  else if dropsPa s pa then replyError s w ret .uncorrectable
  else match hbmRead s pa with
    | .held => { s with held := s.held ++ [m] }
    | .failed => replyError s w ret .uncorrectable
    | .served =>
      let s := l2Use (touchReads s [w]) pa (retCharge s w ret) false
      if badAt s 0x2000 w then replyError s w ret .uncorrectable else reply s w p ret (memWord s w) []

/-- A read reaches the top of its chain: it waits behind the bursts that its channel holds, or is answered (R97). -/
def topServe (s : State) (p w : Nat) (ret : Ret) : State :=
  let m := Instr.forwardedRead w p p ret
  if burstBefore s m then { s with held := s.held ++ [m] } else topNow s p w ret

/-- A Held word is served, or its error is met (R44, R107); at the home its line is used (R100). -/
def heldServe (s : State) (p w src : Nat) (ret : Ret) (x : Lane) (locks : List Nat) : State :=
  let s := if isTop p w then l2Use s (4 * w) (retCharge s w ret) false else s
  if badAt s p w then replyError (unlockAll s locks w) w ret .uncorrectable else reply s w src ret x locks

/-- A read climbs the levels of its chain until one serves it or names the owner (R50); at the home of a protected line in Isolated and
Lost it ends (R417). -/
def climb (s : State) (w : Nat) (ret : Ret) : List Nat → State
  | [] => s
  | p :: up =>
    if isTop p w && dropsPa s (4 * w) then replyError s w ret .uncorrectable else
    match lvlAt s p w with
    | some (.copy v z) => if isTop p w then topServe s p w ret else reply (reached s p w ret) w p ret ⟨v, z⟩ []
    | some (.held v z) => heldServe (reached s p w ret) p w p ret ⟨v, z⟩ []
    | some (.owner q) =>
      let s := { s with ownReq := if (mlook s.ownReq w).isSome then s.ownReq else mput s.ownReq w s.clk }
      send (lockAll s [p] w) (.forwardedRead w q p ret)
    | none => if up.isEmpty then topServe s p w ret else climb s w ret up

/-- A read that has waited at the top of its chain goes on from there (R97). -/
def readNow (s : State) (p w : Nat) (ret : Ret) : State :=
  match lvlAt s p w with
  | none => topNow s p w ret
  | some (.copy _ _) => topNow s p w ret
  | _ => climb s w ret [p]

/-- R50, R51: a read forwarded to an owner. -/
def execForwardedRead (w at_ src : Nat) (ret : Ret) (s : State) : Out :=
  let locks := pathAbove at_ src w
  let again := requeue s (.forwardedRead w at_ src ret)
  .next (if at_ = src then climb s w ret [at_]
  else if isTop src w && dropsPa s (4 * w) then replyError (unlockAll s locks w) w ret .uncorrectable
  else if s.deadChips.contains (placeChip at_) then (if ownerDue s w then ownerLost s w [] at_ 4 ret locks else again)
  else if viaPort at_ w && !hostUp s (at_ - 0x800) then
    if portState s (24 + (at_ - 0x800)) ≠ 3 then ownerLost s w [] at_ 3 ret locks
    else if ownerDue s w then ownerLost s w [] at_ 2 ret locks else again
  else if at_ < 0x200 then
    match l1At s at_ w with
    | some ⟨.o, v, z⟩ => reply s w src ret ⟨v, z⟩ locks
    | some ⟨.pend _ _, _, _⟩ => again
    | _ => send s (.notHeldAnswer w at_ src ret locks)
  else match lvlAt s at_ w with
    | some (.owner q) => send (lockAll s [at_] w) (.forwardedRead w q src ret)
    | some (.held v z) => heldServe s at_ w src ret ⟨v, z⟩ locks
    | _ => send s (.notHeldAnswer w at_ src ret locks))

/-- One word of a load at core k (R45, R50): a hit gives its value at once, a miss fills the line. -/
def loadWord (s : State) (k q tag elem wi w region : Nat) : State :=
  if spaceOf (4 * w) = 3 then fillLate s k q tag elem wi (memWord s w) .none
  else if (core s k).l1err.contains w then
    send (modCore s k fun c => { c with l1err := c.l1err.erase w }) (.loadValueArrives k q tag elem wi 0 true .uncorrectable)
  else match l1At s k w with
  | some x => fillLate (reachL1 s k w region) k q tag elem wi ⟨x.v, x.p⟩ .none
  | none =>
    let s := climb s w (.load k q tag elem wi region) (chain k w)
    (lineWords (w / 32)).foldl (fun s x =>
      if x = w || (l1At s k x).isSome then s else climb s x (.load k q 0 0 0 region) (chain k x)) s

/-! ## Stores and registration (R45-R48) -/

/-- The latest entry of a word and those that have joined it. -/
def lastGroup (l : List Outst) (w : Nat) : List Outst :=
  (l.filter fun o => o.w = w).foldl (fun g o => if o.join then g ++ [o] else [o]) []

/-- A store that finds the word registered by its core while that registration is still being acknowledged is performed with
it (R47). -/
def joinStore (c : Core) (o : Outst) : Core :=
  let g := lastGroup c.outst o.w
  match g.getLast? with
  | none => c
  | some l => if g.any fun x => x.seq = o.seq && x.slot = o.slot then c else { c with outst := c.outst ++ [{ o with acked := l.acked, join := true }] }

/-- One word of a store at core k (R45, R46, R60, R277). -/
def storeWord (s : State) (k q w : Nat) (mask : BitVec 4) (data : Lane) (va slot region buf : Nat) : State :=
  let s := reachL1 (sink s k) k w region
  let o : Outst := { w := w, seq := q, va := va, slot := slot, region := region, buf := buf, tag0 := (seqOf s k q).tag0 }
  let reg (fetch : Bool) (s : State) : State :=
    send (modCore s k fun c => { c with outst := c.outst ++ [o], l1err := c.l1err.erase w })
      (.registration k w (plLanding (layerOf k)) ⟨fetch, false⟩ k q)
  match l1At s k w with
  | some ⟨.o, v, p⟩ =>
    modCore (setL1 s k w ⟨.o, mergeW v data.v mask, data.p || (mask ≠ 15 && p)⟩) k fun c => joinStore c o
  | some ⟨.pend m whole, v, p⟩ =>
    modCore (setL1 s k w ⟨.pend (m ||| mask) (whole || mask = 15), mergeW v data.v mask, data.p || (mask ≠ 15 && p)⟩) k fun c => joinStore c o
  | _ =>
    if mask = 15 then reg false (setL1 s k w ⟨.o, data.v, data.p⟩)
    else reg true (setL1 s k w ⟨.pend mask false, data.v, data.p⟩)

/-- A registration of word w is still climbing, or waits for its displacement. -/
def climbing (s : State) (w : Nat) : Bool := (s.net ++ s.held).any fun m =>
  match m with
  | .registration _ x _ ask _ _ => x = w || (ask.wide && x + 1 = w)
  | .displacement x _ _ _ => x = w
  | _ => false

/-- A store is performed at the meeting point of a scope (R47). -/
def Outst.performed (s : State) (k : Nat) (o : Outst) (scope : Nat) : Bool :=
  (scope ≤ 1) || o.acked.contains (meetOf k o.w scope) || (o.acked.contains 0x2000 && !climbing s o.w)

/-- The acknowledgement of the oldest registration of a word that is not complete (R47). -/
def ackOutst (l : List Outst) (w : Nat) (upd : Outst → Outst) : List Outst :=
  (l.foldl (fun (ph, acc) o =>
    if o.w ≠ w then (ph, acc ++ [o])
    else if ph = 0 then (if o.acked.contains 0x2000 then (0, acc ++ [o]) else (1, acc ++ [upd o]))
    else if ph = 1 && o.join then (1, acc ++ [upd o]) else (2, acc ++ [o])) ((0, []) : Nat × List Outst)).2

/-- Writes of a core that are performed everywhere are no longer listed (R47). -/
def doneOutst (s : State) (c : Core) : Core := { c with outst := c.outst.filter fun o => !(o.acked.contains 0x2000 && !climbing s o.w) }

/-- R47: a level acknowledges a registration to the registering L1. -/
def execRegistrationAck (org w at_ : Nat) (last : Bool) (s : State) : Out :=
  .next (modCore s org fun c => doneOutst s { c with
    outst := ackOutst c.outst w fun o => { o with acked := o.acked ++ (if last then [at_, 0x2000] else [at_]) } })

/-- A registration refused at its home or gateway: the L1 word becomes O and poisoned, with no fault; an atomic that alone
asked for it takes the error (R370, R417). -/
def refuseReg (s : State) (core_ w : Nat) : State :=
  match l1At s core_ w with
  | some ⟨.pend 0 _, _, _⟩ => failAtomics (unregister s core_ w) core_ w .uncorrectable
  | some x => setL1 (modCore s core_ fun c => { c with outst := c.outst.filter fun o => o.w ≠ w }) core_ w { x with st := .o, p := true }
  | none => modCore s core_ fun c => { c with outst := c.outst.filter fun o => o.w ≠ w }

/-- The task and buffer charged for a registration (R105). -/
def regCharge (s : State) (k w : Nat) : Option (Nat × Nat) := retCharge s w (.l1 k)

/-- A registration is recorded at a level (R46): where the level names another owner it locks the word and sends the displacement, which
records it. Answers whether it climbs on. -/
def recordReg (s : State) (org w at_ : Nat) (fetch : Bool) (k : Nat) : State × Bool :=
  let top := isTop at_ w
  let ack (s : State) (last : Bool) : State := send s (.registrationAck k w at_ last)
  let s := { s with regNow := (at_, w, org) :: s.regNow }
  let s := reachLvl s at_ w ((regEntry (core s k) w).elim 0 (·.region))
  let s := if top then l2Use (notify s w) (4 * w) (regCharge s k w) true else s
  match lvlAt s at_ w with
  | some (.owner p) =>
    if p = org then
      (if fetch then failFetch (loseWord s w [] org 0) k w else ack s true, false)
    else
      let s := { lockAll s [at_] w with ownReq := mput s.ownReq w s.clk }
      (send s (.displacement w p at_ (if fetch then .l1 k else .own k)), false)
  | some (.held v z) =>
    let bad := badAt s at_ w
    let s := ack (setLvl s at_ w (.owner org)) true
    (if !fetch then s else if bad then fetchError s k w else reply s w at_ (.l1 k) ⟨v, z⟩ [], false)
  | _ =>
    let s := setLvl s at_ w (.owner org)
    if top then (if fetch then topServe (ack s true) at_ w (.l1 k) else ack s true, false)
    else (ack s (nextUp k w at_).isNone, (nextUp k w at_).isSome)

/-- The words of a registration are recorded at a level together; those that climb on do so together (R46). -/
def recordWords (s : State) (org w at_ : Nat) (fetch wide : Bool) (k q : Nat) : State :=
  let (s, on0) := recordReg s org w at_ fetch k
  let (s, on1) := if wide then recordReg s org (w + 1) at_ fetch k else (s, false)
  match nextUp k w at_ with
  | none => s
  | some p =>
    if on0 && on1 then send s (.registration at_ w p ⟨fetch, true⟩ k q)
    else if on0 then send s (.registration at_ w p ⟨fetch, false⟩ k q)
    else if on1 then send s (.registration at_ (w + 1) p ⟨fetch, false⟩ k q)
    else s

/-- An access reaches its home: it waits there behind those that wait, or goes on. -/
def atHome (s : State) (m : Instr) (go : State) : State :=
  if mustHold s m || heldBefore s m then { s with held := s.held ++ [m] } else go

/-- A registration at a level, once it need not wait for a page (R46, R48, R51). -/
def registerNow (org w at_ : Nat) (ask : RegAsk) (core seq : Nat) (s : State) : State :=
  let again := requeue s (.registration org w at_ ask core seq)
  let ws := if ask.wide then [w, w + 1] else [w]
  let refuse := ws.foldl (fun s x => refuseReg s core x) s
  let pa := 4 * w
  if isTop at_ w && dropsPa s pa then refuse
  else if s.regNow.any fun x => x.1 = at_ && ws.contains x.2.1 && org < x.2.2 then again
  else if ws.any fun x => locked s at_ x then again
  else if !isTop at_ w then recordWords s org w at_ ask.fetch ask.wide core seq
  else match (if isHostPa pa then gwTake s (at_ - 0x800) (w / 32) true else (hostBack s w).elim .wait .got) with
  | .down => refuse
  | .wait => requeue (askLine s w) (.registration org w at_ ask core seq)
  | .got s =>
    recordWords s org w at_ ask.fetch ask.wide core seq

/-- A registration that has waited at a home from which its page has moved climbs from its L1 to the new home at once, as far as no level keeps
it (R66). -/
def registerUp : Nat → Nat → Nat → Nat → RegAsk → Nat → Nat → State → State
  | 0, org, w, p, ask, k, q, s => registerNow org w p ask k q s
  | n + 1, org, w, p, ask, k, q, s =>
    let t := registerNow org w p ask k q s
    match nextUp k w p with
    | none => t
    | some up =>
      if t.net.getLast? = some (.registration p w up ask k q) then registerUp n p w up ask k q { t with net := t.net.dropLast } else t

/-- R46, R48: a registration reaches a level. -/
def execRegistration (org w at_ : Nat) (ask : RegAsk) (core seq : Nat) (s : State) : Out :=
  .next (atHome s (.registration org w at_ ask core seq) (registerNow org w at_ ask core seq s))

/-- The sequencer that registers a word, as its L1 knows it. -/
def seqOfReg (s : State) (k w : Nat) : Nat := (regEntry (core s k) w).elim 0 (·.seq)

/-- The displacement of an owner has ended at the level that sent it: the new owner is recorded and acknowledged, and receives the value
where it asked for it (R46, R47), or the error that a check has found in it (R107). -/
def displaced (s : State) (w src : Nat) (ret : Ret) (x : Lane) (bad : Bool) : State :=
  let own (s : State) (k : Nat) : State :=
    send { setLvl s src w (.owner (childOf k w src)) with ownReq := mdel s.ownReq w } (.registrationAck k w src true)
  match ret with
  | .own k => own s k
  | .l1 k => if bad then fetchError (own s k) k w else mergeFetch (own s k) k w x
  | _ => let s := holdAt s src w x bad
    if bad then replyError s w ret .uncorrectable else reply s w src ret x []

/-- A displacement found its owner lost: a registration with fetch fails; another one climbs on from its level (R58, R59). -/
def displacedLost (s : State) (w src : Nat) (ret : Ret) (path : List Nat) (id cause : Nat) : State :=
  let s := loseWord s w path id cause
  match ret with
  | .own k => send s (.registration (childOf k w src) w src ⟨false, false⟩ k (seqOfReg s k w))
  | .l1 k => failFetch s k w
  | _ => replyError s w ret .ownerLost

/-- R46: a displacement travels down the old owner's chain, clearing its entries; at the old L1 the word becomes I. `at_` is the owner that
the level `src` named; where it names it no more, the registration is recorded anew. -/
def execDisplacement (w at_ src : Nat) (ret : Ret) (s : State) : Out :=
  let again := requeue s (.displacement w at_ src ret)
  let u := unlockAll s [src] w
  .next (if locked u src w then again
  else if lvlAt u src w ≠ some (.owner at_) then
    match ret with
    | .own k => send u (.registration (childOf k w src) w src ⟨false, false⟩ k (seqOfReg u k w))
    | .l1 k => send u (.registration (childOf k w src) w src ⟨true, false⟩ k (seqOfReg u k w))
    | _ => u
  else match follow u w 6 at_ [] with
  | .busy => again
  | .val x h path => displaced (clearPath u w h path) w src ret x (badFrom u h w)
  | .lost path id cause => displacedLost u w src ret path id cause)

/-- R58, R59, R61: no answer within OWN_TMO to a request that is still on its way: the owner is lost. -/
def execOwnTmoExpiry (w at_ src : Nat) (ret : Ret) (locks : List Nat) (s : State) : Out :=
  let m := Instr.forwardedRead w at_ src ret
  let d := Instr.displacement w at_ src ret
  .next (if !ownerDue s w then s
  else if s.net.contains m then ownerLost { s with net := s.net.erase m } w [] at_ 2 ret locks
  else if s.net.contains d then displacedLost (unlockAll { s with net := s.net.erase d } [src] w) w src ret [] at_ 2
  else s)

/-! ## Recall (R49) and cln (R287) -/

/-- The word at or below a place becomes Held one level up, or at the home where the place is the home or a reticle
registry stands between (R49); none while a registration of it is under way or its path is locked. -/
def recallUp (s : State) (p w : Nat) : Option State :=
  match lvlAt s p w with
  | none => some s
  | some (.copy _ _) => some (if isTop p w then s else delLvl s p w)
  | _ =>
    if climbing s w then none else
    match follow s w 6 p [] with
    | .busy => none
    | .lost path id cause => some (loseWord s w path id cause)
    | .val x h path =>
      let bad := badFrom s h w
      let s := path.foldl (fun s q => delLvl s q w) { s with ownReq := mdel s.ownReq w }
      let s := if h < 0x200 then setL1 s h w ⟨.v, x.v, x.p⟩ else delLvl s h w
      let up := if isTop p w then p else (nextUp (coreUnder p) w p).getD p
      if 0x600 ≤ up && up < 0x800 then
        let home := plHome (homeChip (4 * w))
        some (notify (holdAt (delLvl s up w) home w x bad) w)
      else
        let s := holdAt s up w x bad
        some (if isTop up w then notify s w else s)

/-- R49: a level that drops an entry recalls its words. -/
def execRecall (place w : Nat) (s : State) : Out :=
  .next ((recallUp s place w).getD (requeue (askOwner s w) (.recallWord place w)))

/-- One owned word of core k goes to its home as Held and stays V in the L1 (R287); none where its path is locked or its
registration still climbs. -/
def cleanWord (k : Nat) (s : State) (w : Nat) : Option State :=
  match l1At s k w with
  | some ⟨.o, v, z⟩ =>
    let c := chain k w
    if climbing s w || c.any (fun p => locked s p w) then none else
    let top := c.getLastD 0
    let s := c.foldl (fun s p => delLvl s p w) s
    some (notify (setL1 (holdAt s top w ⟨v, z⟩ false) k w ⟨.v, v, z⟩) w)
  | some ⟨.pend _ _, _, _⟩ => none
  | _ => some s

/-- The owned words of a core in regions of a mask (R53, R287). -/
def ownedIn (c : Core) (mask : Word) : List Nat :=
  (c.l1.filter fun (w, x) => x.st ≠ .v && (mget 0 c.l1reg (w / 32)) &&& mask ≠ 0).map (·.1)

/-- Cleans what can be cleaned now. -/
def cleanCore (s : State) (k : Nat) (mask : Word) : State :=
  (ownedIn (core s k) mask).foldl (fun s w => (cleanWord k s w).getD s) s

/-! ## Self-invalidation (R53, R55) -/

/-- Invalidation of a core's own caches at a scope, for the regions of a mask; replies on their way install nothing in the
caches invalidated. -/
def invalidate (s : State) (k scope : Nat) (mask : Word) : State :=
  if scope ≤ 1 then s else
  let hit (r : BitVec 64) : Bool := r &&& mask ≠ 0
  let s := modCore s k fun c => Core.prune { c with l1 := c.l1.filter fun (w, x) => !(x.st = .v && hit (mget 0 c.l1reg (w / 32))) }
  let ld := plLanding (layerOf k)
  let rd := plRdc (chipOf k)
  let drop (s : State) (p : Nat) : State := { s with lvl := s.lvl.filter fun (key, x) =>
    match x with
    | .copy _ _ => !(key / 2 ^ 50 = p && hit (mget 0 s.reg (lkey p (key % 2 ^ 50 / 32))))
    | _ => true }
  let s := if 3 ≤ scope then drop s ld else s
  let s := if 4 ≤ scope then drop s rd else s
  let sk : BitVec 3 := 1 ||| (if 3 ≤ scope then 2 else 0) ||| (if 4 ≤ scope then 4 else 0)
  { (if 3 ≤ scope then pruneLvl s else s) with net := s.net.map fun m => match m with
    | .readReply w src (.load a b t e i r) v z skip l =>
      let sk := if a = k then sk else if layerOf a = layerOf k then sk &&& 6 else if chipOf a = chipOf k then sk &&& 4 else 0
      if hit (1#64 <<< r) then .readReply w src (.load a b t e i r) v z (skip ||| sk) l else m
    | m => m }

/-! ## Home writes (R52, R151, R155, R417) -/

/-- The engine whose intake window holds a PA (R366). -/
def intakeOf (s : State) (pa : Nat) : Option Nat :=
  (List.range 16).find? fun e =>
    let v := rdReg s (.peIntk e)
    bit (rdReg s (.peCfg e)) 63 && bits v 16 36 * 65536 ≤ pa && pa < bits v 16 36 * 65536 + bits v 0 16 * 65536

/-- A write into an intake window that is no contribution: discarded and counted in REJ (R366). -/
def rejectIntake (s : State) (e : Nat) : State := wrReg s (.peSts e) (bumpField (rdReg s (.peSts e)) 32 16 1)

/-- The element operation of an xred variant (R297); a poisoned operand gives a poisoned result. -/
def combineWord (variant : Nat) (rm : BitVec 2) (ftz : Bool) (dst src : Lane) : Lane × Flags :=
  let env : REnv := { mode := .rm rm, ftz := ftz }
  if dst.p || src.p then (⟨dst.v, true⟩, 0) else
  let a := dst.v.toNat
  let b := src.v.toNat
  let f (r : Nat × Flags) : Lane × Flags := (⟨BitVec.ofNat 32 r.1, false⟩, r.2)
  match variant with
  | 0 | 1 => f (fAdd fF32 env a b)
  | 2 =>
    let (l, fl) := fAdd fB16 env (a % 65536) (b % 65536)
    let (h, fh) := fAdd fB16 env (a / 65536) (b / 65536)
    (⟨BitVec.ofNat 32 (h * 65536 + l), false⟩, fl ||| fh)
  | 3 => (⟨dst.v + src.v, false⟩, 0)
  | 4 => f (fMinMax fF32 env false a b)
  | 5 => f (fMinMax fF32 env true a b)
  | 6 => (⟨if dst.v.slt src.v then dst.v else src.v, false⟩, 0)
  | _ => (⟨if dst.v.slt src.v then src.v else dst.v, false⟩, 0)

/-- New value of a word under a home write (R52, R60, R277). -/
def hwValue (h : HomeWr) (old : Lane) : Lane × Flags :=
  match h.op with
  | .write => (⟨mergeW old.v h.data h.mask, h.poison || (h.mask ≠ 15 && old.p)⟩, 0)
  | .bits m => (⟨(old.v &&& ~~~m) ||| (h.data &&& m), h.poison || old.p⟩, 0)
  | .combine variant rm ftz => combineWord variant rm ftz old ⟨h.data, h.poison⟩

/-- The write needs the old value of its word (R52). -/
def hwNeedsOld (h : HomeWr) : Bool := h.mask ≠ 15 || h.op ≠ .write

/-- Gateway of the agent that writes a host-homed word (R52, R370). -/
def srcPort : WSrc → Nat
  | .seq k _ => retOf k
  | .cmd k _ _ => retOf k
  | .pe e => e / 8
  | _ => 0

/-- What a home write has come to: it waits, in a state that may have changed, or it is done with a status of R289 and flags. -/
inductive HomeRes where
  | wait (s : State)
  | done (s : State) (st : Nat) (fl : Flags)

/-- The host performs a gateway's write to a word, or reads it for the gateway: the gateway owns the line, or the ports that this takes are
Up (R52, R64, R370). -/
def hostServes (s : State) (g w : Nat) (read : Bool) : Bool :=
  let mine := mlook s.gw (lkey g (w / 32))
  mine = some .owned || (read && mine = some .shared) ||
    (hostUp s g && (mlook s.gw (lkey (1 - g) (w / 32)) ≠ some .owned || hostUp s (1 - g)))

/-- A protected word that cannot be read aborts the round (R151, R158). -/
def refuseWrite (s : State) (pa : Nat) : HomeRes := .done (if protectedPa s pa then abortRound s 5 else s) 5 0

/-- The new value of a home write enters memory (R52, R151). -/
def homePut (s : State) (h : HomeWr) (old : Lane) : HomeRes :=
  let pa := 4 * h.w
  match hbmRes s pa with
  | .held => .wait s
  | .failed => refuseWrite s pa
  | .served =>
    let s := chargeThrough (l2Use s pa none true) h.w
    let (x, fl) := hwValue h old
    if protectedPa s pa then
      match erasureWrite s (h.w / 32) (lineWith s h.w x) with
      | .wait => .wait s
      | .refused s => .done s 5 0
      | .done s => .done (notify s h.w) 0 fl
    else .done (notify (setMemWord (touchStack s pa) h.w x) h.w) 0 fl

/-- A home write performs (R52), or has to wait. -/
def homePerform (s : State) (h : HomeWr) : HomeRes :=
  let pa := 4 * h.w
  if dropsPa s pa then .done s 5 0
  else if movingPa s pa || (protectedPa s pa && pgState s ≠ 2) then .wait s
  else if isHostPa pa && !hostServes s (srcPort h.src) h.w false then .done s 5 0
  else match hostBack s h.w with
  | none => .wait s
  | some s =>
    match (if h.src = .none then none else intakeOf s pa) with
    | some e => .done (rejectIntake s e) 0 0
    | none =>
    match homeFind s h.w with
    | .busy => .wait s
    | .val old hold path =>
      if hwNeedsOld h && badFrom s hold h.w then refuseWrite s pa
      else homePut (clearPath s h.w hold path) h old
    | .lost path id cause =>
      let s := loseWord s h.w path id cause
      if hwNeedsOld h then .done s 4 0 else .wait s

/-- A home write of an engine command is done: one write fewer to wait for, its status and flags kept, flags that come
after its signal given to the issuer at once (R84, R122, R289, R297). -/
def accountWrite (s : State) (src : WSrc) (st : Nat) (fl : Flags) : State :=
  match src with
  | .cmd k _ id =>
    match mlook (core s k).cmds id with
    | none => s
    | some m =>
      let m' : Cmd := { m with left := m.left - 1, status := if m.status = 0 then st else m.status, flags := m.flags ||| fl }
      let s := modCore s k fun c => { c with cmds := mput c.cmds id m' }
      if fl = 0 || m.st ≠ .completed then s else modSeq s k m.seq fun x => { x with fcsr := x.fcsr ||| fl.zeroExtend 32 }
  | .evq => evWritten s (st ≠ 0)
  | _ => s

/-- An access has found that it has to wait: at its home, or in the network. -/
def waitAt (s : State) (m : Instr) : State := if mustHold s m || waitsMove s m then { s with held := s.held ++ [m] } else requeue s m

/-- A home write that need not wait for its page. -/
def homeWriteNow (h : HomeWr) (s : State) : State :=
  match homePerform s h with
  | .wait s => waitAt (askLine s h.w) (.homeWrite h)
  | .done s st fl =>
    let s := match h.src with
      | .cmd k _ _ => sink s k
      | _ => s
    accountWrite s h.src st fl

/-- R52: an engine write performs at the line's home, or waits there. -/
def execHomeWrite (h : HomeWr) (s : State) : Out := .next (atHome s (.homeWrite h) (homeWriteNow h s))

/-- The value an engine or the command processor reads at a word's home (R50, R52, R57); none where it is on its way. -/
inductive HomeRead where
  | value (x : Lane)
  | wait
  | ownerLost
  | bad
  deriving DecidableEq, Repr

/-- A read at the home, forwarded where a core owns the word. -/
def homeRead (s : State) (w port : Nat) : HomeRead :=
  let pa := 4 * w
  if spaceOf pa = 3 then .value (memWord s w)
  else if isHostPa pa && !hostServes s port w true then .bad
  else if dropsPa s pa then .bad
  else match homeFind s w with
    | .busy => .wait
    | .lost _ _ _ => .ownerLost
    | .val x h _ =>
      if h < 0x200 then .value x else
      match (if h = 0x2000 then hbmRead s pa else .served) with
      | .held => .wait
      | .failed => .bad
      | .served => if badAt s h w then .bad else .value x

/-- A read at the home has found the word where its owner is: a lost owner is recorded (R59), one that does not answer is timed (R58). -/
def ownAsk (s : State) (w : Nat) : State :=
  if isHostPa (4 * w) && (topOf s w).isNone then s else
  match homeFind s w with
  | .busy => askOwner s w
  | .lost path id cause => loseWord s w path id cause
  | .val _ _ _ => { s with ownReq := mdel s.ownReq w }

/-! ## Atomics (R56, R57, R284, R285) -/

/-- The value an atomic writes, if it writes (R284). -/
def atomNew (a : AtomReq) (old : Word) : Option Word :=
  let w := if a.wide then 64 else 32
  let x := a.x.toNat % 2 ^ w
  let o := old.toNat % 2 ^ w
  let lt (p q : Nat) : Bool := if a.signed then sext w p < sext w q else p < q
  let r (n : Nat) : Option Word := some (BitVec.ofNat 64 (n % 2 ^ w))
  match a.kind with
  | .add => r (o + x)
  | .min => r (if lt x o then x else o)
  | .max => r (if lt o x then x else o)
  | .and => r (Nat.land o x)
  | .or => r (Nat.lor o x)
  | .xor => r (Nat.xor o x)
  | .swp => r x
  | .cas => if o = x then r (a.y.toNat % 2 ^ w) else none
  | .signal => some (BitVec.ofNat 64 (Nat.lor (o / 2 ^ 48 * 2 ^ 48 + (o + 2 ^ 48 - 1) % 2 ^ 48) x))

/-- The words of an atomic after it, from the words before (R284, R285). -/
def atomWords (a : AtomReq) (old : List Lane) : List Lane :=
  let p := old.any Lane.p
  let o := joinWords (old.map some)
  if p && a.kind ≠ .swp then old else
  match atomNew a (BitVec.ofNat 64 o) with
  | none => old
  | some n => (List.range old.length).map fun i => ⟨BitVec.ofNat 32 (n.toNat / 2 ^ (32 * i)), false⟩

/-- The old value returns to the sequencer (R284). -/
def atomReply (s : State) (a : AtomReq) (old : List Lane) : State :=
  (List.range old.length).foldl (fun s i =>
    let x := old.getD i {}
    send s (.loadValueArrives a.core a.seq a.tag 0 i x.v x.p .none)) s

/-- Owner entries from a level down to the landing (R56 at .dl): each names the level below it, registered under a REGION (R53). -/
def ownDown (region : Nat) (s : State) (w : Nat) : List Nat → State
  | low :: up :: r => ownDown region (setLvl (reachLvl s up w region) up w (.owner low)) w (up :: r)
  | _ => s

/-- Taking a word at a place. -/
inductive Taken where
  | ok (s : State) (x : Lane)
  | wait
  | lost (s : State)
  | bad

/-- The home or gateway takes a word (R56). -/
def takeTop (s : State) (g w : Nat) : Taken :=
  let pa := 4 * w
  if dropsPa s pa then .bad
  else if movingPa s pa then .wait
  else match (if isHostPa pa then gwTake s g (w / 32) true else (hostBack s w).elim .wait .got) with
  | .wait => .wait
  | .down => .bad
  | .got s =>
    let top := if isHostPa pa then plGw g else plHome (homeChip pa)
    match (match lvlAt s top w with
      | some (.owner _) => follow s w 6 top []
      | some (.held v z) => Found.val ⟨v, z⟩ top [top]
      | _ => Found.val (memWord s w) 0x2000 []) with
    | .busy => .wait
    | .lost path id cause => .lost (loseWord s w path id cause)
    | .val x h path =>
      match (if h = 0x2000 then hbmRead s pa else .served) with
      | .failed => .bad
      | .held => .wait
      | .served =>
        if badFrom s h w then .bad
        else .ok (notify (setLvl (clearPath (touchReads s [w]) w h path) top w (.held x.v x.p)) w) x

/-- Core k's landing takes a word (R56): it displaces any owner below it, registers the word to itself up its chain. -/
def takeLanding (region : Nat) (s : State) (k w : Nat) : Taken :=
  let c := chain k w
  let ld := plLanding (layerOf k)
  let fin (s : State) (x : Lane) (h : Nat) (path low : List Nat) : Taken :=
    .ok (setLvl (ownDown region (clearPath s w h path) w low) ld w (.held x.v x.p)) x
  match lvlAt s ld w with
  | some (.held v z) => if badAt s ld w then .bad else .ok s ⟨v, z⟩
  | some (.owner _) =>
    match follow s w 6 ld [] with
    | .busy => .wait
    | .lost path id cause => .lost (loseWord s w path id cause)
    | .val x h path => if badFrom s h w then .bad else fin s x h path [ld]
  | _ =>
    -- the first level above that names an owner or holds the word
    let low := c.takeWhile fun p => match lvlAt s p w with
      | some (.owner _) => false
      | some (.held _ _) => false
      | _ => true
    let meet := c.drop low.length
    match meet with
    | [] =>
      match takeTop s (retOf k) w with
      | .ok s x => .ok (setLvl (ownDown region s w c) ld w (.held x.v x.p)) x
      | r => r
    | p :: _ =>
      if isTop p w then
        match takeTop s (retOf k) w with
        | .ok s x => .ok (setLvl (ownDown region s w (low ++ [p])) ld w (.held x.v x.p)) x
        | r => r
      else
        match follow s w 6 p [] with
        | .busy => .wait
        | .lost path id cause => .lost (loseWord s w path id cause)
        | .val x h path => if badFrom s h w then .bad else fin s x h path (low ++ [p])

/-- The write of an atomic, until it is performed everywhere (R47, R77). -/
def atomOutst (s : State) (k w : Nat) (a : AtomReq) : Outst :=
  { w := w, seq := a.seq, region := a.region, tag0 := (seqOf s k a.seq).tag0
    buf := ((seqOf s k a.seq).lates.find? fun l => l.tag = a.tag).elim 0 fun l => (l.elems.getD 0 {}).buf }

/-- An L1 takes the words of an atomic: a registration with fetch of no bytes, of both words together where neither is there (R45, R46). -/
def l1Want (s : State) (k : Nat) (a : AtomReq) (ws : List Nat) : State :=
  let o (w : Nat) : Outst := atomOutst s k w a
  let lacks := ws.filter fun w => match l1At s k w with
    | some ⟨.o, _, _⟩ => false
    | some ⟨.pend _ _, _, _⟩ => false
    | _ => true
  let s := lacks.foldl (fun s w =>
    modCore (setL1 (reachL1 s k w a.region) k w ⟨.pend 0 false, 0, false⟩) k fun c =>
      { c with outst := c.outst ++ [o w] }) s
  if lacks.length = 2 then send s (.registration k (ws.getD 0 0) (plLanding (layerOf k)) ⟨true, true⟩ k a.seq)
  else lacks.foldl (fun s w => send s (.registration k w (plLanding (layerOf k)) ⟨true, false⟩ k a.seq)) s

/-- A registration of the word by the core itself is still climbing (R75). -/
def climbsBy (s : State) (k w : Nat) : Bool := (s.net ++ s.held).any fun m =>
  match m with
  | .registration _ x _ ask c _ => (x = w || (ask.wide && x + 1 = w)) && c = k
  | .displacement x _ _ (.own c) => x = w && c = k
  | .displacement x _ _ (.l1 c) => x = w && c = k
  | _ => false

/-- A registration of the word that the core's own chain has passed is still climbing: an atomic of the core comes after it in coherence
order, whichever core of the chain made it (R75). -/
def ownClimbs (s : State) (k w : Nat) : Bool := (s.net ++ s.held).any fun m =>
  match m with
  | .registration org x _ ask c _ => (x = w || (ask.wide && x + 1 = w)) && (c = k || (chain k w).contains org)
  | .displacement x _ src (.own c) => x = w && (c = k || (chain k w).contains (childOf c w src))
  | .displacement x _ src (.l1 c) => x = w && (c = k || (chain k w).contains (childOf c w src))
  | _ => false

/-- The issuer's own copies below the place of its atomic go: its later reads return that write or a later one (R75). -/
def dropOwn (s : State) (k w place : Nat) : State :=
  let s := match l1At s k w with
    | some ⟨.v, _, _⟩ => delL1 s k w
    | _ => s
  ((chain k w).takeWhile fun p => p ≠ place).foldl (fun s p =>
    match lvlAt s p w with
    | some (.copy _ _) => delLvl s p w
    | _ => s) s

/-- An atomic executes in its core's L1 once the words are there, or asks for them (R45, R56); it is performed with registrations of
its words that are still being acknowledged (R47). -/
def atomicAtL1 (k w : Nat) (a : AtomReq) (ws : List Nat) (s : State) : State :=
  let have_ := ws.map fun x => match l1At s k x with
    | some ⟨.o, v, z⟩ => some (⟨v, z⟩ : Lane)
    | _ => none
  if have_.all Option.isSome then
    let old := have_.filterMap id
    let new := atomWords a old
    let s := (List.range ws.length).foldl (fun s i =>
      let x := new.getD i {}
      let w := ws.getD i w
      modCore (setL1 (reachL1 s k w a.region) k w ⟨.o, x.v, x.p⟩) k fun c => joinStore c (atomOutst s k w a)) s
    atomReply (sink s k) a old
  else requeue (l1Want s k a ws) (.atomicExecute k w a)

/-- An atomic executes at a landing, home or gateway, once that place has taken its words (R56). A landing's write that a registration still
carries up is performed above once nothing of the word climbs (R77). -/
def atomicAbove (place w : Nat) (a : AtomReq) (ws : List Nat) (s : State) : State :=
  let m : Instr := .atomicExecute place w a
  let again (s : State) : State := waitAt (ws.foldl askOwner (askLine s w)) m
  let later (m : Nat) : Bool := if place < 0x400 then climbsBy s a.core m else ownClimbs s a.core m
  if ws.any later then requeue s m else
  let take (s : State) (x : Nat) : Taken := if place < 0x400 then takeLanding a.region s (coreUnder place) x else takeTop s (place - 0x800) x
  let put (s : State) (x : Nat) (v : Lane) : State :=
    let p := if place < 0x400 then place else if isHostPa (4 * x) then place else plHome (homeChip (4 * x))
    let s := setLvl (dropOwn (reachLvl s p x a.region) a.core x p) p x (.held v.v v.p)
    if p < 0x400 && climbing s x then
      modCore s a.core fun c => { c with outst := c.outst ++ [{ atomOutst s a.core x a with acked := [p, 0x2000] }] }
    else s
  match take s w with
  | .wait => again s
  | .bad => atomError s a .uncorrectable
  | .lost s => atomError s a .ownerLost
  | .ok s1 x0 =>
    let s1 := if place < 0x400 then s1 else l2Use s1 (4 * w) (retCharge s1 w (.load a.core a.seq a.tag 0 0 0)) true
    if !a.wide then
      match atomWords a [x0] with
      | [n] => atomReply (sink (put s1 w n) a.core) a [x0]
      | _ => s1
    else match take s1 (w + 1) with
      | .wait => again s
      | .bad => atomError s1 a .uncorrectable
      | .lost s => atomError s a .ownerLost
      | .ok s2 x1 =>
        match atomWords a [x0, x1] with
        | [n0, n1] => atomReply (sink (put (put s2 w n0) (w + 1) n1) a.core) a [x0, x1]
        | _ => s2

/-- An atomic at its place, which need not wait for its page; on an own word that a check found bad it takes the error (R58). -/
def atomicNow (place w : Nat) (a : AtomReq) (s : State) : State :=
  let ws := if a.wide then [w, w + 1] else [w]
  if ws.any fun x => (core s a.core).l1err.contains x then
    atomError (modCore s a.core fun c => { c with l1err := c.l1err.filter fun x => !ws.contains x }) a .uncorrectable
  else if place < 0x200 then atomicAtL1 place w a ws s
  else atomicAbove place w a ws s

/-- R56, R57: an atomic executes at its place, once that place has the word, or waits. -/
def execAtomicExecute (place w : Nat) (a : AtomReq) (s : State) : Out :=
  .next (atHome s (.atomicExecute place w a) (atomicNow place w a s))

/-- Place where an atomic of a scope executes (R56). -/
def atomPlace (k w scope : Nat) : Nat :=
  match scope with
  | 0 | 1 => k
  | 2 => plLanding (layerOf k)
  | _ => if isHostPa (4 * w) then plGw (retOf k) else plHome (homeChip (4 * w))

/-! ## Errors, resets and the host (R45, R58, R63, R107) -/

/-- An uncorrectable error is found: its record (R414), and its time among those of the last 24 h, over cold resets (R411). -/
def logUnc (s : State) (unit : Nat) (info : List Word) : State :=
  let now := s.past + s.clk
  logErr { s with uncErrs := (s.uncErrs.filter fun t => now ≤ t + 2400000000 * 86400) ++ [now] } 2 unit info

/-- More than 64 uncorrectable errors in 24 h (R411). -/
def manyErrors (s : State) : Bool := 64 < (s.uncErrs.filter fun t => s.past + s.clk ≤ t + 2400000000 * 86400).length

/-- The same asks for a replacement (R411). -/
def countErrors (s : State) : State := if manyErrors s then replReason s 6 else s

/-- The words that one check covers (R107): 8 bytes in an L1, landing, RDC or gateway; the whole of a line that L2 holds compressed, under its
CRC-32; else 32 bytes in L2 and in the cells of HBM. -/
def coveredWords (s : State) (place w : Nat) : List Nat :=
  if place < 0x1000 then [w / 2 * 2, w / 2 * 2 + 1]
  else match mlook s.l2 (w / 32) with
    | some x => if x.secs < 4 then lineWords (w / 32) else (List.range 8).map fun i => w / 8 * 8 + i
    | none => (List.range 8).map fun i => w / 8 * 8 + i

/-- One word that an uncorrectable error covers (R45, R58, R107). -/
def errorWord (place : Nat) (s : State) (w : Nat) : State :=
  if place < 0x200 then
    match l1At s place w with
    | some ⟨.v, _, _⟩ => delL1 s place w
    | some ⟨.o, _, _⟩ =>
      let s := modCore (delL1 s place w) place fun c => { c with l1err := c.l1err ++ [w] }
      loseWord s w [] place 1
    | _ => s
  else match lvlAt s place w with
    | some (.copy _ _) => delLvl s place w
    | some (.held v _) => let s := setLvl s place w (.held v true); { s with bad := mset false s.bad (lkey place w) true }
    | some (.owner _) => s
    | none => if place < 0x1000 then s else { s with pois := mset false s.pois w true, bad := mset false s.bad w true }

/-- R107, R45, R58: a check at a place finds an uncorrectable error, which marks every word it covers. -/
def execUncorrectableError (place w : Nat) (s : State) : Out :=
  let s := countErrors (logUnc s place [BitVec.ofNat 64 w])
  .next ((coveredWords s place w).foldl (errorWord place) s)

/-- R107: a corrected error changes no value and enters the error log. -/
def execCorrectedError (stage : Nat) (s : State) : Out := .next (logErr s 1 stage [])

/-- R45, R58: a core reset invalidates its L1; its owned words are found lost when they are next asked for. -/
def execCoreReset (core : Nat) (s : State) : Out :=
  .next (modCore s core fun c => { c with l1 := [], l1reg := [], outst := [], l1err := [] })

/-- R63: the host reads, registers or writes a device-homed line through the THA; what has to wait comes again. -/
def execHostRequest (r : HostReq) (s : State) : Out :=
  .next (match r with
  | .read port line => if hostUp s port && !dropsPa s (128 * line) then touchReads s [32 * line] else s
  | .write port _ ws => if hostUp s port then ws.foldl (fun s h => send s (.homeWrite { h with src := .host })) s else s
  | .register port line data =>
    let home := plHome (homeChip (128 * line))
    let again := send s (.hostRequest (.register port line data))
    if !hostUp s port || dropsPa s (128 * line) then s else
    if movingPa s (128 * line) then again else
    match foldOpt (fun s w => recallUp s home w) s (lineWords line) with
    | none => send (askBelow s home line) (.hostRequest (.register port line data))
    | some s =>
      (List.range 32).foldl (fun s i =>
        let w := 32 * line + i
        let s := setLvl s home w (.owner (plGw port))
        notify (setLvl s (plGw port) w (.held (data.getD i 0) false)) w) s)

end Sys2Proof.Machine
end

