-- ==== Sys2Proof/Machine/Peer.lean ====
section
/-! DEFINITION. Peer-bound writes: routes (R346, R350), sending, acknowledgement and undeliverable recording (R87, R88, R351),
and the arrival of a peer's write (R87, R352). -/
namespace Sys2Proof.Machine

/-- PA at which the model holds the two pages of the fixed window: scope table, then report page (R38). -/
def fixedPa : Nat := 3 * 2 ^ 48
/-- PODSIZE and PODIDX of the scope table (R70). -/
def podSize (s : State) : Nat := rdLe s (fixedPa + 8) 2
def podIdx (s : State) : Nat := rdLe s (fixedPa + 10) 2

/-- State of a route (R350). -/
inductive RouteSt where
  | up | retraining | down
  deriving DecidableEq, Repr

/-- The route to pod index j, from the ports its ROUTE names (R350). -/
def routeOf (s : State) (j : Nat) : RouteSt :=
  let ps := (List.range 24).filter fun p => bit (rdReg s (.route j)) p
  if ps.any fun p => portState s p = 2 then .up
  else if ps.any fun p => portState s p = 1 || portState s p = 3 then .retraining
  else .down

/-- The queue whose packet's work runs on a core (R91). -/
def queueOfCore (s : State) (k : Nat) : Nat :=
  match (core s k).task with
  | none => 64
  | some t => match mlook s.tasks t with
    | none => 64
    | some x => x.q

/-- Queue of the packet that made a write. -/
def queueOfSrc (s : State) (src : WSrc) : Nat :=
  match src with
  | .seq k _ => queueOfCore s k
  | .cmd k _ _ => queueOfCore s k
  | .cp q _ => q
  | _ => 64

/-- Changes a packet of a queue. -/
def modPkt (s : State) (q pk : Nat) (f : Pkt → Pkt) : State :=
  let x := mget {} s.queues q
  { s with queues := mput s.queues q { x with pkts := x.pkts.map fun p => if p.id = pk then f p else p } }

/-- Number of the peer-bound write that a message carries. -/
def writeIdOf : Instr → Option Nat
  | .peerWriteArrival w => some w.id
  | .remoteSignal r => match r.src with
    | .peer _ id => some id
    | _ => none
  | .orderedContribution o => match o.src with
    | .peer _ id => some id
    | _ => none
  | .collectivePayload p => some p.id
  | _ => none

/-- A peer-bound write is recorded undeliverable (R88, R89); one that still waits for its route never leaves. -/
def undeliverable (s : State) (o : PeerOut) : State :=
  let s := { s with outbox := s.outbox.filter fun x => !(x.1 = o.pod && writeIdOf x.2 = some o.id) }
  let s := if o.queue < 64 then
      { s with queues := mput s.queues o.queue { mget {} s.queues o.queue with und := true } } else s
  match o.src with
  | .seq k q =>
    let s := modSeq s k q fun x => { x with
      dPeer := if x.dCount = 0 then o.pod else x.dPeer, dCount := min (2 ^ 31 - 1) (x.dCount + 1), dSince := x.dSince + 1 }
    match o.body with
    | .words _ => s
    | .atomic _ a => atomError s a .none
  | .cmd k _ id =>
    match mlook (core s k).cmds id with
    | none => s
    | some m =>
      let m' : Cmd := { m with left := m.left - 1, status := if m.status = 0 then 6 else m.status }
      modCore s k fun c => { c with cmds := mput c.cmds id m' }
  | .cp q pk => modPkt s q pk fun p => { p with out := p.out ||| 2 }
  | .pe e =>
    let p := mget {} s.pes e
    if !p.pushes.any fun x => x.ids.contains o.id then s else
    let s := { s with pes := mput s.pes e { p with pushes := p.pushes.filter fun x => !x.ids.contains o.id } }
    wrReg s (.peSts e) (bumpField (rdReg s (.peSts e)) 16 16 1)
  | _ => s

/-- A peer-bound write leaves for module `pod`, or is recorded undeliverable at its issue (R87, R88). -/
def peerSend (s : State) (pod : Nat) (body : PeerBody) (src : WSrc) (msg : Nat → Instr) : State :=
  let o : PeerOut := { id := s.nextPeer, pod := pod, body := body, src := src, queue := queueOfSrc s src }
  let s := { s with nextPeer := s.nextPeer + 1 }
  if podSize s ≤ pod || routeOf s pod = .down then undeliverable s o
  else sendOut { s with peerOut := s.peerOut ++ [o] } pod (msg o.id)

/-- A peer write (R87): words or an atomic at the peer's home. -/
def peerWrite (s : State) (pod : Nat) (body : PeerBody) (src : WSrc) : State :=
  peerSend s pod body src fun id => .peerWriteArrival { pod := podIdx s, id := id, body := body }

/-- Word number at a peer for a PA in a peer window (R16). -/
def peerWord (pa : Nat) : Nat := pa % 2 ^ 40 / 4

/-- What a peer tells of remote parts and contributions, in the acknowledgement's old value: performed or refused; held at its ordering
point; no room there; discarded at a protected home (R293, R353, R417). -/
def ackDone : Word := 0
def ackHeld : Word := 1
def ackNoRoom : Word := 2
def ackDropped : Word := 3

/-- R351, R88: a peer acknowledges a write, or refuses it (R417); a contribution that it holds stays unacknowledged, and one without room
is sent again later (R353). -/
def execPeerWriteAck (id : Nat) (old : Word) (poison refused : Bool) (s : State) : Out :=
  match s.peerOut.find? fun o => o.id = id with
  | none => .next s
  | some o =>
    let whole := decide (o.body = .words [])
    if whole && !refused && old = ackHeld then
      .next { s with peerOut := s.peerOut.map fun x => if x.id = id then { x with accepted := true } else x } else
    let s := { s with peerOut := s.peerOut.filter fun o => o.id ≠ id }
    if whole && !refused && old = ackNoRoom then
      .next (match o.contrib with
      | some c => { s with resend := s.resend ++ [(s.clk, c)] }
      | none => s)
    else if whole && refused && old ≠ ackDropped then
      -- a remote part or an ordered contribution that was discarded (R293, R353)
      match o.src with
      | .cmd k _ id =>
        match mlook (core s k).cmds id with
        | none => .next s
        | some m =>
          let m' : Cmd := { m with left := m.left - 1, remote := 0, status := if m.status = 0 then 7 else m.status }
          .next (modCore s k fun c => { c with cmds := mput c.cmds id m' })
      | _ => .next s
    else if refused then .next (undeliverable s o) else
    let s := accountWrite s o.src 0 0
    .next (match o.body with
    | .words _ => s
    | .atomic _ a => if a.kind = .signal then s else
      (List.range (if a.wide then 2 else 1)).foldl (fun s i =>
        send s (.loadValueArrives a.core a.seq a.tag 0 i (BitVec.ofNat 32 (old.toNat / 2 ^ (32 * i))) poison .none)) s)

/-- The sender's wait for a route that left Up has passed FAB_CFG.RTMO (R88, R349). -/
def routeExpired (s : State) (pod : Nat) : Bool :=
  match mlook s.routeLeft pod with
  | none => false
  | some t => bits (rdReg s .fabCfg) 0 32 * 1024 ≤ s.clk - (t - 1)

/-- The unacknowledged writes to a peer whose route is down, or past its timeout, are recorded undeliverable (R88). -/
def recordUndeliverable (s : State) (pod : Nat) : State :=
  if routeOf s pod = .down || (routeOf s pod = .retraining && routeExpired s pod) then
    let os := s.peerOut.filter fun o => o.pod = pod
    os.foldl undeliverable { s with peerOut := s.peerOut.filter fun o => o.pod ≠ pod }
  else s

/-- Every peer with unacknowledged writes is looked at: at the moment its route goes down, or its timeout expires (R88). -/
def recordRoutes (s : State) : State := (s.peerOut.map (·.pod)).eraseDups.foldl recordUndeliverable s

/-- R88. -/
def execUndeliverableRecording (pod : Nat) (s : State) : Out := .next (recordUndeliverable s pod)

/-- Words of a peer write perform in order: the state, those that have to wait, and whether one was discarded (R155, R417). -/
def performAll : List HomeWr → Bool → State → State × List HomeWr × Bool
  | [], d, s => (s, [], d)
  | h :: r, d, s =>
    match homePerform s h with
    | .wait s => (s, h :: r, d)
    | .done t _ _ => performAll r (d || dropsPa s (4 * h.w)) t

/-- A peer's atomic at its home (R40, R57, R366): the words before it and the state, or that it has to wait. -/
inductive PeerAtom where
  | done (s : State) (old : List Lane)
  | refused (s : State)
  | bad (s : State)
  | wait (s : State)

/-- The words of a peer's atomic are taken, changed and put; in an intake window it is rejected (R366). -/
def peerAtomic (s : State) (w : Nat) (a : AtomReq) : PeerAtom :=
  let ws := if a.wide then [w, w + 1] else [w]
  if ws.any fun x => dropsPa s (4 * x) then .refused s else
  match intakeOf s (4 * w) with
  | some e => .done (rejectIntake s e) (ws.map fun x => memWord s x)
  | none =>
    let hold (s : State) (x : Nat) (v : Lane) : State :=
      setLvl (l2Use s (4 * x) none true) (plHome (homeChip (4 * x))) x (.held v.v v.p)
    match takeTop s 0 w with
    | .wait => .wait s
    | .bad => .bad s
    | .lost s => .bad s
    | .ok s1 x0 =>
      if !a.wide then .done ((atomWords a [x0]).foldl (fun s n => hold s w n) s1) [x0]
      else match takeTop s1 0 (w + 1) with
        | .wait => .wait s
        | .bad => .bad s1
        | .lost s => .bad s
        | .ok s2 x1 =>
          let n := atomWords a [x0, x1]
          .done (hold (hold s2 w (n.getD 0 {})) (w + 1) (n.getD 1 {})) [x0, x1]

/-- The module and number of a message that came over a link with a write, a contribution or remote parts. -/
def peerIdOf : Instr → Option (Nat × Nat)
  | .peerWriteArrival m => some (m.pod, m.id)
  | .remoteSignal r => match r.src with
    | .peer pod id => some (pod, id)
    | _ => none
  | .orderedContribution o => match o.src with
    | .peer pod id => some (pod, id)
    | _ => none
  | .collectivePayload x => some (x.src, x.id)
  | _ => none

/-- A payload of a collective: it waits for its handshake, and nothing waits behind it (R351, R358). -/
def isPayload : Instr → Bool
  | .collectivePayload _ => true
  | _ => false

/-- A message of the same module that came before is still under way: writes of one sequencer to a word keep their order, and a link
accepts nothing behind a start that waits for room (R87, R178). -/
def peerBehind (s : State) (m : Instr) : Bool :=
  match peerIdOf m with
  | none => false
  | some (pod, id) => s.net.any fun x => !isPayload x && match peerIdOf x with
    | some (p, i) => p = pod && i < id
    | none => false

/-- A write from a peer performs as a home write and is acknowledged, or refused (R351, R352, R417). -/
def peerNow (m : PeerMsg) (s : State) : State :=
  let ack (s : State) (old : Word) (p r : Bool) : State := sendOut s m.pod (.peerWriteAck m.id old p r)
  match m.body with
  | .words ws =>
    match performAll (ws.map fun h => { h with src := .peer m.pod m.id }) m.dropped s with
    | (s, [], d) => ack s 0 false d
    | (s, r, d) => requeue s (.peerWriteArrival { m with body := .words r, dropped := d })
  | .atomic w a =>
    match peerAtomic s w a with
    | .wait s => requeue s (.peerWriteArrival m)
    | .refused s => ack s 0 true true
    | .bad s => ack s 0 true false
    | .done s old => ack s (BitVec.ofNat 64 (joinWords (old.map some))) (old.any Lane.p) false

/-- R87: a write from a peer arrives at its home. -/
def execPeerWriteArrival (m : PeerMsg) (s : State) : Out :=
  .next (if peerBehind s (.peerWriteArrival m) then send s (.peerWriteArrival m) else atHome s (.peerWriteArrival m) (peerNow m s))

end Sys2Proof.Machine
end

