-- ==== Sys2Proof/Machine/Regs.lean ====
section
/-! DEFINITION. Device registers by address, and reading them: read-to-clear fields (R11), fields computed at the read, and
registers before bring-up is complete (R415); the states of queues and engines (R332, R363). -/
namespace Sys2Proof.Machine

/-- Index of a register in an array of `n` with a stride, from an offset. -/
def inArray (off base stride n : Nat) : Option Nat :=
  if base ≤ off && (off - base) % stride = 0 && (off - base) / stride < n then some ((off - base) / stride) else none

/-- The register of power at a PA (R400, R403, R405). -/
def powerAt (pa : Nat) : Option Reg :=
  if spaceOf pa ≠ 2 then none else
  match pa - devBase with
  | 0xB0400 => some .pwrProf
  | 0xB0408 => some .pwrRamp
  | o => (inArray o 0xB0000 8 128).map .pwrCore

/-- The register at a PA of device-register space, if one stands there; where R379 and R400-R405 place two registers at one PA, the fault
register. -/
def regAt (pa : Nat) : Option Reg :=
  if spaceOf pa ≠ 2 then none else
  let o := pa - devBase
  let sub (base stride n : Nat) : Option (Nat × Nat) :=
    if base ≤ o && (o - base) / stride < n then some ((o - base) / stride, (o - base) % stride) else none
  if o = 0x4000 then some .ownTmo
  else match inArray o 0x4100 16 8 with
  | some c => some (.ownLogA c)
  | none => match inArray o 0x4108 16 8 with
  | some c => some (.ownLogB c)
  | none => match inArray o 0x5000 8 16 with
  | some s => some (.hbmSts s)
  | none => match sub 0x10000 0x1000 4 with
  | some (t, r) => if r < 1024 then (if r % 16 = 0 then some (.fahCtl t (r / 16)) else if r % 16 = 8 then some (.fahPtr t (r / 16)) else none) else none
  | none =>
    match o with
    | 0x20000 => some .pgCfg | 0x20008 => some .pgAreaD | 0x20010 => some .pgAreaP | 0x20018 => some .pgJrn
    | 0x20020 => some .pgTmo | 0x20028 => some .pgSts | 0x20030 => some .pgRnd | 0x20038 => some .pgJfill
    | 0x20040 => some .pgEvt | 0x20048 => some .pgRbld | 0x20050 => some .pgPreset
    | 0x60000 => some .schCfg | 0x60008 => some .actFcst | 0x60010 => some .evqBase | 0x60018 => some .evqCfg
    | 0x60020 => some .evqWr | 0x60028 => some .evqRd
    | 0x70400 => some .fabCfg | 0x90000 => some .collErr
    | 0xB0410 => some .thmSts | 0xB0418 => some .replSts
    | 0xB0420 => some .coreRet | 0xB0428 => some .thmArea | 0xB0430 => some .thmRes
    | _ =>
      match inArray o 0x20100 8 32 with
      | some i => some (.pgMemb i)
      | none => match sub 0x30000 0x40 128 with
      | some (k, r) => (match r with
        | 0x00 => some (.wdgCfg k) | 0x08 => some (.wdgSts k) | 0x10 => some (.wdgSeq k) | 0x18 => some (.seqHalt k)
        | 0x20 => some (.seqResume k) | 0x28 => some (.engErr k) | 0x30 => some (.engEva k) | _ => none)
      | none => match sub 0x40000 0x40 64 with
      | some (q, r) => (match r with
        | 0x00 => some (.qRing q) | 0x08 => some (.qCfg q) | 0x10 => some (.qNtf q) | 0x18 => some (.qSts q) | _ => none)
      | none => match sub 0x50000 0x1000 16 with
      | some (x, r) => (match r with
        | 0x00 => some (.xltRoot x) | 0x08 => some (.xltWinv x) | 0x10 => some (.tdtBase x) | 0x18 => some (.ctxCfg x)
        | 0x20 => some (.ctxXvec x) | _ => (inArray r 0x100 8 16).map (.pmap x))
      | none => match inArray o 0x71000 8 64 with
      | some j => some (.route j)
      | none => match sub 0x70000 0x20 26 with
      | some (p, r) => (match r with | 0 => some (.lnkSts p) | 8 => some (.lnkCfg p) | _ => none)
      | none => match sub 0x80000 0x100 16 with
      | some (e, r) => (match r with
        | 0x00 => some (.peCfg e) | 0x08 => some (.peBtab e) | 0x10 => some (.peIntk e) | 0x18 => some (.peRule e)
        | 0x20 => some (.peKey e) | 0x28 => some (.peSts e) | 0x30 => some (.peFlg e) | _ => none)
      | none => match (match sub 0xA0000 0x400 128 with
        | some (k, 0x000) => some (Reg.fltPend k)
        | some (k, 0x008) => some (.fltCmd k)
        | some (k, r) => (match inArray r 0x100 16 34 with
          | some i => some (.fltRecA k i)
          | none => (inArray r 0x108 16 34).map (.fltRecB k))
        | none => none) with
      | some r => some r
      | none => powerAt pa

/-- The register that a read of a PA reads (log entry 40): of a fault register and one of power at one PA the fault register, but before bring-up
is complete, and beside FLT_CMD, which reads as 0. -/
def readAt (s : State) (pa : Nat) : Option Reg :=
  match regAt pa, powerAt pa with
  | some (.fltCmd _), some p => some p
  | some r, some p => some (if s.bringup < 7 then p else r)
  | r, _ => r

/-- The register that a write of a PA writes (log entry 40): of a fault register and one of power at one PA that of power, but where the value
is a command for FLT_CMD, whose CMD field is reserved in the other. -/
def writeAt (s : State) (pa : Nat) (v : Word) : Option Reg :=
  match regAt pa, powerAt pa with
  | some (.fltCmd k), some p => some (if s.bringup < 7 || bits v 62 2 = 0 then p else .fltCmd k)
  | some _, some p => some p
  | r, _ => r

/-- Registers of chapter 18, which bring-up does not hide (R415). -/
def Reg.early (r : Reg) : Bool :=
  match r with
  | .pwrCore _ | .pwrProf | .pwrRamp | .thmSts | .replSts | .coreRet | .thmArea | .thmRes => true
  | _ => false

/-- The read-to-clear fields of a register: low bit and width (R11). -/
def Reg.rc (r : Reg) : List (Nat × Nat) :=
  match r with
  | .ownLogB _ => [(0, 32)]
  | .hbmSts _ => [(16, 16)]
  | .wdgSts _ => [(32, 16)]
  | .engErr _ => [(0, 32)]
  | .evqCfg => [(16, 16)]
  | .lnkSts _ => [(32, 16), (16, 16)]
  | .peSts _ => [(48, 16), (32, 16), (16, 16)]
  | _ => []

/-- Blocks of an engine that hold some but not all contributions of their step (R363 WAIT). -/
def peWaiting (p : Pe) : Nat :=
  (p.blocks.filter fun (_, b) =>
    let got := if b.step % 2 = 0 then b.got0 else b.got1
    b.valid && 0 < got.length && got.length < b.ncon).length

/-- The value a read returns (R11, R363, R407, R415). A sequencer that stands Halted in the saved image of a pre-empted task is none of its core,
and SEQ_HALT does not show it: the model's choice (log entry 84). -/
def regValue (s : State) (r : Reg) : Word :=
  if s.bringup < 7 && !r.early then 0 else
  match r with
  | .peSts e => setBits (rdReg s r) 0 13 (peWaiting (mget {} s.pes e))
  | .qSts q =>
    let v := rdReg s r
    setBits v 60 4 (if bits v 60 4 = 3 then 3 else if !bit (rdReg s (.qCfg q)) 63 then 0
      else if (mget {} s.queues q).pkts.isEmpty then 1 else 2)
  | .seqHalt k => (core s k).seqs.foldl (fun v (i, x) => if x.st = .halted then setBits v i 1 1 else v) 0
  | .thmSts => if s.bringup = 0 then rdReg s r else setBits (rdReg s r) 0 16 (Config.dieTemps s.clk).toNat
  | .fltCmd _ | .pgRbld | .pgPreset | .xltWinv _ | .seqResume _ | .pwrProf => 0
  | _ => rdReg s r

/-- `n` bits of a register from bit `lo` are read: read-to-clear fields that this reads in any bit clear (R11; log entry 14). -/
def regPart (s : State) (r : Reg) (lo n : Nat) : State × Word :=
  let v := regValue s r
  if s.bringup < 7 && !r.early then (s, v) else
  ((r.rc.filter fun f => f.1 < lo + n && lo < f.1 + f.2).foldl (fun s (l, len) => wrReg s r (setBits (rdReg s r) l len 0)) s, v)

/-- A register is read whole (R11). -/
def regRead (s : State) (r : Reg) : State × Word := regPart s r 0 64

/-- A 32-bit word of device-register space is read; 0 where no register stands (R11). -/
def regWord (s : State) (w : Nat) : State × W32 :=
  match readAt s (4 * w / 8 * 8) with
  | none => (s, 0)
  | some r => let (s, v) := regPart s r (32 * (w % 2)) 32
    (s, BitVec.ofNat 32 (bits v (32 * (w % 2)) 32))

/-- A read by system software: the value is recorded. -/
def sysRead (s : State) (r : Reg) : Out :=
  let (s, v) := regRead s r
  .next { s with sysRd := v :: s.sysRd }

/-- R62. -/
def execOwnLogbRead (chiplet : Nat) (s : State) : Out := sysRead s (.ownLogB chiplet)
/-- R99. -/
def execHbmStsRead (stack : Nat) (s : State) : Out := sysRead s (.hbmSts stack)
/-- R189. -/
def execWdgStsRead (core : Nat) (s : State) : Out := sysRead s (.wdgSts core)
/-- R290. -/
def execEngErrRead (core : Nat) (s : State) : Out := sysRead s (.engErr core)
/-- R344. -/
def execEvqCfgRead (s : State) : Out := sysRead s .evqCfg
/-- R347. -/
def execLnkStsRead (p : Nat) (s : State) : Out := sysRead s (.lnkSts p)
/-- R363. -/
def execPeStsRead (e : Nat) (s : State) : Out := sysRead s (.peSts e)

end Sys2Proof.Machine
end

