-- ==== Sys2Proof/Machine/Translate.lean ====
section
/-! DEFINITION. Translation: page-table entries and their checks (R18-R20), attribute checks (R21), extents (R25, R26), walker
caches and walks (R23, R24, R27), the fixed window (R38), pending faults (R378, R379) and home moves of pages (R65, R66). -/
namespace Sys2Proof.Machine

/-- Attributes of a page part (R19). -/
structure Attr where
  r : Bool
  w : Bool
  x : Bool
  s : Bool
  f : Bool
  d : Bool
  p : Bool
  hk : Nat
  region : Nat
  hotbuf : Nat
  deriving DecidableEq, Repr

/-- Attributes of a leaf (R19); device registers are system-mode only (R16). -/
def leafAttr (e : Word) : Attr :=
  { r := bit e 5, w := bit e 6, x := bit e 7, s := bit e 8 || bits e 48 4 = 2, f := bit e 13, d := bit e 9, p := bit e 10,
    hk := bits e 11 2, region := bits e 58 6, hotbuf := bits e 52 6 }

/-- The requirement of R21 for an access, other than the privilege check. `opt`: an atomic of scope .pd; an engine read that
may come from flash. -/
def Attr.allows (a : Attr) (kind : AccKind) (opt : Bool) : Bool :=
  match kind with
  | .load => a.r && !a.f && a.hk ≠ 2
  | .store => a.w && !a.f
  | .atomic => a.r && a.w && !a.f && (a.hk ≠ 2 || opt)
  | .fetch => a.x && a.hk = 0 && !a.f
  | .engRead => a.r && a.hk ≠ 2 && (opt || !a.f)
  | .engWrite => a.w && !a.f

/-! ## Page-table entries (R18-R20) -/

/-- Lowest VA bit that a level indexes, and its index width (R18). -/
def lvlShift : Nat → Nat
  | 0 => 16 | 1 => 21 | 2 => 30 | 3 => 39 | _ => 48
def lvlWidth : Nat → Nat
  | 0 => 5 | 4 => 8 | _ => 9

/-- Size of a leaf page of a level. -/
def pageSize (l : Nat) : Nat := 2 ^ lvlShift l

/-- The page overlaps the emergency area (R16, R408). -/
def overlapsThm (s : State) (off size : Nat) : Bool :=
  let v := rdReg s .thmArea
  let b := bits v 0 20 * 65536
  let n := bits v 32 20 * 65536
  n ≠ 0 && off < b + n && b < off + size

/-- The page lies whole in the data area of a group in service (R135). -/
def protectedPage (s : State) (pa size : Nat) : Bool :=
  let (b, n) := areaOf s .pgAreaD
  pgOn s && b ≤ stackOff pa && stackOff pa + size ≤ b + n && pgState s ≠ 0 && pgState s ≠ 8 && pgState s ≠ 9

/-- The PA of a leaf agrees with its space, fields and home kind (R16, R19 reason 4). -/
def leafPaOk (s : State) (e : Word) (size : Nat) : Bool :=
  let pa := bits e 16 36 * 65536
  let hk := bits e 11 2
  let f := bit e 13
  let pOk := !bit e 10 || (hk = 0 && !f && isHbm pa && protectedPage s pa size)
  let sp := spaceOf pa
  pOk && (!f || hk = 0) &&
  (if f then sp = 1 && bits e 43 5 = 0
   else match hk with
    | 0 => (isHbm pa && !overlapsThm s (stackOff pa) size) || sp = 2
    | 1 => 4 ≤ sp && sp < 8
    | _ => sp = 8 && bits e 46 2 = 0 && peerPod pa ≠ podIdx s)

/-- A PA names a reserved space, or a field of it is out of range (R16 "fate of bad values"). -/
def paBad (s : State) (pa : Nat) : Bool :=
  match spaceOf pa with
  | 0 => !isHbm pa
  | 1 => pa / 2 ^ 43 % 32 ≠ 0
  | 2 | 4 | 5 | 6 | 7 => false
  | 8 => pa / 2 ^ 46 % 4 ≠ 0 || peerPod pa = podIdx s
  | _ => true

/-- The first failed check of an entry read at a level (R20). -/
def entryFault (s : State) (l : Nat) (e : Word) : Option Nat :=
  if !bit e 0 then some 0
  else if bit e 1 then
    if bit e 14 || bit e 2 || bits e 11 2 = 3 then some 1
    else if 3 ≤ l || bits e 3 2 ≠ l then some 2
    else if bits e 16 (lvlShift l - 16) ≠ 0 then some 3
    else if !leafPaOk s e (pageSize l) then some 4
    else none
  else
    if bits e 52 12 ≠ 0 || bits e 2 6 ≠ 0 || (2 ≤ l && bits e 8 4 ≠ 0) then some 1
    else if l = 0 then some 2
    else if paBad s (bits e 8 44 * 256) then some 4
    else if !isHbm (bits e 8 44 * 256) then some 5
    else none

/-! ## Walks (R24) -/

/-- End of a walk. -/
inductive WalkRes where
  | leaf (e : Word) (l : Nat)
  | fail (reason : Nat)
  | wait
  deriving DecidableEq, Repr

/-- VA prefix that names the entry of a level. -/
def vaPrefix (l va : Nat) : Nat := va / 2 ^ lvlShift l

/-- The walker cache of a chiplet holds this entry. -/
def cachedEntry (s : State) (chip ctx l va : Nat) : Option Word :=
  (s.wcache.find? fun x => x.chip = chip && x.ctx = ctx && x.level = l && x.prefix_ = vaPrefix l va).map (·.ent)

/-- Walks from a level down, collecting the entries read. -/
def walkFrom (s : State) (chip ctx va : Nat) : Nat → Nat → List WEnt → WalkRes × List WEnt
  | l, table, acc =>
    let pa := table + 8 * (va / 2 ^ lvlShift l % 2 ^ lvlWidth l)
    let got : HomeRead := match cachedEntry s chip ctx l va with
      | some e => .value ⟨e.truncate 32, false⟩
      | none => homeRead s (pa / 4) 0
    let got2 : HomeRead := match cachedEntry s chip ctx l va with
      | some e => .value ⟨(e >>> 32).truncate 32, false⟩
      | none => homeRead s (pa / 4 + 1) 0
    match got, got2 with
    | .wait, _ => (.wait, acc)
    | _, .wait => (.wait, acc)
    | .value lo, .value hi =>
      if lo.p || hi.p then (.fail 0, acc) else
      let e : Word := BitVec.ofNat 64 (lo.v.toNat + 2 ^ 32 * hi.v.toNat)
      match entryFault s l e with
      | some r => (.fail r, acc)
      | none =>
        let acc := acc ++ [⟨chip, ctx, l, vaPrefix l va, e⟩]
        if bit e 1 then (.leaf e l, acc)
        else match l with
          | 0 => (.fail 2, acc)
          | l + 1 => walkFrom s chip ctx va l (bits e 8 44 * 256) acc
    | _, _ => (.fail 0, acc)

/-- The fixed window (R15, R38). -/
def inFixed (va : Nat) : Bool := 0xFFFFFFFFE00000 ≤ va
/-- The leaf that the walker supplies for a page of the fixed window (R38). -/
def fixedLeaf (va : Nat) : Option Word :=
  if va / 65536 = 0xFFFFFFFFFF then some (BitVec.ofNat 64 (fixedPa + 0x23))
  else if va / 65536 = 0xFFFFFFFFFE then some (BitVec.ofNat 64 (fixedPa + 0x10000 + 0x23))
  else none

/-- A whole walk for a context on a chiplet (R18, R20, R22, R38). -/
def pageWalk (s : State) (chip ctx va : Nat) : WalkRes × List WEnt :=
  if inFixed va then
    match fixedLeaf va with
    | some e => (.leaf e 0, [⟨chip, ctx, 0, vaPrefix 0 va, e⟩])
    | none => (.fail 7, [])
  else
    let r := rdReg s (.xltRoot ctx)
    if !bit r 0 then (.fail 0, [])
    else if !isHbm (bits r 11 41 * 2048) then (.fail 5, [])
    else walkFrom s chip ctx va 4 (bits r 11 41 * 2048) []

/-- Words of table entries that a walk read from memory, given the entries it found good (R24). -/
def walkWords (s : State) (chip ctx va : Nat) (r : WalkRes) (ents : List WEnt) : List Nat :=
  if inFixed va then [] else
  let n := match r with
    | .leaf _ _ => ents.length
    | _ => ents.length + 1
  let tables := bits (rdReg s (.xltRoot ctx)) 11 41 * 2048 :: ents.map fun e => bits e.ent 8 44 * 256
  ((List.zip [4, 3, 2, 1, 0] tables).take n).flatMap fun (l, t) =>
    if (cachedEntry s chip ctx l va).isSome then [] else
    let w := (t + 8 * (va / 2 ^ lvlShift l % 2 ^ lvlWidth l)) / 4
    [w, w + 1]

/-- PA of a VA under a leaf. -/
def leafPa (e : Word) (l va : Nat) : Nat := bits e 16 36 * 65536 / pageSize l * pageSize l + va % pageSize l

/-! ## Translating one page part (R21, R25, R26) -/

/-- Result of a translation. -/
inductive Tr where
  | ok (pa : Nat) (a : Attr)
  /-- a fault found without a walk: cause of R371 -/
  | trap (cause : Nat)
  /-- the walker has to work -/
  | walk
  deriving DecidableEq, Repr

/-- The leaf that the walker cache holds for a VA. -/
def cachedLeaf (s : State) (chip ctx va : Nat) : Option (Word × Nat) :=
  [0, 1, 2].findSome? fun l => match cachedEntry s chip ctx l va with
    | some e => if bit e 1 then some (e, l) else none
    | none => none

/-- Attributes of an extent (R25): the declared permissions. -/
def extAttr (x : Extent) : Attr :=
  { r := x.r, w := x.w, x := false, s := x.s, f := x.f, d := x.d, p := x.p, hk := x.hk, region := x.region, hotbuf := x.hotbuf }

/-- One page part of an access of core k: extents in table order, then the walker (R26). With translation off every access outside the
fixed window is left to the walker, which finds reason 0 (R22). Through an extent the privilege check of R21 comes before the extent
violation of R26, an order the manual does not give (log entry 69). -/
def translate (s : State) (k va : Nat) (kind : AccKind) (system opt : Bool) : Tr :=
  let c := core s k
  let slow : Tr :=
    match cachedLeaf s (chipOf k) c.ctx va with
    | none => .walk
    | some (e, l) =>
      let a := leafAttr e
      if a.s && !system then .trap 3
      else if a.allows kind opt then .ok (leafPa e l va) a
      else .walk
  if inFixed va then slow
  else if !bit (rdReg s (.xltRoot c.ctx)) 0 then .walk
  else if kind = .fetch then slow
  else match c.extents.find? fun x => x.va ≤ va && va < x.va + x.len with
  | some x =>
    let a := extAttr x
    let writes := kind = .store || kind = .atomic || kind = .engWrite
    if a.s && !system then .trap 3
    else if writes && !a.w then .trap 7
    else if a.allows kind opt then .ok (x.pa + (va - x.va)) a
    else .trap 6
  | none => if c.strict then .trap 7 else slow

/-- What a translation would find, with no walk begun and nothing cached. -/
inductive Peek where
  | at_ (pa : Nat) (a : Attr)
  | none
  | wait
  deriving DecidableEq, Repr

/-- The walker's answer for core k, looked up without a walk. -/
def peekWalk (s : State) (k va : Nat) : Peek :=
  let c := core s k
  match cachedLeaf s (chipOf k) c.ctx va with
  | some (e, l) => .at_ (leafPa e l va) (leafAttr e)
  | Option.none => match (pageWalk s (chipOf k) c.ctx va).1 with
    | .leaf e l => .at_ (leafPa e l va) (leafAttr e)
    | .fail _ => .none
    | .wait => .wait

/-- The same with extents first (R26). -/
def peekPage (s : State) (k va : Nat) : Peek :=
  match (if inFixed va then Option.none else (core s k).extents.find? fun x => x.va ≤ va && va < x.va + x.len) with
  | some x => .at_ (x.pa + (va - x.va)) (extAttr x)
  | Option.none => peekWalk s k va

/-! ## Walks in flight and pending faults (R27, R378, R379) -/

/-- The code of KIND in FLT_REC_A (R379). -/
def kindCode : AccKind → Nat
  | .load => 0 | .store => 1 | .atomic => 2 | .fetch => 3 | .engRead => 4 | .engWrite => 5

/-- A walk starts for a sequencer or an engine queue. -/
def startWalk (s : State) (w : Walk) : State :=
  if s.walks.any fun x => x.core = w.core && x.idx = w.idx then s else { s with walks := s.walks ++ [w] }

/-- A walk fails: the bit of FLT_PEND, the record, the event of SRC 6 (R378). -/
def pendFault (s : State) (w : Walk) (reason : Nat) : State :=
  let a : Word := BitVec.ofNat 64 (reason * 2 ^ 60 + kindCode w.kind * 2 ^ 56 + w.va % 2 ^ 56)
  let b : Word := setBits (w.pc &&& 0x00FFFFFFFFFFFFFF) 63 1 1
  let s := if w.idx < 32 then modSeq s w.core w.idx fun x => { x with pendSlot := w.slot }
    else modCore s w.core fun c => { c with pendCmd := mput c.pendCmd (w.idx - 32) w.slot }
  let s := wrReg s (.fltPend w.core) (setBits (rdReg s (.fltPend w.core)) w.idx 1 1)
  let s := wrReg (wrReg s (.fltRecA w.core w.idx) a) (.fltRecB w.core w.idx) b
  evPost s 6 (64 * w.core + w.idx) a

/-- R27, R378: a walk ends. The access resumes, a speculative load takes its poison (R283), or the fault pends. -/
def execWalkComplete (core_ idx : Nat) (s : State) : Out :=
  match s.walks.find? fun w => w.core = core_ && w.idx = idx with
  | none => .next s
  | some w =>
    let (r, ents) := pageWalk s (chipOf w.core) w.ctx w.va
    let ws := walkWords s (chipOf w.core) w.ctx w.va r ents
    let s := ws.foldl ownAsk s
    if r = .wait then .next s else
    let s := touchReads { s with walks := s.walks.filter fun x => !(x.core = core_ && x.idx = idx) } ws
    let new := ents.filter fun e => !s.wcache.contains e
    let s := { s with wcache := s.wcache ++ new }
    let go (s : State) : State := if idx < 32 then modSeq s core_ idx fun x => { x with stalled := false } else s
    let bad (reason : Nat) : State :=
      if w.spec then go (modCore s core_ fun c => { c with specFail := c.specFail ++ [(idx, w.va)] }) else pendFault s w reason
    .next (match r with
    | .leaf e _ =>
      let a := leafAttr e
      if (a.s && !w.system) || a.allows w.kind w.opt then go s else bad 15
    | .fail n => bad n
    | .wait => s)

/-- R23: writing INV drops the context's entries everywhere; the write completes when every walk has restarted. -/
def execXltWinvWrite (ctx : Nat) (v : Word) (s : State) : Out :=
  .next (if 7 ≤ s.bringup && bit v 0 then { s with wcache := s.wcache.filter fun e => e.ctx ≠ ctx, winv := s.winv ++ [ctx] } else s)

/-- R23: the write of INV completes: no walker cache holds an entry of the context, and walks in flight start again. -/
def execXltWinvComplete (ctx : Nat) (s : State) : Out :=
  .next (if s.winv.contains ctx then
    { s with winv := s.winv.erase ctx, wcache := s.wcache.filter fun e => e.ctx ≠ ctx } else s)

/-- A pending fault's bit clears. -/
def clearPend (s : State) (k idx : Nat) : State :=
  let s := wrReg s (.fltPend k) (setBits (rdReg s (.fltPend k)) idx 1 0)
  wrReg s (.fltRecB k idx) (setBits (rdReg s (.fltRecB k idx)) 63 1 0)

/-- The fault that pends for a sequencer or queue. -/
def isPending (s : State) (k idx : Nat) : Bool := bit (rdReg s (.fltPend k)) idx

/-- Its cause (R371): page fault, or protection for REASON 15. -/
def pendCause (s : State) (k idx : Nat) : Nat := if bits (rdReg s (.fltRecA k idx)) 60 4 = 15 then 6 else 5

/-- The core's task is pre-empted: FLT_CMD is ignored (R383). -/
def corePreempted (s : State) (k : Nat) : Bool :=
  match (core s k).task with
  | none => true
  | some t => match mlook s.tasks t with
    | none => true
    | some x => x.st = .preempted || x.st = .saving

/-- R378: the checks run again from the start, with a new walk. -/
def execFltCmdResume (core_ idx : Nat) (s : State) : Out :=
  if !isPending s core_ idx || corePreempted s core_ then .next s else
  let s := modCore (clearPend s core_ idx) core_ fun c => { c with specFail := c.specFail.filter fun x => x.1 ≠ idx }
  .next (if idx < 32 then modSeq s core_ idx fun x => { x with stalled := false } else s)

/-- R378: KILL ends the task with CODE 4 and the pending cause. -/
def execFltCmdKill (core_ idx : Nat) (s : State) : Out :=
  if !isPending s core_ idx || corePreempted s core_ then .next s else
  .next (endCoreTask (clearPend s core_ idx) core_ 4 (pendCause s core_ idx))

/-- R378: the fault is delivered: to the handler or the end of the task for a sequencer (R373), as fault status for an engine
command (R29). A landing fault that has come meanwhile is taken first, and the bundle's own appears after eret (R377). -/
def execFltCmdDeliver (core_ idx : Nat) (s : State) : Out :=
  if !isPending s core_ idx || corePreempted s core_ then .next s else
  let a := rdReg s (.fltRecA core_ idx)
  let pc := rdReg s (.fltRecB core_ idx) &&& 0x00FFFFFFFFFFFFFF
  let cause := pendCause s core_ idx
  let s := clearPend s core_ idx
  .next (if idx < 32 then
    let detail := if cause = 5 then bits a 60 4 else (seqOf s core_ idx).pendSlot
    let own : Trap := ⟨cause, memVal detail (bits a 0 56)⟩
    takeTrap (modSeq s core_ idx fun x => { x with stalled := false, boundary := [] }) core_ idx pc ((seqOf s core_ idx).boundary.headD own)
  else match mlook (core s core_).cmds (mget 0 (core s core_).pendCmd (idx - 32)) with
    | none => s
    | some m =>
      let m' : Cmd := { m with st := .done, status := if m.status = 0 then 2 else m.status, eva := bits a 0 56, remote := if m.st = .done then 0 else m.remote }
      modCore s core_ fun c => { c with cmds := mput c.cmds m.id m' })

end Sys2Proof.Machine
end

