-- ==== Sys2Proof/Machine/Access.lean ====
section
/-! DEFINITION. Loads, stores, gathers, scatters, speculative loads, scratchpad accesses and atomics of the M slots
(R276-R285). -/
namespace Sys2Proof.Machine

/-! ## Elements and their checks (R276) -/

/-- One element of an access: its lane and its 64-bit address. -/
structure Elem where
  lane : Nat
  addr : Word
  /-- its index lane is poisoned -/
  pois : Bool := false
  deriving DecidableEq, Repr

/-- An element after its checks. -/
structure Place where
  lane : Nat
  va : Nat
  pa : Nat
  a : Attr
  deriving DecidableEq, Repr

/-- One element checked: what it raises, or where it lies. -/
inductive Checked where
  | at_ (p : Place)
  | raise (r : Raise)
  deriving DecidableEq, Repr

/-- The buffer charged for an address (R105). -/
def bufferOf (c : Core) (va : Nat) (a : Attr) : Nat :=
  match c.bufs.find? fun (b, n, _) => b ≤ va && va < b + n with
  | some (_, _, h) => h
  | none => a.hotbuf

/-- The checks of R276 on one element of a global access. `all` is every element, for the poisoned lanes of xval. -/
def checkElem (s : State) (kind : AccKind) (opt spec : Bool) (size : Nat) (all : List Elem) (e : Elem) : Checked :=
  let x := me s
  let va := e.addr.toNat
  let slot := s.cur.slot
  if e.pois then
    .raise (.trap ⟨8, poisonVal s (all.foldl (fun m e => if e.pois then m + 2 ^ e.lane else m) 0)⟩)
  else if va % size ≠ 0 then .raise (.trap ⟨4, memVal slot va⟩)
  else if 2 ^ 56 ≤ va then .raise (.trap ⟨5, memVal 6 va⟩)
  else match translate s s.cur.core va kind x.mode opt with
    | .ok pa a => .at_ ⟨e.lane, va, pa, a⟩
    | .trap c => .raise (.trap ⟨c, memVal slot va⟩)
    | .walk => .raise (.walk {
        core := s.cur.core, idx := s.cur.seq, ctx := (myCore s).ctx, va := va, kind := kind,
        system := x.mode, spec := spec, opt := opt, pc := s.cur.pc, slot := slot })

/-- A read or atomic of a sequencer is still on its way: its word, or both, and its tag. -/
def onItsWay (k q : Nat) : Instr → Option (Nat × Bool × Nat)
  | .forwardedRead w _ _ (.load a b t _ _ _) => if a = k && b = q && t ≠ 0 then some (w, false, t) else none
  | .notHeldAnswer w _ _ (.load a b t _ _ _) _ => if a = k && b = q && t ≠ 0 then some (w, false, t) else none
  | .atomicExecute _ w a => if a.core = k && a.seq = q && a.kind ≠ .signal then some (w, a.wide, a.tag) else none
  | _ => none

/-- A read or atomic of an earlier bundle on a word is still on its way: a later access to the word waits (R75). -/
def ownPending (s : State) (k q w : Nat) : Bool := (s.net ++ s.held).any fun m =>
  match onItsWay k q m with
  | some (x, wide, t) => t < s.cur.tag0 && (x = w || (wide && x + 1 = w))
  | none => false

/-- Loads or atomics before it in its bundle have not read: a store or atomic waits (R73). -/
def bundlePending (s : State) (k q t0 : Nat) : Bool :=
  ((s.net ++ s.held).any fun m => match onItsWay k q m with
    | some (_, _, t) => t0 ≤ t
    | none => false) ||
  s.peerOut.any fun o => match o.body with
    | .atomic _ a => a.core = k && a.seq = q && t0 ≤ a.tag
    | _ => false

/-- Late memory at an access (R182): an earlier access of the sequencer to the word is under way, or for a load a registration
with fetch, its page moves, or a register write before it has not performed. -/
def busyAt (s : State) (kind : AccKind) (pa : Nat) : Bool :=
  let w := pa / 4
  if spaceOf pa = 2 then
    s.net.any fun m => match m with
      | .registerWrite _ _ => true
      | _ => false
  else if ownPending s s.cur.core s.cur.seq w then true
  else match l1At s s.cur.core w with
    | some ⟨.pend _ _, _, _⟩ => kind ≠ .store
    | some ⟨.o, _, _⟩ => false
    | _ => kind ≠ .load && movingPa s pa

/-- What an element fails on its address alone, in the order of R276: alignment, then bits [63:56]. -/
def stageOf (size : Nat) (top : Bool) (a : Nat) : Nat := if a % size ≠ 0 then 0 else if top && 2 ^ 56 ≤ a then 1 else 2

/-- An element enters a list kept by stage and address. -/
def insertElem (size : Nat) (top : Bool) (e : Elem) : List Elem → List Elem
  | [] => [e]
  | f :: r =>
    let a := e.addr.toNat
    let b := f.addr.toNat
    if stageOf size top a < stageOf size top b || (stageOf size top a = stageOf size top b && a < b) then e :: f :: r
    else f :: insertElem size top e r

/-- The elements of a contiguous or strided access in the order in which they are checked: each check of R276 on the whole access, at the
lowest address first (R28; that a strided access with a negative stride reports so too is the model's reading: log entry 70). -/
def byStage (size : Nat) (top : Bool) (es : List Elem) : List Elem := es.foldr (insertElem size top) []

/-- Elements checked one after another: the places, or the first thing raised (R28). -/
def checkList (s : State) (kind : AccKind) (opt : Bool) (size : Nat) (all : List Elem) : List Elem → Except Raise (List Place)
  | [] => .ok []
  | e :: r =>
    match checkElem s kind opt false size all e with
    | .raise x => .error x
    | .at_ p => match checkList s kind opt size all r with
      | .error x => .error x
      | .ok ps => .ok (p :: ps)

/-- All elements of an access checked: lane by lane for a gather or scatter, stage by stage for any other (R276); the places stand in
lane order. An access to late memory waits (R182). -/
def checkAll (s : State) (kind : AccKind) (opt : Bool) (size : Nat) (lanes : Bool) (es : List Elem) : Except Raise (List Place) :=
  match checkList s kind opt size es (if lanes then es else byStage size true es) with
  | .error x => .error x
  | .ok ps =>
    if ps.any fun p => busyAt s kind p.pa || (size = 8 && busyAt s kind (p.pa + 4)) then
      .error (if kind ≠ .load && ps.any fun p => movingPa s p.pa then .move else .stall)
    else .ok ((List.range 16).filterMap fun l => ps.find? fun p => p.lane = l)

/-! ## Loads (R278-R280) -/

/-- Words an element spans. -/
def elemWords (pa size : Nat) : Nat := (pa % 4 + size + 3) / 4

/-- An element of a late access before this one names a word: it is read once, for all (R74). -/
def asked (l : Late) (i w : Nat) : Bool :=
  let e := l.elems.getD i {}
  (e.words.getD (w - e.w) none).isSome ||
    (l.elems.take i).any fun f => f.w ≤ w && w < f.w + f.words.length && (f.words.getD (w - f.w) none).isNone

/-- One element of a load is requested: words from the levels that no element before it names, or a part of a device register, whose
read-to-clear fields in that part clear (R11; log entry 14). -/
def requestAt (s : State) (k q tag i size pa region : Nat) : State :=
  (List.range (elemWords pa size)).foldl (fun s wi =>
    if spaceOf pa ≠ 2 && (seqOf s k q).lates.any (fun l => l.tag = tag && asked l i (pa / 4 + wi)) then s
    else if spaceOf pa = 2 then
      match readAt s (pa / 8 * 8) with
      | none => fillLate s k q tag i wi ⟨0, false⟩ .none
      | some r =>
        let lo := if wi = 0 then 8 * (pa % 8) else 32
        let n := if wi = 0 then min (8 * size) (32 - 8 * (pa % 4)) else 8 * size - 32
        let (s, v) := regPart s r lo n
        fillLate s k q tag i wi ⟨BitVec.ofNat 32 (bits v (32 * (pa % 8 / 4 + wi)) 32), false⟩ .none
    else loadWord s k q tag i wi (pa / 4 + wi) region) s

/-- The kinds of wait that M slots make: in the order of M0 and M1 they hold one another back (R73, R80). -/
def isMWait : Wait → Bool
  | .sem _ _ | .wfe => false
  | _ => true

/-- A wait of an M slot comes behind those of the M slots before it; waits of S slots hold no access back (R83). -/
def addWait (x : Seq) (w : Wait) : Seq := { x with waits := x.waits.takeWhile isMWait ++ w :: x.waits.dropWhile isMWait }

/-- An acquire stands before this slot in its bundle: its load reads after it (R79). -/
def acquiring (s : State) : Bool := (me s).waits.any fun w => match w with
  | .acq _ _ => true
  | _ => false

/-- One element of a load of the slot under way. -/
def requestElem (s : State) (tag i size : Nat) (p : Place) : State :=
  if acquiring s then modMe s fun x => addWait x (.load tag i size p.va p.pa p.a.region)
  else requestAt s s.cur.core s.cur.seq tag i size p.pa p.a.region

/-- A load under way: its destinations and, per element, its place or none for a speculative element that takes poison. -/
def startLoad (s : State) (lat : Nat) (dst : LateDst) (size : Nat) (spec : Bool) (es : List (Nat × Option Place)) (lanes : Bool := false) :
    State :=
  let tag := s.nextTag
  let elems := es.map fun (l, p) => match p with
    | some p => ({ lane := l, off := p.pa % 4, va := p.va, words := List.replicate (elemWords p.pa size) none, w := p.pa / 4
                   buf := bufferOf (myCore s) p.va p.a } : LateElem)
    | none => { lane := l, words := [some ⟨0, true⟩] }
  let late : Late := { tag := tag, slot := s.cur.slot, dst := dst, elems := elems, spec := spec, lanes := lanes }
  let s := modMe { s with nextTag := tag + 1 } fun x =>
    { x with lates := x.lates ++ [late], infl := x.infl ++ [⟨lat, s.cur.slot, [], some tag⟩] }
  (List.range es.length).foldl (fun s i =>
    match (es.getD i (0, none)).2 with
    | none => s
    | some p => requestElem s tag i size p) s

/-- A global load of some elements; with no element nothing is checked (R212). `lanes`: a gather. -/
def globalLoad (s : State) (basePois : Bool) (dst : LateDst) (size : Nat) (es : List Elem) (lanes : Bool := false) : State :=
  if basePois && !es.isEmpty then poisonFault s else
  match checkAll s .load false size lanes es with
  | .error r => raise s r
  | .ok ps => startLoad s 32 dst size false (ps.map fun p => (p.lane, some p)) lanes

/-- The elements of a contiguous vector access (R279). -/
def contiguous (q : BitVec 16) (a : Word) (step : Nat) : List Elem :=
  (active q).map fun l => { lane := l, addr := a + BitVec.ofNat 64 (l * step) }
/-- The elements of a strided vector access (R279). -/
def strided (q : BitVec 16) (a stride : Word) : List Elem :=
  (active q).map fun l => { lane := l, addr := a + BitVec.ofNat 64 l * stride }
/-- The elements of a gather or scatter (R280). -/
def indexed (x : Seq) (q : BitVec 16) (base : Word) (idx : BitVec 6) (off : Int) : List Elem :=
  (active q).map fun l =>
    let i := rdV x idx l
    { lane := l, addr := base + (i.v.signExtend 64) + ofI off, pois := i.p }

/-- Base and index registers are poisoned. -/
def addrPois (x : Seq) (f : MMem) : Bool := (rdS x f.base).p || (rdS x f.idx).p
/-- Address of a mem form that adds its index (R276). -/
def formAddr (x : Seq) (f : MMem) : Word := memAddr x f.base f.idx f.off.toInt
/-- Lane predicate of a vector mem form (R279). -/
def formQ (x : Seq) (f : MMem) : BitVec 16 := rdQ x f.g

/-- R278: latency 32. -/
def execLd (f : MMem) (s : State) : Out :=
  guarded f.g s fun s =>
    globalLoad s (addrPois (me s) f) (.s f.data.toNat f.size) (sizeBytes f.size) [{ lane := 0, addr := formAddr (me s) f }]
/-- R279: latency 32. -/
def execVld (f : MMem) (s : State) : Out :=
  let x := me s
  .next (globalLoad s (addrPois x f) (.v f.data.toNat f.size) (sizeBytes f.size)
    (contiguous (formQ x f) (formAddr x f) (sizeBytes f.size)))
/-- R279: the index register holds the stride. -/
def execVldr (f : MMem) (s : State) : Out :=
  let x := me s
  .next (globalLoad s (addrPois x f) (.v f.data.toNat f.size) (sizeBytes f.size)
    (strided (formQ x f) ((rdS x f.base).v + ofI f.off.toInt) (rdS x f.idx).v))
/-- R280: latency 32. -/
def execVgather (f : MMem) (s : State) : Out :=
  let x := me s
  .next (globalLoad s (rdS x f.base).p (.v f.data.toNat f.size) (sizeBytes f.size)
    (indexed x (formQ x f) (rdS x f.base).v f.idx f.off.toInt) true)

/-! ## Speculative loads (R283) -/

/-- An element of a speculative load: its place, poison, or something to wait for. -/
def checkSpec (s : State) (size : Nat) (e : Elem) : Except Raise (Option Place) :=
  if (myCore s).specFail.contains (s.cur.seq, e.addr.toNat) then .ok none else
  match checkElem s .load false true size [e] e with
  | .at_ p => if busyAt s .load p.pa || (size = 8 && busyAt s .load (p.pa + 4)) then .error .stall else .ok (some p)
  | .raise (.trap _) => .ok none
  | .raise r => .error r

/-- All elements of a speculative load. -/
def checkSpecs (s : State) (size : Nat) : List Elem → Except Raise (List (Nat × Option Place))
  | [] => .ok []
  | e :: r =>
    match checkSpec s size e with
    | .error x => .error x
    | .ok p => match checkSpecs s size r with
      | .error x => .error x
      | .ok ps => .ok ((e.lane, p) :: ps)

/-- A speculative load: what would fault gives poison. -/
def specLoad (s : State) (basePois : Bool) (dst : LateDst) (size : Nat) (es : List Elem) : State :=
  if basePois then startLoad s 32 dst size true (es.map fun e => (e.lane, none)) else
  match checkSpecs s size es with
  | .error r => raise s r
  | .ok ps =>
    let s := modCore s s.cur.core fun c => { c with specFail := c.specFail.filter fun x => x.1 ≠ s.cur.seq }
    startLoad s 32 dst size true ps

/-- R283. -/
def execSld (f : MMem) (s : State) : Out :=
  guarded f.g s fun s =>
    specLoad s (addrPois (me s) f) (.s f.data.toNat f.size) (sizeBytes f.size) [{ lane := 0, addr := formAddr (me s) f }]
/-- R283. -/
def execVsld (f : MMem) (s : State) : Out :=
  let x := me s
  .next (specLoad s (addrPois x f) (.v f.data.toNat f.size) (sizeBytes f.size)
    (contiguous (formQ x f) (formAddr x f) (sizeBytes f.size)))

/-! ## Stores (R278-R280) -/

/-- Mask and shifted data of a store of `n` low bytes at byte `o` of word i of the element. -/
def storePart (o n : Nat) (data : Word) (i : Nat) : BitVec 4 × W32 :=
  let m := (2 ^ n - 1) * 2 ^ o / 2 ^ (4 * i)
  let d := data.toNat % 2 ^ (8 * n) * 2 ^ (8 * o) / 2 ^ (32 * i)
  (BitVec.ofNat 4 m, BitVec.ofNat 32 d)

/-- `n` bytes of data for a register, from its byte `o` on (R11; log entry 14). -/
def regPut (o n data : Nat) (src : WSrc) : RegPut :=
  ⟨setBits 0 (8 * o) (8 * n) data, setBits 0 (8 * o) (8 * n) (2 ^ (8 * n) - 1), src⟩

/-- One element of a store performs (R46, R87, R277, R366). -/
def performStore (s : State) (k q slot size : Nat) (data : Word) (poison : Bool) (va pa region buf : Nat) : State :=
  let n := elemWords pa size
  let part := storePart (pa % 4) size data
  if isPeerPa pa then
    let ws := (List.range n).map fun i =>
      (⟨peerWord pa + i, (part i).1, (part i).2, poison, .write, .seq k q⟩ : HomeWr)
    peerWrite (sink s k) (peerPod pa) (.words ws) (.seq k q)
  else if spaceOf pa = 2 then
    send s (.registerWrite (pa / 8 * 8) (regPut (pa % 8) size data.toNat (.seq k q)))
  else match intakeOf s pa with
    | some e => rejectIntake s e
    | none => (List.range n).foldl (fun s i =>
        storeWord s k q (pa / 4 + i) (part i).1 ⟨(part i).2, poison⟩ va slot region buf) s

/-- What an access of a bundle waits with. -/
def isAccess : Wait → Bool
  | .order | .atom _ | .store .. | .spm .. | .load .. | .rel _ (some _) => true
  | _ => false

/-- A slot before it in the bundle has still to perform, or a load or atomic of the bundle has yet to read: the write waits (R73, R80). -/
def behind (s : State) : Bool := (me s).waits.any isMWait || bundlePending s s.cur.core s.cur.seq s.cur.tag0

/-- A write of the slot under way waits behind what comes before it in its bundle. -/
def putBehind (s : State) (w : Wait) : State := modMe s fun x => addWait (addWait x .order) w

/-- An element of a store performs, or waits. -/
def storeElem (s : State) (size : Nat) (data : Word) (poison : Bool) (p : Place) : State :=
  let buf := bufferOf (myCore s) p.va p.a
  if behind s then putBehind s (.store s.cur.slot size data poison p.va p.pa p.a.region buf)
  else performStore s s.cur.core s.cur.seq s.cur.slot size data poison p.va p.pa p.a.region buf

/-- A global store of some elements: data and poison by lane. `lanes`: a scatter. -/
def globalStore (s : State) (basePois : Bool) (size : Nat) (es : List Elem) (data : Nat → SVal) (lanes : Bool := false) : State :=
  if basePois && !es.isEmpty then poisonFault s else
  match checkAll s .store false size lanes es with
  | .error r => raise s r
  | .ok ps => ps.foldl (fun s p => storeElem s size (data p.lane).v (data p.lane).p p) s

/-- The lanes of a v register as store data. -/
def laneData (x : Seq) (v : BitVec 6) (l : Nat) : SVal := let y := rdV x v l; ⟨y.v.zeroExtend 64, y.p⟩

/-- R278. -/
def execSt (f : MMem) (s : State) : Out :=
  guarded f.g s fun s =>
    let x := me s
    globalStore s (addrPois x f) (sizeBytes f.size) [{ lane := 0, addr := formAddr x f }] fun _ => rdS x f.data
/-- R279. -/
def execVst (f : MMem) (s : State) : Out :=
  let x := me s
  .next (globalStore s (addrPois x f) (sizeBytes f.size)
    (contiguous (formQ x f) (formAddr x f) (sizeBytes f.size)) (laneData x f.data))
/-- R279: the index register holds the stride. -/
def execVstr (f : MMem) (s : State) : Out :=
  let x := me s
  .next (globalStore s (addrPois x f) (sizeBytes f.size)
    (strided (formQ x f) ((rdS x f.base).v + ofI f.off.toInt) (rdS x f.idx).v) (laneData x f.data))
/-- R280: lanes in ascending order. -/
def execVscatter (f : MMem) (s : State) : Out :=
  let x := me s
  .next (globalStore s (rdS x f.base).p (sizeBytes f.size)
    (indexed x (formQ x f) (rdS x f.base).v f.idx f.off.toInt) (laneData x f.data) true)

/-! ## The scratchpad (R14, R76, R281) -/

/-- The checks of a scratchpad access, element by element: what is raised first, or nothing. -/
def spmCheck (s : State) (size : Nat) (all : List Elem) : List Elem → Option Raise
  | [] => none
  | e :: r =>
    let a := e.addr.toNat
    if e.pois then some (.trap ⟨8, poisonVal s (all.foldl (fun m e => if e.pois then m + 2 ^ e.lane else m) 0)⟩)
    else if a % size ≠ 0 then some (.trap ⟨4, memVal s.cur.slot a⟩)
    else if (myCore s).spmSize < a + size then some (.trap ⟨7, memVal s.cur.slot a⟩)
    else spmCheck s size all r

/-- A scratchpad word. -/
def spmWord (c : Core) (w : Nat) : Lane := mget {} c.spm w
/-- Writes a scratchpad word. -/
def setSpm (c : Core) (w : Nat) (x : Lane) : Core := { c with spm := mset {} c.spm w x }

/-- The words of an element of the scratchpad. -/
def spmElem (c : Core) (lane a size : Nat) : LateElem :=
  { lane := lane, off := a % 4, va := a, words := (List.range (elemWords a size)).map fun i => some (spmWord c (a / 4 + i)) }

/-- A scratchpad load: latency 6. -/
def spmLoad (s : State) (basePois : Bool) (dst : LateDst) (size : Nat) (es : List Elem) (lanes : Bool := false) : State :=
  if basePois && !es.isEmpty then poisonFault s else
  match spmCheck s size es (if lanes then es else byStage size false es) with
  | some r => raise s r
  | none => result s 6 (es.map fun e => (spmElem (myCore s) e.lane e.addr.toNat size).write dst)

/-- One element of a scratchpad store: a part of a word keeps or takes poison as R277 says. -/
def spmPut (c : Core) (a size : Nat) (data : Word) (poison : Bool) : Core :=
  (List.range (elemWords a size)).foldl (fun c i =>
    let (m, d) := storePart (a % 4) size data i
    let w := a / 4 + i
    let old := spmWord c w
    setSpm c w ⟨mergeW old.v d m, poison || (m ≠ 15 && old.p)⟩) c

/-- A scratchpad store: it performs, or waits behind what comes before it in its bundle (R73). -/
def spmStore (s : State) (basePois : Bool) (size : Nat) (es : List Elem) (data : Nat → SVal) (lanes : Bool := false) : State :=
  if basePois && !es.isEmpty then poisonFault s else
  match spmCheck s size es (if lanes then es else byStage size false es) with
  | some r => raise s r
  | none => es.foldl (fun s e =>
      let d := data e.lane
      if behind s then putBehind s (.spm e.addr.toNat size d.v d.p)
      else modCore s s.cur.core fun c => spmPut c e.addr.toNat size d.v d.p) s

/-- R281. -/
def execLdSpm (f : MMem) (s : State) : Out :=
  guarded f.g s fun s =>
    spmLoad s (addrPois (me s) f) (.s f.data.toNat f.size) (sizeBytes f.size) [{ lane := 0, addr := formAddr (me s) f }]
/-- R281. -/
def execStSpm (f : MMem) (s : State) : Out :=
  guarded f.g s fun s =>
    let x := me s
    spmStore s (addrPois x f) (sizeBytes f.size) [{ lane := 0, addr := formAddr x f }] fun _ => rdS x f.data
/-- R281. -/
def execVldSpm (f : MMem) (s : State) : Out :=
  let x := me s
  .next (spmLoad s (addrPois x f) (.v f.data.toNat f.size) (sizeBytes f.size)
    (contiguous (formQ x f) (formAddr x f) (sizeBytes f.size)))
/-- R281. -/
def execVstSpm (f : MMem) (s : State) : Out :=
  let x := me s
  .next (spmStore s (addrPois x f) (sizeBytes f.size)
    (contiguous (formQ x f) (formAddr x f) (sizeBytes f.size)) (laneData x f.data))
/-- R281. -/
def execVgatherSpm (f : MMem) (s : State) : Out :=
  let x := me s
  .next (spmLoad s (rdS x f.base).p (.v f.data.toNat f.size) (sizeBytes f.size)
    (indexed x (formQ x f) (rdS x f.base).v f.idx f.off.toInt) true)
/-- R281. -/
def execVscatterSpm (f : MMem) (s : State) : Out :=
  let x := me s
  .next (spmStore s (rdS x f.base).p (sizeBytes f.size)
    (indexed x (formQ x f) (rdS x f.base).v f.idx f.off.toInt) (laneData x f.data) true)

/-! ## Atomics (R56, R81, R284, R285) -/

/-- An atomic on a page of device registers: it reads the register, as a load of its size does, and the new value is written, as a store
does. The manual says of no atomic what it does there: the model's choice (log entry 14). -/
def regAtomic (s : State) (pa : Nat) (a : AtomReq) : State :=
  let n := if a.wide then 2 else 1
  let o := pa % 8 / 4
  match readAt s (pa / 8 * 8) with
  | none => atomReply s a (List.replicate n {})
  | some r =>
    let (s, v) := regPart s r (32 * o) (32 * n)
    let old := (List.range n).map fun i => (⟨BitVec.ofNat 32 (bits v (32 * (o + i)) 32), false⟩ : Lane)
    let new := joinWords ((atomWords a old).map some)
    atomReply (send s (.registerWrite (pa / 8 * 8) (regPut (4 * o) (4 * n) new (.seq a.core a.seq)))) a old

/-- An atomic is sent to the place its scope names (R56), or to a peer as a peer-bound write (R40, R188). -/
def sendAtomic (s : State) (k q pa scope : Nat) (a : AtomReq) : State :=
  if isPeerPa pa then peerWrite (sink s k) (peerPod pa) (.atomic (peerWord pa) a) (.seq k q)
  else if spaceOf pa = 2 then regAtomic s pa a
  else match intakeOf s pa with
    | some e =>
      let w := pa / 4
      atomReply (rejectIntake s e) a ((List.range (if a.wide then 2 else 1)).map fun i => memWord s (w + i))
    | none => send s (.atomicExecute (atomPlace k (pa / 4) scope) (pa / 4) a)

/-- An atomic slot (R284): latency 48, after its release and before its acquire where it has them (R81). -/
def atomSlot (kind : AKind) (f : MAtom) (s : State) : Out :=
  guarded f.g s fun s =>
    let x := me s
    let d1 := rdS x (f.data + 1)
    let pois := (rdS x f.base).p || (rdS x f.idx).p || (rdS x f.data).p || (kind = .cas && d1.p)
    if pois then poisonFault s else
    let size := sizeBytes f.size
    match checkAll s .atomic (f.scope = 6) size false [{ lane := 0, addr := memAddr x f.base f.idx f.off.toInt }] with
    | .error r => raise s r
    | .ok ps => ps.foldl (fun s p =>
      let k := s.cur.core
      let q := s.cur.seq
      let tag := s.nextTag
      let wide := size = 8
      let late : Late := {
        tag := tag, slot := s.cur.slot, dst := .s f.data.toNat f.size,
        elems := [{ va := p.va, words := List.replicate (if wide then 2 else 1) none, w := p.pa / 4, buf := bufferOf (myCore s) p.va p.a }] }
      let s := modMe { s with nextTag := tag + 1 } fun x =>
        { x with lates := x.lates ++ [late], infl := x.infl ++ [⟨48, s.cur.slot, [], some tag⟩] }
      let a : AtomReq := {
        kind := kind, wide := wide, signed := sizeSigned f.size, x := (rdS x f.data).v, y := d1.v,
        core := k, seq := q, tag := tag, region := p.a.region }
      let acq := f.ord.getLsbD 0
      let w : PendAtom := ⟨p.pa, kind, f.size, f.scope.toNat, acq, a.x, a.y, tag, p.a.region⟩
      let s := if f.ord.getLsbD 1 then
          (if behind s then putBehind s (.rel f.scope.toNat (some w)) else modMe s fun x => addWait x (.rel f.scope.toNat (some w)))
        else if behind s then putBehind s (.atom w)
        else sendAtomic s k q p.pa f.scope.toNat a
      if acq then modMe s fun x => addWait x (.acq f.scope.toNat (-1)) else s) s

/-- R284. -/
def execAadd (f : MAtom) (s : State) : Out := atomSlot .add f s
/-- R284. -/
def execAmin (f : MAtom) (s : State) : Out := atomSlot .min f s
/-- R284. -/
def execAmax (f : MAtom) (s : State) : Out := atomSlot .max f s
/-- R284. -/
def execAand (f : MAtom) (s : State) : Out := atomSlot .and f s
/-- R284. -/
def execAor (f : MAtom) (s : State) : Out := atomSlot .or f s
/-- R284. -/
def execAxor (f : MAtom) (s : State) : Out := atomSlot .xor f s
/-- R284. -/
def execAswp (f : MAtom) (s : State) : Out := atomSlot .swp f s
/-- R284: reads s_(d+1) as well. -/
def execAcas (f : MAtom) (s : State) : Out := atomSlot .cas f s

end Sys2Proof.Machine
end

