-- ==== Sys2Proof/Machine/Sync.lean ====
section
/-! DEFINITION. The synchronisation slots (R286, R287) and what ends each freeze they begin (R77, R78, R85, R87, R88, R182). -/
namespace Sys2Proof.Machine

/-- Region mask of an acq, inval or cln (R286). -/
def regionMask (x : Seq) (f : MReg) : Word := if f.all then -1 else (rdS x f.a).v

/-- A slot that reads a region mask: poison consumed when its register is poisoned (R286). -/
def masked (f : MReg) (s : State) (k : State → Word → State) : Out :=
  guarded f.g s fun s => if !f.all && (rdS (me s) f.a).p then poisonFault s else k s (regionMask (me s) f)

/-- The bundle under way leaves its sequencer waiting, for an M slot in slot order. -/
def await (s : State) (w : Wait) : State := modMe s fun x => if isMWait w then addWait x w else { x with waits := x.waits ++ [w] }

/-- R78. -/
def execAcq (f : MReg) (scope : BitVec 3) (s : State) : Out := masked f s fun s m => await s (.acq scope.toNat m)
/-- R77. -/
def execRel (g : BitVec 4) (scope : BitVec 3) (s : State) : Out := guarded g s fun s => await s (.rel scope.toNat none)
/-- R78: the invalidation of R53 at once, without waiting. -/
def execInval (f : MReg) (scope : BitVec 3) (s : State) : Out :=
  masked f s fun s m => invalidate s s.cur.core scope.toNat m
/-- R87, R88. -/
def execDrain (g : BitVec 4) (s : State) : Out := guarded g s fun s => await s (.drain false)
/-- R88: with the trap bit. -/
def execDrainX (g : BitVec 4) (s : State) : Out := guarded g s fun s => await s (.drain true)
/-- R287. -/
def execCln (f : MReg) (s : State) : Out := masked f s fun s m => await s (.cln m)

/-! ## Markers (R85) -/

/-- A command has nothing left to do: step 6 is performed and its writes are. -/
def cmdOver (m : Cmd) : Bool := m.st = .completed && m.left = 0

/-- A marker at the head of its queue is reached once no earlier command of the queue has anything left to do. -/
def popMarkersOf (c : Core) (q : Nat) : Nat → Core
  | 0 => c
  | n + 1 =>
    match c.queue q with
    | .marker seq m :: r =>
      if c.cmds.any fun (id, x) => x.q = q && id < m && !cmdOver x then c else
      let c := c.setQueue q r
      popMarkersOf { c with seqs := c.seqs.map fun (i, x) => (i, if i = seq then { x with marks := x.marks.erase m } else x) } q n
    | _ => c

/-- Both queues. -/
def popMarkers (c : Core) : Core :=
  let c := popMarkersOf c 0 c.mq.length
  popMarkersOf c 1 c.tq.length

/-- A marker enters a queue. -/
def pushMarker (c : Core) (seq q : Nat) : Core :=
  let m := c.nextId
  let c := c.setQueue q (c.queue q ++ [.marker seq m])
  { c with nextId := m + 1, seqs := c.seqs.map fun (i, x) => (i, if i = seq then { x with marks := x.marks ++ [m] } else x) }

/-- R85, R286: one marker per queue named; beyond 16 not yet reached the sequencer freezes. -/
def execMark (g : BitVec 4) (qm : BitVec 2) (s : State) : Out :=
  guarded g s fun s =>
    let s := modCore s s.cur.core popMarkers
    let n := (if qm.getLsbD 0 then 1 else 0) + (if qm.getLsbD 1 then 1 else 0)
    if 16 < (me s).marks.length + n then raise s .stall else
    modCore s s.cur.core fun c =>
      let c := if qm.getLsbD 0 then pushMarker c s.cur.seq 0 else c
      if qm.getLsbD 1 then pushMarker c s.cur.seq 1 else c
/-- R85. -/
def execJoin (g : BitVec 4) (s : State) : Out := guarded g s fun s => await s .join

/-! ## What ends a freeze (R182) -/

/-- The tag of a load or atomic that still waits in its bundle. -/
def Wait.tag? : Wait → Option Nat
  | .atom a => some a.tag
  | .rel _ (some a) => some a.tag
  | .load t _ _ _ _ _ => some t
  | _ => none

/-- Every earlier read has happened; those that wait behind in the bundle are not earlier. -/
def readsDone (x : Seq) : Bool := x.lates.all fun l => l.full || x.waits.any fun w => w.tag? = some l.tag

/-- A release at a scope has completed (R77). -/
def relDone (s : State) (k q scope : Nat) : Bool :=
  let c := core s k
  readsDone (mget {} c.seqs q) &&
  (c.outst.filter fun o => o.seq = q).all (fun o => o.performed s k scope) &&
  s.net.all fun m => match m with
    | .registerWrite _ _ => false
    | _ => true

/-- The value of dstat (R89). -/
def dstatOf (x : Seq) : Word := readSpecial x 0 0 0 7

/-- An atomic that waited is sent. -/
def sendPend (s : State) (k q : Nat) (a : PendAtom) : State :=
  sendAtomic s k q a.pa a.scope
    { kind := a.kind, wide := sizeBytes a.size = 8, signed := sizeSigned a.size, x := a.x, y := a.y, core := k, seq := q, tag := a.tag, region := a.region }

/-- A load that waited behind an acquire still waits: a word of it is being registered with fetch by its own core (R74), or a register write
before it has not performed. -/
def loadBusy (s : State) (k pa size : Nat) : Bool :=
  if spaceOf pa = 2 then s.net.any fun m => match m with
    | .registerWrite _ _ => true
    | _ => false
  else (List.range (elemWords pa size)).any fun i => match l1At s k (pa / 4 + i) with
    | some ⟨.pend _ _, _, _⟩ => true
    | _ => false

/-- The late access of a tag is given up: its destination keeps its value. -/
def dropLate (x : Seq) (tag : Nat) : Seq :=
  { x with lates := x.lates.filter (fun l => l.tag ≠ tag), infl := x.infl.filter fun f => f.late ≠ some tag }

/-- What the checks of an access that repeats them find (R382). -/
inductive Again where
  | ok (w : Wait)
  | trap (t : Trap) (tag : Option Nat)
  | walk (w : Walk)

/-- The VA and slot of a late access. -/
def lateAt (x : Seq) (tag elem : Nat) : Nat × Nat :=
  match x.lates.find? fun l => l.tag = tag with
  | some l => ((l.elems.getD elem {}).va, l.slot)
  | none => (0, 0)

/-- One access of a saved bundle is translated and checked again (R382). -/
def againWait (s : State) (k q : Nat) (w : Wait) : Again :=
  let x := seqOf s k q
  let go (slot va : Nat) (kind : AccKind) (opt : Bool) (tag : Option Nat) (f : Nat → Nat → Wait) : Again :=
    match translate s k va kind x.mode opt with
    | .ok pa a => .ok (f pa a.region)
    | .trap c => .trap ⟨c, memVal slot va⟩ tag
    | .walk => .walk { core := k, idx := q, ctx := (core s k).ctx, va := va, kind := kind, system := x.mode, opt := opt, pc := x.pc, slot := slot }
  match w with
  | .store slot size data poison va _ _ buf => go slot va .store false none fun pa r => .store slot size data poison va pa r buf
  | .load tag i size va _ _ => go (lateAt x tag i).2 va .load false (some tag) fun pa r => .load tag i size va pa r
  | .atom a => let (va, slot) := lateAt x a.tag 0
    go slot va .atomic (a.scope = 6) (some a.tag) fun pa r => .atom { a with pa := pa, region := r }
  | .rel sc (some a) => let (va, slot) := lateAt x a.tag 0
    go slot va .atomic (a.scope = 6) (some a.tag) fun pa r => .rel sc (some { a with pa := pa, region := r })
  | w => .ok w

/-- The accesses behind a `check` are checked in order (R382): one whose checks fail performs nothing, and its fault is taken at the next bundle
boundary (log entry 28); a walk keeps the rest. -/
def checkAgain (k q : Nat) : List Wait → State → State × Option (List Wait)
  | [], s => (s, some [])
  | w :: r, s =>
    match againWait s k q w with
    | .walk x => (startWalk (modSeq s k q fun y => { y with stalled := true }) x, none)
    | .ok w => match checkAgain k q r s with
      | (s, some l) => (s, some (w :: l))
      | (s, none) => (s, none)
    | .trap t tag =>
      checkAgain k q r (modSeq s k q fun y =>
        let y := { y with boundary := y.boundary ++ [t] }
        match tag with
        | some n => dropLate y n
        | none => y)

/-- One wait of a sequencer is tested: the state after it, or none while it lasts. A wfe ends with a clk (R240). -/
def waitDone (s : State) (k q : Nat) (w : Wait) : Option State :=
  let x := seqOf s k q
  match w with
  | .rel scope at_ =>
    if relDone s k q scope then some (match at_ with
      | none => s
      | some a => sendPend s k q a)
    else none
  | .check => match checkAgain k q (x.waits.drop 1) s with
    | (s, some l) => some (modSeq s k q fun y => { y with waits := .check :: l })
    | (_, none) => none
  | .order => if bundlePending s k q x.tag0 then none else some s
  | .atom a => some (sendPend s k q a)
  | .store slot size data poison va pa region buf => some (performStore s k q slot size data poison va pa region buf)
  | .spm a size data poison => some (modCore s k fun c => spmPut c a size data poison)
  | .load tag i size _ pa region => if loadBusy s k pa size then none else some (requestAt s k q tag i size pa region)
  | .acq scope m => if readsDone x then some (invalidate s k scope m) else none
  | .drain trap =>
    if s.peerOut.any fun o => o.src = .seq k q then none else
    let und := decide (0 < x.dSince)
    let x := { x with dUnd := und, dSince := 0 }
    let x := if trap && und then { x with boundary := x.boundary ++ [⟨17, dstatOf x⟩] } else x
    some (setSeq s k q x)
  | .cln m =>
    let s := cleanCore s k m
    if (ownedIn (core s k) m).isEmpty then some s else none
  | .sem i thr => if thr.toNat ≤ semVal (core s k) i then some s else none
  | .wfe => none
  | .join =>
    let s := modCore s k popMarkers
    if (seqOf s k q).marks.isEmpty then some s else none

/-- The waits of a sequencer tested in order: what has ended leaves. -/
def testWaits (s : State) (k q : Nat) : Nat → State
  | 0 => s
  | n + 1 =>
    match (seqOf s k q).waits with
    | [] => s
    | w :: r =>
      match waitDone s k q w with
      | none => match w with
        | .cln m => cleanCore s k m
        | .check => (checkAgain k q r s).1
        | _ => s
      | some s => testWaits (modSeq s k q fun x => { x with waits := x.waits.drop 1 }) k q n

end Sys2Proof.Machine
end

