-- ==== Sys2Proof/Machine/Engine.lean ====
section
/-! DEFINITION. Engine slots at issue: transfers, reductions, triggered entries, tile commands, verb calls and cancelling
(R288-R303, R310-R312). -/
namespace Sys2Proof.Machine

/-- A command is enqueued, unless its queue is full: then the sequencer waits, or in system mode faults (R288, R371). -/
def issueCmd (s : State) (m : Cmd) : State :=
  if queueCap m.q ≤ (myCore s).places m.q then
    if (me s).mode then fault s 15 (BitVec.ofNat 64 m.q) else raise s .stall
  else modCore s s.cur.core fun c => enqueue c m

/-- A command with what every command takes from its sequencer and slot (R122, R197, R288). -/
def baseCmd (s : State) (q opc variant : Nat) (scope : BitVec 3) (acq rel : Bool) (w : WaitSig) : Cmd :=
  let x := me s
  { id := 0, q := q, opc := opc, variant := variant, seq := s.cur.seq, scope := scope.toNat, acq := acq, rel := rel, w := w,
    rm := x.fcsr.extractLsb' 10 2, ftz := x.fcsr.getLsbD 12, fet := x.fcsr.getLsbD 9, system := x.mode, pc := s.cur.pc, tag0 := x.tag0 }

/-- Register n + i, for a command's consecutive registers. -/
def regAfter (x : Seq) (a : BitVec 6) (i : Nat) : SVal := rdS x (a + BitVec.ofNat 6 i)

/-- A command of consecutive s registers: `n` registers from s_A and s_B, all checked for poison (R288). -/
def regCmd (q opc variant n : Nat) (f : MEng) (s : State) : State :=
  let x := me s
  let rs := (List.range n).map (regAfter x f.a)
  let b := rdS x f.b
  if b.p || rs.any SVal.p then poisonFault s
  else issueCmd s { baseCmd s q opc variant f.scope f.acq f.rel f.w with regs := rs.map (·.v), b := b.v }

/-- Registers of an address-kind xfer: s_(A+2) and s_(A+3) only with XCTL.HS (R292). -/
def xferRegs (x : Seq) (f : MEng) : Nat := if bit (rdS x f.b).v 63 then 4 else 2

/-- R292, R294: an address-kind xfer. -/
def xferAddr (variant : Nat) (f : MEng) (s : State) : Out :=
  guarded f.g s fun s => if (rdS (me s) f.b).p then poisonFault s else regCmd 1 0x21 variant (xferRegs (me s) f) f s
/-- R294. -/
def execXferGg (f : MEng) (s : State) : Out := xferAddr 0 f s
/-- R294. -/
def execXferSg (f : MEng) (s : State) : Out := xferAddr 1 f s
/-- R294. -/
def execXferGs (f : MEng) (s : State) : Out := xferAddr 2 f s
/-- R294. -/
def execXferSs (f : MEng) (s : State) : Out := xferAddr 3 f s

/-- A command with a tile descriptor in v_A, lanes 0-5, and s_B (R295). -/
def tileCmd (q opc variant : Nat) (f : MEng) (s : State) : Out :=
  guarded f.g s fun s =>
    let x := me s
    let ls := (List.range 6).map (rdV x f.a)
    let b := rdS x f.b
    let bad := (List.range 6).foldl (fun m l => if (rdV x f.a l).p then m + 2 ^ l else m) 0
    if b.p then poisonFault s
    else if bad ≠ 0 then fault s 8 (poisonVal s bad)
    else issueCmd s { baseCmd s q opc variant f.scope f.acq f.rel f.w with lanes := ls.map (·.v), b := b.v }
/-- R295. -/
def execXferTg (f : MEng) (s : State) : Out := tileCmd 1 0x21 4 f s
/-- R295. -/
def execXferTs (f : MEng) (s : State) : Out := tileCmd 1 0x21 6 f s
/-- R295. -/
def execXferGt (f : MEng) (s : State) : Out := tileCmd 1 0x21 8 f s
/-- R295. -/
def execXferSt (f : MEng) (s : State) : Out := tileCmd 1 0x21 9 f s
/-- R296. -/
def execXferGa (f : MEng) (s : State) : Out := guarded f.g s (regCmd 1 0x21 12 2 f)
/-- R296. -/
def execXferSa (f : MEng) (s : State) : Out := guarded f.g s (regCmd 1 0x21 13 2 f)

/-- R297: a reduction. -/
def xredCmd (variant : Nat) (f : MEng) (s : State) : Out := guarded f.g s (regCmd 1 0x22 variant 3 f)
/-- R297. -/
def execXredAddF32 (f : MEng) (s : State) : Out := xredCmd 0 f s
/-- R297, R353. -/
def execXredAddoF32 (f : MEng) (s : State) : Out := xredCmd 1 f s
/-- R297. -/
def execXredAddB16 (f : MEng) (s : State) : Out := xredCmd 2 f s
/-- R297. -/
def execXredAddI32 (f : MEng) (s : State) : Out := xredCmd 3 f s
/-- R297. -/
def execXredMinF32 (f : MEng) (s : State) : Out := xredCmd 4 f s
/-- R297. -/
def execXredMaxF32 (f : MEng) (s : State) : Out := xredCmd 5 f s
/-- R297. -/
def execXredMinI32 (f : MEng) (s : State) : Out := xredCmd 6 f s
/-- R297. -/
def execXredMaxI32 (f : MEng) (s : State) : Out := xredCmd 7 f s

/-- Registers that a stored command uses, beside s_(A+4) and s_B (R298). -/
def storedRegs (kind variant : Nat) (hs : Bool) : Nat :=
  if kind = 1 then 3 else if variant < 4 && hs then 4 else 2

/-- R298: trig takes the stored transfer's registers at its issue. -/
def execTrig (f : MEng) (variant : BitVec 4) (s : State) : Out :=
  guarded f.g s fun s =>
    let x := me s
    let t := regAfter x f.a 4
    let b := rdS x f.b
    if t.p || b.p then poisonFault s else
    let n := storedRegs (bits t.v 9 1) variant.toNat (bit b.v 63)
    let rs := (List.range n).map (regAfter x f.a)
    if rs.any SVal.p then poisonFault s else
    issueCmd s { baseCmd s 1 0x23 variant.toNat f.scope f.acq f.rel f.w with
      regs := (rs.map (·.v)) ++ List.replicate (4 - n) 0 ++ [t.v], b := b.v }

/-- R301. -/
def execTldT (f : MEng) (s : State) : Out := tileCmd 0 0x24 0 f s
/-- R301. -/
def execTldS (f : MEng) (s : State) : Out := tileCmd 0 0x24 1 f s
/-- R301. -/
def execTstT (f : MEng) (s : State) : Out := tileCmd 0 0x25 0 f s
/-- R301. -/
def execTstS (f : MEng) (s : State) : Out := tileCmd 0 0x25 1 f s

/-- R300: a shape slot, in matrix-queue order. -/
def execTcfgShp (g : BitVec 4) (a : BitVec 6) (n : BitVec 3) (w : WaitSig) (s : State) : Out :=
  guarded g s fun s =>
    let v := rdS (me s) a
    if v.p then poisonFault s else
    issueCmd s { baseCmd s 0 0x26 0 0 false false w with regs := [v.v, BitVec.ofNat 64 n.toNat] }
/-- R300: latency 1. -/
def execTcfgM (g : BitVec 4) (a : BitVec 6) (n : BitVec 3) (s : State) : Out :=
  guarded g s fun s =>
    let v := rdS (me s) a
    if v.p then poisonFault s else result s 1 [.m n.toNat (v.v.truncate 32)]
/-- R300: an even pair. -/
def execTcfgM2 (g : BitVec 4) (a : BitVec 6) (n : BitVec 3) (s : State) : Out :=
  guarded g s fun s =>
    let v := rdS (me s) a
    if v.p then poisonFault s else
    result s 1 [.m n.toNat (v.v.truncate 32), .m (n.toNat + 1) ((v.v >>> 32).truncate 32)]

/-! ## Verb calls (R302, R310-R312) -/

/-- Modes of the array (R309). -/
def modeBlock : Nat := 1
def modeF32 : Nat := 2
def modeC32 : Nat := 3
def modeInt : Nat := 4

/-- The mode of a combination of m0, if the array implements it (R311). -/
def arrayMode (m0 : W32) : Option Nat :=
  let f (lo len : Nat) : Nat := m0.toNat / 2 ^ lo % 2 ^ len
  let ta := f 0 4
  let tb := f 4 4
  let bop := f 12 2
  let s24 := f 14 1
  let bmp := f 15 1
  let blk (t : Nat) : Bool := 4 ≤ t && t ≤ 8
  if ta = 0 && tb = 0 && s24 = 0 && bop = 0 then some modeF32
  else if (ta = 1 || ta = 2) && (tb = 1 || tb = 2) && s24 = 0 && bop = 0 then some modeF32
  else if ta = 3 && tb = 3 && s24 = 0 && bop = 0 then some modeC32
  else if blk ta && blk tb && bop = 0 then some modeBlock
  else if ta = 9 && tb = 9 && s24 = 0 && bmp = 0 && bop ≤ 1 then some modeInt
  else none

/-- R302, R312: the checks on s_A and m0, then the call enters the matrix queue with its copy of m0-m7. -/
def execMcall (g : BitVec 4) (a : BitVec 6) (w : WaitSig) (s : State) : Out :=
  guarded g s fun s =>
    let x := me s
    let v := rdS x a
    let m0 := mget 0 x.m 0
    if v.p then poisonFault s
    else if 8192 ≤ v.v.toNat then fault s 13 v.v
    else if m0.toNat / 2 ^ 26 ≠ 0 then fault s 12 (m0.zeroExtend 64)
    else if (arrayMode m0).isNone then fault s 11 (m0.zeroExtend 64)
    else issueCmd s { baseCmd s 0 0x20 0 0 false false w with
      regs := [v.v], m := (List.range 8).map fun i => mget 0 x.m i }

/-! ## Cancelling (R303, R304) -/

/-- ENG_ERR and ENG_EVA after a command of a core that completed without success, and ENGERR of its task (R187, R289-R291). -/
def recordFail (s : State) (k : Nat) (m : Cmd) (st : Nat) : State :=
  if st = 0 then s else
  let s := match (core s k).task with
    | some t => (match mlook s.tasks t with
      | some x => { s with tasks := mput s.tasks t { x with engErr := true } }
      | none => s)
    | none => s
  let e := bumpField (rdReg s (.engErr k)) 0 32 1
  if bit e 63 then wrReg s (.engErr k) e else
  let e := setBits (setBits (setBits (setBits (setBits e 63 1 1) 59 4 st) 53 6 m.opc) 48 5 m.seq) 40 8 m.w.ssem.toNat
  let va := if st = 2 || st = 4 || st = 5 || st = 9 then m.eva % 2 ^ 56 else 0
  wrReg (wrReg s (.engErr k) e) (.engEva k) (BitVec.ofNat 64 va)

/-- The issuer's wfe pending bit (R239). -/
def wakeIssuer (s : State) (k q : Nat) : State := modSeq s k q fun x => { x with evp := true }

/-- qcut cancels a command: its own, waiting on W above T, not past step 1; a trig passes it when it arms (R298, R303). -/
def cutsCmd (seq : Nat) (which : BitVec 3) (w : WaitSig) (m : Cmd) : Bool :=
  m.seq = seq && !m.passed && !m.fired && m.w.wsem = w.wsem && w.wthr.ult m.w.wthr &&
  (if m.q = 0 then which.getLsbD 0 else which.getLsbD 1)

/-- A cancelled command skips steps 2 to 5 (R304). -/
def Cmd.cut (m : Cmd) : Cmd := { m with st := .done, status := 1, passed := true }

/-- A cancelled entry is freed, and its stored command has only step 6 left: its increment comes, as a triggered entry's, after the sequencers'
operations of the clk (R238, R304). -/
def cutEntry (c : Core) (n : Nat) (t : Trig) : Core :=
  { c with trig := mdel c.trig n, cmds := mput c.cmds c.nextId { t.cmd.cut with id := c.nextId, entry := true }, nextId := c.nextId + 1 }

/-- R303: cancels queued commands and armed entries of this sequencer, then performs its own increment. -/
def execQcut (g : BitVec 4) (which : BitVec 3) (w : WaitSig) (s : State) : Out :=
  guarded g s fun s =>
    let k := s.cur.core
    let q := s.cur.seq
    let entries := if which.getLsbD 2 then
        (myCore s).trig.filter fun (_, t) => !t.fired && t.cmd.seq = q && t.sem = w.wsem.toNat && w.wthr.toNat < t.thr
      else []
    let s' := modCore s k fun c =>
      passStep1 (entries.foldl (fun c (n, t) => cutEntry c n t)
        { c with cmds := c.cmds.map fun (i, m) => (i, if cutsCmd q which w m then m.cut else m) })
    let n := w.sinc.toNat
    let v := semVal (myCore s) w.ssem.toNat + n
    if 0xFFFF < v then fault s 14 (BitVec.ofNat 64 w.ssem.toNat)
    else if n = 0 then s' else modCore (sink s' k) k fun c => semPut c w.ssem.toNat v

end Sys2Proof.Machine
end

