-- ==== Sys2Proof/Machine/Levels.lean ====
section
/-! DEFINITION. What leaves a level: capacities and ways (R5, R39), evictions and recalls (R45, R49), the compressed L2 with its
relocations and cascades (R100), and what they charge to the hotness counters (R105). -/
namespace Sys2Proof.Machine

/-! ## Lines that leave an L1, landing, RDC, registry or gateway (R45, R49) -/

/-- One word of a line that leaves core k's L1: V goes, O is written back to the landing (R45); none while it is under way. -/
def evictWord (k : Nat) (s : State) (w : Nat) : Option State :=
  match l1At s k w with
  | none => some s
  | some ⟨.v, _, _⟩ => some (delL1 s k w)
  | some ⟨.pend _ _, _, _⟩ => none
  | some ⟨.o, v, z⟩ =>
    let ld := plLanding (layerOf k)
    if climbing s w || locked s ld w then none
    else if lvlAt s ld w = some (.owner k) then some (setLvl (delL1 s k w) ld w (.held v z))
    else some (delL1 s k w)

/-- A line leaves a place below the home; none while a word of it is under way. -/
def dropLine (s : State) (place line : Nat) : Option State :=
  if place < 0x200 then
    (foldOpt (evictWord place) s (lineWords line)).map fun s => modCore s place fun c => { c with l1reg := mdel c.l1reg line }
  else if place < 0x800 then
    (foldOpt (fun s w => recallUp s place w) s (lineWords line)).map fun s => { s with reg := mdel s.reg (lkey place line) }
  else if mlook s.gw (lkey (place - 0x800) line) = some .owned then gwReturn s (place - 0x800) line
  else some { s with gw := mdel s.gw (lkey (place - 0x800) line) }

/-- The lines that stand at a place below the home. -/
def linesAt (s : State) (place : Nat) : List Nat :=
  if place < 0x200 then (core s place).l1reg.map (·.1)
  else if place < 0x600 then (s.reg.filter fun x => x.1 / 2 ^ 50 = place).map fun x => x.1 % 2 ^ 50
  else if place < 0x800 then ((s.lvl.filter fun x => x.1 / 2 ^ 50 = place).map fun x => x.1 % 2 ^ 50 / 32).eraseDups
  else (s.gw.filter fun x => x.1 / 2 ^ 50 = place - 0x800).map fun x => x.1 % 2 ^ 50

/-- Sets of a place, of 16 ways each: 1 MiB of L1, 2 MiB of a landing, 48 MiB of an RDC, 1,048,576 lines of a reticle registry, 65,536
of a host gateway (R5, R39). -/
def setsOf (place : Nat) : Nat :=
  if place < 0x200 then 512 else if place < 0x400 then 1024 else if place < 0x600 then 24576 else if place < 0x800 then 65536 else 4096

/-- The lines of a place that share a set with more than its 16 ways. -/
def crowded (s : State) (place : Nat) : List Nat :=
  let lines := linesAt s place
  if lines.length ≤ 16 then [] else
  let set (l : Nat) : Nat := Config.cacheSet place l % setsOf place
  lines.filter fun l => 16 < (lines.filter fun m => set m = set l).length

/-- Lines leave a place until no set holds more than its ways (R39, R49). -/
def shrink (place : Nat) : Nat → State → State
  | 0, s => s
  | n + 1, s =>
    match crowded s place with
    | [] => s
    | c =>
      let i := Config.victim s.fresh % c.length
      match (c.drop i ++ c.take i).findSome? (dropLine { s with fresh := s.fresh + 1 } place) with
      | none => c.foldl (fun s l => askBelow s place l) s
      | some t => shrink place n t

/-- Every place below the homes keeps to its capacity. -/
def keepCapacity (s : State) : State :=
  if (s.cores.all fun x => x.2.l1reg.length ≤ 16) && s.reg.length ≤ 16 && s.gw.length ≤ 16 &&
     (s.lvl.filter fun x => x.1 / 2 ^ 59 = 3).length ≤ 16 then s else
  let places := s.cores.map (·.1) ++ (List.range 16).map plLanding ++ (List.range 8).map plRdc ++ (List.range 2).map plRr ++
    (List.range 2).map plGw
  places.foldl (fun s p => shrink p (linesAt s p).length s) s

/-! ## The compressed L2 (R100) -/

/-- What a line holds at its home, for its compression. -/
def homeLine (s : State) (line : Nat) : List Lane :=
  (lineWords line).map fun w => match lvlAt s (plHome (homeChip (4 * w))) w with
    | some (.held v z) => ⟨v, z⟩
    | _ => memWord s w

/-- Sectors that a line needs. -/
def sectorsOf (s : State) (line : Nat) : Nat := Config.l2Sectors ((homeLine s line).map (·.v)) % 4 + 1

/-- The lines of a line's set: 98,304 sets in the 192 slices of a chiplet (R5, R39). -/
def l2Set (s : State) (line : Nat) : FMap L2Line :=
  let chip := homeChip (128 * line)
  let set (l : Nat) : Nat := Config.cacheSet (plHome chip) l % 98304
  s.l2.filter fun x => homeChip (128 * x.1) = chip && set x.1 = set line

/-- Sectors of a physical line that are free in a set. -/
def freeSectors (set : FMap L2Line) (phys : Nat) : Nat := 4 - ((set.filter fun x => x.2.phys = phys).map (·.2.secs)).sum

/-- The least recently used of some lines. -/
def lru (l : FMap L2Line) : Option (Nat × L2Line) :=
  l.foldl (fun o x => match o with
    | none => some x
    | some y => if x.2.used < y.2.used then some x else some y) none

/-- The physical line with the most free sectors, but one. -/
def roomiest (set : FMap L2Line) (not : Nat) : Nat :=
  ((List.range 16).filter (· ≠ not)).foldl (fun b p => if b = not || freeSectors set b < freeSectors set p then p else b) not

/-- Held words of a home line are written back to HBM, a protected line through the erasure engine (R100, R151); in Isolated and Lost they
are discarded (R417). None while the write has to wait. -/
def writeHeld (s : State) (line : Nat) : Option State :=
  let home := plHome (homeChip (128 * line))
  let pa := 128 * line
  let isHeld (w : Nat) : Bool := match lvlAt s home w with
    | some (.held _ _) => true
    | _ => false
  let held := (lineWords line).filter isHeld
  let drop (s : State) : State := held.foldl (fun s w => delLvl s home w) s
  let back (s : State) (w : Nat) : State := match lvlAt s home w with
    | some (.held v z) =>
      let t := delLvl (setMemWord s w ⟨v, z⟩) home w
      if badAt s home w then { t with bad := mset false t.bad w true } else t
    | _ => s
  if held.isEmpty then some s
  else if dropsPa s pa then some (drop s)
  else if movingPa s pa then none
  else if protectedPa s pa then
    if pgState s ≠ 2 then none else
    match erasureWrite s line (homeLine s line) with
    | .wait => none
    | .refused s => some s
    | .done s => some (drop s)
  else if hbmRes s pa = .held then none
  else some (held.foldl back (touchStack s pa))

/-- A line leaves the L2: a word in Owner is recalled first, a dirty line is written back (R49, R100); none while that has to wait. -/
def leaveL2 (s : State) (line : Nat) (x : L2Line) : Option State :=
  match foldOpt (fun s w => recallUp s (plHome (homeChip (4 * w))) w) s (lineWords line) with
  | none => none
  | some s1 =>
    let dirty := homeLine s1 line ≠ memLine s1 line
    (writeHeld s1 line).map fun t =>
      let t := { t with l2 := mdel t.l2 line }
      let t := { t with l2q := s.l2q }
      if dirty then chargeLine t x (Hot.addBytes 128) else t

/-- The least recently used lines of a physical line leave until it has room; each counts as a cascade where the caller relocates a
partner (R100). -/
def makeRoom (line phys need : Nat) (cascade : Bool) : Nat → State → Option State
  | 0, s => some s
  | n + 1, s =>
    let set := l2Set s line
    if need ≤ freeSectors set phys then some s else
    match lru (set.filter fun x => x.2.phys = phys && x.1 ≠ line) with
    | none => some s
    | some (l, x) => match leaveL2 s l x with
      | none => none
      | some t => makeRoom line phys need cascade n (if cascade then chargeLine t x Hot.addCasc else t)

/-- A line that has grown stays where it is, and its partners leave, least recently used first, until it fits: each for the physical line of
the set with the most free sectors (R100). -/
def growLine (line : Nat) (x : L2Line) : Nat → State → Option State
  | 0, s => some s
  | n + 1, s =>
    let set := (l2Set s line).filter fun y => y.1 ≠ line
    if x.secs ≤ freeSectors set x.phys then some s else
    match lru (set.filter fun y => y.2.phys = x.phys) with
    | none => some s
    | some (l, y) =>
      let p := roomiest set x.phys
      match makeRoom line p y.secs true 4 s with
      | none => none
      | some t => growLine line x n { t with l2 := mput t.l2 l { y with phys := p } }

/-- A line enters its set: one of 32 tags, and the physical line with the most free sectors, whose least recently used lines leave until it
fits (log entry 68). -/
def enterLine (s : State) (line : Nat) (x : L2Line) : Option State :=
  match (match (if 32 ≤ (l2Set s line).length then lru (l2Set s line) else none) with
    | none => some s
    | some (l, y) => leaveL2 s l y) with
  | none => none
  | some s =>
    let p := roomiest (l2Set s line) 16
    (makeRoom line p x.secs false 4 s).map fun t =>
      chargeLine { t with l2 := mput t.l2 line { x with phys := p } } x (Hot.addBytes 128)

/-- One use of a line at its home is settled in the L2: it enters, or its last use changes; a write may make it grow. -/
def l2Settle (s : State) (u : L2Use) : Option State :=
  let s := { s with l2n := s.l2n + 1 }
  let secs := sectorsOf s u.line
  match mlook s.l2 u.line with
  | none => enterLine s u.line ⟨0, secs, s.l2n, u.task, u.buf⟩
  | some x =>
    let x := { x with used := s.l2n, task := if u.task = 0 then x.task else u.task, buf := if u.task = 0 then x.buf else u.buf }
    let y := if u.write then { x with secs := secs } else x
    (if x.secs < y.secs then growLine u.line y 4 s else some s).map fun t => { t with l2 := mput t.l2 u.line y }

/-- The uses that have come to the L2s are settled; those that have to wait stay. -/
def l2Turn (s : State) : State :=
  s.l2q.foldl (fun s u => match l2Settle s u with
    | some t => t
    | none =>
      let s := (l2Set s u.line).foldl (fun s x => askBelow s (plHome (homeChip (128 * x.1))) x.1) s
      { s with l2q := s.l2q ++ [u] }) { s with l2q := [] }

/-- The levels settle: uses of the L2s, then capacities. -/
def settleLevels (s : State) : State := keepCapacity (if s.l2q.isEmpty then s else l2Turn s)

end Sys2Proof.Machine
end

