-- ==== Sys2Proof/Decode.lean ====
section
/-! DEFINITION. From bytes to instructions and back: bundle heads (R190-R192), the S, V, F and M slots (R194-R203) and the
micro-words of the lexicon (R315-R324). Decoding is total and rejects by name. -/
namespace Sys2Proof

/-- Why bytes are no instruction. -/
inductive Reject where
  /-- clause bits [7:6] nonzero (R190) -/
  | clauseBits
  /-- the bundle's last byte lies beyond its fetch line (R192) -/
  | crossesLine
  /-- a control opcode in a delay slot (R193 step 4) -/
  | controlInDelaySlot
  /-- opcode unassigned in the slot's class (R200-R203, R315) -/
  | unassigned (slot : Nat)
  /-- opcode not allowed in that slot (R200, R201) -/
  | notInSlot (slot : Nat)
  /-- a field value the instruction does not accept (R193 step 5) -/
  | badField (slot : Nat)
  /-- a pad head, which is no bundle (R192) -/
  | pad
  deriving DecidableEq, Repr

/-- Class of a slot (R190): S0 S1, V0 V1 V2, F, M0 M1. -/
inductive SlotCls where
  | s | v | f | m
  deriving DecidableEq, Repr

/-- Class of slot number `i` in presence order. -/
def slotCls (i : Nat) : SlotCls := if i < 2 then .s else if i < 5 then .v else if i < 6 then .f else .m

/-- Bytes of slot number `i` (R191). -/
def slotBytes (i : Nat) : Nat := if i < 6 then 4 else 8

/-- Bits [lo + len - 1 : lo] of `x`. -/
def fld (x lo len : Nat) : Nat := x / 2 ^ lo % 2 ^ len

/-- Bits [lo + n - 1 : lo] of `x` as a bit vector. -/
def bv (n x lo : Nat) : BitVec n := BitVec.ofNat n (x / 2 ^ lo)

/-- An instruction whose zero fields hold and which is well formed, or the reject for a bad field. -/
def accept (slot : Nat) (zeros : Bool) (i : Instr) : Except Reject Instr :=
  if zeros && i.wf then .ok i else .error (.badField slot)

/-- Fields of an S word by form (R194). -/
def sReg (x : Nat) : SReg := ⟨bv 4 x 22, bv 6 x 16, bv 6 x 10, bv 6 x 4⟩
def sUn (x : Nat) : SUn := ⟨bv 4 x 22, bv 6 x 16, bv 6 x 10⟩
def sImm (x : Nat) : SImm := ⟨bv 4 x 22, bv 6 x 16, bv 6 x 10, bv 10 x 0⟩
def sShift (x : Nat) : SShift := ⟨bv 4 x 22, bv 6 x 16, bv 6 x 10, bv 6 x 0⟩
def sLong (x : Nat) : SLong := ⟨bv 4 x 22, bv 22 x 0⟩
def sCmp (x : Nat) : SCmp := ⟨bv 4 x 22, bv 4 x 18, bv 4 x 14, bv 6 x 8, bv 6 x 2⟩
def sCmpi (x : Nat) : SCmpi := ⟨bv 4 x 22, bv 4 x 18, bv 4 x 14, bv 6 x 8, bv 8 x 0⟩
def sPred (x : Nat) : SPred := ⟨bv 4 x 22, bv 4 x 16, bv 4 x 10, bv 4 x 4⟩
def sChk (x : Nat) : SChk := ⟨bv 4 x 22, bv 6 x 10, bv 10 x 0⟩

/-- Opcodes allowed in S0 only (R200). -/
def isControlOp (op : Nat) : Bool := (0x21 ≤ op && op ≤ 0x25) || (0x2D ≤ op && op ≤ 0x30)

/-- The S map (R200) and the encodings of R223-R243. -/
def decodeS (slot x : Nat) : Except Reject Instr :=
  let op := fld x 26 6
  let sub := fld x 0 4
  if isControlOp op && slot != 0 then .error (.notInSlot slot) else
  match op with
  | 0x01 => match sub with
    | 0 => accept slot true (.add (sReg x))
    | _ => .error (.badField slot)
  | 0x02 => match sub with
    | 0 => accept slot true (.sub (sReg x))
    | _ => .error (.badField slot)
  | 0x03 => match sub with
    | 0 => accept slot true (.mul (sReg x))
    | 1 => accept slot true (.mulh (sReg x))
    | 2 => accept slot true (.mulhu (sReg x))
    | _ => .error (.badField slot)
  | 0x04 => match sub with
    | 0 => accept slot true (.and (sReg x))
    | _ => .error (.badField slot)
  | 0x05 => match sub with
    | 0 => accept slot true (.or (sReg x))
    | _ => .error (.badField slot)
  | 0x06 => match sub with
    | 0 => accept slot true (.xor (sReg x))
    | _ => .error (.badField slot)
  | 0x07 => match sub with
    | 0 => accept slot true (.andn (sReg x))
    | _ => .error (.badField slot)
  | 0x08 => match sub with
    | 0 => accept slot true (.shl (sReg x))
    | _ => .error (.badField slot)
  | 0x09 => match sub with
    | 0 => accept slot true (.shr (sReg x))
    | _ => .error (.badField slot)
  | 0x0A => match sub with
    | 0 => accept slot true (.sar (sReg x))
    | _ => .error (.badField slot)
  | 0x0B => match sub with
    | 0 => accept slot true (.min (sReg x))
    | 1 => accept slot true (.minu (sReg x))
    | _ => .error (.badField slot)
  | 0x0C => match sub with
    | 0 => accept slot true (.max (sReg x))
    | 1 => accept slot true (.maxu (sReg x))
    | _ => .error (.badField slot)
  | 0x0D => accept slot true (.sel (sReg x) (bv 4 x 0))
  | 0x0E => match sub with
    | 0 => accept slot true (.bfx (sReg x))
    | 1 => accept slot true (.bfxu (sReg x))
    | _ => .error (.badField slot)
  | 0x0F => match sub with
    | 0 => accept slot true (.bfi (sReg x))
    | _ => .error (.badField slot)
  | 0x10 => match sub with
    | 0 => accept slot (fld x 4 6 == 0) (.clz (sUn x))
    | 1 => accept slot (fld x 4 6 == 0) (.ctz (sUn x))
    | 2 => accept slot (fld x 4 6 == 0) (.popc (sUn x))
    | _ => .error (.badField slot)
  | 0x11 => accept slot true (.addi (sImm x))
  | 0x12 => accept slot true (.andi (sImm x))
  | 0x13 => accept slot true (.ori (sImm x))
  | 0x14 => accept slot true (.xori (sImm x))
  | 0x15 => accept slot (fld x 6 4 == 0) (.shli (sShift x))
  | 0x16 => accept slot (fld x 6 4 == 0) (.shri (sShift x))
  | 0x17 => accept slot (fld x 6 4 == 0) (.sari (sShift x))
  | 0x18 => accept slot (fld x 0 2 == 0) (.cmpeq (sCmp x))
  | 0x19 => accept slot (fld x 0 2 == 0) (.cmplt (sCmp x))
  | 0x1A => accept slot (fld x 0 2 == 0) (.cmpltu (sCmp x))
  | 0x1B => accept slot true (.cmpeqi (sCmpi x))
  | 0x1C => accept slot true (.cmplti (sCmpi x))
  | 0x1D => accept slot true (.cmpltui (sCmpi x))
  | 0x1E => match sub with
    | 0 => accept slot (fld x 20 2 == 0 && fld x 14 2 == 0 && fld x 8 2 == 0) (.pand (sPred x))
    | 1 => accept slot (fld x 20 2 == 0 && fld x 14 2 == 0 && fld x 8 2 == 0) (.por (sPred x))
    | 2 => accept slot (fld x 20 2 == 0 && fld x 14 2 == 0 && fld x 8 2 == 0) (.pxor (sPred x))
    | 3 => accept slot (fld x 20 2 == 0 && fld x 14 2 == 0 && fld x 8 2 == 0) (.pandn (sPred x))
    | _ => .error (.badField slot)
  | 0x1F => accept slot true (.lis (sLong x))
  | 0x20 => accept slot true (.lic (sLong x))
  | 0x21 => accept slot true (.br (sLong x))
  | 0x22 => accept slot true (.brl (sLong x))
  | 0x23 => match sub with
    | 0 => accept slot (fld x 16 6 == 0 && fld x 4 6 == 0) (.brr (bv 4 x 22) (bv 6 x 10))
    | 1 => accept slot (fld x 16 6 == 0 && fld x 4 6 == 0) (.brrl (bv 4 x 22) (bv 6 x 10))
    | _ => .error (.badField slot)
  | 0x24 => accept slot true (.loop (sLong x))
  | 0x25 => accept slot (fld x 17 5 == 0) (if fld x 16 1 == 0 then .chkS (sChk x) else .chkV (sChk x))
  | 0x26 => accept slot (fld x 0 10 == 0) (.mfs (bv 4 x 22) (bv 6 x 16) (bv 6 x 10))
  | 0x27 => accept slot (fld x 0 10 == 0) (.mts (bv 4 x 22) (bv 6 x 16) (bv 6 x 10))
  | 0x28 => accept slot true (.semget (sImm x))
  | 0x29 => accept slot true (.semset (sImm x))
  | 0x2A => accept slot true (.semsig (sImm x))
  | 0x2B => accept slot true (.semwait (sImm x))
  | 0x2C => accept slot (fld x 0 22 == 0) (.wfe (bv 4 x 22))
  | 0x2D => accept slot true (.trap (sLong x))
  | 0x2E => accept slot true (.sys (sLong x))
  | 0x2F => accept slot (fld x 0 22 == 0) (.eret (bv 4 x 22))
  | 0x30 => accept slot (fld x 0 22 == 0) (.halt (bv 4 x 22))
  | _ => .error (.unassigned slot)

/-- Type code of a V slot (R195). -/
def vType : Nat → Option VType
  | 0 => some .f32 | 1 => some .f16 | 2 => some .b16 | 3 => some .i32 | 4 => some .n32 | 5 => some .i16 | 6 => some .n16
  | _ => none
/-- Code of a type (R195). -/
def VType.code : VType → Nat
  | .f32 => 0 | .f16 => 1 | .b16 => 2 | .i32 => 3 | .n32 => 4 | .i16 => 5 | .n16 => 6
/-- Format code of vpack and vunpack (R258). -/
def pkFmt : Nat → Option PkFmt
  | 0 => some .f16 | 1 => some .b16 | 2 => some .f8e4 | 3 => some .f8e5 | 4 => some .q4x | 5 => some .bin1
  | 6 => some .i16 | 7 => some .i8 | 8 => some .blk | _ => none
def PkFmt.code : PkFmt → Nat
  | .f16 => 0 | .b16 => 1 | .f8e4 => 2 | .f8e5 => 3 | .q4x => 4 | .bin1 => 5 | .i16 => 6 | .i8 => 7 | .blk => 8
/-- Pattern code of vperm (R264). -/
def permPat : Nat → Option PermPat
  | 0 => some .rot | 1 => some .xor | 2 => some .shd | 3 => some .rev | 4 => some .zip | 5 => some .uzp | 6 => some .hsw
  | _ => none
def PermPat.code : PermPat → Nat
  | .rot => 0 | .xor => 1 | .shd => 2 | .rev => 3 | .zip => 4 | .uzp => 5 | .hsw => 6
/-- Operation code of vred and vscan (R267). -/
def redOp : Nat → Option RedOp
  | 0 => some .add | 1 => some .min | 2 => some .max | 3 => some .and | 4 => some .or | 5 => some .xor | _ => none
def RedOp.code : RedOp → Nat
  | .add => 0 | .min => 1 | .max => 2 | .and => 3 | .or => 4 | .xor => 5
/-- Size code of an M slot (R197). -/
def mSize : Nat → Option MSize
  | 0 => some .n8 | 1 => some .n16 | 2 => some .n32 | 3 => some .n64 | 4 => some .i8 | 5 => some .i16 | 6 => some .i32
  | 7 => some .i64 | _ => none
def MSize.code : MSize → Nat
  | .n8 => 0 | .n16 => 1 | .n32 => 2 | .n64 => 3 | .i8 => 4 | .i16 => 5 | .i32 => 6 | .i64 => 7

/-- An accepted instruction built from an optional field, or a bad field. -/
def withField {α : Type} (slot : Nat) (o : Option α) (zeros : Bool) (k : α → Instr) : Except Reject Instr :=
  match o with
  | some a => accept slot zeros (k a)
  | none => .error (.badField slot)

def vBin (x : Nat) : VBin := ⟨bv 4 x 22, bv 6 x 16, bv 6 x 10, bv 6 x 4⟩
def vUn (x : Nat) : VUn := ⟨bv 4 x 22, bv 6 x 16, bv 6 x 10⟩
def vCmp (x : Nat) : VCmp := ⟨bv 4 x 22, bv 4 x 16, bv 6 x 10, bv 6 x 4⟩
def qLog (x : Nat) : QLog := ⟨bv 4 x 22, bv 4 x 16, bv 4 x 10, bv 4 x 4⟩

/-- V opcodes allowed only in V0, slot 2 (R201). -/
def v0Only (op : Nat) : Bool := op == 3 || op == 4 || op == 5 || op == 0x15 || op == 0x16 || op == 0x17
/-- V opcodes allowed only in V2, slot 4 (R201). -/
def v2Only (op : Nat) : Bool := op == 0x18 || op == 0x19 || op == 0x1A || op == 0x1B || op == 0x1C

/-- The V map (R201) and the encodings of R249-R267. -/
def decodeV (slot x : Nat) : Except Reject Instr :=
  let op := fld x 26 6
  let sub := fld x 0 4
  if (v0Only op && slot != 2) || (v2Only op && slot != 4) then .error (.notInSlot slot) else
  match op with
  | 0x01 => withField slot (vType sub) true (.vadd (vBin x))
  | 0x02 => withField slot (vType sub) true (.vsub (vBin x))
  | 0x03 => withField slot (vType sub) true (.vmul (vBin x))
  | 0x04 => withField slot (vType sub) true (.vfma (vBin x))
  | 0x05 => withField slot (vType sub) true (.vfms (vBin x))
  | 0x06 => withField slot (vType sub) true (.vmin (vBin x))
  | 0x07 => withField slot (vType sub) true (.vmax (vBin x))
  | 0x0E => withField slot (vType sub) true (.vshl (vBin x))
  | 0x0F => withField slot (vType sub) true (.vshr (vBin x))
  | 0x10 => withField slot (vType sub) true (.vsar (vBin x))
  | 0x1F => withField slot (vType sub) true (.vclamp (vBin x))
  | 0x08 => withField slot (vType sub) (fld x 4 6 == 0) (.vabs (vUn x))
  | 0x09 => withField slot (vType sub) (fld x 4 6 == 0) (.vneg (vUn x))
  | 0x0A => accept slot (sub == 0) (.vand (vBin x))
  | 0x0B => accept slot (sub == 0) (.vor (vBin x))
  | 0x0C => accept slot (sub == 0) (.vxor (vBin x))
  | 0x0D => accept slot (sub == 0) (.vandn (vBin x))
  | 0x11 => withField slot (vType sub) (fld x 20 2 == 0) (.vcmpeq (vCmp x))
  | 0x12 => withField slot (vType sub) (fld x 20 2 == 0) (.vcmplt (vCmp x))
  | 0x13 => withField slot (vType sub) (fld x 20 2 == 0) (.vcmple (vCmp x))
  | 0x14 => accept slot true (.vsel (vBin x) (bv 4 x 0))
  | 0x15 => match vType (fld x 4 4), vType sub with
    | some s, some d => accept slot true (.vcvt (vUn x) (fld x 9 1 == 1) (fld x 8 1 == 1) s d)
    | _, _ => .error (.badField slot)
  | 0x16 => withField slot (pkFmt sub) true (.vpack (vBin x))
  | 0x17 => withField slot (pkFmt sub) true (.vunpack (vBin x))
  | 0x18 => withField slot (permPat sub) (fld x 8 2 == 0) (fun p => .vperm (vUn x) p (bv 4 x 4))
  | 0x19 => match sub with
    | 0 => accept slot (fld x 8 2 == 0) (.vbcast (vUn x) (bv 4 x 4))
    | 1 => accept slot (fld x 4 6 == 0) (.vbcastS (vUn x))
    | 2 => accept slot (fld x 4 6 == 0) (.vbcastH (vUn x))
    | _ => .error (.badField slot)
  | 0x1A => match redOp (fld x 4 3), vType sub with
    | some o, some t => accept slot (fld x 7 3 == 0) (.vred (vUn x) o t)
    | _, _ => .error (.badField slot)
  | 0x1B => match redOp (fld x 4 3), vType sub with
    | some o, some t => accept slot (fld x 7 2 == 0) (.vscan (vUn x) o (fld x 9 1 == 1) t)
    | _, _ => .error (.badField slot)
  | 0x1C => match sub with
    | 0 => accept slot true (.vxlane (vBin x))
    | 1 => accept slot true (.vxlaneZ (vBin x))
    | _ => .error (.badField slot)
  | 0x1D => match sub with
    | 0 => accept slot (fld x 4 6 == 0) (.vpopc (vUn x))
    | 1 => accept slot (fld x 4 6 == 0) (.vclz (vUn x))
    | _ => .error (.badField slot)
  | 0x1E => match sub with
    | 0 => accept slot (fld x 20 2 == 0 && fld x 14 2 == 0 && fld x 8 2 == 0) (.qand (qLog x))
    | 1 => accept slot (fld x 20 2 == 0 && fld x 14 2 == 0 && fld x 8 2 == 0) (.qor (qLog x))
    | 2 => accept slot (fld x 20 2 == 0 && fld x 14 2 == 0 && fld x 8 2 == 0) (.qxor (qLog x))
    | 3 => accept slot (fld x 20 2 == 0 && fld x 14 2 == 0 && fld x 8 2 == 0) (.qandn (qLog x))
    | _ => .error (.badField slot)
  | _ => .error (.unassigned slot)

/-- Form and lane predicate of an F slot (R268). -/
def fForm (x : Nat) : FForm := if fld x 9 1 == 1 then .vector (bv 4 x 5) else .scalar
/-- An F slot's common fields (R196). -/
def fOp (x : Nat) : FOp := ⟨bv 4 x 22, bv 6 x 16, bv 6 x 10, fForm x⟩
/-- The scalar form's lane-predicate field is zero (R268). -/
def fZero (x : Nat) : Bool := fld x 9 1 == 1 || fld x 5 4 == 0

/-- The F map (R202) and the encodings of R269-R275. -/
def decodeF (slot x : Nat) : Except Reject Instr :=
  let opx := fld x 0 5
  match fld x 26 6 with
  | 0x01 => accept slot (fZero x && opx == 0) (.frcp (fOp x))
  | 0x02 => accept slot (fZero x && opx == 0) (.frsqrt (fOp x))
  | 0x03 => accept slot (fZero x && opx == 0) (.fsqrt (fOp x))
  | 0x04 => accept slot (fZero x && opx == 0) (.fexp2 (fOp x))
  | 0x05 => accept slot (fZero x && opx == 0) (.flog2 (fOp x))
  | 0x08 => accept slot (fZero x && opx == 0) (.fdiv (fOp x))
  | 0x0B => accept slot (fZero x && opx == 0) (.rng (fOp x))
  | 0x0D => accept slot (fZero x && opx == 0) (.hash (fOp x))
  | 0x0E => accept slot (fZero x && opx == 0) (.gfmul (fOp x))
  | 0x06 => accept slot (fZero x && opx < 2) (.fsin (fOp x) (fld x 0 1 == 1))
  | 0x07 => accept slot (fZero x && opx < 2) (.fcos (fOp x) (fld x 0 1 == 1))
  | 0x09 => accept slot (fZero x && opx < 2) (.idiv (fOp x) (fld x 0 1 == 1))
  | 0x0A => accept slot (fZero x && opx < 2) (.idivu (fOp x) (fld x 0 1 == 1))
  | 0x0C => accept slot (fZero x && opx < 8) (.crc (fOp x) (fld x 2 1 == 1) (bv 2 x 0))
  | _ => .error (.unassigned slot)

def mMem (x : Nat) (sz : MSize) : MMem := ⟨bv 4 x 54, bv 6 x 48, bv 6 x 42, bv 6 x 36, sz, bv 32 x 0⟩
def mAtom (x : Nat) (sz : MSize) : MAtom :=
  ⟨bv 4 x 54, bv 6 x 48, bv 6 x 42, bv 6 x 36, sz, bv 3 x 29, bv 2 x 27, bv 27 x 0⟩
def mReg (x : Nat) : MReg := ⟨bv 4 x 54, bv 6 x 48, fld x 0 1 == 1⟩
def waitSig (x : Nat) : WaitSig := ⟨bv 8 x 24, bv 12 x 12, bv 8 x 4, bv 4 x 0⟩
def mEng (x : Nat) : MEng :=
  ⟨bv 4 x 54, bv 6 x 48, bv 6 x 42, bv 3 x 39, fld x 38 1 == 1, fld x 37 1 == 1, waitSig x⟩

/-- The M map (R203) and the encodings of R278-R303. -/
def decodeM (slot x : Nat) : Except Reject Instr :=
  let size := mSize (fld x 32 4)
  let variant := fld x 32 4
  let sync0 := fld x 32 16 == 0
  let eng0 := fld x 36 1 == 0
  let plain := fld x 36 12 == 0
  match fld x 58 6 with
  | 0x01 => withField slot size true (fun z => .ld (mMem x z))
  | 0x02 => withField slot size true (fun z => .st (mMem x z))
  | 0x03 => withField slot size true (fun z => .vld (mMem x z))
  | 0x04 => withField slot size true (fun z => .vst (mMem x z))
  | 0x05 => withField slot size true (fun z => .vldr (mMem x z))
  | 0x06 => withField slot size true (fun z => .vstr (mMem x z))
  | 0x07 => withField slot size true (fun z => .vgather (mMem x z))
  | 0x08 => withField slot size true (fun z => .vscatter (mMem x z))
  | 0x09 => withField slot size true (fun z => .sld (mMem x z))
  | 0x0A => withField slot size true (fun z => .vsld (mMem x z))
  | 0x0B => withField slot size true (fun z => .ldSpm (mMem x z))
  | 0x0C => withField slot size true (fun z => .stSpm (mMem x z))
  | 0x0D => withField slot size true (fun z => .vldSpm (mMem x z))
  | 0x0E => withField slot size true (fun z => .vstSpm (mMem x z))
  | 0x0F => withField slot size true (fun z => .vgatherSpm (mMem x z))
  | 0x10 => withField slot size true (fun z => .vscatterSpm (mMem x z))
  | 0x11 => withField slot size true (fun z => .aadd (mAtom x z))
  | 0x12 => withField slot size true (fun z => .amin (mAtom x z))
  | 0x13 => withField slot size true (fun z => .amax (mAtom x z))
  | 0x14 => withField slot size true (fun z => .aand (mAtom x z))
  | 0x15 => withField slot size true (fun z => .aor (mAtom x z))
  | 0x16 => withField slot size true (fun z => .axor (mAtom x z))
  | 0x17 => withField slot size true (fun z => .aswp (mAtom x z))
  | 0x18 => withField slot size true (fun z => .acas (mAtom x z))
  | 0x19 => accept slot (sync0 && fld x 1 28 == 0) (.acq (mReg x) (bv 3 x 29))
  | 0x1A => accept slot (sync0 && fld x 48 6 == 0 && fld x 0 29 == 0) (.rel (bv 4 x 54) (bv 3 x 29))
  | 0x1B => accept slot (sync0 && fld x 1 28 == 0) (.inval (mReg x) (bv 3 x 29))
  | 0x1C => accept slot (sync0 && fld x 48 6 == 0 && fld x 29 3 == 0 && fld x 0 28 == 0)
      (if fld x 28 1 == 1 then .drainX (bv 4 x 54) else .drain (bv 4 x 54))
  | 0x1D => accept slot (sync0 && fld x 1 31 == 0) (.cln (mReg x))
  | 0x1E => accept slot (sync0 && fld x 48 6 == 0 && fld x 2 30 == 0) (.mark (bv 4 x 54) (bv 2 x 0))
  | 0x1F => accept slot (sync0 && fld x 48 6 == 0 && fld x 0 32 == 0) (.join (bv 4 x 54))
  | 0x20 => accept slot (plain && variant == 0) (.mcall (bv 4 x 54) (bv 6 x 48) (waitSig x))
  | 0x21 => match variant with
    | 0 => accept slot eng0 (.xferGg (mEng x))
    | 1 => accept slot eng0 (.xferSg (mEng x))
    | 2 => accept slot eng0 (.xferGs (mEng x))
    | 3 => accept slot eng0 (.xferSs (mEng x))
    | 4 => accept slot eng0 (.xferTg (mEng x))
    | 6 => accept slot eng0 (.xferTs (mEng x))
    | 8 => accept slot eng0 (.xferGt (mEng x))
    | 9 => accept slot eng0 (.xferSt (mEng x))
    | 12 => accept slot eng0 (.xferGa (mEng x))
    | 13 => accept slot eng0 (.xferSa (mEng x))
    | _ => .error (.badField slot)
  | 0x22 => match variant with
    | 0 => accept slot eng0 (.xredAddF32 (mEng x))
    | 1 => accept slot eng0 (.xredAddoF32 (mEng x))
    | 2 => accept slot eng0 (.xredAddB16 (mEng x))
    | 3 => accept slot eng0 (.xredAddI32 (mEng x))
    | 4 => accept slot eng0 (.xredMinF32 (mEng x))
    | 5 => accept slot eng0 (.xredMaxF32 (mEng x))
    | 6 => accept slot eng0 (.xredMinI32 (mEng x))
    | 7 => accept slot eng0 (.xredMaxI32 (mEng x))
    | _ => .error (.badField slot)
  | 0x23 => accept slot eng0 (.trig (mEng x) (bv 4 x 32))
  | 0x24 => match variant with
    | 0 => accept slot eng0 (.tldT (mEng x))
    | 1 => accept slot eng0 (.tldS (mEng x))
    | _ => .error (.badField slot)
  | 0x25 => match variant with
    | 0 => accept slot eng0 (.tstT (mEng x))
    | 1 => accept slot eng0 (.tstS (mEng x))
    | _ => .error (.badField slot)
  | 0x26 => match variant with
    | 0 => accept slot (fld x 45 3 == 0 && fld x 36 6 == 0) (.tcfgShp (bv 4 x 54) (bv 6 x 48) (bv 3 x 42) (waitSig x))
    | 1 => accept slot (fld x 45 3 == 0 && fld x 36 6 == 0 && fld x 0 32 == 0) (.tcfgM (bv 4 x 54) (bv 6 x 48) (bv 3 x 42))
    | 2 => accept slot (fld x 45 3 == 0 && fld x 36 6 == 0 && fld x 0 32 == 0) (.tcfgM2 (bv 4 x 54) (bv 6 x 48) (bv 3 x 42))
    | _ => .error (.badField slot)
  | 0x27 => accept slot (plain && fld x 48 6 == 0 && fld x 35 1 == 0) (.qcut (bv 4 x 54) (bv 3 x 32) (waitSig x))
  | _ => .error (.unassigned slot)

/-- One slot by its number in presence order (R190). -/
def decodeSlot (slot x : Nat) : Except Reject Instr :=
  match slotCls slot with
  | .s => decodeS slot x
  | .v => decodeV slot x
  | .f => decodeF slot x
  | .m => decodeM slot x

/-- Counter selector of a micro-word (R315): 5 to 7 are reserved. -/
def tileIx : Nat → Option TileIx
  | 0 => some .none | 1 => some (.k 0) | 2 => some (.k 1) | 3 => some (.k 2) | 4 => some (.k 3) | _ => none
def TileIx.code : TileIx → Nat
  | .none => 0 | .k n => n.toNat + 1
def woutFmt : Nat → Option WoutFmt
  | 0 => some .f32 | 1 => some .b16 | 2 => some .f16 | 3 => some .f8e4 | 4 => some .f8e5 | 5 => some .i32 | 6 => some .c32
  | _ => none
def WoutFmt.code : WoutFmt → Nat
  | .f32 => 0 | .b16 => 1 | .f16 => 2 | .f8e4 => 3 | .f8e5 => 4 | .i32 => 5 | .c32 => 6
def lxCond : Nat → LxCond
  | 0 => .always | 1 => .zero | 2 => .nonzero | _ => .bmrZero
def LxCond.code : LxCond → Nat
  | .always => 0 | .zero => 1 | .nonzero => 2 | .bmrZero => 3

/-- A micro-word (R315-R324); every reject is the lexicon status. -/
def decodeMicro (x : Nat) : Except Reject Instr :=
  match fld x 58 6 with
  | 0x01 => accept 0 (fld x 0 58 == 0) .lxEnd
  | 0x02 => match tileIx (fld x 49 3), fld x 46 2 with
    | some ti, 0 => accept 0 (fld x 0 41 == 0) (.lxFetch (bv 6 x 52) ti (fld x 48 1 == 1) .lo (bv 3 x 43) (bv 2 x 41))
    | some ti, 1 => accept 0 (fld x 0 41 == 0) (.lxFetch (bv 6 x 52) ti (fld x 48 1 == 1) .both (bv 3 x 43) (bv 2 x 41))
    | some ti, 2 => accept 0 (fld x 0 41 == 0) (.lxFetch (bv 6 x 52) ti (fld x 48 1 == 1) .hi (bv 3 x 43) (bv 2 x 41))
    | _, _ => .error (.badField 0)
  | 0x03 => withField 0 (tileIx (fld x 49 3)) (fld x 48 1 == 0 && fld x 0 47 == 0)
      (fun ti => .lxSel (bv 6 x 52) ti (fld x 47 1 == 1))
  | 0x04 =>
    if fld x 48 1 == 0 then
      withField 0 (tileIx (fld x 49 3)) (fld x 13 25 == 0) (fun ti => .lxSkip (.tile (bv 6 x 52) ti (bv 10 x 38)) (bv 13 x 0))
    else accept 0 (fld x 13 25 == 0 && fld x 41 7 == 0 && fld x 49 9 == 0) (.lxSkip (.m (bv 3 x 38)) (bv 13 x 0))
  | 0x05 => accept 0 (fld x 0 48 == 0) (.lxScan (bv 10 x 48))
  | 0x06 => accept 0 (fld x 0 48 == 0) (.lxMac (bv 10 x 48))
  | 0x07 => accept 0 (fld x 0 58 == 0) .lxAcc
  | 0x08 => accept 0 (fld x 0 45 == 0) (.lxCvt (bv 8 x 50) (fld x 49 1 == 1) (bv 3 x 46) (fld x 45 1 == 1))
  | 0x09 => match woutFmt (fld x 42 3), tileIx (fld x 49 3) with
    | some fm, some ti =>
      if fld x 48 1 == 0 then
        accept 0 (fld x 0 35 == 0 && fld x 45 3 == 0) (.lxWout (.tile (bv 6 x 52) ti) fm (fld x 41 1 == 1) (bv 6 x 35))
      else accept 0 (fld x 0 35 == 0 && fld x 49 9 == 0) (.lxWout (.spm (bv 3 x 45)) fm (fld x 41 1 == 1) (bv 6 x 35))
    | _, _ => .error (.badField 0)
  | 0x0A => accept 0 (fld x 0 46 == 0) (.lxSig (bv 8 x 50) (bv 4 x 46))
  | 0x0B =>
    if fld x 55 1 == 0 then accept 0 (fld x 16 39 == 0) (.lxSetk (bv 2 x 56) (.imm (bv 16 x 0)))
    else accept 0 (fld x 16 35 == 0) (.lxSetk (bv 2 x 56) (.m (bv 3 x 52) (fld x 51 1 == 1) (bv 16 x 0)))
  | 0x0C => accept 0 (fld x 16 40 == 0) (.lxAddk (bv 2 x 56) (bv 16 x 0))
  | 0x0D => accept 0 (fld x 13 43 == 0) (.lxLoop (bv 2 x 56) (bv 13 x 0))
  | 0x0E => accept 0 (fld x 13 41 == 0) (.lxBr (bv 2 x 56) (lxCond (fld x 54 2)) (bv 13 x 0))
  | 0x0F => accept 0 (fld x 0 58 == 0) .lxNop
  | _ => .error (.unassigned 0)

/-- A bundle cut into its slots, not yet decoded (R190, R191). -/
structure RawBundle where
  len : Nat
  stop : Bool
  hold : Bool
  weight : Nat
  slots : List (Nat × Nat)
  deriving DecidableEq, Repr

/-- A decoded bundle: its slots in presence order; an empty bundle holds `nop` (R192). -/
structure Bundle where
  len : Nat
  stop : Bool
  hold : Bool
  weight : Nat
  slots : List (Nat × Instr)
  deriving DecidableEq, Repr

/-- The number whose bytes, lowest first, are the list (R10). -/
def leNat : List Byte → Nat
  | [] => 0
  | b :: bs => b.toNat + 256 * leNat bs

/-- The slots a presence mask names, with their words, from slot `i` on. -/
def cutSlots (presence : Nat) : List Nat → List Byte → List (Nat × Nat)
  | [], _ => []
  | i :: is, bs =>
    if presence / 2 ^ i % 2 = 1 then
      (i, leNat (bs.take (slotBytes i))) :: cutSlots presence is (bs.drop (slotBytes i))
    else cutSlots presence is bs

/-- Bytes the slots of a presence mask take (R191). -/
def slotsLen (presence : Nat) : List Nat → Nat
  | [] => 0
  | i :: is => (if presence / 2 ^ i % 2 = 1 then slotBytes i else 0) + slotsLen presence is

/-- Cuts a bundle that begins at byte `off` of its fetch line (R192; R193 step 3). -/
def rawBundle (off : Nat) (bs : List Byte) : Except Reject RawBundle :=
  let presence := leNat (bs.take 1)
  let clause := leNat ((bs.drop 1).take 1)
  let len := 2 + slotsLen presence (List.range 8)
  if presence = 0 ∧ clause = 0 then .error .pad
  else if off + len > 64 then .error .crossesLine
  else if clause / 64 ≠ 0 then .error .clauseBits
  else .ok ⟨len, fld clause 5 1 == 1, fld clause 4 1 == 1, fld clause 0 4,
    cutSlots presence (List.range 8) (bs.drop 2)⟩

/-- Whether a bundle holds a control opcode in S0 or S1, whatever else is wrong with the slot: no delay slot may hold one (R193 step 4; the
model's choice, log 78). -/
def RawBundle.hasControl (b : RawBundle) : Bool :=
  b.slots.any (fun p => p.1 < 2 && isControlOp (fld p.2 26 6))

/-- Decodes slots in presence order; the first reject decides (R193 step 5). -/
def decodeSlots : List (Nat × Nat) → Except Reject (List (Nat × Instr))
  | [] => .ok []
  | (i, x) :: r =>
    match decodeSlot i x with
    | .error e => .error e
    | .ok ins => match decodeSlots r with
      | .error e => .error e
      | .ok l => .ok ((i, ins) :: l)

/-- A whole bundle. -/
def decodeBundle (off : Nat) (bs : List Byte) : Except Reject Bundle :=
  match rawBundle off bs with
  | .error e => .error e
  | .ok r => match decodeSlots r.slots with
    | .error e => .error e
    | .ok l => .ok ⟨r.len, r.stop, r.hold, r.weight, if l.isEmpty then [(0, .nop)] else l⟩

/-- `n` bytes of a number, lowest first (R10). -/
def natBytes : Nat → Nat → List Byte
  | 0, _ => []
  | n + 1, x => BitVec.ofNat 8 x :: natBytes n (x / 256)

/-- Bytes an instruction may take: the longest bundle (R191). -/
def maxBundle : Nat := 42

/-- The instruction of a bundle that holds one slot or none, laid out at the start of a fetch line. -/
def decodeTableWord (_nbits w : Nat) : Option Instr :=
  match decodeBundle 0 (natBytes maxBundle w) with
  | .ok ⟨_, _, _, _, [(_, i)]⟩ => some i
  | _ => none

/-- Fields of S forms as a number (R194). -/
def encReg (op sub : Nat) (f : SReg) : Nat :=
  op * 2 ^ 26 + f.g.toNat * 2 ^ 22 + f.d.toNat * 2 ^ 16 + f.a.toNat * 2 ^ 10 + f.b.toNat * 2 ^ 4 + sub
def encUn (op sub : Nat) (f : SUn) : Nat :=
  op * 2 ^ 26 + f.g.toNat * 2 ^ 22 + f.d.toNat * 2 ^ 16 + f.a.toNat * 2 ^ 10 + sub
def encImm (op : Nat) (f : SImm) : Nat :=
  op * 2 ^ 26 + f.g.toNat * 2 ^ 22 + f.d.toNat * 2 ^ 16 + f.a.toNat * 2 ^ 10 + f.imm.toNat
def encShift (op : Nat) (f : SShift) : Nat :=
  op * 2 ^ 26 + f.g.toNat * 2 ^ 22 + f.d.toNat * 2 ^ 16 + f.a.toNat * 2 ^ 10 + f.cnt.toNat
def encLong (op : Nat) (f : SLong) : Nat := op * 2 ^ 26 + f.g.toNat * 2 ^ 22 + f.imm.toNat
def encCmp (op : Nat) (f : SCmp) : Nat :=
  op * 2 ^ 26 + f.g.toNat * 2 ^ 22 + f.pt.toNat * 2 ^ 18 + f.pf.toNat * 2 ^ 14 + f.a.toNat * 2 ^ 8 + f.b.toNat * 2 ^ 2
def encCmpi (op : Nat) (f : SCmpi) : Nat :=
  op * 2 ^ 26 + f.g.toNat * 2 ^ 22 + f.pt.toNat * 2 ^ 18 + f.pf.toNat * 2 ^ 14 + f.a.toNat * 2 ^ 8 + f.imm.toNat
def encPred (sub : Nat) (f : SPred) : Nat :=
  0x1E * 2 ^ 26 + f.g.toNat * 2 ^ 22 + f.d.toNat * 2 ^ 16 + f.a.toNat * 2 ^ 10 + f.b.toNat * 2 ^ 4 + sub
def encChk (v : Nat) (f : SChk) : Nat :=
  0x25 * 2 ^ 26 + f.g.toNat * 2 ^ 22 + v * 2 ^ 16 + f.a.toNat * 2 ^ 10 + f.off.toNat
def encBrr (sub : Nat) (g : BitVec 4) (a : BitVec 6) : Nat := 0x23 * 2 ^ 26 + g.toNat * 2 ^ 22 + a.toNat * 2 ^ 10 + sub
def encX (op : Nat) (g : BitVec 4) (d a : BitVec 6) : Nat :=
  op * 2 ^ 26 + g.toNat * 2 ^ 22 + d.toNat * 2 ^ 16 + a.toNat * 2 ^ 10
def encG (op : Nat) (g : BitVec 4) : Nat := op * 2 ^ 26 + g.toNat * 2 ^ 22
/-- V forms (R195). -/
def encVB (op lo : Nat) (f : VBin) : Nat :=
  op * 2 ^ 26 + f.q.toNat * 2 ^ 22 + f.vd.toNat * 2 ^ 16 + f.va.toNat * 2 ^ 10 + f.vb.toNat * 2 ^ 4 + lo
def encVU (op lo : Nat) (f : VUn) : Nat :=
  op * 2 ^ 26 + f.q.toNat * 2 ^ 22 + f.vd.toNat * 2 ^ 16 + f.va.toNat * 2 ^ 10 + lo
def encVC (op lo : Nat) (f : VCmp) : Nat :=
  op * 2 ^ 26 + f.q.toNat * 2 ^ 22 + f.qd.toNat * 2 ^ 16 + f.va.toNat * 2 ^ 10 + f.vb.toNat * 2 ^ 4 + lo
def encQ (lo : Nat) (f : QLog) : Nat :=
  0x1E * 2 ^ 26 + f.q.toNat * 2 ^ 22 + f.qd.toNat * 2 ^ 16 + f.qa.toNat * 2 ^ 10 + f.qb.toNat * 2 ^ 4 + lo
/-- F form (R196, R268). -/
def encF (op opx : Nat) (f : FOp) : Nat :=
  op * 2 ^ 26 + f.g.toNat * 2 ^ 22 + f.d.toNat * 2 ^ 16 + f.a.toNat * 2 ^ 10 +
    (match f.form with | .scalar => 0 | .vector q => 2 ^ 9 + q.toNat * 2 ^ 5) + opx
/-- M forms (R197). -/
def encMem (op : Nat) (f : MMem) : Nat :=
  op * 2 ^ 58 + f.g.toNat * 2 ^ 54 + f.data.toNat * 2 ^ 48 + f.base.toNat * 2 ^ 42 + f.idx.toNat * 2 ^ 36 +
    f.size.code * 2 ^ 32 + f.off.toNat
def encAtom (op : Nat) (f : MAtom) : Nat :=
  op * 2 ^ 58 + f.g.toNat * 2 ^ 54 + f.data.toNat * 2 ^ 48 + f.base.toNat * 2 ^ 42 + f.idx.toNat * 2 ^ 36 +
    f.size.code * 2 ^ 32 + f.scope.toNat * 2 ^ 29 + f.ord.toNat * 2 ^ 27 + f.off.toNat
def encMReg (op sc : Nat) (f : MReg) : Nat :=
  op * 2 ^ 58 + f.g.toNat * 2 ^ 54 + f.a.toNat * 2 ^ 48 + sc * 2 ^ 29 + f.all.toNat
def encWS (f : WaitSig) : Nat :=
  f.wsem.toNat * 2 ^ 24 + f.wthr.toNat * 2 ^ 12 + f.ssem.toNat * 2 ^ 4 + f.sinc.toNat
def encEng (op v : Nat) (f : MEng) : Nat :=
  op * 2 ^ 58 + f.g.toNat * 2 ^ 54 + f.a.toNat * 2 ^ 48 + f.b.toNat * 2 ^ 42 + f.scope.toNat * 2 ^ 39 +
    f.acq.toNat * 2 ^ 38 + f.rel.toNat * 2 ^ 37 + v * 2 ^ 32 + encWS f.w
def encSync (op : Nat) (g : BitVec 4) (lo : Nat) : Nat := op * 2 ^ 58 + g.toNat * 2 ^ 54 + lo
def encTcfg (v : Nat) (g : BitVec 4) (a : BitVec 6) (n : BitVec 3) (lo : Nat) : Nat :=
  0x26 * 2 ^ 58 + g.toNat * 2 ^ 54 + a.toNat * 2 ^ 48 + n.toNat * 2 ^ 42 + v * 2 ^ 32 + lo
/-- Micro-words (R315). -/
def encLx (op lo : Nat) : Nat := op * 2 ^ 58 + lo

/-- The class and word of a slot instruction, from the encoding tables; none for a step that is no slot. -/
def encodeSlot : Instr → Option (SlotCls × Nat)
  | .add f => some (.s, encReg 0x01 0 f)
  | .sub f => some (.s, encReg 0x02 0 f)
  | .mul f => some (.s, encReg 0x03 0 f)
  | .mulh f => some (.s, encReg 0x03 1 f)
  | .mulhu f => some (.s, encReg 0x03 2 f)
  | .and f => some (.s, encReg 0x04 0 f)
  | .or f => some (.s, encReg 0x05 0 f)
  | .xor f => some (.s, encReg 0x06 0 f)
  | .andn f => some (.s, encReg 0x07 0 f)
  | .shl f => some (.s, encReg 0x08 0 f)
  | .shr f => some (.s, encReg 0x09 0 f)
  | .sar f => some (.s, encReg 0x0A 0 f)
  | .min f => some (.s, encReg 0x0B 0 f)
  | .minu f => some (.s, encReg 0x0B 1 f)
  | .max f => some (.s, encReg 0x0C 0 f)
  | .maxu f => some (.s, encReg 0x0C 1 f)
  | .sel f n => some (.s, encReg 0x0D n.toNat f)
  | .bfx f => some (.s, encReg 0x0E 0 f)
  | .bfxu f => some (.s, encReg 0x0E 1 f)
  | .bfi f => some (.s, encReg 0x0F 0 f)
  | .clz f => some (.s, encUn 0x10 0 f)
  | .ctz f => some (.s, encUn 0x10 1 f)
  | .popc f => some (.s, encUn 0x10 2 f)
  | .addi f => some (.s, encImm 0x11 f)
  | .andi f => some (.s, encImm 0x12 f)
  | .ori f => some (.s, encImm 0x13 f)
  | .xori f => some (.s, encImm 0x14 f)
  | .shli f => some (.s, encShift 0x15 f)
  | .shri f => some (.s, encShift 0x16 f)
  | .sari f => some (.s, encShift 0x17 f)
  | .cmpeq f => some (.s, encCmp 0x18 f)
  | .cmplt f => some (.s, encCmp 0x19 f)
  | .cmpltu f => some (.s, encCmp 0x1A f)
  | .cmpeqi f => some (.s, encCmpi 0x1B f)
  | .cmplti f => some (.s, encCmpi 0x1C f)
  | .cmpltui f => some (.s, encCmpi 0x1D f)
  | .pand f => some (.s, encPred 0 f)
  | .por f => some (.s, encPred 1 f)
  | .pxor f => some (.s, encPred 2 f)
  | .pandn f => some (.s, encPred 3 f)
  | .lis f => some (.s, encLong 0x1F f)
  | .lic f => some (.s, encLong 0x20 f)
  | .br f => some (.s, encLong 0x21 f)
  | .brl f => some (.s, encLong 0x22 f)
  | .loop f => some (.s, encLong 0x24 f)
  | .trap f => some (.s, encLong 0x2D f)
  | .sys f => some (.s, encLong 0x2E f)
  | .brr g a => some (.s, encBrr 0 g a)
  | .brrl g a => some (.s, encBrr 1 g a)
  | .chkS f => some (.s, encChk 0 f)
  | .chkV f => some (.s, encChk 1 f)
  | .mfs g d x => some (.s, encX 0x26 g d x)
  | .mts g x a => some (.s, encX 0x27 g x a)
  | .semget f => some (.s, encImm 0x28 f)
  | .semset f => some (.s, encImm 0x29 f)
  | .semsig f => some (.s, encImm 0x2A f)
  | .semwait f => some (.s, encImm 0x2B f)
  | .wfe g => some (.s, encG 0x2C g)
  | .eret g => some (.s, encG 0x2F g)
  | .halt g => some (.s, encG 0x30 g)
  | .vadd f ty => some (.v, encVB 0x01 ty.code f)
  | .vsub f ty => some (.v, encVB 0x02 ty.code f)
  | .vmul f ty => some (.v, encVB 0x03 ty.code f)
  | .vfma f ty => some (.v, encVB 0x04 ty.code f)
  | .vfms f ty => some (.v, encVB 0x05 ty.code f)
  | .vmin f ty => some (.v, encVB 0x06 ty.code f)
  | .vmax f ty => some (.v, encVB 0x07 ty.code f)
  | .vshl f ty => some (.v, encVB 0x0E ty.code f)
  | .vshr f ty => some (.v, encVB 0x0F ty.code f)
  | .vsar f ty => some (.v, encVB 0x10 ty.code f)
  | .vclamp f ty => some (.v, encVB 0x1F ty.code f)
  | .vabs f ty => some (.v, encVU 0x08 ty.code f)
  | .vneg f ty => some (.v, encVU 0x09 ty.code f)
  | .vand f => some (.v, encVB 0x0A 0 f)
  | .vor f => some (.v, encVB 0x0B 0 f)
  | .vxor f => some (.v, encVB 0x0C 0 f)
  | .vandn f => some (.v, encVB 0x0D 0 f)
  | .vcmpeq f ty => some (.v, encVC 0x11 ty.code f)
  | .vcmplt f ty => some (.v, encVC 0x12 ty.code f)
  | .vcmple f ty => some (.v, encVC 0x13 ty.code f)
  | .vsel f n => some (.v, encVB 0x14 n.toNat f)
  | .vcvt f sat rtz s d => some (.v, encVU 0x15 (sat.toNat * 2 ^ 9 + rtz.toNat * 2 ^ 8 + s.code * 2 ^ 4 + d.code) f)
  | .vpack f fmt => some (.v, encVB 0x16 fmt.code f)
  | .vunpack f fmt => some (.v, encVB 0x17 fmt.code f)
  | .vperm f p k => some (.v, encVU 0x18 (k.toNat * 2 ^ 4 + p.code) f)
  | .vbcast f k => some (.v, encVU 0x19 (k.toNat * 2 ^ 4) f)
  | .vbcastS f => some (.v, encVU 0x19 1 f)
  | .vbcastH f => some (.v, encVU 0x19 2 f)
  | .vred f o t => some (.v, encVU 0x1A (o.code * 2 ^ 4 + t.code) f)
  | .vscan f o x t => some (.v, encVU 0x1B (x.toNat * 2 ^ 9 + o.code * 2 ^ 4 + t.code) f)
  | .vxlane f => some (.v, encVB 0x1C 0 f)
  | .vxlaneZ f => some (.v, encVB 0x1C 1 f)
  | .vpopc f => some (.v, encVU 0x1D 0 f)
  | .vclz f => some (.v, encVU 0x1D 1 f)
  | .qand f => some (.v, encQ 0 f)
  | .qor f => some (.v, encQ 1 f)
  | .qxor f => some (.v, encQ 2 f)
  | .qandn f => some (.v, encQ 3 f)
  | .frcp f => some (.f, encF 0x01 0 f)
  | .frsqrt f => some (.f, encF 0x02 0 f)
  | .fsqrt f => some (.f, encF 0x03 0 f)
  | .fexp2 f => some (.f, encF 0x04 0 f)
  | .flog2 f => some (.f, encF 0x05 0 f)
  | .fdiv f => some (.f, encF 0x08 0 f)
  | .rng f => some (.f, encF 0x0B 0 f)
  | .hash f => some (.f, encF 0x0D 0 f)
  | .gfmul f => some (.f, encF 0x0E 0 f)
  | .fsin f u => some (.f, encF 0x06 u.toNat f)
  | .fcos f u => some (.f, encF 0x07 u.toNat f)
  | .idiv f u => some (.f, encF 0x09 u.toNat f)
  | .idivu f u => some (.f, encF 0x0A u.toNat f)
  | .crc f p z => some (.f, encF 0x0C (p.toNat * 2 ^ 2 + z.toNat) f)
  | .ld f => some (.m, encMem 0x01 f)
  | .st f => some (.m, encMem 0x02 f)
  | .vld f => some (.m, encMem 0x03 f)
  | .vst f => some (.m, encMem 0x04 f)
  | .vldr f => some (.m, encMem 0x05 f)
  | .vstr f => some (.m, encMem 0x06 f)
  | .vgather f => some (.m, encMem 0x07 f)
  | .vscatter f => some (.m, encMem 0x08 f)
  | .sld f => some (.m, encMem 0x09 f)
  | .vsld f => some (.m, encMem 0x0A f)
  | .ldSpm f => some (.m, encMem 0x0B f)
  | .stSpm f => some (.m, encMem 0x0C f)
  | .vldSpm f => some (.m, encMem 0x0D f)
  | .vstSpm f => some (.m, encMem 0x0E f)
  | .vgatherSpm f => some (.m, encMem 0x0F f)
  | .vscatterSpm f => some (.m, encMem 0x10 f)
  | .aadd f => some (.m, encAtom 0x11 f)
  | .amin f => some (.m, encAtom 0x12 f)
  | .amax f => some (.m, encAtom 0x13 f)
  | .aand f => some (.m, encAtom 0x14 f)
  | .aor f => some (.m, encAtom 0x15 f)
  | .axor f => some (.m, encAtom 0x16 f)
  | .aswp f => some (.m, encAtom 0x17 f)
  | .acas f => some (.m, encAtom 0x18 f)
  | .acq f s => some (.m, encMReg 0x19 s.toNat f)
  | .inval f s => some (.m, encMReg 0x1B s.toNat f)
  | .cln f => some (.m, encMReg 0x1D 0 f)
  | .rel g s => some (.m, encSync 0x1A g (s.toNat * 2 ^ 29))
  | .drain g => some (.m, encSync 0x1C g 0)
  | .drainX g => some (.m, encSync 0x1C g (2 ^ 28))
  | .mark g m => some (.m, encSync 0x1E g m.toNat)
  | .join g => some (.m, encSync 0x1F g 0)
  | .mcall g a ws => some (.m, 0x20 * 2 ^ 58 + g.toNat * 2 ^ 54 + a.toNat * 2 ^ 48 + encWS ws)
  | .xferGg f => some (.m, encEng 0x21 0 f)
  | .xferSg f => some (.m, encEng 0x21 1 f)
  | .xferGs f => some (.m, encEng 0x21 2 f)
  | .xferSs f => some (.m, encEng 0x21 3 f)
  | .xferTg f => some (.m, encEng 0x21 4 f)
  | .xferTs f => some (.m, encEng 0x21 6 f)
  | .xferGt f => some (.m, encEng 0x21 8 f)
  | .xferSt f => some (.m, encEng 0x21 9 f)
  | .xferGa f => some (.m, encEng 0x21 12 f)
  | .xferSa f => some (.m, encEng 0x21 13 f)
  | .xredAddF32 f => some (.m, encEng 0x22 0 f)
  | .xredAddoF32 f => some (.m, encEng 0x22 1 f)
  | .xredAddB16 f => some (.m, encEng 0x22 2 f)
  | .xredAddI32 f => some (.m, encEng 0x22 3 f)
  | .xredMinF32 f => some (.m, encEng 0x22 4 f)
  | .xredMaxF32 f => some (.m, encEng 0x22 5 f)
  | .xredMinI32 f => some (.m, encEng 0x22 6 f)
  | .xredMaxI32 f => some (.m, encEng 0x22 7 f)
  | .trig f v => some (.m, encEng 0x23 v.toNat f)
  | .tldT f => some (.m, encEng 0x24 0 f)
  | .tldS f => some (.m, encEng 0x24 1 f)
  | .tstT f => some (.m, encEng 0x25 0 f)
  | .tstS f => some (.m, encEng 0x25 1 f)
  | .tcfgShp g a n ws => some (.m, encTcfg 0 g a n (encWS ws))
  | .tcfgM g a n => some (.m, encTcfg 1 g a n 0)
  | .tcfgM2 g a n => some (.m, encTcfg 2 g a n 0)
  | .qcut g s ws => some (.m, 0x27 * 2 ^ 58 + g.toNat * 2 ^ 54 + s.toNat * 2 ^ 32 + encWS ws)
  | _ => none

/-- The micro-word of a micro-operation (R315-R324); none for anything else. -/
def encodeMicro : Instr → Option Nat
  | .lxEnd => some (encLx 0x01 0)
  | .lxFetch t ti b u ms mb => some (encLx 0x02 (t.toNat * 2 ^ 52 + ti.code * 2 ^ 49 + b.toNat * 2 ^ 48 +
      (match u with | .lo => 0 | .hi => 2 | .both => 1) * 2 ^ 46 + ms.toNat * 2 ^ 43 + mb.toNat * 2 ^ 41))
  | .lxSel t ti hi => some (encLx 0x03 (t.toNat * 2 ^ 52 + ti.code * 2 ^ 49 + hi.toNat * 2 ^ 47))
  | .lxSkip (.tile t ti wd) tgt => some (encLx 0x04 (t.toNat * 2 ^ 52 + ti.code * 2 ^ 49 + wd.toNat * 2 ^ 38 + tgt.toNat))
  | .lxSkip (.m ms) tgt => some (encLx 0x04 (2 ^ 48 + ms.toNat * 2 ^ 38 + tgt.toNat))
  | .lxScan kn => some (encLx 0x05 (kn.toNat * 2 ^ 48))
  | .lxMac kn => some (encLx 0x06 (kn.toNat * 2 ^ 48))
  | .lxAcc => some (encLx 0x07 0)
  | .lxCvt ei mu ms cl => some (encLx 0x08 (ei.toNat * 2 ^ 50 + mu.toNat * 2 ^ 49 + ms.toNat * 2 ^ 46 + cl.toNat * 2 ^ 45))
  | .lxWout (.tile t ti) fm sat rp =>
    some (encLx 0x09 (t.toNat * 2 ^ 52 + ti.code * 2 ^ 49 + fm.code * 2 ^ 42 + sat.toNat * 2 ^ 41 + rp.toNat * 2 ^ 35))
  | .lxWout (.spm ms) fm sat rp =>
    some (encLx 0x09 (2 ^ 48 + ms.toNat * 2 ^ 45 + fm.code * 2 ^ 42 + sat.toNat * 2 ^ 41 + rp.toNat * 2 ^ 35))
  | .lxSig sem inc => some (encLx 0x0A (sem.toNat * 2 ^ 50 + inc.toNat * 2 ^ 46))
  | .lxSetk k (.imm v) => some (encLx 0x0B (k.toNat * 2 ^ 56 + v.toNat))
  | .lxSetk k (.m ms h v) => some (encLx 0x0B (k.toNat * 2 ^ 56 + 2 ^ 55 + ms.toNat * 2 ^ 52 + h.toNat * 2 ^ 51 + v.toNat))
  | .lxAddk k v => some (encLx 0x0C (k.toNat * 2 ^ 56 + v.toNat))
  | .lxLoop k t => some (encLx 0x0D (k.toNat * 2 ^ 56 + t.toNat))
  | .lxBr k c t => some (encLx 0x0E (k.toNat * 2 ^ 56 + c.code * 2 ^ 54 + t.toNat))
  | .lxNop => some (encLx 0x0F 0)
  | _ => none

/-- The lowest slot of its class that an instruction may stand in (R200, R201, R216). -/
def homeSlot (i : Instr) : Nat :=
  match i, encodeSlot i with
  | .vperm .., _ | .vbcast .., _ | .vbcastS .., _ | .vbcastH .., _ | .vred .., _ | .vscan .., _ | .vxlane .., _
  | .vxlaneZ .., _ => 4
  | _, some (.v, _) => 2
  | _, some (.f, _) => 5
  | _, some (.m, _) => 6
  | _, _ => 0

/-- The bytes of a bundle that holds one instruction, with a clause byte of weight `wt` (R190, R191). -/
def encode (i : Instr) (wt : BitVec 4) : List Byte :=
  match i, encodeSlot i with
  | .nop, _ => [0, BitVec.ofNat 8 (max 1 wt.toNat)]
  | _, some (_, x) => natBytes 2 (2 ^ homeSlot i + 256 * wt.toNat) ++ natBytes (slotBytes (homeSlot i)) x
  | _, none => []

end Sys2Proof
end

