-- ==== Sys2Proof/Machine/Matrix.lean ====
section
/-! DEFINITION. The matrix engine: the start and end of a verb call, the micro-operations, block-scaled and F32 sums
(R129-R134, R305-R325). Each micro-operation acts on the engine of the core under way. -/
namespace Sys2Proof.Machine

/-! ## The call under way (R313-R315) -/

/-- What a micro-operation does to the call: goes on at the next micro-word, jumps, or ends the call early with a status
and the offset it records. -/
inductive MxRes where
  | go (c : Core) (m : Mx)
  | jump (c : Core) (m : Mx) (tgt : Nat)
  | stop (m : Mx) (status eva : Nat)
  deriving DecidableEq, Repr

/-- The call's command. -/
def callCmd (c : Core) : Option Cmd := match c.mx.call with
  | some i => mlook c.cmds i
  | none => none

/-- The call ends: its command has done its step 3 with a status and the flags gathered (R313). -/
def endCall (c : Core) (mx : Mx) (status eva : Nat) : Core :=
  match callCmd c with
  | none => c
  | some m => { c with
      cmds := mput c.cmds m.id { m with st := .done, status := status, eva := eva, flags := m.flags ||| mx.flags }
      mx := { mx with call := none } }

/-- Runs a micro-operation of the call under way; without a call nothing happens. -/
def micro (s : State) (f : Core → Cmd → Mx → MxRes) : State :=
  let c := myCore s
  match callCmd c with
  | none => s
  | some cmd => setCore s s.cur.core (match f c cmd c.mx with
    | .go c m => { c with mx := { m with upc := m.upc + 1 } }
    | .jump c m t => { c with mx := { m with upc := t } }
    | .stop m st eva => endCall c m st eva)

/-- m register i of the call's copy. -/
def Mx.mreg (m : Mx) (i : Nat) : W32 := m.m.getD i 0
/-- µ-counter (R316). -/
def Mx.ctr (m : Mx) (i : BitVec 2) : BitVec 16 := mget 0 m.k i.toNat
/-- Writes a µ-counter. -/
def Mx.setCtr (m : Mx) (i : BitVec 2) (v : BitVec 16) : Mx := { m with k := mset 0 m.k i.toNat v }
/-- A field of the mode word (R310). -/
def Mx.f0 (m : Mx) (lo len : Nat) : Nat := (m.mreg 0).toNat / 2 ^ lo % 2 ^ len
/-- Output rows and columns (R310). -/
def Mx.rows (m : Mx) : Nat := m.f0 16 5 + 1
def Mx.cols (m : Mx) : Nat := m.f0 21 5 + 1
/-- The accumulator named by m0. -/
def Mx.accNo (m : Mx) : Nat := m.f0 8 3
/-- The call's mode (R311). -/
def Mx.mode (m : Mx) : Nat := (arrayMode (m.mreg 0)).getD 0
/-- Effective tile (R315): above 63 is invalid-argument. -/
def Mx.tileNo (m : Mx) (t : BitVec 6) (ti : TileIx) : Option Nat :=
  let n := t.toNat + match ti with
    | .none => 0
    | .k i => (m.ctr i).toNat
  if n < 64 then some n else none

/-- A word of a tile (R305). -/
def tileWord (c : Core) (t w : Nat) : Lane := mget {} c.tile (1024 * t + w)
/-- A plane entry (R306). -/
def planeEnt (c : Core) (t b : Nat) : BitVec 24 × Bool := mget (0, false) c.plane (64 * t + b)
/-- An accumulator entry (R308). -/
def accEnt (c : Core) (a i j : Nat) : AccEnt := mget {} c.acc (1024 * a + 32 * i + j)
/-- Writes an accumulator entry. -/
def setAcc (c : Core) (a i j : Nat) (x : AccEnt) : Core := { c with acc := mset {} c.acc (1024 * a + 32 * i + j) x }

/-- R309, R313 steps 1-3: AM and CLR, then the call state at its start values; a mode that does not fit ends the call. -/
def startCall (c : Core) (m : Cmd) : Core :=
  let m0 := m.m.getD 0 0
  let a := m0.toNat / 2 ^ 8 % 8
  let mode := (arrayMode m0).getD 0
  let am := mget 0 c.am a
  let mx : Mx := { call := some m.id, upc := (m.regs.getD 0 0).toNat, m := m.m }
  if m0.getLsbD 11 then
    { c with acc := c.acc.filter (fun e => e.1 / 1024 ≠ a), am := mset 0 c.am a mode, mx := mx }
  else if am = 0 || am = mode then { c with am := mset 0 c.am a mode, mx := mx }
  else { c with cmds := mput c.cmds m.id { m with st := .done, status := 11 } }

/-- The command whose turn it is in an engine queue: the first whose data part is not done. -/
def turnCmd (c : Core) (q : Nat) : Option Cmd :=
  ((c.queue q).filterMap fun e => match e with
    | .cmd i => mlook c.cmds i
    | .marker _ _ => none).find? fun m => m.st ≠ .done && m.st ≠ .completed

/-- R313: a call whose turn has come and that has passed steps 1 and 2 of R84 starts. -/
def execVerbCallStart (k : Nat) (s : State) : Out :=
  let c := core s k
  .next (match turnCmd c 0 with
    | some m => if engineRuns s k && m.opc = 0x20 && m.st = .started && c.mx.call.isNone then setCore s k (startCall c m) else s
    | none => s)

/-- The micro-word the engine reads next, if it is one (R315). -/
def nextMicro (c : Core) : Option Instr :=
  if 8191 < c.mx.upc then none else
  match decodeMicro (mget 0 c.lex c.mx.upc).toNat with
  | .ok i => some i
  | .error _ => none

/-- R315: an invalid micro-word, or a µ-PC past 8,191, ends the call with lexicon status. -/
def execInvalidMicroWord (k : Nat) (s : State) : Out :=
  let c := core s k
  .next (if c.mx.call.isSome && engineRuns s k && (nextMicro c).isNone then setCore s k (endCall c c.mx 12 0) else s)

/-! ## Control (R316) -/

/-- R313, R316: the call ends; FE under FET makes it a format error. -/
def execLxEnd (s : State) : Out :=
  .next (micro s fun _ cmd m => .stop m (if m.flags.getLsbD 5 && cmd.fet then 10 else 0) 0)
/-- R316: an engine increment, after the scratchpad writes of the words before it. -/
def execLxSig (sem : BitVec 8) (inc : BitVec 4) (s : State) : Out :=
  .next (if (callCmd (myCore s)).isNone then s else
    let t := micro s fun c _ m => .go c m
    semIncr (if inc = 0 then t else sink t s.cur.core) s.cur.core sem.toNat inc.toNat)
/-- R316. -/
def execLxSetk (k : BitVec 2) (src : KSrc) (s : State) : Out :=
  .next (micro s fun c _ m => .go c (m.setCtr k (match src with
    | .imm v => v
    | .m ms h _ => (m.mreg ms.toNat).extractLsb' (if h then 16 else 0) 16)))
/-- R316: modulo 2^16. -/
def execLxAddk (k : BitVec 2) (imm : BitVec 16) (s : State) : Out :=
  .next (micro s fun c _ m => .go c (m.setCtr k (m.ctr k + imm)))
/-- R316: a counter of 0 wraps and branches. -/
def execLxLoop (k : BitVec 2) (tgt : BitVec 13) (s : State) : Out :=
  .next (micro s fun c _ m =>
    let v := m.ctr k - 1
    if v ≠ 0 then .jump c (m.setCtr k v) tgt.toNat else .go c (m.setCtr k v))
/-- R316. -/
def execLxBr (k : BitVec 2) (cond : LxCond) (tgt : BitVec 13) (s : State) : Out :=
  .next (micro s fun c _ m =>
    let t := match cond with
      | .always => true
      | .zero => m.ctr k == 0
      | .nonzero => m.ctr k != 0
      | .bmrZero => m.bmr == 0
    if t then .jump c m tgt.toNat else .go c m)
/-- R316. -/
def execLxNop (s : State) : Out := .next (micro s fun c _ m => .go c m)

/-! ## Decoding operands (R114, R129, R317, R325) -/

/-- An F8 code as s × 2^x under group exponent g (R129); infinities and NaNs apart, a signalling NaN with `bits` = 1. -/
def f8El (e5 : Bool) (code : Nat) (g : Int) : LatEl :=
  let neg := code / 128 % 2 = 1
  let sg (n : Nat) : Int := if neg then -(n : Int) else n
  if e5 then
    let e := code / 4 % 32
    let m := code % 4
    if e = 31 then (if m = 0 then { s := sg 1, inf := true } else { nan := true, bits := if m < 2 then 1 else 0 })
    else if e = 0 then { s := sg m, x := -16 + g } else { s := sg (4 + m), x := (e : Int) - 17 + g }
  else
    let e := code / 8 % 16
    let m := code % 8
    if code % 128 = 127 then { nan := true }
    else if e = 0 then { s := sg m, x := -9 + g } else { s := sg (8 + m), x := (e : Int) - 10 + g }

/-- FTZ on a scaled element (R124, R129). -/
def LatEl.flush (ftz : Bool) (e : LatEl) : LatEl :=
  if ftz && e.s != 0 && !e.inf && decide (e.x + (Nat.log2 e.s.natAbs : Int) < -126) then { e with s := 0 } else e

/-- One position of a Q4X walk (R114, R129). -/
def q4El (g : Int) (v : QVal) : LatEl :=
  match v with
  | .small i => { s := i, x := g }
  | .code c => f8El false c g
  | .bad => { s := 0, x := g }

/-- A scale group of nibbles: its elements, poisoned together, and the flags of the walk (R114, R325). -/
def q4Group (ftz : Bool) (g : Int) (pois : Bool) (nib : List Nat) : List LatEl × Flags :=
  ((q4Walk nib).map fun v => { (q4El g v).flush ftz with poison := pois }, walkFlags nib)

/-- Word w of row r of a tile. -/
def rowWord (c : Core) (t r w : Nat) : Lane := tileWord c t (32 * r + w)
/-- `len` bits at bit `b` of a row; they lie in one word. -/
def rowBits (c : Core) (t r b len : Nat) : Nat := (rowWord c t r (b / 32)).v.toNat / 2 ^ (b % 32) % 2 ^ len
/-- Whether any word of bits lo to hi of a row is poisoned. -/
def rowPois (c : Core) (t r lo hi : Nat) : Bool :=
  (List.range (hi / 32 + 1 - lo / 32)).any fun i => (rowWord c t r (lo / 32 + i)).p

/-- A plain Q4X row's unit: the groups of 24 from the row's start that meet it, decoded whole (R113, R317). -/
def q4Unit (c : Core) (ftz : Bool) (g : Int) (t r : Nat) (hi : Bool) : List LatEl × Flags :=
  let (g0, n) := if hi then (5, 6) else (0, 6)
  let gs := (List.range n).map fun i =>
    let a := 24 * (g0 + i)
    let len := if g0 + i = 10 then 16 else 24
    q4Group ftz g (rowPois c t r (4 * a) (4 * (a + len) - 1)) ((List.range len).map fun j => rowBits c t r (4 * (a + j)) 4)
  let els := gs.flatMap (·.1)
  ((if hi then els.drop 8 else els.take 128), gs.foldl (fun f x => f ||| x.2) 0)

/-- A described block in a unit (R117-R120, R317, R325): n positions of `len` bits each from bit 16. For a block R325 names words 0 and 15
and the plane entry, and for Q4X any word of the scale group; that an element of a block is poisoned by every word of its own group too is
the model's choice (log entry 84). -/
def blockUnit (c : Core) (ftz q4 : Bool) (t r : Nat) (hi : Bool) : List LatEl × Flags :=
  let u := 2 * r + if hi then 1 else 0
  let base := if hi then 512 else 0
  let (pl, plp) := planeEnt c t u
  let code := rowBits c t r base 8
  let tr := pl.toNat / 2 ^ 8
  let ge (p : Nat) : Int := groupExp code (pl.toNat % 256) tr p
  let ends := plp || (rowWord c t r (base / 32)).p || (rowWord c t r (base / 32 + 15)).p
  let ok := if q4 then code == 0x18 else code == 0x10 || code == 0x11
  let len := if q4 then 4 else 8
  let own (p : Nat) : Bool := ends || (rowWord c t r ((base + 16 + len * p) / 32)).p
  if !ok then
    ((List.range (if q4 then 120 else 60)).map fun p => { dead := true, poison := own p }, flIf (code ≠ 0) flFE)
  else if q4 then
    let gs := (List.range 5).map fun k =>
      let a := base + 16 + 96 * k
      let nib := (List.range 24).map fun j => rowBits c t r (a + 4 * j) 4
      let (els, fl) := q4Group ftz (ge (24 * k)) (ends || rowPois c t r a (a + 95)) nib
      (els, fl ||| flIf (tr / 2 ^ 15 % 2 = 0 && q4HasMarker nib) flFE)
    (gs.flatMap (·.1), gs.foldl (fun f x => f ||| x.2) 0)
  else
    ((List.range 60).map fun p =>
      { (f8El (code == 0x11) (rowBits c t r (base + 16 + 8 * p) 8) (ge p)).flush ftz with poison := own p },
     flIf (tr / 2 ^ 6 % 2 ^ 10 ≠ 0) flFE)

/-- An F16 code widened exactly to F32, a NaN with its fraction in the highest places (R126, R134). -/
def widenF16 (h : Nat) : Nat :=
  if h / 2 ^ 10 % 32 = 31 then h / 2 ^ 15 * 2 ^ 31 + 0x7F800000 + h % 2 ^ 10 * 2 ^ 13 else toF32 fF16 h

/-- The elements of one unit of a row for an operand type of R310, in element order (R317). -/
def unitEls (c : Core) (ftz : Bool) (ty : Nat) (g : Int) (t r : Nat) (hi : Bool) : List LatEl × Flags :=
  let b := if hi then 512 else 0
  let plain (n len : Nat) (f : Nat → LatEl) : List LatEl × Flags :=
    ((List.range n).map fun p =>
      { f (rowBits c t r (b + len * p) len) with poison := (rowWord c t r ((b + len * p) / 32)).p }, 0)
  match ty with
  | 0 => plain 16 32 fun x => { bits := BitVec.ofNat 64 x }
  | 1 => plain 32 16 fun x => { bits := BitVec.ofNat 64 (x * 2 ^ 16) }
  | 2 => plain 32 16 fun x => { bits := BitVec.ofNat 64 (widenF16 x) }
  | 3 => ((List.range 8).map fun p =>
      let lo := rowWord c t r (b / 32 + 2 * p)
      let h := rowWord c t r (b / 32 + 2 * p + 1)
      { bits := BitVec.ofNat 64 (lo.v.toNat + 2 ^ 32 * h.v.toNat), poison := lo.p || h.p }, 0)
  | 4 => plain 64 8 fun x => (f8El false x g).flush ftz
  | 5 => plain 64 8 fun x => (f8El true x g).flush ftz
  | 6 => q4Unit c ftz g t r hi
  | 7 => blockUnit c ftz true t r hi
  | 8 => blockUnit c ftz false t r hi
  | _ => plain 512 1 fun x => { bits := BitVec.ofNat 64 x }

/-- R317: fills one latch. -/
def execLxFetch (t : BitVec 6) (ti : TileIx) (b : Bool) (u : LxUnit) (ms : BitVec 3) (mb : BitVec 2) (s : State) : Out :=
  .next (micro s fun c cmd m =>
    match m.tileNo t ti with
    | none => .stop m 11 0
    | some n =>
      let ty := m.f0 (if b then 4 else 0) 4
      let g : Int := sext 8 ((m.mreg ms.toNat).toNat / 2 ^ (8 * mb.toNat))
      let row (r : Nat) : List LatEl × Flags :=
        match u with
        | .lo => unitEls c cmd.ftz ty g n r false
        | .hi => unitEls c cmd.ftz ty g n r true
        | .both => let x := unitEls c cmd.ftz ty g n r false
                   let y := unitEls c cmd.ftz ty g n r true
                   (x.1 ++ y.1, x.2 ||| y.2)
      let rs := (List.range (if b then m.cols else m.rows)).map fun r => (r, row r)
      let lat : FMap LatEl := rs.flatMap fun (r, els, _) => els.mapIdx fun i e => (1024 * r + i, e)
      let cnt := match rs with
        | (_, els, _) :: _ => els.length
        | [] => 0
      let m := { m with flags := rs.foldl (fun f (x : Nat × List LatEl × Flags) => f ||| x.2.2) m.flags }
      .go c (if b then { m with lb := lat, lbN := cnt } else { m with la := lat, laN := cnt }))

/-- R318: loads the 2:4 selector. -/
def execLxSel (t : BitVec 6) (ti : TileIx) (hi : Bool) (s : State) : Out :=
  .next (micro s fun c _ m =>
    match m.tileNo t ti with
    | none => .stop m 11 0
    | some n =>
      if m.f0 14 1 = 0 then .stop m 11 0 else
      let rows : FMap Lane := (List.range m.rows).flatMap fun r => (List.range 16).map fun w =>
        (16 * r + w, rowWord c n r ((if hi then 16 else 0) + w))
      .go c { m with sr := rows })

/-- R319: loads the live-column bitmap. -/
def execLxSkip (src : SkipSrc) (tgt : BitVec 13) (s : State) : Out :=
  .next (micro s fun c _ m =>
    let put (m : Mx) (v : W32) (p : Bool) : MxRes :=
      let m := { m with bmr := v, bmrPois := p }
      if v = 0 then .jump c m tgt.toNat else .go c m
    match src with
    | .m ms => put m (m.mreg ms.toNat) false
    | .tile t ti wd =>
      match m.tileNo t ti with
      | none => .stop m 11 0
      | some n => let x := tileWord c n wd.toNat; if x.p then put m 0xFFFFFFFF true else put m x.v false)

/-! ## Products (R318-R321, R325) -/

/-- An expanded position is live (R319). -/
def Mx.live (m : Mx) (k : Nat) : Bool := m.f0 15 1 = 0 || m.bmr.getLsbD (k / 16)
def Mx.laAt (m : Mx) (i k : Nat) : LatEl := mget {} m.la (1024 * i + k)
def Mx.lbAt (m : Mx) (j k : Nat) : LatEl := mget {} m.lb (1024 * j + k)

/-- What row i of A brings to the live positions below `kn`: the elements with their positions, whether a poisoned
selector, bitmap or unused stored value was met, and whether a malformed quad was (R318). -/
structure ARow where
  els : List (Nat × LatEl)
  pois : Bool
  bad : Bool
  deriving DecidableEq, Repr

/-- R318, R319. -/
def Mx.aRow (m : Mx) (kn i : Nat) : ARow :=
  let bm := m.f0 15 1 = 1 && m.bmrPois
  if m.f0 14 1 = 0 then
    ⟨((List.range kn).filter m.live).map fun k => (k, m.laAt i k), bm, false⟩
  else
    ((List.range (kn / 4)).filter fun q => m.live (4 * q)).foldl (fun r q =>
      let w := mget {} m.sr (16 * i + q / 8)
      let nib := w.v.toNat / 2 ^ (4 * (q % 8)) % 16
      let i0 := nib % 4
      let i1 := nib / 4
      let a0 := m.laAt i (2 * q)
      let a1 := m.laAt i (2 * q + 1)
      if i0 < i1 then ⟨r.els ++ [(4 * q + i0, a0), (4 * q + i1, a1)], r.pois || w.p, r.bad⟩
      else ⟨r.els, r.pois || w.p || a0.poison || a1.poison, true⟩) ⟨[], bm, false⟩

/-- Checks on KN (R320). -/
def Mx.knOk (m : Mx) (kn : Nat) : Bool :=
  let s24 := m.f0 14 1 = 1
  kn ≤ (if s24 then 2 * m.laN else m.laN) && kn ≤ m.lbN && (!s24 || kn % 4 == 0)

/-- A pair of block-mode elements whose product is a finite term (R320, R321). -/
def plainPair (a b : LatEl) : Bool := !(a.inf || a.nan || b.inf || b.nan || a.dead || b.dead)

/-- Entries (i, j) of the call in row order. -/
def Mx.entries (m : Mx) : List (Nat × Nat) :=
  (List.range m.rows).flatMap fun i => (List.range m.cols).map fun j => (i, j)

/-- R320: scans exponents. -/
def execLxScan (kn1 : BitVec 10) (s : State) : Out :=
  .next (micro s fun c _ m =>
    let kn := kn1.toNat + 1
    if m.mode ≠ modeBlock || !m.knOk kn then .stop m 11 0 else
    let rows := (List.range m.rows).map (m.aRow kn)
    let xe := m.entries.foldl (fun xe (i, j) =>
      let r := rows.getD i ⟨[], false, false⟩
      r.els.foldl (fun xe (k, a) =>
        let b := m.lbAt j k
        if plainPair a b then
          let p := a.x + b.x
          (match mlook xe (32 * i + j) with
          | some e => if e < p then mput xe (32 * i + j) p else xe
          | none => mput xe (32 * i + j) p)
        else xe) xe) m.xe
    .go c { m with xe := xe, flags := m.flags ||| flIf (rows.any (·.bad)) flFE })

/-- The exponent that admits products into an entry (R321). -/
def eAcc (e : AccEnt) (xe : Option Int) : Option Int :=
  if e.empty then xe else some (match xe with
    | some x => if e.e < x then x else e.e
    | none => e.e)

/-- A special product on an entry's special bits (R132): PINF, NINF, NAN and flags. -/
def specialTerm (x : AccEnt × Flags) (a b : LatEl) : AccEnt × Flags :=
  let (e, fl) := x
  if a.nan || b.nan then
    ({ e with nan := true }, fl ||| flIf ((a.nan && a.bits != 0) || (b.nan && b.bits != 0)) flNV)
  else
    let zero (y : LatEl) : Bool := !y.inf && (y.dead || y.s == 0)
    if zero a || zero b then ({ e with nan := true }, fl ||| flNV)
    else if (decide (a.s < 0)) == (decide (b.s < 0)) then ({ e with pinf := true }, fl)
    else ({ e with ninf := true }, fl)

/-- Floor(p × 2^k) (R130). -/
def floorShift (p : Int) (k : Int) : Int := if 0 ≤ k then p * (2 ^ k.toNat : Nat) else p / (2 ^ (-k).toNat : Nat)

/-- Block-mode terms of one entry: its special bits and the addition to S (R130, R321). -/
def blockTerms (m : Mx) (ea : Int) (j : Nat) (r : ARow) (e : AccEnt) : AccEnt × Flags × Int :=
  r.els.foldl (fun (e, fl, sum) (k, a) =>
    let b := m.lbAt j k
    if a.inf || a.nan || b.inf || b.nan then let (e, fl) := specialTerm (e, fl) a b; (e, fl, sum)
    else if a.dead || b.dead then (e, fl, sum)
    else (e, fl, sum + floorShift (a.s * b.s) (a.x + b.x - ea + 96))) (e, 0, 0)

/-- One FMA of an F32 sum (R134). -/
def fmaStep (ftz : Bool) (a b : Nat) (x : Nat × Flags) : Nat × Flags :=
  let (r, fl) := fFma fF32 { ftz := ftz } a b x.1
  (r, x.2 ||| fl)

/-- The F32, C32 or INT products of one entry added to its V, in ascending position (R134, R321). -/
def plainTerms (m : Mx) (ftz : Bool) (j : Nat) (r : ARow) (v : Nat) : Nat × Flags :=
  if m.mode = modeF32 then
    r.els.foldl (fun x (k, a) => fmaStep ftz a.bits.toNat (m.lbAt j k).bits.toNat x) (v, 0)
  else if m.mode = modeC32 then
    r.els.foldl (fun (v, fl) (k, a) =>
      let b := (m.lbAt j k).bits.toNat
      let ar := a.bits.toNat % 2 ^ 32
      let ai := a.bits.toNat / 2 ^ 32
      let br := b % 2 ^ 32
      let bi := b / 2 ^ 32
      let re := fmaStep ftz (fF32.neg ai) bi (fmaStep ftz ar br (v % 2 ^ 32, fl))
      let im := fmaStep ftz ai br (fmaStep ftz ar bi (v / 2 ^ 32, re.2))
      (re.1 + 2 ^ 32 * im.1, im.2)) (v, 0)
  else
    (r.els.foldl (fun v (k, a) =>
      let x := a.bits.getLsbD 0
      let y := (m.lbAt j k).bits.getLsbD 0
      if (if m.f0 12 2 = 0 then x != y else x && y) then v + 1 else v) v, 0)

/-- One entry after lx.mac: entry, flags, S. -/
def macEntry (m : Mx) (ftz : Bool) (i j : Nat) (r : ARow) (e : AccEnt) : AccEnt × Flags × Int :=
  let pois := e.poison || r.pois || r.els.any fun (k, a) => a.poison || (m.lbAt j k).poison
  let s := mget 0 m.sum (32 * i + j)
  if m.mode = modeBlock then
    let (e', fl, d) := blockTerms m ((eAcc e (mlook m.xe (32 * i + j))).getD 0) j r e
    ({ e' with poison := pois }, fl, s + d)
  else if r.els.isEmpty then ({ e with poison := pois }, 0, s)
  else
    let (v, fl) := plainTerms m ftz j r (if e.empty then 0 else e.v.toNat)
    ({ e with v := BitVec.ofNat 128 v, empty := false, poison := pois }, fl, s)

/-- Every block-mode product of an entry is admitted (R321). -/
def admitted (m : Mx) (i j : Nat) (r : ARow) (e : AccEnt) : Bool :=
  r.els.all fun (k, a) =>
    let b := m.lbAt j k
    !plainPair a b || match eAcc e (mlook m.xe (32 * i + j)) with
      | some x => decide (a.x + b.x ≤ x)
      | none => false

/-- R321: adds the products. -/
def execLxMac (kn1 : BitVec 10) (s : State) : Out :=
  .next (micro s fun c cmd m =>
    let kn := kn1.toNat + 1
    if !m.knOk kn then .stop m 11 0 else
    let rows := (List.range m.rows).map (m.aRow kn)
    let row (i : Nat) := rows.getD i ⟨[], false, false⟩
    if m.mode = modeBlock && !(m.entries.all fun (i, j) => admitted m i j (row i) (accEnt c m.accNo i j)) then .stop m 11 0 else
    let (c, m') := m.entries.foldl (fun (c, m') (i, j) =>
      let (e, fl, sum) := macEntry m cmd.ftz i j (row i) (accEnt c m.accNo i j)
      (setAcc c m.accNo i j e, { m' with sum := mset 0 m'.sum (32 * i + j) sum, flags := m'.flags ||| fl })) (c, m)
    .go c { m' with flags := m'.flags ||| flIf (rows.any (·.bad)) flFE })

/-- R130, R131, R322: a sum closed into an entry. -/
def closeEntry (e : AccEnt) (xe : Option Int) (sum : Int) : AccEnt × Flags :=
  if xe.isNone && (e.empty || sum == 0) then (e, 0) else
  let ea := (eAcc e xe).getD 0
  let v := (if e.empty then 0 else floorShift e.v.toInt (e.e - ea)) + sum
  let top : Int := (2 ^ 127 : Nat)
  let (v', fl) := if top - 1 < v then (top - 1, flOF) else if v < -top then (-top, flOF) else (v, 0)
  ({ e with v := BitVec.ofInt 128 v', e := ea, empty := false }, fl)

/-- R322. -/
def execLxAcc (s : State) : Out :=
  .next (micro s fun c _ m =>
    if m.mode ≠ modeBlock then .go c m else
    let (c, fl) := m.entries.foldl (fun (c, fl) (i, j) =>
      let (e, g) := closeEntry (accEnt c m.accNo i j) (mlook m.xe (32 * i + j)) (mget 0 m.sum (32 * i + j))
      (setAcc c m.accNo i j e, fl ||| g)) (c, m.flags)
    .go c { m with sum := [], xe := [], flags := fl })

/-! ## Read-out (R133, R323, R324) -/

/-- A block-mode entry read out to F32 (R133). -/
def readBlock (ftz : Bool) (e : AccEnt) (k : Int) : Nat × Flags :=
  if e.nan then (fF32.canon, flIf (e.pinf && e.ninf) flNV)
  else if e.pinf && e.ninf then (fF32.canon, flNV)
  else if e.pinf then (fF32.infBits false, 0)
  else if e.ninf then (fF32.infBits true, 0)
  else if e.empty then (0, 0)
  else fF32.round { ftz := ftz } (decide (e.v.toInt < 0)) e.v.toInt.natAbs (e.e - 96 + k) false |> fun (r, fl) =>
    (if e.v = 0 then 0 else r, fl)

/-- An F32 scaled by 2^k, nearest even (R323). -/
def scaleF32 (ftz : Bool) (a : Nat) (k : Int) : Nat × Flags := encodeFv fF32 { ftz := ftz } a ((flushIn ftz (fF32.decode a)).scale k)

/-- OL of an entry (R323). -/
def readEntry (mode : Nat) (ftz : Bool) (e : AccEnt) (k : Int) : Nat × Flags :=
  if mode = modeBlock then readBlock ftz e k
  else if mode = modeF32 then (if e.empty then (0, 0) else scaleF32 ftz (e.v.toNat % 2 ^ 32) k)
  else if mode = modeC32 then
    if e.empty then (0, 0) else
    let (r, f) := scaleF32 ftz (e.v.toNat % 2 ^ 32) k
    let (i, g) := scaleF32 ftz (e.v.toNat / 2 ^ 32 % 2 ^ 32) k
    (r + 2 ^ 32 * i, f ||| g)
  else (e.v.toNat, 0)

/-- R323. -/
def execLxCvt (ei : BitVec 8) (mu : Bool) (ms : BitVec 3) (clr : Bool) (s : State) : Out :=
  .next (micro s fun c cmd m =>
    let k : Int := ei.toInt + if mu then sext 8 (m.mreg ms.toNat).toNat else 0
    let (c, m) := m.entries.foldl (fun (c, m) (i, j) =>
      let e := accEnt c m.accNo i j
      let (v, fl) := readEntry m.mode cmd.ftz e k
      (if clr then setAcc c m.accNo i j {} else c,
       { m with ol := mset (0, false) m.ol (32 * i + j) (BitVec.ofNat 64 v, e.poison), flags := m.flags ||| fl })) (c, m)
    .go c m)

/-- Bytes of an output element (R324). -/
def woutBytes : WoutFmt → Nat
  | .f32 | .i32 => 4
  | .b16 | .f16 => 2
  | .f8e4 | .f8e5 => 1
  | .c32 => 8

/-- A format suits a mode (R324). -/
def woutOk (mode : Nat) (f : WoutFmt) : Bool :=
  match f with
  | .f32 => mode == modeBlock || mode == modeF32 || mode == modeInt
  | .b16 | .f16 | .f8e4 | .f8e5 => mode == modeBlock || mode == modeF32
  | .c32 => mode == modeC32
  | .i32 => mode == modeInt

/-- OL converted to a format with the call's RM (R127, R324). -/
def woutConv (mode : Nat) (f : WoutFmt) (env : REnv) (v : Nat) : Nat × Flags :=
  match f with
  | .f32 => if mode = modeInt then cvtFromInt fF32 { env with mode := .rm 0 } v else (v % 2 ^ 32, 0)
  | .b16 => cvtFloat fF32 fB16 env v
  | .f16 => cvtFloat fF32 fF16 env v
  | .f8e4 => cvtFloat fF32 fF8E4 env v
  | .f8e5 => cvtFloat fF32 fF8E5 env v
  | .i32 => if 2 ^ 31 - 1 < v then (2 ^ 31 - 1, flOF) else (v, 0)
  | .c32 => (v, 0)

/-- Bytes from an address cut into aligned words: mask, data and whether a byte of the word is poisoned. -/
def quads : List (Option (Byte × Bool)) → List (BitVec 4 × W32 × Bool)
  | [] => []
  | a :: r =>
    let one (o : Option (Byte × Bool)) (i : Nat) : BitVec 4 × W32 × Bool :=
      match o with
      | some (b, p) => (BitVec.ofNat 4 (2 ^ i), BitVec.ofNat 32 (b.toNat * 2 ^ (8 * i)), p)
      | none => (0, 0, false)
    let join (x y : BitVec 4 × W32 × Bool) : BitVec 4 × W32 × Bool := (x.1 ||| y.1, x.2.1 ||| y.2.1, x.2.2 || y.2.2)
    match r with
    | [] => [one a 0]
    | [b] => [join (one a 0) (one b 1)]
    | [b, c] => [join (join (one a 0) (one b 1)) (one c 2)]
    | b :: c :: d :: r => join (join (one a 0) (one b 1)) (join (one c 2) (one d 3)) :: quads r

/-- The words that bytes stored at `a` touch: word number, mask, data, poison. -/
def byteWords (a : Nat) (bs : List (Byte × Bool)) : List (Nat × BitVec 4 × W32 × Bool) :=
  (quads (List.replicate (a % 4) none ++ bs.map some)).mapIdx fun i x => (a / 4 + i, x)

/-- A word after some of its bytes are written, with the poison rule of R277. -/
def putPart (old : Lane) (x : BitVec 4 × W32 × Bool) : Lane := ⟨mergeW old.v x.2.1 x.1, x.2.2 || (x.1 ≠ 15 && old.p)⟩

/-- Bytes written at a scratchpad offset (R277). -/
def spmBytes (c : Core) (a : Nat) (bs : List (Byte × Bool)) : Core :=
  (byteWords a bs).foldl (fun c (w, x) => setSpm c w (putPart (spmWord c w) x)) c

/-- Bytes written in a tile, the plane untouched. -/
def tileBytes (c : Core) (t a : Nat) (bs : List (Byte × Bool)) : Core :=
  (byteWords a bs).foldl (fun c (w, x) => { c with tile := mset {} c.tile (1024 * t + w) (putPart (tileWord c t w) x) }) c

/-- Plane entries of the units that a byte range of a tile meets, cleared (R306). -/
def clearPlane (c : Core) (t a n : Nat) : Core :=
  if n = 0 then c else
  (List.range ((a + n - 1) / 64 + 1 - a / 64)).foldl (fun c i =>
    { c with plane := mset (0, false) c.plane (64 * t + a / 64 + i) (0, false) }) c

/-- Row i of OL as bytes in a format, with flags (R324). -/
def woutRow (m : Mx) (f : WoutFmt) (env : REnv) (i : Nat) : List (Byte × Bool) × Flags :=
  (List.range m.cols).foldl (fun (bs, fl) j =>
    let (v, p) := mget (0, false) m.ol (32 * i + j)
    let (x, g) := woutConv m.mode f env v.toNat
    (bs ++ (List.range (woutBytes f)).map (fun b => (BitVec.ofNat 8 (x / 2 ^ (8 * b)), p)), fl ||| g)) ([], 0)

/-- R324: writes the read-out latch; the whole range is checked first. Rows are written in ascending order: where their pitch makes them
overlap, an order that the manual does not give, the later row stands (log entry 73). Where the range leaves the scratchpad, R291 names no VA;
ENG_EVA records the lowest offset outside it: that is the model's choice (log entry 84). -/
def execLxWout (dst : WoutDst) (fmt : WoutFmt) (sat : Bool) (rp : BitVec 6) (s : State) : Out :=
  .next (micro s fun c cmd m =>
    if !woutOk m.mode fmt then .stop m 11 0 else
    let pitch := 64 * (rp.toNat + 1)
    let len := m.cols * woutBytes fmt
    let span := if pitch * (m.rows - 1) + len < len then len else pitch * (m.rows - 1) + len
    let env : REnv := { mode := .rm cmd.rm, ftz := cmd.ftz, sat := sat }
    let rows := (List.range m.rows).map fun i => (i, woutRow m fmt env i)
    let m' := { m with flags := rows.foldl (fun f x => f ||| x.2.2) m.flags }
    match dst with
    | .spm ms =>
      let base := (m.mreg ms.toNat).toNat
      if c.spmSize < base + span then .stop m 2 (if base < c.spmSize then c.spmSize else base) else
      .go (rows.foldl (fun c (i, bs, _) => spmBytes c (base + i * pitch) bs) c) m'
    | .tile t ti =>
      match m.tileNo t ti with
      | none => .stop m 11 0
      | some n =>
        if 4096 < span then .stop m 11 0 else
        .go (rows.foldl (fun c (i, bs, _) => clearPlane (tileBytes c n (i * pitch) bs) n (i * pitch) len) c) m')

end Sys2Proof.Machine
end

