-- ==== Sys2Proof/Machine/EngineRun.lean ====
section
/-! DEFINITION. The engines at work: the steps of R84, transfers (R292-R296), reductions (R297, R352-R354), tile moves
(R35-R37, R295, R301), arming (R298, R299), and remote parts with handler starts (R178, R293). -/
namespace Sys2Proof.Machine

/-! ## Commands in progress -/

/-- Changes a command. -/
def modCmd (s : State) (k id : Nat) (f : Cmd → Cmd) : State :=
  modCore s k fun c => match mlook c.cmds id with
    | none => c
    | some m => { c with cmds := mput c.cmds id (f m) }

/-- Step 3 or 4 ends with a status; a failed command performs no remote part (R293). -/
def finish (s : State) (k : Nat) (m : Cmd) (status eva : Nat) : State :=
  modCmd s k m.id fun m => { m with st := .done, passed := true, status := if m.status = 0 then status else m.status, eva := eva }

/-- The command's own source of writes. -/
def cmdSrc (k : Nat) (m : Cmd) : WSrc := .cmd k m.q m.id

/-- Writes of a command that are on their way to peers. -/
def peerLeft (s : State) (k : Nat) (m : Cmd) : Nat := (s.peerOut.filter fun o => o.src = cmdSrc k m).length

/-- Words of a transfer control word XCTL (R293). -/
def xHS (x : Word) : Bool := bit x 63
def xRS (x : Word) : Bool := bit x 57
def xLen (x : Word) : Nat := bits x 0 22

/-! ## Translation by an engine (R29) -/

/-- Where an engine's access goes. -/
inductive ETr where
  | at_ (pa : Nat) (a : Attr)
  | walk (w : Walk)
  | stop (status : Nat)
  deriving DecidableEq, Repr

/-- One page part of a command's access: faults that a cached translation shows are fault status, others pend (R29). -/
def engTr (s : State) (k : Nat) (m : Cmd) (va : Nat) (write flash : Bool) : ETr :=
  let kind := if write then AccKind.engWrite else AccKind.engRead
  if 2 ^ 56 ≤ va then .stop 2 else
  match translate s k va kind m.system flash with
  | .ok pa a => .at_ pa a
  | .trap _ => .stop 2
  | .walk => .walk { core := k, idx := 32 + m.q, ctx := (core s k).ctx, va := va, kind := kind, system := m.system, opt := flash, pc := m.pc, slot := m.id }

/-- A range cut at 64 KiB boundaries: start and length of each part. -/
def pageCuts (va n : Nat) : List (Nat × Nat) :=
  if n = 0 then [] else
  (List.range ((va + n - 1) / 65536 + 1 - va / 65536)).map fun i =>
    let a := if i = 0 then va else (va / 65536 + i) * 65536
    let e := (va / 65536 + i + 1) * 65536
    (a, (if e < va + n then e else va + n) - a)

/-- A part of a range on one page, translated. -/
structure Part where
  va : Nat
  pa : Nat
  n : Nat
  a : Attr
  deriving DecidableEq, Repr

/-- All parts of some ranges translated, or the first that does not translate. -/
def engTrAll (s : State) (k : Nat) (m : Cmd) (write flash : Bool) : List (Nat × Nat) → Except (ETr × Nat) (List Part)
  | [] => .ok []
  | (va, n) :: r =>
    match engTr s k m va write flash with
    | .at_ pa a => match engTrAll s k m write flash r with
      | .ok l => .ok (⟨va, pa, n, a⟩ :: l)
      | .error e => .error e
    | e => .error (e, va)

/-! ## Flash pages (R101-R104) -/

/-- Handles of a tier whose range holds a page and that are not Free: handle and control word. -/
def handlesOf (s : State) (t n : Nat) : List (Nat × Word) :=
  ((List.range 64).map fun h => (h, rdReg s (.fahCtl t h))).filter fun (_, v) => bits v 62 2 ≠ 0 && bits v 0 29 ≤ n && n ≤ bits v 29 29

/-- Status of reading a page of a tier: 0, unwritten or uncorrectable (R101, R103). -/
def flashPageSt (s : State) (t n : Nat) : Nat :=
  if !mget false s.flashW (t * 2 ^ 29 + n) then 9
  else if (handlesOf s t n).any fun (h, v) =>
      let p := rdReg s (.fahPtr t h)
      if bits v 62 2 = 2 then decide (bits p 0 30 ≤ n) else decide (bits p 30 30 ≤ n) then 9
  else if (List.range 1024).any fun i => mget false s.bad ((2 ^ 48 + t * 2 ^ 41 + n * 4096) / 4 + i) then 5
  else 0

/-- Status of reading a flash range, and the offset in it of the first page that fails. -/
def flashRange (s : State) (pa n : Nat) : Nat × Nat :=
  let t := pa / 2 ^ 41 % 4
  let p0 := pa % 2 ^ 41 / 4096
  ((List.range ((pa % 2 ^ 41 + n - 1) / 4096 + 1 - p0)).findSome? fun i =>
    let st := flashPageSt s t (p0 + i)
    if st = 0 then none else some (st, 4096 * i - pa % 4096)).getD (0, 0)

/-- Bytes of flash; the cells where two ranges overlap hold free values (R104). -/
def flashBytes (s : State) (pa n : Nat) : State × List (Byte × Bool) :=
  let t := pa / 2 ^ 41 % 4
  let twice (a : Nat) : Bool := 1 < (handlesOf s t (a % 2 ^ 41 / 4096)).length
  ({ s with fresh := s.fresh + n },
   (List.range n).map fun i => (if twice (pa + i) then Config.flashOverlap (s.fresh + i) else rdByte s (pa + i), false))

/-! ## Reading and writing physical ranges (R50, R52, R84) -/

/-- Why a read at the home gives no data, and at which word. -/
inductive RErr where
  | wait (w : Nat)
  | lost (w : Nat)
  | bad (w : Nat)
  deriving DecidableEq, Repr

/-- One word read by an engine: a device register or the word at its home. -/
def engWord (s : State) (port w : Nat) : Except RErr (State × Lane) :=
  if spaceOf (4 * w) = 2 then
    let (s, v) := regWord s w
    .ok (s, ⟨v, false⟩)
  else match homeRead s w port with
    | .value x => .ok (s, x)
    | .wait => .error (.wait w)
    | .ownerLost => .error (.lost w)
    | .bad => .error (.bad w)

/-- Words read in order. -/
def engWords (s : State) (port : Nat) : List Nat → Except RErr (State × List Lane)
  | [] => .ok (s, [])
  | w :: r => match engWord s port w with
    | .error e => .error e
    | .ok (s, x) => match engWords s port r with
      | .error e => .error e
      | .ok (s, xs) => .ok (s, x :: xs)

/-- Bytes of words, each with its word's poison bit. -/
def lanesToBytes (xs : List Lane) : List (Byte × Bool) :=
  xs.flatMap fun x => (List.range 4).map fun i => (BitVec.ofNat 8 (x.v.toNat / 2 ^ (8 * i)), x.p)

/-- Bytes of a physical range. -/
def engRead (s : State) (k pa n : Nat) : Except RErr (State × List (Byte × Bool)) :=
  if isFlashPa pa then .ok (flashBytes s pa n) else
  let ws := (List.range ((pa % 4 + n + 3) / 4)).map fun i => pa / 4 + i
  match engWords s (retOf k) ws with
  | .error e => .error e
  | .ok (s, xs) => .ok (touchReads s (ws.filter fun w => isHbm (4 * w)), ((lanesToBytes xs).drop (pa % 4)).take n)

/-- Bytes of several parts, joined; an error with the VA it stands at. -/
def engReads (s : State) (k : Nat) : List Part → Except (RErr × Nat) (State × List (Byte × Bool))
  | [] => .ok (s, [])
  | p :: r => match engRead s k p.pa p.n with
    | .error e => .error (e, match e with
      | .wait _ => p.va
      | .lost w => p.va + (4 * w - p.pa)
      | .bad w => p.va + (4 * w - p.pa))
    | .ok (s, bs) => match engReads s k r with
      | .error e => .error e
      | .ok (s, cs) => .ok (s, bs ++ cs)

/-- Bytes of a scratchpad range. -/
def spmRead (c : Core) (a n : Nat) : List (Byte × Bool) :=
  ((lanesToBytes ((List.range ((a % 4 + n + 3) / 4)).map fun i => spmWord c (a / 4 + i))).drop (a % 4)).take n

/-- A write of the same queue to words lo to hi has still to perform (R180). -/
def queueWrites (s : State) (k q lo hi : Nat) : Bool :=
  (s.net ++ s.held).any fun m => match m with
    | .homeWrite h => (match h.src with
      | .cmd a b _ => a = k && b = q && lo ≤ h.w && h.w ≤ hi
      | _ => false)
    | .orderedContribution o => (match o.src with
      | .cmd a b _ => a = k && b = q && o.words.any fun w => lo ≤ w && w ≤ hi
      | _ => false)
    | _ => false

/-- What a register will read as once the writes on their way to it are performed (R11). -/
def regSoon (s : State) (pa : Nat) : Word :=
  s.net.foldl (fun v i => match i with
    | .registerWrite a x => if a = pa then (v &&& ~~~x.mask) ||| (x.v &&& x.mask) else v
    | _ => v) (match readAt s pa with
    | some r => regValue s r
    | none => 0)

/-- One word of an engine's write to device registers: its bits join those of the same register (R11, R36, R297; log entry 14). -/
def addPut (s : State) (l : List (Nat × RegPut)) (h : HomeWr) : List (Nat × RegPut) :=
  let pa := 4 * h.w / 8 * 8
  let lo := 32 * (h.w % 2)
  let mask : W32 := match h.op with
    | .write => mergeW 0 (-1) h.mask
    | .bits m => m
    | .combine _ _ _ => -1
  let x := (hwValue h ⟨BitVec.ofNat 32 (bits (regSoon s pa) lo 32), false⟩).1
  let put : RegPut := ⟨setBits 0 lo 32 x.v.toNat, setBits 0 lo 32 mask.toNat, h.src⟩
  match l.getLast? with
  | some (a, y) => if a = pa then l.dropLast ++ [(pa, ⟨(y.v &&& ~~~put.mask) ||| (put.v &&& put.mask), y.mask ||| put.mask, h.src⟩)] else l ++ [(pa, put)]
  | none => [(pa, put)]

/-- Home writes of some words of a physical range leave the engine: messages to homes, one peer write, or register writes
(R52, R87). -/
def engPut (s : State) (k : Nat) (m : Cmd) (pa : Nat) (ws : List (Nat × BitVec 4 × W32 × Bool)) (op : W32 → HomeOp) (full : Nat → W32) : State :=
  let src := cmdSrc k m
  let hs := ws.map fun (w, mask, v, p) => (⟨w, mask, v, p, op (full w), src⟩ : HomeWr)
  let s := sink s k
  if hs.isEmpty then s
  else
  let s := modCmd s k m.id fun m => { m with dest := if m.dest.isSome then m.dest else some (if isPeerPa pa then peerPod pa else 64) }
  if isPeerPa pa then
    peerWrite (modCmd s k m.id fun m => { m with left := m.left + 1 }) (peerPod pa)
      (.words (hs.map fun h => { h with w := peerWord (4 * h.w) })) src
  else if spaceOf pa = 2 then
    let ps := hs.foldl (addPut s) []
    { modCmd s k m.id fun m => { m with left := m.left + ps.length } with net := s.net ++ ps.map fun x => .registerWrite x.1 x.2 }
  else
    let s := modCmd s k m.id fun m => { m with left := m.left + hs.length }
    { s with net := s.net ++ hs.map Instr.homeWrite }

/-- Bytes written to a physical range. -/
def engWrite (s : State) (k : Nat) (m : Cmd) (pa : Nat) (bs : List (Byte × Bool)) : State :=
  engPut s k m pa (byteWords pa bs) (fun _ => .write) fun _ => 0

/-- Joined bytes written to several physical ranges in order. -/
def engWrites (s : State) (k : Nat) (m : Cmd) : List Part → List (Byte × Bool) → State
  | [], _ => s
  | p :: r, bs => engWrites (engWrite s k m p.pa (bs.take p.n)) k m r (bs.drop p.n)

/-- What a stopped access does to its command: a walk begins, the command waits, or it ends with a status. -/
def engStop (s : State) (k : Nat) (m : Cmd) (e : ETr) (va : Nat) : State :=
  match e with
  | .at_ _ _ => s
  | .walk w => startWalk s w
  | .stop st => finish s k m st va

/-- An error of a read: owner lost, or uncorrectable (R59, R107, R291). -/
def engErr (s : State) (k : Nat) (m : Cmd) (e : RErr) (va : Nat) : State :=
  match e with
  | .wait w => ownAsk s w
  | .lost w => match homeFind s w with
    | .lost path id cause => finish (loseWord s w path id cause) k m 4 va
    | _ => s
  | .bad w => finish (countErrors (logUnc { s with pois := if mget false s.bad w then mset false s.pois w true else s.pois } w [BitVec.ofNat 64 w])) k m 5 va

/-- The task and buffer charged for an engine's access (R105). -/
def engCharge (s : State) (k va : Nat) (a : Attr) : Option (Nat × Nat) := (core s k).task.map fun t => (t, bufferOf (core s k) va a)

/-- The lines of a part are used at their homes (R105). -/
def useLines (s : State) (k : Nat) (p : Part) (write : Bool) : State :=
  if !isHbm p.pa || p.n = 0 then s else
  (List.range ((p.pa + p.n - 1) / 128 + 1 - p.pa / 128)).foldl (fun s i =>
    l2Use s (128 * (p.pa / 128 + i)) (engCharge s k p.va p.a) write) s

/-- The parts of a source are charged: each flash page once, whole (R101, R105); `seen` was charged before. -/
def chargeSource (s : State) (k : Nat) (seen : Option Nat) (ps : List Part) : State :=
  (ps.foldl (fun ((s, seen) : State × List Nat) p =>
    if !isFlashPa p.pa then (useLines s k p false, seen) else
    let pages := ((List.range ((p.pa + p.n + 4095) / 4096 - p.pa / 4096)).map fun i => p.pa / 4096 + i).filter fun x => !seen.contains x
    (chargeBytes s k (bufferOf (core s k) p.va p.a) (4096 * pages.length), seen ++ pages)) (s, seen.toList)).1

/-! ## Address-kind transfers (R292-R294) -/

/-- Bytes from an address to the end of its 64 KiB page; a scratchpad end has no page. -/
def toPage (global : Bool) (a n : Nat) : Nat := if global then (if 65536 - a % 65536 < n then 65536 - a % 65536 else n) else n

/-- Ranges in ascending order of address. -/
def insertRange (x : Nat × Nat) : List (Nat × Nat) → List (Nat × Nat)
  | [] => [x]
  | y :: r => if x.1 ≤ y.1 then x :: y :: r else y :: insertRange x r
def byAddress (l : List (Nat × Nat)) : List (Nat × Nat) := l.foldr insertRange []

/-- The first flash page of some parts that cannot be read: its status and VA (R101, R291). -/
def flashFault (s : State) (ps : List Part) : Option (Nat × Nat) :=
  ps.findSome? fun p =>
    if !isFlashPa p.pa then none else
    let (st, o) := flashRange s p.pa p.n
    if st = 0 then none else some (st, p.va + o)

/-- A source of which some page lies in flash, as far as the tables show. -/
def someFlash (s : State) (k : Nat) (cuts : List (Nat × Nat)) : Bool :=
  cuts.any fun (va, _) => va < 2 ^ 56 && match peekPage s k va with
    | .at_ pa _ => isFlashPa pa
    | _ => false

/-- A source with flash pages is translated whole and its pages are checked before anything moves: nothing is written where one fails, and each
page touched is charged (R21, R29, R101). None where the command may go on. -/
def flashScan (s : State) (k : Nat) (m : Cmd) (cuts : List (Nat × Nat)) : Option State :=
  if !someFlash s k cuts then none else
  match engTrAll s k m false true cuts with
  | .error (e, va) => some (engStop s k m e va)
  | .ok ps => (flashFault s ps).map fun (st, va) => finish (chargeSource s k none (ps.filter fun p => isFlashPa p.pa)) k m st va

/-- One stretch of an address-kind xfer: up to the next page boundary of either end (R29, R294). -/
def xferChunk (s : State) (k : Nat) (m : Cmd) : State :=
  let gs := m.variant % 2 = 0
  let gd := m.variant < 2
  let len := xLen m.b
  let src := (m.regs.getD 1 0).toNat + m.pos
  let dst := (m.regs.getD 0 0).toNat + m.pos
  if len ≤ m.pos then finish s k m 0 0 else
  let n := toPage gd dst (toPage gs src (len - m.pos))
  let put (s : State) (m : Cmd) (bs : List (Byte × Bool)) : State :=
    let adv (s : State) : State := modCmd s k m.id fun m => { m with pos := m.pos + n }
    if gd then
      match engTr s k m dst true false with
      | .at_ pa a => adv (engWrite (useLines s k ⟨dst, pa, n, a⟩ true) k m pa bs)
      | e => engStop s k m e dst
    else adv (modCore s k fun c => spmBytes c dst bs)
  if gs then
    match engTr s k m src false true with
    | .at_ pa a =>
      if queueWrites s k m.q (pa / 4) ((pa + n) / 4) then s else
      let (fst, o) := if isFlashPa pa then flashRange s pa n else (0, 0)
      if fst ≠ 0 then finish s k m fst (src + o) else
      match (if gd then engTr s k m dst true false else .at_ 0 a) with
      | .at_ _ _ => (match engReads s k [⟨src, pa, n, a⟩] with
        | .error (e, va) => engErr s k m e va
        | .ok (s, bs) => put (chargeSource s k (if m.pos = 0 || pa % 4096 = 0 then none else some (pa / 4096)) [⟨src, pa, n, a⟩]) m bs)
      | e => engStop s k m e dst
    | e => engStop s k m e src
  else put s m (spmRead (core s k) src n)

/-- An address-kind xfer (R294): its range checks, then its stretches. Of ranges that overlap and a scratchpad end past SPMSIZE the overlap
stands first, an order that the spec does not give: the model's choice (log entry 82). -/
def xferRun (s : State) (k : Nat) (m : Cmd) : State :=
  let len := xLen m.b
  let d := (m.regs.getD 0 0).toNat
  let r := (m.regs.getD 1 0).toNat
  let size := (core s k).spmSize
  let out (a : Nat) : Nat := if a < size then size else a
  if m.pos ≠ 0 || len = 0 then xferChunk s k m
  else if (m.variant = 0 || m.variant = 3) && r < d + len && d < r + len then finish s k m 11 0
  else if m.variant % 2 = 1 && size < r + len then finish s k m 2 (out r)
  else if 2 ≤ m.variant && size < d + len then finish s k m 2 (out d)
  else match (if m.variant % 2 = 0 then flashScan s k m (pageCuts r len) else none) with
    | some s => s
    | none => xferChunk s k m

/-! ## Appends (R102, R103, R296) -/

/-- The bytes of each range, out of those of the ranges in ascending order. -/
def rangeBytes : List (Nat × Nat) → List (Byte × Bool) → Nat × Nat → List (Byte × Bool)
  | [], _, _ => []
  | x :: l, bs, y => if x = y then bs.take x.2 else rangeBytes l (bs.drop x.2) y

/-- The whole of some ranges of a command's source, each with its bytes, or the state the command stops in: at the lowest address that fails
(R291). -/
def wholeRanges (s : State) (k : Nat) (m : Cmd) (flash : Bool) (rs : List (Nat × Nat)) : Except State (State × List (Byte × Bool)) :=
  let up := byAddress rs
  match engTrAll s k m false flash (up.flatMap fun (va, n) => pageCuts va n) with
  | .error (e, va) => .error (engStop s k m e va)
  | .ok ps =>
    if ps.any fun p => queueWrites s k m.q (p.pa / 4) ((p.pa + p.n) / 4) then .error s else
    match flashFault s ps with
    | some (st, va) => .error (finish (chargeSource s k none (ps.filter fun p => isFlashPa p.pa)) k m st va)
    | none => match engReads s k ps with
      | .error (e, va) => .error (engErr s k m e va)
      | .ok (s, bs) => .ok (chargeSource s k none ps, rs.flatMap (rangeBytes up bs))

/-- The whole source of a command in the scratchpad or at a VA. -/
def wholeSource (s : State) (k : Nat) (m : Cmd) (scratch flash : Bool) (src len : Nat) : Except State (State × List (Byte × Bool)) :=
  if scratch then
    if (core s k).spmSize < src + len then .error (finish s k m 2 (if src < (core s k).spmSize then (core s k).spmSize else src))
    else .ok (s, spmRead (core s k) src len)
  else wholeRanges s k m flash [(src, len)]

/-- An append to a handle (R102, R296). -/
def appendRun (s : State) (k : Nat) (m : Cmd) : State :=
  let h := (m.regs.getD 0 0).toNat
  let len := xLen m.b
  if 255 < h || xHS m.b || xRS m.b then finish s k m 11 0
  else if len = 0 then finish s k m 0 0
  else match wholeSource s k m (m.variant = 13) true (m.regs.getD 1 0).toNat len with
    | .error s => s
    | .ok (s, bs) =>
      let t := h / 64
      let ctl := rdReg s (.fahCtl t (h % 64))
      let ptr := rdReg s (.fahPtr t (h % 64))
      let p := bits ptr 0 30
      let pages := (len + 4095) / 4096
      if bs.any (·.2) || bits ctl 62 2 ≠ 1 || bits ctl 29 29 + 1 < p + pages then finish s k m 8 0 else
      let base := 2 ^ 48 + t * 2 ^ 41 + p * 4096
      let s := (List.range (4096 * pages)).foldl (fun s i => wrByte s (base + i) (bs.getD i (0, false)).1) s
      let s := (List.range (1024 * pages)).foldl (fun s i => { s with bad := mset false s.bad (base / 4 + i) false }) s
      let s := { s with flashW := (List.range pages).foldl (fun w i => mput w (t * 2 ^ 29 + p + i) true) s.flashW }
      let s := wrReg (sink s k) (.fahPtr t (h % 64)) (setBits ptr 0 30 (p + pages))
      finish (modCmd s k m.id fun m => { m with durable := if m.rel then some (t, h % 64, p + pages) else none }) k m 0 0

/-! ## Reductions (R297, R352-R354, R366) -/

/-- Words of bytes with their poison. -/
def dataWords : List (Byte × Bool) → List (W32 × Bool)
  | a :: b :: c :: d :: r =>
    (BitVec.ofNat 32 (a.1.toNat + 2 ^ 8 * b.1.toNat + 2 ^ 16 * c.1.toNat + 2 ^ 24 * d.1.toNat), a.2 || b.2 || c.2 || d.2) :: dataWords r
  | _ => []

/-- Pairs of a sparse list: index and value (R354). -/
def sparsePairs : List (W32 × Bool) → List (Nat × W32 × Bool)
  | (i, p) :: (v, z) :: r => (i.toNat, v, p || z) :: sparsePairs r
  | _ => []

/-- Indices rise strictly. -/
def rising : List (Nat × W32 × Bool) → Bool
  | a :: b :: r => decide (a.1 < b.1) && rising (b :: r)
  | _ => true

/-- Destination words of a reduction translated: PA of each. -/
def destWords (s : State) (k : Nat) (m : Cmd) : List Nat → Except (ETr × Nat) (List Nat)
  | [] => .ok []
  | va :: r => match engTr s k m va true false with
    | .at_ pa _ => match destWords s k m r with
      | .ok l => .ok (pa :: l)
      | .error e => .error e
    | e => .error (e, va)

/-- Words of a reduction sent as combining home writes from datum m.pos on (R352): those that lie on one page. -/
def combineRun (s : State) (k : Nat) (m : Cmd) (xs : List (Nat × W32 × Bool)) : State :=
  match xs.drop m.pos with
  | [] => finish s k m 0 0
  | x :: r =>
    match engTr s k m x.1 true false with
    | .at_ pa at_ =>
      let same := (x :: r).takeWhile fun y => y.1 / 65536 = x.1 / 65536
      let ws := same.map fun y => ((pa + (y.1 - x.1)) / 4, (15#4, y.2.1, y.2.2))
      let s := same.foldl (fun s y => useLines s k ⟨y.1, pa + (y.1 - x.1), 4, at_⟩ true) s
      let s := engPut s k m pa ws (fun _ => .combine m.variant m.rm m.ftz) fun _ => 0
      modCmd s k m.id fun m => { m with pos := m.pos + same.length }
    | e => engStop s k m e x.1

/-- A contribution leaves for its peer, its parameter engine or its ordering point (R353, R366). -/
def sendContribution (s : State) (o : OrdContrib) : State :=
  if isPeerPa o.key then
    let p := { o with key := o.key % 2 ^ 40, words := o.words.map fun w => peerWord (4 * w) }
    let id := s.nextPeer
    let s := peerSend s (peerPod o.key) (.words []) o.src fun id => .orderedContribution { p with src := .peer (podIdx s) id }
    { s with peerOut := s.peerOut.map fun x => if x.id = id then { x with contrib := some o } else x }
  else match intakeOf s o.key with
    | some e => send s (.peContribution e o o.variant o.sparse)
    | none => send s (.orderedContribution o)

/-- One contribution of a whole command to an ordering point, a parameter engine or a peer (R353, R366); the lines it goes to are charged as
written (R105). -/
def contribute (s : State) (k : Nat) (m : Cmd) (key : Nat) (at_ : Attr) (words : List Nat) (data : List (W32 × Bool)) (sparse : Bool) : State :=
  let s := ((words.map (· / 32)).eraseDups).foldl (fun s l =>
    if isPeerPa key then s else l2Use s (128 * l) (engCharge s k (m.regs.getD 0 0).toNat at_) true) s
  let rctl := m.regs.getD 2 0
  let o : OrdContrib := { src := cmdSrc k m, key := key, tag := BitVec.ofNat 16 (bits rctl 32 16), rank := bits rctl 0 16,
                          ncon := bits rctl 16 16, words := words, data := data, rm := m.rm, ftz := m.ftz,
                          variant := m.variant, sparse := sparse }
  let s := modCmd (sink s k) k m.id fun m => { m with left := m.left + 1, dest := some (if isPeerPa key then peerPod key else 64) }
  finish (sendContribution s o) k m 0 0

/-- The words of an xred leave (R297, R353, R354): as one contribution where it is ordered, or goes to an intake window or to one peer;
otherwise one by one, up to a page that does not translate (R29). -/
def xredSend (s : State) (k : Nat) (m : Cmd) (xs : List (Nat × W32 × Bool)) : State :=
  let rctl := m.regs.getD 2 0
  let d := (m.regs.getD 0 0).toNat
  let sparse := bit rctl 63
  let ordered := m.variant = 1
  if m.pos ≠ 0 then combineRun s k m xs else
  match engTr s k m d true false with
  | .at_ key at_ =>
    let intake := (intakeOf s key).isSome
    if !(ordered || intake || isPeerPa key) then combineRun s k m xs else
    match destWords s k m (xs.map (·.1)) with
    | .error (e, va) => if ordered || intake then engStop s k m e va else combineRun s k m xs
    | .ok pas =>
      if ordered || intake || pas.all (fun pa => isPeerPa pa && peerPod pa = peerPod key) then
        contribute s k m key at_ (pas.map (· / 4)) (xs.map (·.2)) sparse
      else combineRun s k m xs
  | e => if sparse && !ordered then combineRun s k m xs else engStop s k m e d

/-- An xred of LEN 0 that is not ordered combines nothing; at an intake window it is refused there (R297, R366). -/
def xredEmpty (s : State) (k : Nat) (m : Cmd) : State :=
  let d := (m.regs.getD 0 0).toNat
  match (if 2 ^ 56 ≤ d then ETr.stop 2 else engTr s k m d true false) with
  | .at_ key at_ =>
    if (intakeOf s key).isSome || isPeerPa key then contribute s k m key at_ [] [] (bit (m.regs.getD 2 0) 63) else finish s k m 0 0
  | _ => finish s k m 0 0

/-- An xred (R297): its checks, its whole source (R84 step 3), then its words. -/
def xredRun (s : State) (k : Nat) (m : Cmd) : State :=
  let rctl := m.regs.getD 2 0
  let d := (m.regs.getD 0 0).toNat
  let r := (m.regs.getD 1 0).toNat
  let len := xLen m.b
  let sparse := bit rctl 63
  let ordered := m.variant = 1
  match m.data with
  | some xs => xredSend s k m xs
  | none =>
  if bits rctl 48 14 ≠ 0 || xHS m.b || d % 4 ≠ 0 || r % 4 ≠ 0 || len % (if sparse then 8 else 4) ≠ 0 ||
     (ordered && bits rctl 16 16 ≤ bits rctl 0 16) then finish s k m 11 0
  else if len = 0 then (if ordered then xredSend s k m [] else xredEmpty s k m)
  else match wholeSource s k m (bit rctl 62) false r len with
    | .error s => s
    | .ok (s, bs) =>
      let ws := dataWords bs
      let ps := sparsePairs ws
      if sparse && !rising ps then finish s k m 11 0 else
      let xs := if sparse then ps.map fun (i, x) => (d + 4 * i, x) else ws.mapIdx fun i x => (d + 4 * i, x)
      let m' : Cmd := { m with data := some xs }
      xredSend (modCmd s k m.id fun m => { m with data := some xs }) k m' xs

/-! ## Tiles (R35-R37, R295, R301, R306) -/

/-- Width in bits of an element format, 512 for a described tensor (R109, R295). -/
def fmtWidth (fmt : Nat) : Nat :=
  match fmt with
  | 0 => 512
  | 1 | 5 | 0x10 | 0x11 => 8
  | 2 | 6 | 0x12 | 0x13 => 16
  | 3 | 7 | 0x14 => 32
  | 4 | 8 | 0x15 => 64
  | 0x18 => 4
  | _ => 1

/-- Bits of the pad element (R36). -/
def padElem (t : TDesc) : Nat :=
  match t.fmt with
  | 0 => t.pad.toNat % 2 ^ 16
  | 4 => (sext 32 t.pad.toNat % (2 ^ 64 : Nat)).toNat
  | 8 | 0x15 => t.pad.toNat
  | f => t.pad.toNat % 2 ^ fmtWidth f

/-- Size along a dimension; 1 beyond RANK (R32). -/
def TileMove.size (x : TileMove) (d : Nat) : Int := if d < x.t.rank then (x.t.sizes.getD d 1 : Nat) else 1
def TileMove.stride (x : TileMove) (d : Nat) : Int := if d < x.t.rank then x.t.strides.getD d 0 else 0

/-- Index of row r along dimension d. -/
def TileMove.idx (x : TileMove) (r d : Nat) : Int := x.org.getD d 0 + if d = 1 then (r : Int) else 0

/-- The run of a row inside the tensor: first column, columns, VA of its first byte, bits before it in that byte (R35). -/
def TileMove.run (x : TileMove) (r : Nat) : Option (Nat × Nat × Nat × Nat) :=
  let ok := (List.range 4).all fun d => decide (0 ≤ x.idx r (d + 1)) && decide (x.idx r (d + 1) < x.size (d + 1))
  let o := x.org.getD 0 0
  let c0 : Int := if o < 0 then -o else 0
  let c1 : Int := if x.size 0 - o < x.cols then x.size 0 - o else x.cols
  if !ok || c1 ≤ c0 then none else
  let b := ((o + c0) * (fmtWidth x.t.fmt : Nat)).toNat
  let base : Int := (x.t.base : Int) + ((b / 8 : Nat) : Int) + (List.range 4).foldl (fun z d => z + x.idx r (d + 1) * x.stride (d + 1)) 0
  some (c0.toNat, (c1 - c0).toNat, (base % (2 ^ 64 : Nat)).toNat, b % 8)

/-- Bytes of memory that a run covers. -/
def runBytes (w n b : Nat) : Nat := (b + n * w + 7) / 8

/-- Number of bytes, lowest first. -/
def bytesNat (bs : List (Byte × Bool)) : Nat := bs.foldr (fun b z => b.1.toNat + 256 * z) 0

/-- Bits of a run moved to bit `at_` of a row of `len` bytes: `from_` is the run's first bit in `bs`, `n` its bits. -/
def placeBits (bs : List (Byte × Bool)) (from_ n at_ len : Nat) : List (Byte × Bool) :=
  let v := bytesNat bs / 2 ^ from_ % 2 ^ n * 2 ^ at_
  (List.range len).map fun j =>
    let lo := if 8 * j < at_ then at_ else 8 * j
    let hi := if at_ + n < 8 * j + 8 then at_ + n else 8 * j + 8
    let p := lo < hi && (List.range ((hi - 1 - at_ + from_) / 8 + 1 - (lo - at_ + from_) / 8)).any fun i =>
      (bs.getD ((lo - at_ + from_) / 8 + i) (0, false)).2
    (BitVec.ofNat 8 (v / 2 ^ (8 * j)), p)

/-- Bytes of two rows joined. -/
def joinBytes (a b : List (Byte × Bool)) : List (Byte × Bool) := List.zipWith (fun x y => (x.1 ||| y.1, x.2 || y.2)) a b

/-- A row of an image from its run's bytes, pad elements elsewhere, zero to the end of the pitch (R36, R295). -/
def TileMove.rowImage (x : TileMove) (r : Nat) (bs : List (Byte × Bool)) : List (Byte × Bool) :=
  let w := fmtWidth x.t.fmt
  let pe := padElem x.t
  let (c0, n, b) := match x.run r with
    | some (c0, n, _, b) => (c0, n, b)
    | none => (0, 0, 0)
  let pad := (List.range x.cols).foldl (fun z c => if c0 ≤ c && c < c0 + n then z else z + pe * 2 ^ (c * w)) 0
  joinBytes (placeBits bs b (n * w) (c0 * w) x.pitch) ((List.range x.pitch).map fun j => (BitVec.ofNat 8 (pad / 2 ^ (8 * j)), false))

/-- The swizzle of a row: unit u stands at unit u XOR (r mod 2^k) (R37). -/
def swizzle (k r : Nat) (row : List (Byte × Bool)) : List (Byte × Bool) :=
  (List.range row.length).map fun i => row.getD (64 * Nat.xor (i / 64) (r % 2 ^ k) + i % 64) (0, false)

/-- The image's end of a tile move. -/
inductive ImgEnd where
  | tile (t : Nat)
  | spm (a : Nat)
  | glob (va : Nat)
  deriving DecidableEq, Repr

/-- A tile command's descriptor, shape and checks: the move, or its status (R34, R37, R295, R301). Of a pitch that breaks the swizzle's condition
and an image that does not fit, the first gives the status, an order that the spec does not give: the model's choice (log entry 82). -/
def tileMove (c : Core) (m : Cmd) (e : ImgEnd) : Except Nat TileMove :=
  let l5 := (m.lanes.getD 5 0).toNat
  match mget none c.descs (l5 % 4096) with
  | none => .error 3
  | some t =>
    let sh := (mget 0 c.shape (l5 / 2 ^ 12 % 8)).toNat
    let cols := sh % 65536
    let rows := sh / 65536
    let pitch := 64 * ((cols * fmtWidth t.fmt + 511) / 512)
    if cols = 0 || rows = 0 then .error 11
    else if 0 < t.swz && pitch % (2 ^ t.swz * 64) ≠ 0 then .error 3
    else if (match e with
      | .tile n => 63 < n || 4096 < rows * pitch
      | .spm a => c.spmSize < a + rows * pitch
      | .glob _ => false) then .error 11
    else .ok ⟨t, cols, rows, pitch, (List.range 5).map fun i => sext 32 (m.lanes.getD i 0).toNat⟩

/-- The plane entry that a 64-byte unit of a described tile gives (R306). -/
def unitPlane (described : Bool) (u : List (Byte × Bool)) : BitVec 24 × Bool :=
  if !described then (0, false) else
  let b (i : Nat) : Nat := (u.getD i (0, false)).1.toNat
  (BitVec.ofNat 24 (b 1 + 2 ^ 8 * b 62 + 2 ^ 16 * b 63),
   ((List.range 4).any fun i => (u.getD i (0, false)).2) || (List.range 4).any fun i => (u.getD (60 + i) (0, false)).2)

/-- A tile's image in the tile file, with its plane (R301, R306). -/
def putTile (c : Core) (t : Nat) (described : Bool) (img : List (Byte × Bool)) : Core :=
  let c := tileBytes c t 0 img
  (List.range (img.length / 64)).foldl (fun c i =>
    { c with plane := mset (0, false) c.plane (64 * t + i) (unitPlane described ((img.drop (64 * i)).take 64)) }) c

/-- The row runs of a move with their byte ranges. -/
def TileMove.runs (x : TileMove) : List (Nat × Nat × Nat) :=
  (List.range x.rows).filterMap fun r => (x.run r).map fun (_, n, va, b) => (r, va, runBytes (fmtWidth x.t.fmt) n b)

/-- The bytes of each run out of the bytes of them all. -/
def splitRuns : List (Nat × Nat × Nat) → List (Byte × Bool) → List (Nat × List (Byte × Bool))
  | [], _ => []
  | (r, _, n) :: l, bs => (r, bs.take n) :: splitRuns l (bs.drop n)

/-- Rows read from a tensor: the bytes of each run. -/
def readRuns (s : State) (k : Nat) (m : Cmd) (runs : List (Nat × Nat × Nat)) : Except State (State × List (Nat × List (Byte × Bool))) :=
  match wholeRanges s k m (m.opc = 0x21) (runs.map fun (_, va, n) => (va, n)) with
  | .error s => .error s
  | .ok (s, bs) => .ok (s, splitRuns runs bs)

/-- The move of a tile command as it stood at its start, or what stops it (R300). -/
def moveOf (s : State) (k : Nat) (m : Cmd) (e : ImgEnd) : Except Nat TileMove :=
  match m.tile with
  | some x => .ok x
  | none => tileMove (core s k) m e

/-- A move of a tensor tile into an image (R295, R301). -/
def tileIn (s : State) (k : Nat) (m : Cmd) (e : ImgEnd) : State :=
  match moveOf s k m e with
  | .error st => finish s k m st 0
  | .ok x =>
    match readRuns s k m x.runs with
    | .error s => s
    | .ok (s', rows) =>
      let row (r : Nat) : List (Byte × Bool) := x.rowImage r (((rows.find? fun y => y.1 = r).map (·.2)).getD [])
      let img (k : Nat) : List (Byte × Bool) := (List.range x.rows).flatMap fun r => swizzle k r (row r)
      match e with
      | .tile t => finish (modCore s' k fun c => putTile c t (x.t.fmt = 0) (img x.t.swz)) k m 0 0
      | .spm a => finish (modCore s' k fun c => spmBytes c a (img x.t.swz)) k m 0 0
      | .glob va => match engTrAll s' k m true false (pageCuts va (x.rows * x.pitch)) with
        | .error (t, va) => engStop s k m t va
        | .ok ps => finish (engWrites (ps.foldl (fun s p => useLines s k p true) s') k m ps (img 0)) k m 0 0

/-- A run written to a tensor's memory: whole bytes as bytes, edge bits merged at the home (R36). -/
def writeRun (s : State) (k : Nat) (m : Cmd) (pa b bitsN : Nat) (row : List (Byte × Bool)) (at_ : Nat) : State :=
  let n := (b + bitsN + 7) / 8
  let data := placeBits row at_ bitsN b n
  if b = 0 && bitsN % 8 = 0 then engWrite s k m pa data else
  let lo := 8 * (pa % 4) + b
  let full (w : Nat) : W32 :=
    let i := w - pa / 4
    BitVec.ofNat 32 ((2 ^ bitsN - 1) * 2 ^ lo / 2 ^ (32 * i))
  engPut s k m pa (byteWords pa data) (fun f => if f = 0xFFFFFFFF then .write else .bits f) full

/-- The rows of an image; of an image in global memory only the bytes that its columns take are read (R295). -/
def imageRows (s : State) (k : Nat) (m : Cmd) (x : TileMove) (e : ImgEnd) : Except State (State × List (List (Byte × Bool))) :=
  let c := core s k
  let cut (l : List (Byte × Bool)) (swz : Nat) : List (List (Byte × Bool)) :=
    (List.range x.rows).map fun r => swizzle swz r ((l.drop (r * x.pitch)).take x.pitch)
  match e with
  | .tile t => .ok (s, cut (lanesToBytes ((List.range (x.rows * x.pitch / 4)).map (tileWord c t))) x.t.swz)
  | .spm a => .ok (s, cut (spmRead c a (x.rows * x.pitch)) x.t.swz)
  | .glob va =>
    let n := (x.cols * fmtWidth x.t.fmt + 7) / 8
    match wholeRanges s k m true ((List.range x.rows).map fun r => (va + r * x.pitch, n)) with
    | .error s => .error s
    | .ok (s, bs) => .ok (s, (List.range x.rows).map fun r => (bs.drop (r * n)).take n)

/-- A run's parts on its pages: bits before the part, bits, VA, first bit in its byte. -/
def runParts (w n va b : Nat) : List (Nat × Nat × Nat × Nat) :=
  (pageCuts va (runBytes w n b)).map fun (a, len) =>
    let start := if a = va then 0 else 8 * (a - va) - b
    let stop := if 8 * (a + len - va) - b < n * w then 8 * (a + len - va) - b else n * w
    (start, stop - start, a, if a = va then b else 0)

/-- A move of an image out to a tensor (R36, R295, R301): nothing is written before every page translates; a tile wholly outside the tensor
makes no access. -/
def tileOut (s : State) (k : Nat) (m : Cmd) (e : ImgEnd) : State :=
  match moveOf s k m e with
  | .error st => finish s k m st 0
  | .ok x =>
    if x.runs.isEmpty then finish s k m 0 0 else
    match engTrAll s k m true false ((byAddress (x.runs.map (·.2))).flatMap fun (va, n) => pageCuts va n) with
    | .error (t, va) => engStop s k m t va
    | .ok ps =>
      match imageRows s k m x e with
      | .error s => s
      | .ok (s, rows) =>
        let w := fmtWidth x.t.fmt
        let s := (List.range x.rows).foldl (fun s r =>
          match x.run r with
          | none => s
          | some (c0, n, va, b) =>
            (runParts w n va b).foldl (fun s (start, len, a, b) =>
              match engTr s k m a true false with
              | .at_ pa _ => writeRun s k m pa b len (rows.getD r []) (c0 * w + start)
              | _ => s) s) (ps.foldl (fun s p => useLines s k p true) s)
        finish s k m 0 0

/-! ## Arming (R298, R299, R355) -/

/-- A trig at its turn: refused, or the slot armed; an entry whose trigger already holds fires at once, and its transfer enters the queue
as it arms (R180). -/
def trigRun (s : State) (k : Nat) (m : Cmd) : State :=
  let t := m.regs.getD 4 0
  let slot := bits t 0 9
  let kind := bits t 9 1
  let okVar := if kind = 1 then m.variant < 8 else m.variant < 4 || m.variant = 12 || m.variant = 13
  if bits t 10 54 ≠ 0 || !okVar then finish s k m 11 0
  else if (mlook (core s k).trig slot).isSome then finish s k m 7 0
  else
    let stored : Cmd := { m with opc := if kind = 1 then 0x22 else 0x21, st := .waiting }
    finish (modCore (afterSeqs s k) k fun c =>
      enqueueAllFired (fireOn { c with trig := mput c.trig slot ⟨stored, m.w.wsem.toNat, m.w.wthr.toNat, false⟩ } m.w.wsem.toNat)) k m 0 0

/-- R299: the first fired transfer that waits for room enters the transfer queue. -/
def execFiredTransferEnqueue (k slot : Nat) (s : State) : Out :=
  .next (if (core s k).fireQ.head? = some slot then modCore s k enqueueFired else s)

/-! ## Starting and running a command (R84 steps 1-4) -/

/-- Step 2: the stores and atomics that the issuer issued in bundles before the command's are performed at the meeting point of the scope
(R84). -/
def step2Met (s : State) (k : Nat) (m : Cmd) : Bool :=
  !m.acq || (((core s k).outst.filter fun o => o.seq = m.seq && o.tag0 < m.tag0).all (fun o => o.performed s k m.scope) &&
    (s.net ++ s.held).all fun i => match i with
      | .atomicExecute _ _ a => !(a.core = k && a.seq = m.seq && a.tag < m.tag0)
      | .registerWrite _ x => x.src ≠ .seq k m.seq
      | _ => true)

/-- The image end of a tile command (R292, R301). -/
def imgEnd (m : Cmd) : ImgEnd :=
  let a := m.b.toNat
  if m.opc = 0x21 then (if m.variant = 4 || m.variant = 8 then .glob a else .spm a)
  else if m.variant = 0 then .tile a else .spm a

/-- Steps 3 and 4 of a started command, as far as they go. A verb call runs by its own steps. -/
def runCmd (s : State) (k : Nat) (m : Cmd) : State :=
  if m.opc = 0x21 then
    if m.variant < 4 then xferRun s k m
    else if m.variant = 12 || m.variant = 13 then appendRun s k m
    else if m.variant = 4 || m.variant = 6 then tileIn s k m (imgEnd m)
    else tileOut s k m (imgEnd m)
  else if m.opc = 0x22 then xredRun s k m
  else if m.opc = 0x24 then tileIn s k m (imgEnd m)
  else if m.opc = 0x25 then tileOut s k m (imgEnd m)
  else if m.opc = 0x26 then
    finish (modCore s k fun c => { c with shape := mset 0 c.shape ((m.regs.getD 1 0).toNat % 8) ((m.regs.getD 0 0).truncate 32) }) k m 0 0
  else s

/-- A handler start of this command is held at its transfer engine, which accepts nothing else (R178). -/
def startHeld (s : State) (k q : Nat) : Bool :=
  s.net.any fun i => match i with
    | .remoteSignal r => r.sig.isNone && r.start.isSome && (match r.src with
      | .cmd a b _ => a = k && b = q
      | _ => false)
    | _ => false

/-- A command passes step 1; a tile command takes its shape (R300). -/
def startCmd (s : State) (k : Nat) (m : Cmd) : State :=
  let tile := if m.opc = 0x24 || m.opc = 0x25 || (m.opc = 0x21 && 4 ≤ m.variant && m.variant < 12) then
      (match tileMove (core s k) m (imgEnd m) with
      | .ok x => some x
      | .error _ => none)
    else none
  modCmd (afterSeqs s k) k m.id fun m => { m with st := .started, tile := tile }

/-- R84: a command whose turn it is and that has passed step 1 starts, then passes step 2, then reads and writes; a trig arms at its turn
(R298). Engines come after the sequencers of the clk (R76). -/
def execEngineCommandStart (k q id : Nat) (s : State) : Out :=
  match turnCmd (core s k) q with
  | none => .next s
  | some m =>
    if m.id ≠ id || !engineRuns s k || isPending s k (32 + q) || (s.walks.any fun w => w.core = k && w.idx = 32 + q) || startHeld s k q
    then .next s
    else if m.opc = 0x23 then .next (modCore (trigRun s k m) k passStep1)
    else if m.st = .waiting then .next (if m.passed then startCmd s k m else s)
    else .next (if m.pos ≠ 0 || step2Met s k m then runCmd (afterSeqs s k) k m else s)

/-! ## Completing a command (R84 steps 5 and 6, R289, R293) -/

/-- The fate of a command's contributions is known: they are combined, held at an ordering point, or refused (R353, R366, R369). -/
def contribTold (s : State) (k : Nat) (m : Cmd) : Bool :=
  m.opc ≠ 0x22 ||
  (!((s.net ++ s.held).any fun i => match i with
    | .orderedContribution o => o.src = cmdSrc k m
    | .peContribution _ o _ _ => o.src = cmdSrc k m
    | _ => false) &&
  !(s.resend.any fun x => x.2.src = cmdSrc k m) &&
  !(s.pes.any fun x => x.2.blocks.any fun b => b.2.held.any fun h => h.2.src = cmdSrc k m) &&
  !s.peerOut.any fun o => o.src = cmdSrc k m && o.body = .words [] && !o.accepted)

/-- Step 5: what a command waits for before its signal (R84, R102). -/
def step5Met (s : State) (k : Nat) (m : Cmd) : Bool :=
  let far := peerLeft s k m
  let acked := !m.rel || (if m.scope = 6 then m.left = 0 else m.left ≤ far)
  let kept := match m.durable with
    | none => true
    | some (t, h, p) => decide (p ≤ bits (rdReg s (.fahPtr t h)) 30 30)
  acked && kept && contribTold s k m

/-- The lowest scope that covers some homes from a core (R67, R68, R86). -/
def coverScope (core : Nat) (pas : List Nat) : Nat :=
  pas.foldl (fun z pa => max z (
    if isHostPa pa then 6 else if homeChip pa = chipOf core then 3 else if homeChip pa / 4 = retOf core then 4 else 5)) 0

/-- The scope that covers the homes of a command's payload, for the core its handler starts on; .pd where a page no longer translates. -/
def payloadScope (s : State) (k : Nat) (m : Cmd) (core : Nat) : Nat :=
  if 2 ≤ m.variant && m.opc = 0x21 then 0 else
  let cuts := pageCuts (m.regs.getD 0 0).toNat (xLen m.b)
  if cuts.any (fun c => 2 ^ 56 ≤ c.1 || (match peekPage s k c.1 with
    | .at_ _ _ => false
    | _ => true)) then 6
  else coverScope core (cuts.filterMap fun c => match peekPage s k c.1 with
    | .at_ pa _ => some (if isPeerPa pa then pa % 2 ^ 40 else pa)
    | _ => none)

/-- The remote parts leave for their core (R293): as a message here, as a peer message elsewhere. -/
def sendRemote (s : State) (k : Nat) (m : Cmd) (pod : Nat) : State :=
  let x := m.b
  let src := cmdSrc k m
  let r : Remote := {
    core := bits x 50 7, ttag := BitVec.ofNat 16 (bits x 22 16),
    sig := if xRS x then some (BitVec.ofNat 8 (bits x 42 8), BitVec.ofNat 4 (bits x 38 4)) else none,
    start := if xHS x then some (BitVec.ofNat 5 (bits x 58 5), m.regs.getD 2 0, m.regs.getD 3 0, payloadScope s k m (bits x 50 7)) else none, src := src }
  let s := modCmd s k m.id fun m => { m with left := m.left + 1, remote := 2 }
  if pod < 64 then
    peerSend s pod (.words []) src fun id => .remoteSignal { r with src := .peer (podIdx s) id }
  else send s (.remoteSignal r)

/-- The command has remote parts still to send (R293). -/
def wantsRemote (m : Cmd) : Bool :=
  ((m.opc = 0x21 && m.variant < 4) || m.opc = 0x22) && (xHS m.b || xRS m.b) && m.remote = 0 && m.status = 0

/-- Step 6 (R84, R122, R239, R289): flags, failure record, pending bit and signal; an armed trig performs no signal. -/
def step6 (s : State) (k : Nat) (m : Cmd) : State :=
  let s := modSeq s k m.seq fun x => { x with fcsr := x.fcsr ||| m.flags.zeroExtend 32 }
  let s := wakeIssuer (recordFail s k m m.status) k m.seq
  let s := modCore s k fun c =>
    let c := c.setQueue m.q ((c.queue m.q).filter fun e => e ≠ .cmd m.id)
    let c := { c with cmds := mput c.cmds m.id { m with st := .completed } }
    enqueueAllFired { c with cmds := c.cmds.filter fun x => !cmdOver x.2 }
  if m.opc = 0x23 && m.status = 0 then s else
  let s := if m.w.sinc = 0 then s else sink s k
  semIncr s k m.w.ssem.toNat m.w.sinc.toNat

/-- Commands ahead of one in its queue have passed step 1 (R304). -/
def aheadPassed (c : Core) (m : Cmd) : Bool :=
  m.entry || c.cmds.all fun (i, x) => x.q ≠ m.q || m.id ≤ i || x.passed

/-- The module of a command's destination, 64 for this one: as its writes found it, or for an empty transfer what its page names (R293,
R294); none while that page's tables are on their way. -/
def destOf (s : State) (k : Nat) (m : Cmd) : Option Nat :=
  if 2 ≤ m.variant && m.opc = 0x21 then some 64
  else match m.dest with
    | some p => some p
    | none =>
      let va := (m.regs.getD 0 0).toNat
      match (if 2 ^ 56 ≤ va then Peek.none else peekPage s k va) with
      | .at_ pa _ => some (if isPeerPa pa then peerPod pa else 64)
      | .none => some 64
      | .wait => none

/-- R84, R304: a command whose data part is done sends its remote parts, waits for its writes and its release, and performs
its signal. -/
def execEngineCommandComplete (k q id : Nat) (s : State) : Out :=
  match mlook (core s k).cmds id with
  | none => .next s
  | some m =>
    .next (if m.q ≠ q || m.st ≠ .done || !engineRuns s k || !aheadPassed (core s k) m then s
    else if m.status ≠ 1 && wantsRemote m then
      if m.left ≠ 0 then s
      else match destOf s k m with
        | some pod => sendRemote s k m pod
        | none => s
    else if m.remote = 2 && m.left ≠ 0 then s
    else if m.status ≠ 1 && !step5Met s k m then s
    else step6 s k m)

/-! ## Remote parts (R178, R293) -/

/-- The sender of a remote part learns that it was performed or refused. -/
def remoteDone (s : State) (src : WSrc) (refused : Bool) : State :=
  match src with
  | .peer pod id => sendOut s pod (.peerWriteAck id 0 false refused)
  | .cmd k _ id => modCmd s k id fun m => { m with left := m.left - 1, status := if m.status = 0 && refused then 7 else m.status }
  | _ => s

/-- The taskid of the task of a core that has not retired. -/
def taskidOf (s : State) (k : Nat) : Option W32 :=
  match (core s k).task with
  | none => none
  | some t => (mlook s.tasks t).bind fun x => if x.reported then none else some x.taskid

/-- A remote signal and a handler start act on their core, or are discarded (R178, R293). -/
def remoteNow (r : Remote) (s : State) : State :=
  match taskidOf s r.core with
  | none => remoteDone s r.src true
  | some t =>
    if t.extractLsb' 0 16 ≠ r.ttag then remoteDone s r.src true else
    let s := match r.sig with
      | none => s
      | some (i, n) =>
        let s := match r.src with
          | .cmd k _ _ => sink s k
          | _ => s
        semIncr s r.core i.toNat n.toNat
    match r.start with
    | none => remoteDone s r.src false
    | some (q, pc, arg, scope) =>
      let x := seqOf s r.core q.toNat
      if x.kind ≠ .dormant || (core s r.core).task.isNone then remoteDone s r.src true
      else if 8 ≤ x.starts.length then requeue s (.remoteSignal { r with sig := none })
      else remoteDone (setSeq s r.core q.toNat { x with starts := x.starts ++ [(pc, arg, scope)] }) r.src false

/-- R293, R178: remote parts arrive; behind a start that waits for room their link accepts nothing. -/
def execRemoteSignal (r : Remote) (s : State) : Out :=
  .next (if peerBehind s (.remoteSignal r) then send s (.remoteSignal r) else remoteNow r s)

/-- R86, R178: a dormant sequencer takes its oldest start; its core invalidates first, at the scope that covers the payload's homes. -/
def execHandlerStart (k q : Nat) (s : State) : Out :=
  let x := seqOf s k q
  .next (match x.starts with
  | [] => s
  | (pc, arg, scope) :: r =>
    if x.kind ≠ .dormant || x.st ≠ .dormant || !engineRuns s k then s else
    setSeq (invalidate s k scope (-1)) k q { x with starts := r, pc := pc, st := .running, s := mset {} x.s 1 ⟨arg, false⟩ })

end Sys2Proof.Machine
end

