-- ==== Sys2Proof/Machine/Fetch.lean ====
section
/-! DEFINITION. Bundle fetch (R192), the checks before a bundle issues (R193), what ends before it: results that land (R181, R182),
boundary faults (R377), endings (R183, R241-R243), HOLD (R183). -/
namespace Sys2Proof.Machine

/-! ## Reading code (R192) -/

/-- A word as fetch reads it: its value and the level above L1 that served it, or an error's cause. -/
inductive CodeWord where
  | got (x : Lane) (src : Option Nat)
  | wait
  | err (cause : Nat)
  deriving DecidableEq, Repr

/-- A read at the home as an outcome of fetch. -/
def codeOf (r : HomeRead) (src : Nat) : CodeWord :=
  match r with
  | .value x => .got x (some src)
  | .wait => .wait
  | .ownerLost => .err 9
  | .bad => .err 18

/-- Fetch climbs the levels of a chain (R41, R50). -/
def codeUp (s : State) (w : Nat) : List Nat → CodeWord
  | [] => .wait
  | p :: up =>
    match lvlAt s p w with
    | some (.owner _) =>
      (match follow s w 6 p [] with
      | .val x _ _ => .got x (some p)
      | .busy => .wait
      | .lost _ _ _ => .err 9)
    | some (.held v z) => if dropsPa s (4 * w) || badAt s p w then .err 18 else .got ⟨v, z⟩ (some p)
    | some (.copy v z) => if up.isEmpty then codeOf (homeRead s w 0) p else .got ⟨v, z⟩ (some p)
    | none => if up.isEmpty then codeOf (homeRead s w 0) p else codeUp s w up

/-- A register write before the fetch has not performed. -/
def regBusy (s : State) : Bool := s.net.any fun m => match m with
  | .registerWrite _ _ => true
  | _ => false

/-- One word of code, as core k's loads read it: behind the sequencer's own accesses to it that are under way (R75, R182). -/
def codeWord (s : State) (k q w : Nat) : CodeWord :=
  if spaceOf (4 * w) = 2 then (if regBusy s then .wait else .got ⟨(regWord s w).2, false⟩ none)
  else if (core s k).l1err.contains w then .err 18
  else if ownPending { s with cur := { s.cur with tag0 := s.nextTag } } k q w then .wait
  else match l1At s k w with
  | some ⟨.pend _ _, _, _⟩ => .wait
  | some x => .got ⟨x.v, x.p⟩ none
  | none => codeUp s w (chain k w)

/-- Words in order with the levels that served them, or what keeps them. -/
def codeWords (s : State) (k q : Nat) : List Nat → Except (Option Nat) (List (Nat × Lane × Option Nat))
  | [] => .ok []
  | w :: r =>
    match codeWord s k q w with
    | .wait => .error none
    | .err c => .error (some c)
    | .got x src => match codeWords s k q r with
      | .error e => .error e
      | .ok xs => .ok ((w, x, src) :: xs)

/-- The words that hold `n` bytes at a PA. -/
def spanWords (pa n : Nat) : List Nat := (List.range ((pa % 4 + n + 3) / 4)).map fun i => pa / 4 + i

/-- The bytes of words from a PA on. -/
def codeBytes (pa n : Nat) (ws : List (Nat × Lane × Option Nat)) : List Byte :=
  ((ws.flatMap fun x => natBytes 4 x.2.1.v.toNat).drop (pa % 4)).take n

/-- A word read by fetch: read-to-clear fields of a register clear (R11), a hit reaches its line, and a miss installs copies below the level
that served it and fills the line, as a load does (R50, R53, R192). -/
def installWord (k region : Nat) (s : State) (x : Nat × Lane × Option Nat) : State :=
  let (w, v, src) := x
  if spaceOf (4 * w) = 2 then (regWord s w).1 else
  match src with
  | none => reachL1 s k w region
  | some p =>
    let fromMem := match lvlAt s p w with
      | some (.owner _) => false
      | some (.held _ _) => false
      | _ => isTop p w
    let s := if fromMem then l2Use (touchReads s [w]) (4 * w) ((core s k).task.map fun t => (t, 0)) false else s
    let s := installCopies s k w region p v 0
    (lineWords (w / 32)).foldl (fun s y =>
      if (l1At s k y).isSome then s else climb s y (.load k 0 0 0 0 region) (chain k y)) s

/-- All words that a bundle was read from. -/
def installCode (s : State) (k region : Nat) (ws : List (Nat × Lane × Option Nat)) : State := ws.foldl (installWord k region) s

/-! ## One head (R192, R193) -/

/-- Translation of a fetch by the walker (R25, R192); R193 step 2. -/
def fetchPage (s : State) (k q : Nat) (head va : Word) : Except Raise (Nat × Attr) :=
  let n := va.toNat
  if 2 ^ 56 ≤ n then .error (.trap ⟨5, memVal 6 n⟩) else
  let mode := (seqOf s k q).mode
  match translate s k n .fetch mode false with
  | .ok pa a => .ok (pa, a)
  | .trap c => .error (.trap ⟨c, memVal 8 n⟩)
  | .walk => .error (.walk {
      core := k, idx := q, ctx := (core s k).ctx, va := n, kind := .fetch, system := mode, pc := head, slot := 8 })

/-- What stands at a head: a pad or a bundle, with the words it was read from and their REGION, or what is raised there. -/
inductive Fetched where
  | pad (region : Nat) (ws : List (Nat × Lane × Option Nat))
  | bundle (b : RawBundle) (head region : Nat) (ws : List (Nat × Lane × Option Nat))
  | raise (r : Raise)
  deriving DecidableEq, Repr

/-- Bytes of code, or what is raised: late memory, or a memory error, precise at the bundle (log entry 31). -/
def codeAt (s : State) (k q pa va n : Nat) : Except Raise (List (Nat × Lane × Option Nat)) :=
  match codeWords s k q (spanWords pa n) with
  | .error none => .error .stall
  | .error (some c) => .error (.trap ⟨c, memVal 8 va⟩)
  | .ok ws => .ok ws

/-- The head of the fetch line after the one that holds an address (R192). -/
def nextLine (pc : Word) : Word := (pc &&& ~~~(63 : Word)) + 64

/-- Reads the head and the bundle at an address, with steps 1 to 3 of R193. -/
def fetchAt (s : State) (k q : Nat) (pc : Word) : Fetched :=
  if bit pc 0 then .raise (.trap ⟨4, memVal 8 pc.toNat⟩) else
  match fetchPage s k q pc pc with
  | .error r => .raise r
  | .ok (pa, a) =>
    match codeAt s k q pa pc.toNat 2 with
    | .error r => .raise r
    | .ok hw =>
      let head := leNat (codeBytes pa 2 hw)
      if head = 0 then .pad a.region hw else
      let off := pc.toNat % 64
      let len := 2 + slotsLen (head % 256) (List.range 8)
      let illegal : Fetched := .raise (.trap ⟨1, BitVec.ofNat 64 head⟩)
      if 64 < off + len then
        match fetchPage s k q pc (nextLine pc) with
        | .error r => .raise r
        | .ok _ => illegal
      else match codeAt s k q pa pc.toNat len with
      | .error r => .raise r
      | .ok ws => match rawBundle off (codeBytes pa len ws) with
        | .ok b => .bundle b head a.region ws
        | .error .pad => .pad a.region hw
        | .error _ => illegal

/-- The address reached by skipping pads, whose heads are read as code is (R192). -/
def skipPads (k q : Nat) : Nat → State → Word → State × Word
  | 0, s, pc => (s, pc)
  | n + 1, s, pc => match fetchAt s k q pc with
    | .pad region ws => skipPads k q n (installCode s k region ws) (nextLine pc)
    | _ => (s, pc)

/-- A word of code that fetch does not get: a lost owner is recorded (R59), one that does not answer is timed (R58). -/
def codeAsk (s : State) (w : Nat) : List Nat → State
  | [] => s
  | p :: up =>
    match lvlAt s p w with
    | some (.owner _) =>
      (match follow s w 6 p [] with
      | .val _ _ _ => s
      | .busy => askOwner s w
      | .lost path id cause => loseWord s w path id cause)
    | some _ => s
    | none => if up.isEmpty then ownAsk s w else codeAsk s w up

/-- The first word of a fetch line that keeps a bundle from being read is asked for; an error that a check has found in it is met
(R45, R58, R59). -/
def missCode (s : State) (k q : Nat) (pc : Word) : State :=
  match fetchPage s k q pc pc with
  | .error _ => s
  | .ok (pa, _) =>
    match (spanWords pa (64 - pc.toNat % 64)).find? fun w => match codeWord s k q w with
      | .got _ _ => false
      | _ => true with
    | none => s
    | some w =>
      if (core s k).l1err.contains w then modCore s k fun c => { c with l1err := c.l1err.erase w }
      else if (l1At s k w).isSome || spaceOf (4 * w) = 2 then s else codeAsk s w (chain k w)

/-- A fault or a wait of fetch comes from a word it did not get: the causes of R371 for lost owners and memory errors, or late memory. -/
def Raise.ofCode : Raise → Bool
  | .trap t => t.cause = 9 || t.cause = 18
  | .stall => true
  | _ => false

/-- Lines that fetch looks over before it finds that all it skips are pads: as many as there are. -/
def allLines : Nat := 2 ^ 50

/-- A head looked up ahead of fetch, with no walk begun. -/
inductive Ahead where
  | at_ (pc : Word)
  /-- fetch cannot pass this place, and bundles remain -/
  | short (pc : Word)
  /-- memory there is late -/
  | late
  deriving DecidableEq, Repr

/-- What stands at an address: 0 for a pad, the length of a bundle, or none where fetch will find something else. -/
def peekHead (s : State) (k q : Nat) (pc : Word) : Except Unit (Option Nat) :=
  if bit pc 0 || 2 ^ 56 ≤ pc.toNat then .ok none else
  match peekWalk s k pc.toNat with
  | .wait => .error ()
  | .none => .ok none
  | .at_ pa a =>
    if !a.allows .fetch false || (a.s && !(seqOf s k q).mode) then .ok none else
    match codeAt s k q pa pc.toNat 2 with
    | .error .stall => .error ()
    | .error _ => .ok none
    | .ok hw =>
      let head := leNat (codeBytes pa 2 hw)
      .ok (some (if head = 0 then 0 else 2 + slotsLen (head % 256) (List.range 8)))

/-- The head that fetch reaches in sequence after `n` bundles, pads skipped (R210, R241), or the place that it cannot pass now. -/
def headAfter (s : State) (k q : Nat) : Nat → Nat → Word → Ahead
  | 0, _, pc => .at_ pc
  | f + 1, n, pc =>
    match peekHead s k q pc with
    | .error _ => .late
    | .ok none => if n = 0 then .at_ pc else .short pc
    | .ok (some 0) => headAfter s k q f n (nextLine pc)
    | .ok (some len) => match n with
      | 0 => .at_ pc
      | n + 1 => headAfter s k q f n (pc + BitVec.ofNat 64 len)

/-! ## Before the next bundle issues -/

/-- The sequencer that made an access which waits at its home. -/
def heldSeq : Instr → Option (Nat × Nat)
  | .registration _ _ _ _ k q => some (k, q)
  | .atomicExecute _ _ a => if a.kind = .signal then none else some (a.core, a.seq)
  | _ => none

/-- An access of a sequencer waits at its home for a page (R65, R155). -/
def frozenHome (s : State) (k q : Nat) : Bool := s.held.any fun m => heldSeq m = some (k, q) && (pageHolds s m || waitsMove s m)

/-- A sequencer that may issue: Running, its task running, no walk, no pending fault and no access of its that waits at its home
(R65, R155, R177, R182, R378). -/
def mayIssue (s : State) (k q : Nat) : Bool :=
  engineRuns s k && (core s k).task.isSome && (seqOf s k q).st = .running && !isPending s k q &&
  !(s.walks.any fun w => w.core = k && w.idx = q) && !frozenHome s k q

/-- What a bundle raised happens: the trap is taken at its head, a walk starts, or late memory keeps the sequencer (R182, R373). -/
def raiseAt (s : State) (k q : Nat) (pc : Word) (r : Raise) : State :=
  match r with
  | .trap t => takeTrap (modSeq s k q fun x => { x with stalled := false }) k q pc t
  | .walk w => startWalk (modSeq s k q fun x => { x with stalled := true, onMove := false }) w
  | .stall => modSeq s k q fun x => { x with stalled := true, onMove := false }
  | .move => modSeq s k q fun x => { x with stalled := true, onMove := true }

/-- A sequencer whose results in flight have all landed ends as its bundle said (R183, R241-R244). trap and sys enter the handler with the
next head in xpc; without a handler they end the task, a cause like any other (R373 step 3; log entry 72). -/
def endIssue (s : State) (k q : Nat) (e : Ending) : State :=
  match e with
  | .stop => modSeq s k q fun x => { x with st := if x.kind = .dormant then .dormant else .stopped, ending := none }
  | .trap c v next =>
    if !hasHandler s k then endCoreTask (logFault s (64 * k + q) ⟨c, v⟩) k 2 c else
    match headAfter s k q allLines 0 next with
    | .late => modSeq s k q fun x => { x with stalled := true }
    | .short pc => modSeq s k q fun x => enterDrained x pc ⟨c, v⟩
    | .at_ pc => modSeq s k q fun x => enterDrained x pc ⟨c, v⟩
  | .eret =>
    let x := seqOf s k q
    if bit x.xpc 0 then takeTrap s k q x.pc ⟨4, memVal 8 x.xpc.toNat⟩
    else modSeq s k q fun x => returnFrom { x with ending := none }
  | .halt next => modSeq s k q fun x => { x with st := .halted, pc := next, ending := none }

/-- A bundle that has passed every check: its head, its bytes cut and decoded. -/
structure Ready where
  pc : Word
  raw : RawBundle
  slots : List (Nat × Instr)
  deriving DecidableEq, Repr

/-- The first slot of a decode error. -/
def rejectSlot : Reject → Nat
  | .unassigned n => n
  | .notInSlot n => n
  | .badField n => n
  | _ => 0

/-- The return address of a branch whose delay slots could not be read ahead is found as soon as they can be, unless s63 has been written since
(R210, R229). -/
def findLink (s : State) (k q : Nat) (pc : Word) : State × Bool :=
  let x := seqOf s k q
  match x.relink, x.xfer with
  | some v, some t =>
    match headAfter s k q allLines t.left pc with
    | .late => (modSeq s k q fun x => { x with stalled := true }, false)
    | .short _ => (s, true)
    | .at_ link => (modSeq s k q fun x =>
        { x with relink := none, s := if rdS x 63 = ⟨v, false⟩ then mset {} x.s 63 ⟨link, false⟩ else x.s }, true)
  | _, _ => (modSeq s k q fun x => { x with relink := none }, true)

/-- Fetch and checks of R193 at the pc, pads skipped: the bundle that may issue, or none and what happens instead. -/
def checkBundle (s : State) (k q : Nat) : State × Option Ready :=
  let (s, pc) := skipPads k q allLines s (seqOf s k q).pc
  let s := modSeq s k q fun x => { x with pc := pc }
  match fetchAt s k q pc with
  | .pad _ _ => (s, none)
  | .raise r => (raiseAt (if r.ofCode then missCode s k q pc else s) k q pc r, none)
  | .bundle b head region ws =>
    let (s, known) := findLink (installCode s k region ws) k q pc
    if !known then (s, none) else
    let x := seqOf s k q
    if b.hold && !x.infl.isEmpty then (modSeq s k q tick, none)
    else if x.xfer.isSome && b.hasControl then (raiseAt s k q pc (.trap ⟨1, BitVec.ofNat 64 head⟩), none)
    else match decodeSlots b.slots with
    | .error e => (raiseAt s k q pc (.trap ⟨2, BitVec.ofNat 64 (rejectSlot e)⟩), none)
    | .ok sl => (s, some ⟨pc, b, sl⟩)

/-- Everything before the issue of a sequencer's next bundle: its waits, the results due, boundary faults, an ending under way,
fetch and checks. -/
def prepareBundle (s : State) (k q : Nat) : State × Option Ready :=
  if !mayIssue s k q then (s, none) else
  let s := testWaits s k q (seqOf s k q).waits.length
  if !(seqOf s k q).waits.isEmpty || !dueReady (seqOf s k q) then (s, none) else
  let s := modSeq s k q landDue
  let x := seqOf s k q
  match x.boundary with
  | t :: _ =>
    let (s, pc) := skipPads k q allLines s x.pc
    (takeTrap (modSeq s k q fun x => { x with boundary := [] }) k q pc t, none)
  | [] =>
    match x.ending with
    | some e => if x.infl.isEmpty then (endIssue s k q e, none) else (modSeq s k q tick, none)
    | none => checkBundle s k q

/-- R192, R193: the next bundle of a sequencer is fetched and checked. -/
def execBundleFetch (core seq : Nat) (s : State) : Out := .next (prepareBundle s core seq).1

end Sys2Proof.Machine
end

