-- ==== Sys2Proof/Machine/Commands.lean ====
section
/-! DEFINITION. The command processor's own reads (R338, R339), task images (R168-R171), extent tables (R25), frozen
descriptors (R31-R34), report slots (R106, R187), the completion of packets (R335) and their order in a queue (R337). -/
namespace Sys2Proof.Machine

/-! ## Reading through a context's page tables (R334, R338, R339) -/

/-- A read by the command processor: a value, `none` where the value is still on its way, or a reason. -/
abbrev CpR := Except (Option Nat)

/-- One page part of an access of the command processor: PA and attributes. It keeps no copies and uses no walker cache, and it
acts in system mode (log entry 20). -/
def cpPage (s : State) (ctx va : Nat) (kind : AccKind) (opt : Bool) : CpR (Nat × Attr) :=
  if 2 ^ 56 ≤ va then .error (some 5) else
  match (pageWalk s 8 ctx va).1 with
  | .wait => .error none
  | .fail _ => .error (some 5)
  | .leaf e l => if (leafAttr e).allows kind opt then .ok (leafPa e l va, leafAttr e) else .error (some 5)

/-- The word at a 4-aligned VA, read at its home. -/
def cpWord (s : State) (ctx va : Nat) : CpR Lane :=
  match cpPage s ctx va .load false with
  | .error e => .error e
  | .ok (pa, _) =>
    if spaceOf pa = 2 then .ok ⟨(regWord s (pa / 4)).2, false⟩
    else match homeRead s (pa / 4) 0 with
      | .value x => .ok x
      | .wait => .error none
      | _ => .error (some 5)

/-- The PAs of the words at some VAs, as far as they translate. -/
def cpPlaces (s : State) (ctx : Nat) (vas : List Nat) : List Nat := vas.filterMap fun va => match cpPage s ctx va .load false with
  | .ok (pa, _) => some pa
  | .error _ => none

/-- The words of page-table entries on the way to some VAs. -/
def cpTables (s : State) (ctx : Nat) (vas : List Nat) : List Nat :=
  (vas.map (· / 65536 * 65536)).eraseDups.flatMap fun va =>
    let (r, ents) := pageWalk s 8 ctx va
    walkWords s 8 ctx va r ents

/-- Reads of the command processor that wait or fail: of the page-table entries and the words on the way a lost owner is recorded, and one
that does not answer is timed (R58, R59). -/
def cpAsk (s : State) (ctx : Nat) (vas : List Nat) : State :=
  let mem := (cpPlaces s ctx vas).filter fun pa => isHbm pa || isHostPa pa
  (cpTables s ctx vas ++ mem.map (· / 4)).eraseDups.foldl ownAsk s

/-- What a read of the words at some VAs leaves: their stacks and those of the page-table entries on the way wake and restart their time
without access (R98), and read-to-clear fields of registers clear (R11). -/
def cpTouch (s : State) (ctx : Nat) (vas : List Nat) : State :=
  let s := cpAsk s ctx vas
  let pas := cpPlaces s ctx vas
  let s := touchReads s ((pas.filter isHbm).map (· / 4) ++ cpTables s ctx vas)
  (pas.filter fun pa => spaceOf pa = 2).foldl (fun s pa => (regWord s (pa / 4)).1) s

/-- The VAs of the words of `n` bytes. -/
def wordVas (va n : Nat) : List Nat := (List.range ((va % 4 + n + 3) / 4)).map fun i => va / 4 * 4 + 4 * i

/-- Words in order. -/
def cpWords (s : State) (ctx : Nat) : List Nat → CpR (List Lane)
  | [] => .ok []
  | va :: r => match cpWord s ctx va with
    | .error e => .error e
    | .ok x => match cpWords s ctx r with
      | .error e => .error e
      | .ok xs => .ok (x :: xs)

/-- A little-endian number of `n` bytes; poisoned words cannot be read (R171). -/
def cpNum (s : State) (ctx va n : Nat) : CpR Nat :=
  match cpWords s ctx (wordVas va n) with
  | .error e => .error e
  | .ok xs => if xs.any Lane.p then .error (some 5) else .ok (joinWords (xs.map some) / 2 ^ (8 * (va % 4)) % 2 ^ (8 * n))

/-- Numbers of one size in order. -/
def cpNums (s : State) (ctx n : Nat) : List Nat → CpR (List Nat)
  | [] => .ok []
  | va :: r => match cpNum s ctx va n with
    | .error e => .error e
    | .ok x => match cpNums s ctx n r with
      | .error e => .error e
      | .ok xs => .ok (x :: xs)

/-- Numbers of one size, one after another. -/
def cpRun (s : State) (ctx va n count : Nat) : CpR (List Nat) := cpNums s ctx n ((List.range count).map fun i => va + n * i)

/-! ## Task images (R168-R170) -/

/-- A check of the image: a refusal with a reason. -/
def refuseIf (c : Bool) (reason : Nat) : CpR Unit := if c then .error (some reason) else .ok ()

/-- Values of a list are all different. -/
def noRepeat : List Nat → Bool
  | [] => true
  | x :: r => !r.contains x && noRepeat r

/-- Spans first to first + length - 1 that share no number. -/
def disjointSpans : List (Nat × Nat) → Bool
  | [] => true
  | (a, n) :: r => (r.all fun (b, m) => a + n ≤ b || b + m ≤ a) && disjointSpans r

/-- µ-words of the verb records, one list each. -/
def readVerbs (s : State) (ctx : Nat) : List (Nat × Nat × Nat) → CpR (List (Nat × List Word))
  | [] => .ok []
  | (va, load, count) :: r => do
    let ws ← cpRun s ctx va 8 count
    let rest ← readVerbs s ctx r
    .ok ((load, ws.map (BitVec.ofNat 64)) :: rest)

/-- The image at a VA with the ranges of VAs it was read from, or the reason of its refusal (R168-R171). The checks stand in the order of
the tables. Bytes 12-15 of a verb record, of which the rule says nothing where they are not zero, are ignored: the model's choice (log entry
84). -/
def readImage (s : State) (ctx base img : Nat) : CpR (TaskImg × List (Nat × Nat)) := do
  let f (o n : Nat) : CpR Nat := cpNum s ctx (img + o) n
  let ver ← f 0 4
  refuseIf (ver ≠ 1) 1
  let nc ← f 4 2
  refuseIf (nc = 0 || bits (rdReg s (.ctxCfg ctx)) 0 8 < base + nc) 2
  let fl ← f 6 2
  refuseIf (16 ≤ fl) 1
  let spm ← f 8 4
  refuseIf (spm % 64 ≠ 0 || 0x400000 < spm) 3
  let nr ← f 0x0C 2
  let nt ← f 0x0E 2
  let nv ← f 0x10 2
  let ns ← f 0x12 2
  refuseIf (256 < nr || 256 < nt || 64 < nv || 256 < ns) 4
  let ent ← f 0x14 4
  let dor ← f 0x18 4
  let z ← f 0x1C 4
  let offs ← cpRun s ctx (img + 0x20) 8 5
  let zs ← cpRun s ctx (img + 0x48) 8 7
  refuseIf (Nat.land ent dor ≠ 0 || z ≠ 0 || offs.any (fun o => o % 8 ≠ 0) || zs.any (fun x => x ≠ 0)) 1
  let tab (i : Nat) : Nat := img + offs.getD i 0
  let pcs ← cpRun s ctx (tab 0) 8 32
  let rg ← cpRun s ctx (tab 1) 8 (3 * nr)
  let ranges := (List.range nr).map fun i => (rg.getD (3 * i) 0, rg.getD (3 * i + 1) 0, rg.getD (3 * i + 2) 0)
  refuseIf (ranges.any fun (b, n, a) => n = 0 || 2 ^ 56 < b + n || a % 4 = 0 || a / 8 % 32 ≠ 0 || 2 ^ 14 ≤ a) 4
  let ts ← cpRun s ctx (tab 2) 2 nt
  refuseIf (ts.any fun h => 4096 ≤ h) 4
  let vb ← cpRun s ctx (tab 3) 8 (2 * nv)
  let verbs := (List.range nv).map fun i =>
    let x := vb.getD (2 * i + 1) 0
    (vb.getD (2 * i) 0, x % 2 ^ 16, x / 2 ^ 16 % 2 ^ 16)
  refuseIf ((verbs.any fun (va, l, c) => va % 8 ≠ 0 || c = 0 || 8192 < l + c) || !disjointSpans (verbs.map (·.2))) 4
  let sm ← cpRun s ctx (tab 4) 4 ns
  let sems := sm.map fun x => (x % 256, x / 2 ^ 16)
  refuseIf ((sm.any fun x => x / 256 % 256 ≠ 0) || !noRepeat (sems.map (·.1))) 4
  let vs ← readVerbs s ctx verbs
  .ok ({ ncores := nc, flags := fl, spm := spm, entry := ent, dormant := dor, pcs := pcs.map (BitVec.ofNat 64), ranges := ranges,
         tensors := ts, verbs := vs, sems := sems },
       [(img, 128), (tab 0, 256), (tab 1, 24 * nr), (tab 2, 2 * nt), (tab 3, 16 * nv), (tab 4, 4 * ns)] ++
         verbs.map fun (va, _, c) => (va, 8 * c))

/-! ## Extent tables (R25) -/

/-- Pages of a declared range that grant its permissions: VA, size, PA, attributes. -/
def rangePages (s : State) (ctx attr : Nat) : Nat → Nat → Nat → CpR (List (Nat × Nat × Nat × Attr))
  | 0, _, _ => .ok []
  | n + 1, va, stop =>
    if stop ≤ va || inFixed va then .ok [] else
    match (pageWalk s 8 ctx va).1 with
    | .wait => .error none
    | .fail _ => rangePages s ctx attr n ((va / 65536 + 1) * 65536) stop
    | .leaf e l =>
      let p := va / pageSize l * pageSize l
      let a := leafAttr e
      match rangePages s ctx attr n (p + pageSize l) stop with
      | .error x => .error x
      | .ok r => .ok (if (attr % 2 = 1 → a.r) ∧ (attr / 2 % 2 = 1 → a.w) then (p, pageSize l, leafPa e l p, a) :: r else r)

/-- The extent of one page with the declared permissions. -/
def pageExtent (attr : Nat) (x : Nat × Nat × Nat × Attr) : Extent :=
  let (va, n, pa, a) := x
  { va := va, pa := pa, len := n, r := attr % 2 = 1, w := attr / 2 % 2 = 1, s := a.s, d := a.d, p := a.p, hk := a.hk, f := a.f,
    region := a.region, hotbuf := a.hotbuf }

/-- Two extents merge (R25). -/
def mergeable (a b : Extent) : Bool :=
  a.va + a.len = b.va && a.pa + a.len = b.pa && { b with va := a.va, pa := a.pa, len := a.len } = a

/-- A page enters the table: merged with the entry before it, as a new entry, or left out beyond 64. -/
def addPage (t : List Extent × Nat) (x : Extent) : List Extent × Nat :=
  match t.1.getLast? with
  | none => ([x], t.2)
  | some l =>
    if mergeable l x then (t.1.dropLast ++ [{ l with len := l.len + x.len }], t.2)
    else if t.1.length < 64 then (t.1 ++ [x], t.2) else (t.1, t.2 + 1)

/-- The extent table of a task and the pages left out for want of an entry (R25). -/
def buildExtents (s : State) (ctx : Nat) : List (Nat × Nat × Nat) → List Extent × Nat → CpR (List Extent × Nat)
  | [], t => .ok t
  | (b, n, a) :: r, t => match rangePages s ctx a (n / 65536 + 2) b (b + n) with
    | .error e => .error e
    | .ok ps => buildExtents s ctx r ((ps.map (pageExtent a)).foldl addPage t)

/-! ## Tensor descriptors (R31-R34) -/

/-- A code names an element format, or "as described" (R109). -/
def fmtOk (f : Nat) : Bool := f ≤ 8 || (0x10 ≤ f && f ≤ 0x15) || f = 0x18 || f = 0x19
/-- Bytes to which bases and strides are aligned (R32, R33). -/
def fmtAlign (f : Nat) : Nat := if fmtWidth f < 8 then 1 else fmtWidth f / 8

/-- A descriptor's eight words, checked (R32, R33). -/
def parseDesc (ws : List Nat) : Option TDesc :=
  let w (i : Nat) : Word := BitVec.ofNat 64 (ws.getD i 0)
  let rank := bits (w 0) 56 3
  let fmt := bits (w 1) 0 8
  let al := fmtAlign fmt
  let dims := List.range rank
  let size (d : Nat) : Nat := bits (w (2 + d)) 0 24
  let stride (d : Nat) : Int := sext 40 (bits (w (2 + d)) 24 40)
  if !bit (w 0) 63 || bits (w 0) 59 4 ≠ 0 || rank = 0 || 5 < rank || !fmtOk fmt || bits (w 0) 0 56 % al ≠ 0 ||
     bits (w 1) 12 20 ≠ 0 || 3 < bits (w 1) 8 4 || dims.any (fun d => size d = 0) || bits (w 2) 24 40 ≠ 0 ||
     dims.any (fun d => stride d % (al : Int) ≠ 0) || w 7 ≠ 0 then none
  else some { rank := rank, base := bits (w 0) 0 56, pad := BitVec.ofNat 32 (bits (w 1) 32 32), swz := bits (w 1) 8 4, fmt := fmt,
              sizes := dims.map size, strides := dims.map stride }

/-- The frozen descriptor of a handle: none where it is beyond COUNT, unreadable or bad (R34). -/
def readDesc (s : State) (ctx h : Nat) : CpR (Option TDesc) :=
  let r := rdReg s (.tdtBase ctx)
  if bits r 0 13 ≤ h then .ok none else
  match cpRun s ctx (bits r 16 40 * 65536 + 64 * h) 8 8 with
  | .error none => .error none
  | .error (some _) => .ok none
  | .ok ws => .ok (parseDesc ws)

/-- The frozen descriptors of a task's handles. -/
def readDescs (s : State) (ctx : Nat) : List Nat → CpR (FMap (Option TDesc))
  | [] => .ok []
  | h :: r => match readDesc s ctx h with
    | .error e => .error e
    | .ok d => match readDescs s ctx r with
      | .error e => .error e
      | .ok m => .ok (mput m h d)

/-! ## Report slots (R106, R187) -/

/-- Bytes of a little-endian number. -/
def leBytes (v n : Nat) : List Byte := (List.range n).map fun i => BitVec.ofNat 8 (v / 2 ^ (8 * i))

/-- The 1,024 bytes of a report (R106). -/
def reportBytes (status taskid beg fin xover : Nat) (hot : FMap Hot) : List Byte :=
  leBytes status 4 ++ leBytes taskid 4 ++ leBytes beg 8 ++ leBytes fin 8 ++ leBytes (if xover < 65536 then xover else 65535) 2 ++
  leBytes 0 38 ++ ((List.range 64).flatMap fun b =>
    let h := mget {} hot b
    leBytes h.bytes 6 ++ leBytes h.stall 4 ++ leBytes h.casc 2) ++ leBytes 0 192

/-- Bytes written at a PA. -/
def wrBytes (s : State) (pa : Nat) (bs : List Byte) : State :=
  (bs.mapIdx fun i b => (i, b)).foldl (fun s (i, b) => wrByte s (pa + i) b) s

/-- A report slot is written (R38, R106). -/
def writeReport (s : State) (slot : Nat) (bs : List Byte) : State := wrBytes s (fixedPa + 0x10000 + 1024 * (slot % 64)) bs

/-! ## Packets and their completion (R335) -/

/-- A packet of a queue. -/
def pktOf (s : State) (q pk : Nat) : Option Pkt := (mget {} s.queues q).pkts.find? fun p => p.id = pk
/-- Word i of a packet. -/
def Pkt.word (p : Pkt) (i : Nat) : Word := p.words.getD i 0
/-- TYPE (R335). -/
def Pkt.type (p : Pkt) : Nat := bits (p.word 0) 8 8
/-- The context of a queue. -/
def queueCtx (s : State) (q : Nat) : Nat := bits (rdReg s (.qCfg q)) 20 4

/-- A write that the command processor made for a packet has still to perform: the release before the signal (R335). -/
def cpWrites (s : State) (q pk : Nat) : Bool :=
  (s.peerOut.any fun o => o.src = .cp q pk) || (s.net ++ s.held).any fun m => match m with
    | .homeWrite h => h.src = .cp q pk
    | _ => false

/-- One update of a completion signal (R335): none where its word is on its way; a faulting update is dropped. -/
def signalUpdate (s : State) (q pk : Nat) (out : BitVec 7) (sig : Word) : Option State :=
  if sig = 0 then some s
  else if cpWrites s q pk then none
  else
    let a : AtomReq := { kind := .signal, wide := true, signed := false, x := BitVec.ofNat 64 (out.toNat * 2 ^ 56), y := 0,
                         core := 0, seq := 0, tag := 0, region := 0 }
    let dropped (s : State) : Option State := some (evPost s 2 q sig)
    match cpPage s (queueCtx s q) sig.toNat .atomic true with
    | .error none => none
    | .error (some _) => dropped s
    | .ok (pa, _) =>
      if isPeerPa pa then some (peerWrite s (peerPod pa) (.atomic (peerWord pa) a) (.cp q pk))
      else if spaceOf pa = 2 || spaceOf pa = 3 then dropped s
      else
        if protectedPa s pa && !dropsPa s pa && pgState s ≠ 2 then none else
        let w := pa / 4
        let top (x : Nat) : Nat := if isHostPa (4 * x) then plGw 0 else plHome (homeChip (4 * x))
        match takeTop s 0 w with
        | .wait => none
        | .bad => dropped s
        | .lost s => dropped s
        | .ok s0 x0 => match takeTop s0 0 (w + 1) with
          | .wait => none
          | .bad => dropped s0
          | .lost s => dropped s
          | .ok s1 x1 => match atomWords a [x0, x1] with
            | [n0, n1] => some (setLvl (setLvl (l2Use s1 pa none true) (top w) w (.held n0.v n0.p)) (top (w + 1)) (w + 1) (.held n1.v n1.p))
            | _ => some s1

/-- A packet that is done leaves its queue once its signal is updated; the completion event of R344 follows. -/
def settlePkt (s : State) (q pk : Nat) : State :=
  match pktOf s q pk with
  | none => s
  | some p =>
    if !p.done then s else
    match signalUpdate s q pk p.out (p.word 7) with
    | none => s
    | some s =>
      let x := mget {} s.queues q
      let s := { s with queues := mput s.queues q { x with pkts := x.pkts.filter fun p => p.id ≠ pk } }
      let s := if bit (p.word 0) 3 then
          evPost s 3 q (setBits (setBits (p.word 0) 0 1 0) 56 8 p.out.toNat) else s
      send s (.queueNotify q)

/-- A packet completes with outcome bits 56 + i of R335. -/
def donePkt (s : State) (q pk : Nat) (out : BitVec 7) : State :=
  settlePkt (modPkt s q pk fun p => { p with started := true, done := true, out := p.out ||| out }) q pk

/-! ## Order within a queue (R337) -/

/-- The nodes that contain a packet. -/
def ancestors (ps : List Pkt) : Nat → Option Nat → List Nat
  | 0, _ => []
  | _, none => []
  | n + 1, some i => i :: ancestors ps n ((ps.find? fun p => p.id = i).bind (·.parent))

/-- A packet has started; a node that chooses one list, once every packet of that list has. -/
def fullyStarted (ps : List Pkt) (p : Pkt) : Bool :=
  p.started && p.type ≠ 0x14 && p.type ≠ 0x15 && p.type ≠ 6 && match p.node with
    | none => p.done || (p.type ≠ 5 && p.type ≠ 7)
    | some n => n.len ≤ n.next && (ps.filter fun c => c.parent = some p.id).all (·.started)

/-- A packet may start (R337, R91). -/
def mayStart (s : State) (q : Nat) (p : Pkt) : Bool :=
  let ps := (mget {} s.queues q).pkts
  let up := ancestors ps 8 p.parent
  let before := (ps.takeWhile fun x => x.id ≠ p.id).filter fun x => !up.contains x.id
  !p.started && !p.done && before.all (fullyStarted ps) &&
  ((p.type = 1 && !bit (p.word 0) 1) || before.isEmpty)

/-- A packet's turn has come or it has started: the packet, for events of one type. -/
def onTurn (s : State) (q pk type : Nat) : Option Pkt :=
  match pktOf s q pk with
  | none => none
  | some p => if p.type = type && (p.started || mayStart s q p) then some p else none

/-- A packet starts. -/
def startPkt (s : State) (q pk : Nat) : State :=
  modPkt s q pk fun p => if p.started then p else { p with started := true, clk0 := s.clk }

end Sys2Proof.Machine
end

