-- ==== Sys2Proof/Machine/Group.lean ====
section
/-! DEFINITION. The coding group: configuration and encoding (R139, R140), deltas (R152), rounds (R154-R158), exchange and
decision (R159, R160), restore (R161), isolation (R162, R417), rebuild (R164) and group messages (R166). -/
namespace Sys2Proof.Machine

/-! ## Packets of rounds (R154) -/

/-- Round packets that wait for the outcome of the open round complete. -/
def doneRounds (s : State) (out : BitVec 7) : State :=
  let s' := s.group.rounds.foldl (fun s (q, pk) => donePkt s q pk out) s
  { s' with group := { s'.group with rounds := [] } }

/-! ## Parameter engines at a round's end (R157, R369) -/

/-- At a commit every block's step is recorded (R369). -/
def peCommit (s : State) : State :=
  { s with pes := s.pes.map fun (e, p) => (e, { p with blocks := p.blocks.map fun (b, x) => (b, { x with saved := x.step }) }) }

/-- A block's intake halves zeroed. -/
def zeroIntake (s : State) (e : Nat) (x : PeBlk) (h : Nat) : State :=
  let w := (bits (rdReg s (.peIntk e)) 16 36 * 65536 + x.intoff + 4 * h * x.nelem) / 4
  (List.range x.nelem).foldl (fun s i => homePoke s (w + i) 0 .none) s

/-- At an abort every block returns to the recorded step, its intake is zeroed and what it held is refused; writes of masters and moments
that still wait are dropped with the step they belong to (R369). -/
def peAbort (s : State) : State :=
  let keep (m : Instr) : Bool := match m with
    | .homeWrite h => match h.src with
      | .pe _ => !protectedPa s (4 * h.w)
      | _ => true
    | _ => true
  let s := { s with net := s.net.filter keep, held := s.held.filter keep }
  s.pes.foldl (fun s (e, p) =>
    let s := p.blocks.foldl (fun s (_, x) =>
      x.held.foldl (fun s (_, o) => remoteDone s o.src true) (zeroIntake (zeroIntake s e x 0) e x 1)) s
    { s with pes := mput s.pes e { p with blocks := p.blocks.map fun (b, x) =>
      (b, { x with step := x.saved, got0 := [], got1 := [], held := [] }) } }) s

/-! ## Members -/

/-- MST of a member (R147). -/
def memberSt (s : State) (i : Nat) : Nat := bits (rdReg s (.pgMemb i)) 0 2
/-- Members that are present, oneself included. -/
def present (s : State) : List Nat := (List.range (pgN s)).filter fun i => memberSt s i = 0
/-- Marks members failed: MISSING, MST = 1, REASON and the MFAIL event (R143, R146, R159); a rebuild into one of them ends (R163). -/
def markFailed (s : State) (mask : W32) : State :=
  let new := (List.range (pgN s)).filter fun i => mask.getLsbD i && memberSt s i ≠ 1
  let s := new.foldl (fun s i => wrReg s (.pgMemb i) (setBits (rdReg s (.pgMemb i)) 0 2 1)) s
  let s := wrReg s .pgSts (setBits (rdReg s .pgSts) 0 32 (Nat.lor (pgMissing s) mask.toNat))
  let s := { s with group := { s.group with rebuilds := s.group.rebuilds.filter fun i => !mask.getLsbD i } }
  if new.isEmpty then s else pgEvent (setPgReason s 1) 4
/-- Number of bits of a member mask. -/
def maskCount (m : Nat) : Nat := popCount (BitVec.ofNat 32 m)
/-- Running, or Degraded while members are missing. -/
def settle (s : State) : State := setPgState s (if pgMissing s = 0 then 2 else 7)

/-- Another member's index. -/
def isOther (s : State) (src : Nat) : Bool := src < pgN s && src ≠ pgSelf s
/-- In Isolated every group message from another member is answered with ISOLATED (R162). -/
def answerIsolated (s : State) (src : Nat) : State := if isOther s src then toMember s src (.isolated (pgSelf s)) else s

/-- A group message is dropped in Disabled and where its sender's MST is not among `msts`, and answered in Isolated (R162, R166). -/
def groupMsgFrom (msts : List Nat) (s : State) (src : Nat) (f : State → State) : Out :=
  .next (if pgState s = 8 then answerIsolated s src
  else if pgState s = 0 || !isOther s src || !msts.contains (memberSt s src) then s
  else f s)

/-- A group message from a present member (R166); in Lost and Spare it is no event of the state (R160). -/
def groupMsg (s : State) (src : Nat) (f : State → State) : Out :=
  groupMsgFrom [0] s src fun s => if pgState s = 9 || pgState s = 10 then s else f s
/-- A message of an exchange, in which a module that is being rebuilt takes part (R160; log entry 74). -/
def exchMsg (s : State) (src : Nat) (f : State → State) : Out := groupMsgFrom [0, 2] s src f

/-! ## Words that leave every level -/

/-- A message under way that a dropped word leaves: a load asks anew at the top of its chain; what would register, displace, recall or
acknowledge the word is gone. -/
def askAgain (mine : Nat → Bool) (m : Instr) : Option Instr :=
  let load (w : Nat) (ret : Ret) : Option Instr := if !mine w then some m else match ret with
    | .load k _ _ _ _ _ => let top := (chain k w).getLastD 0; some (.forwardedRead w top top ret)
    | _ => none
  let keep (w : Nat) : Option Instr := if mine w then none else some m
  match m with
  | .registration _ w _ _ _ _ => keep w
  | .registrationAck _ w _ _ => keep w
  | .displacement w _ _ _ => keep w
  | .recallWord _ w => keep w
  | .forwardedRead w _ _ ret => load w ret
  | .notHeldAnswer w _ _ ret _ => load w ret
  | .readReply w _ ret _ _ _ _ => load w ret
  | m => some m

/-- A level holds a copy of a word, not its registration (R44). -/
def Lvl.isCopy : Lvl → Bool
  | .copy _ _ => true
  | _ => false

/-- Words leave every level, with the requests for them that are under way: their registrations and dirty values (R160, R161) and, where
`copies` says so, the copies that are not registered too (R65 step 5); else those keep the older value (R52, R55). -/
def dropWords (copies : Bool) (s : State) (mine : Nat → Bool) : State :=
  let goes (l : Nat) : Bool := mine (32 * l) && (copies || (lineWords l).any fun w => match lvlAt s (plHome (homeChip (4 * w))) w with
    | some (.held _ _) => true
    | _ => false)
  let s := { s with
    lvl := s.lvl.filter fun (k, x) => !mine (k % 2 ^ 50) || (!copies && x.isCopy)
    gw := s.gw.filter fun (k, x) => !mine (32 * (k % 2 ^ 50)) || (!copies && x = .shared)
    l2 := s.l2.filter fun (l, _) => !goes l
    l2q := s.l2q.filter fun u => !goes u.line
    locks := s.locks.filter fun (_, w) => !mine w
    ownReq := s.ownReq.filter fun (w, _) => !mine w
    net := s.net.filterMap (askAgain mine)
    held := s.held.filterMap (askAgain mine)
    cores := s.cores.map fun (k, c) => (k, Core.prune { c with
      l1 := c.l1.filter fun (w, x) => !mine w || (!copies && x.st = .v), outst := c.outst.filter fun o => !mine o.w,
      l1err := c.l1err.filter fun w => !mine w }) }
  pruneLvl s

/-! ## Commit and restore (R157, R161) -/

/-- R157: commit of the open round. -/
def commitRound (s : State) : State :=
  let orn := (pgOrn s + 1) % 2 ^ 32
  let held := s.group.held
  let s := setRnd s orn (pgOrn s)
  let s := wrReg s .pgJfill 0
  let s := { s with group := { s.group with
    journal := [], deltas := [], held := [], votes := s.group.heldVotes, heldVotes := 0, high := false, wrote := false } }
  let s := peCommit { s with net := s.net ++ held }
  doneRounds (pgEvent s 0) 0

/-- R161 step 1, R160: every protected word registered below its home is displaced without data, and every dirty protected line leaves the
L2; copies stay (R55). -/
def displaceProtected (s : State) : State := dropWords false s fun w => protectedPa s (4 * w)

/-- R161 steps 1-3: protected words below their homes are displaced, every record written back. -/
def restoreJournal (s : State) : State :=
  let s := displaceProtected s
  let s := s.group.journal.foldl (fun s ((line, r) : Nat × JRec) => setMemLine s line r.pre) s
  let s := wrReg s .pgJfill 0
  { s with group := { s.group with
    journal := [], deltas := [], held := [], votes := s.group.heldVotes, heldVotes := 0, high := false, wrote := false } }

/-- R161 steps 1 to 4, R369. -/
def restoreRound (s : State) : State :=
  let s := peAbort (restoreJournal s)
  doneRounds (pgEvent { s with group := { s.group with restored := some (pgOrn s), mend := true } } 1) 4

/-- Stripe of the parity unit at a PA of the own parity area (R137, R138). -/
def parityStripe (s : State) (pa : Nat) : Nat :=
  let (b, len) := areaOf s .pgAreaP
  let p := stackOf pa * (len / 4096) + (stackOff pa - b) / 4096
  p / pgM s * pgN s + (pgSelf s + pgN s - p % pgM s) % pgN s

/-- Stripes whose unit in this module, data or parity, has an uncorrectable error. -/
def damagedStripes (s : State) : List Nat :=
  let (b, len) := areaOf s .pgAreaP
  let one (w : Nat) : Option Nat :=
    let pa := 4 * w
    if protectedPa s pa then some (stripeOf (pgN s) (pgM s) (pgSelf s) (dataUnit s pa)).1
    else if isHbm pa && b ≤ stackOff pa && stackOff pa < b + len then some (parityStripe s pa)
    else none
  (s.bad.filterMap fun e => if e.1 < 2 ^ 50 then one e.1 else none).eraseDups

/-! ## Exchange (R159, R160) -/

/-- The lowest-indexed member that is neither suspected nor missing; a module under rebuild is a member (R159, R160). -/
def coordOf (s : State) (suspects : W32) : Nat :=
  ((List.range (pgN s)).find? fun i => memberSt s i ≠ 1 && !suspects.getLsbD i).getD (pgSelf s)

/-- Own answer to a vote query for a round (R159). -/
def ownAns (s : State) (rnd : Nat) : VAns :=
  { member := pgSelf s, crn := pgCrn s,
    votes := if rnd = pgOrn s then s.group.votes else if rnd = (pgOrn s + 1) % 2 ^ 32 then s.group.heldVotes else 0,
    committed := decide (pgCrn s = rnd), restored := s.group.restored = some rnd || (pgState s = 6 && rnd = pgOrn s),
    dec := match s.group.dec with
      | some (r, d) => if r = rnd then some d else none
      | none => none }

/-- The member receives the data of its group, or exchanges having done so: it does not know the open round yet (R160). -/
def receiving (s : State) : Bool := pgState s = 11 || (pgState s = 5 && s.group.exch.any fun e => e.from_ = 11)
/-- A round is the open one. -/
def isOpen (s : State) (rnd : Nat) : Bool := rnd = pgOrn s || receiving s
/-- The same for a message of a member: one that is being rebuilt does not know the open round, and means it (R160; log entry 74). -/
def isOpenFrom (s : State) (src rnd : Nat) : Bool := isOpen s rnd || memberSt s src = 2
/-- A round is older than the open one (R144). -/
def isOlder (s : State) (rnd : Nat) : Bool :=
  let d := (pgOrn s + 2 ^ 32 - rnd) % 2 ^ 32
  0 < d && d < 2 ^ 31 && !receiving s

/-- Sends one's own answer: for the open and the next round the member's state, for an older one CRN only (R166). -/
def sendAns (s : State) (dst rnd : Nat) : State :=
  if isOpen s rnd || rnd = (pgOrn s + 1) % 2 ^ 32 then
    let a := ownAns s rnd
    toMember s dst (.vset (pgSelf s) rnd a.crn a.votes a.committed a.restored a.dec)
  else if isOlder s rnd then toMember s dst (.vset (pgSelf s) rnd (pgCrn s) 0 false false none)
  else s

/-- A member enters Exchange: from Running or Preparing it first sends ABORT and stops its protected tasks (R159). -/
def enterExchange (s : State) (suspects : W32) (reason : Nat) : State :=
  let st := pgState s
  let s := if st = 2 || st = 3 then
      setPgReason (stopProtected (toMembers s (.abort (pgSelf s) (pgOrn s) reason))) reason else s
  let from_ := match s.group.exch with
    | some e => if st = 5 then e.from_ else st
    | none => st
  let c := coordOf s suspects
  let s := wrReg s .pgSts (setBits (rdReg s .pgSts) 40 5 c)
  let s := setPgState { s with group := { s.group with exch := some { from_ := from_, suspects := suspects, coord := c } } } 5
  if c = pgSelf s then toMembers s (.vquery (pgSelf s) (pgOrn s)) else s

/-- A member is suspected (R159); in Restoring the suspicion stands until the restore has ended (R163). -/
def suspect (s : State) (f reason : Nat) : State :=
  let st := pgState s
  let m : W32 := 1#32 <<< f
  if f = pgSelf s || pgN s ≤ f || memberSt s f = 1 then s
  else if st = 6 then { s with group := { s.group with suspects := s.group.suspects ||| m } }
  else if st = 2 || st = 3 || st = 4 || st = 7 || st = 11 then enterExchange s m reason
  else match s.group.exch with
    | some e =>
      if st ≠ 5 || e.suspects.getLsbD f then s
      else if e.coord = f then enterExchange s (e.suspects ||| m) reason
      else { s with group := { s.group with exch := some { e with suspects := e.suspects ||| m } } }
    | none => s

/-- Isolated or Lost: an isolated member drops its protected state at every level (R160, R162, R165). -/
def dropProtected (s : State) (st ev : Nat) : State :=
  let s := wrReg (if st = 8 then displaceProtected s else s) .pgJfill 0
  let s := { s with group := { s.group with
    journal := [], deltas := [], held := [], votes := 0, heldVotes := 0, exch := none, rebuilds := [], late := [], asking := false, rblds := [],
    await := false, suspects := 0 } }
  doneRounds (pgEvent (setPgState s st) ev) 8

/-- The member's own turn in a rebuild: a message to itself. -/
def isTurn (s : State) : Instr → Bool
  | .rebuild src _ _ [] => src = pgSelf s
  | _ => false

/-- A DECIDE acts on a member in Exchange (R160); rebuilds under way restart (R163). Where an abort names no member that is new, REASON keeps
its value: that is the model's choice (log entry 84). -/
def applyDecision (s : State) (d : Decision) : State :=
  match s.group.exch with
  | none => s
  | some e =>
    let s := { s with group := { s.group with exch := none, dec := some (pgOrn s, d) } }
    if d.failed.getLsbD (pgSelf s) then dropProtected s 8 6
    else if pgM s < maskCount (Nat.lor (pgMissing s) d.failed.toNat) then dropProtected (markFailed s d.failed) 9 7
    else
      let s := markFailed s d.failed
      if e.from_ = 11 then setPgState { s with group := { s.group with got := [], gotRnd := none, joined := [] } } 11
      else if e.from_ = 7 then
        let s := { s with net := (s.net.filter fun m => !isTurn s m) ++ s.group.rebuilds.map fun i => Instr.rebuild (pgSelf s) 0 i [] }
        settle { s with group := { s.group with late := [] } }
      else if d.commit then settle (commitRound s)
      else setPgState s 6

/-- A DECIDE reaches a member that restores already, as an ABORT sent it to Restoring from Voted: it takes the failed members from it, so
that it ends as the others do (R399). -/
def decideRestoring (s : State) (d : Decision) : State :=
  let s := { s with group := { s.group with dec := some (pgOrn s, d), await := false } }
  if d.failed.getLsbD (pgSelf s) then dropProtected s 8 6
  else if pgM s < maskCount (Nat.lor (pgMissing s) d.failed.toNat) then dropProtected (markFailed s d.failed) 9 7
  else markFailed s d.failed

/-- The coordinator decides with the answers it has, if they are enough; else it is Isolated (R159). -/
def coordinate (s : State) (e : Exch) : State :=
  let orn := pgOrn s
  let ans := ownAns s orn :: e.answers
  let n := pgN s
  let cnt := ans.length
  if cnt < n - pgM s || cnt * 2 ≤ n then dropProtected s 8 6 else
  let failed : W32 := (List.range n).foldl (fun m i =>
    if (ans.any fun a => a.member = i) || memberSt s i = 1 then m else m ||| (1#32 <<< i)) 0
  let all := ans.foldl (fun m a => m ||| a.votes) 0
  let d : Decision := match ans.findSome? (·.dec) with
    | some d => d
    | none => ⟨ans.any (fun a => a.committed || a.crn = orn) || maskCount all.toNat = n, failed⟩
  let s := e.answers.foldl (fun s a => toMember s a.member (.decide (pgSelf s) orn d)) s
  applyDecision s d

/-- States in which an exchange is no event: only older rounds are answered there (R160, R166). -/
def offExchange (s : State) : Bool := pgState s = 1 || pgState s = 9 || pgState s = 10

/-- R159: a vote query; older rounds are answered with CRN, the own and the next round with the member's own state. A member in Restoring
learns from it that an exchange is under way. -/
def execVquery (src rnd : Nat) (s : State) : Out :=
  exchMsg s src fun s =>
    let st := pgState s
    let s := if isOpenFrom s src rnd && (st = 2 || st = 3 || st = 4 || st = 7 || st = 11) then enterExchange s 0 1
      else if isOpenFrom s src rnd && st = 6 then { s with group := { s.group with await := true } } else s
    if offExchange s && !isOlder s rnd then s else sendAns s src rnd

/-- R159, R166: an answer reaches the coordinator, which decides once every member has answered that is not missing; for another round it
is answered, but not where it is itself an answer with CRN only. -/
def execVset (src rnd crn : Nat) (votes : W32) (committed restored : Bool) (dec : Option Decision) (s : State) : Out :=
  exchMsg s src fun s =>
    if !isOpen s rnd then
      (if (isOlder s rnd && votes = 0 && !committed && !restored && dec.isNone) || (offExchange s && !isOlder s rnd) then s else sendAns s src rnd)
    else match s.group.exch with
    | none => s
    | some e =>
      if pgState s ≠ 5 || e.coord ≠ pgSelf s then s else
      let e := { e with answers := (e.answers.filter fun a => a.member ≠ src) ++ [⟨src, crn, votes, committed, restored, dec⟩] }
      let s := { s with group := { s.group with exch := some e } }
      if (List.range (pgN s)).all fun i => i = pgSelf s || memberSt s i = 1 || e.answers.any fun a => a.member = i then coordinate s e else s

/-- R159: members that have not answered within PG_TMO.VS are declared failed. -/
def execVsetTimeout (s : State) : Out :=
  .next (match s.group.exch with
  | some e =>
    if pgState s = 5 && e.coord = pgSelf s && s.group.since + bits (rdReg s .pgTmo) 16 16 * 65536 ≤ s.clk then coordinate s e else s
  | none => s)

/-- R160: a DECIDE for the open round acts in Exchange, and in Restoring (R399); other rounds are answered. -/
def execDecide (src rnd : Nat) (d : Decision) (s : State) : Out :=
  exchMsg s src fun s =>
    if !isOpenFrom s src rnd then (if offExchange s && !isOlder s rnd then s else sendAns s src rnd)
    else if pgState s = 5 then applyDecision s d else if pgState s = 6 then decideRestoring s d else s

/-- R159: no DECIDE within 2 × PG_TMO.VS: the next coordinator. -/
def execDecideTimeout (s : State) : Out :=
  .next (match s.group.exch with
  | some e =>
    if pgState s = 5 && e.coord ≠ pgSelf s && s.group.since + 2 * (bits (rdReg s .pgTmo) 16 16 * 65536) ≤ s.clk then
      enterExchange s (e.suspects ||| (1#32 <<< e.coord)) 1
    else s
  | none => s)

/-- R159: a DACK has not come within PG_TMO.DELTA. In Running and Preparing both the row of R158's causes and that of a suspicion name
this event; the model takes the suspicion, which goes to Exchange (log entry 75). -/
def execDackTimeout (member : Nat) (s : State) : Out :=
  .next (if s.group.deltas.any fun d => d.member = member && d.clk + bits (rdReg s .pgTmo) 32 16 * 65536 ≤ s.clk
    then suspect s member 4 else s)

/-- R159: the VOTE timeout: the members whose vote is missing are suspected. -/
def execVoteTimeout (s : State) : Out :=
  .next (if pgState s = 4 && s.group.since + bits (rdReg s .pgTmo) 0 16 * 65536 ≤ s.clk then
    enterExchange s ((present s).foldl (fun m i => if s.group.votes.getLsbD i then m else m ||| (1#32 <<< i)) 0) 1 else s)

/-- R159: the Stoltis service core reports a member dead. -/
def execMemberDeadReport (member : Nat) (s : State) : Out := .next (suspect s member 1)

/-- Members whose every route is down are suspected (R159). -/
def suspectRoutes (s : State) : State :=
  if !pgMember s then s else
  (others s).foldl (fun s i => if memberSt s i ≠ 1 && routeOf s (memberPod s i) = .down then suspect s i 1 else s) s

/-- No DECIDE is to be expected any more in Restoring: none is under way, or none has come within 2 × PG_TMO.VS (R159). -/
def decideDue (s : State) : Bool := s.group.await && s.clk < s.group.since + 2 * (bits (rdReg s .pgTmo) 16 16 * 65536)

/-- The restore ends (R160); members suspected meanwhile and not known to have failed are suspected now (R163). -/
def restored (s : State) : State :=
  let sus := s.group.suspects
  let s := settle (setRnd { s with group := { s.group with mend := false, await := false, suspects := 0 } } ((pgOrn s + 1) % 2 ^ 32) (pgCrn s))
  (others s).foldl (fun s i => if sus.getLsbD i then suspect s i 1 else s) s

/-- R161, R369: the round is restored; after an abort with reason 5 the damaged units are rebuilt in place, by requests to the members that
start their stripes; then the restore ends, where an exchange about the round is under way once its DECIDE has come (R399). -/
def execRestoreDone (s : State) : Out :=
  if pgState s ≠ 6 then .next s else
  let hurt (s : State) : List Nat := if bits (rdReg s .pgSts) 56 4 = 5 then damagedStripes s else []
  let s := if s.group.mend then s else
    let t := restoreRound s
    (hurt t).foldl (fun t st => toMembers t (.rebuild (pgSelf t) st (pgSelf t) [])) t
  .next (if !(hurt s).isEmpty || decideDue s then s else restored s)

/-! ## Deltas (R152, R153, R156) -/

/-- Bytes XORed into a line. -/
def xorLine (s : State) (line : Nat) (bytes : List Byte) : State :=
  let old := laneBytes (memLine s line)
  let new := List.zipWith (fun a b => a ^^^ b) old bytes
  setMemLine s line ((List.range 32).map fun i => ⟨bytesWord new i, (memWord s (32 * line + i)).p⟩)

/-- R152: a parity holder applies a delta of its round, and acknowledges it. -/
def execDelta (src rnd unit off : Nat) (bytes : List Byte) (s : State) : Out :=
  groupMsg s src fun s =>
    let st := pgState s
    if rnd = (pgOrn s + 1) % 2 ^ 32 then { s with group := { s.group with held := s.group.held ++ [.delta src rnd unit off bytes] } }
    else if rnd ≠ pgOrn s || !(st = 2 || st = 3 || st = 4) then s else
    let line := (parityPa s unit + off) / 128
    if hbmRes s (128 * line) = .held then send s (.delta src rnd unit off bytes) else
    if hbmRes s (128 * line) = .failed || (List.range 32).any fun i => mget false s.bad (32 * line + i) then abortRound s 5 else
    match jRecord (touchStack s (128 * line)) line true with
    | none => if st = 4 then s else abortRound (pgEvent s 3) 2
    | some s => toMember (xorLine s line bytes) src (.dack (pgSelf s) rnd (32 * unit + off / 128))

/-- The member votes: PREPARED to all others; with every vote it commits (R156, R157). -/
def voteRound (s : State) : State :=
  let s := toMembers s (.prepared (pgSelf s) (pgOrn s))
  let s := setPgState { s with group := { s.group with votes := s.group.votes ||| (1#32 <<< pgSelf s) } } 4
  if maskCount s.group.votes.toNat = pgN s then settle (commitRound s) else s

/-- R156: an acknowledgement; the last one of a prepare sends PREPARED. -/
def execDack (src rnd line : Nat) (s : State) : Out :=
  groupMsg s src fun s =>
    if rnd ≠ pgOrn s then s else
    let s := { s with group := { s.group with deltas := s.group.deltas.eraseP fun d => d.member = src && d.round = rnd && d.line = line } }
    if pgState s = 3 && s.group.wrote && s.group.deltas.isEmpty then voteRound s else s

/-- R157, R166: a vote. -/
def execPrepared (src rnd : Nat) (s : State) : Out :=
  groupMsg s src fun s =>
    let b : W32 := 1#32 <<< src
    if rnd = (pgOrn s + 1) % 2 ^ 32 then { s with group := { s.group with heldVotes := s.group.heldVotes ||| b } }
    else if rnd ≠ pgOrn s then s else
    let s := { s with group := { s.group with votes := s.group.votes ||| b } }
    if pgState s = 4 && maskCount s.group.votes.toNat = pgN s then settle (commitRound s) else s

/-- R158: ABORT for the open round; its reasons 1 and 4 say that its sender has gone to Exchange (R159, R399). -/
def execAbort (src rnd reason : Nat) (s : State) : Out :=
  groupMsg s src fun s =>
    if rnd ≠ pgOrn s then s
    else
      let t := if pgState s = 2 || pgState s = 3 then abortRound s 6
        else if pgState s = 4 then setPgReason (setPgState s 6) 6
        else s
      if pgState t = 6 && (reason = 1 || reason = 4) then { t with group := { t.group with await := true } } else t

/-- R162: dropped by the receiver. -/
def execIsolated (_src : Nat) (s : State) : Out := .next s

/-! ## Rounds (R154, R156) -/

/-- A protected task holds its cores (R93). -/
def protectedTask (s : State) : Bool :=
  s.tasks.any fun (_, t) => (t.st = .running || t.st = .setup || t.st = .saving) && t.ended.isNone && ctxMaps s t.ctx

/-- Lines with a protected word registered or held below memory. -/
def dirtyLines (s : State) : List Nat :=
  s.lvl.foldl (fun l (k, x) =>
    let w := k % 2 ^ 50
    let top := 0x1000 ≤ k / 2 ^ 50
    let dirty := match x with
      | .copy _ _ => false
      | _ => true
    if top && dirty && protectedPa s (4 * w) && !l.contains (w / 32) then l ++ [w / 32] else l) []

/-- One line written back by prepare: every word recalled, then one coded write (R49, R151). -/
def writeBackLine (s : State) (line : Nat) : Option State :=
  let words := lineWords line
  let got := words.map fun w => (w, homeFind s w)
  if got.any fun (_, f) => f = .busy then none else
  let new := got.map fun (w, f) => match f with
    | .val x _ _ => x
    | _ => (⟨(memWord s w).v, true⟩ : Lane)
  match erasureWrite s line new with
  | .wait => none
  | .refused s => some s
  | .done s => some (got.foldl (fun s (w, f) => match f with
    | .val x h path =>
      let s := path.foldl (fun s q => delLvl s q w) s
      if h < 0x200 then setL1 s h w ⟨.v, x.v, x.p⟩ else s
    | .lost path id cause => loseWord s w path id cause
    | .busy => s) s)

/-- Prepare's write-back, as far as it goes. -/
def writeBack : State → List Nat → State
  | s, [] => s
  | s, l :: r => match writeBackLine s l with
    | none => s
    | some s => if pgState s = 3 then writeBack s r else s

/-- Prepare goes on: write-back, then the vote once every delta is acknowledged (R156). -/
def prepareStep (s : State) : State :=
  let s := if s.group.wrote then s else writeBack s (dirtyLines s)
  if pgState s ≠ 3 then s else
  let s := { s with group := { s.group with wrote := (dirtyLines s).isEmpty } }
  if s.group.wrote && s.group.deltas.isEmpty then voteRound s else s

/-- Writes and pushes of an engine's update are still on their way (R94). -/
def peBusy (s : State) : Bool :=
  (s.pes.any fun (_, p) => !p.pushes.isEmpty) || (s.peerOut.any fun o => match o.src with
    | .pe _ => true
    | _ => false) || (s.net ++ s.held).any fun m => match m with
    | .homeWrite h => (match h.src with
      | .pe _ => true
      | _ => false)
    | _ => false

/-- R154, R156, R93: a round packet whose turn it is. -/
def execRound (q pk : Nat) (s : State) : Out :=
  match onTurn s q pk 3 with
  | none => .next s
  | some p =>
    if p.done then .next (settlePkt s q pk) else
    let s := startPkt s q pk
    let st := pgState s
    let mine := s.group.rounds.contains (q, pk)
    let s' : State := { s with group := { s.group with rounds := if mine then s.group.rounds else s.group.rounds ++ [(q, pk)] } }
    .next (if st = 0 || st = 8 || st = 9 || st = 10 then donePkt s q pk 8
    else if st = 1 || st = 7 || st = 11 then s
    else if !mine && bits (p.word 1) 0 32 ≠ pgOrn s then donePkt s q pk 8
    else if st = 2 then (if protectedTask s || peBusy s then s else setPgState s' 3)
    else if st = 3 then prepareStep s'
    else s')

/-! ## Configuration and encoding (R136, R138-R140) -/

/-- Ranges in 64 KiB units that do not meet. -/
def apart (a b : Nat × Nat) : Bool := a.2 = 0 || b.2 = 0 || a.1 + a.2 ≤ b.1 || b.1 + b.2 ≤ a.1

/-- No domain holds more than m members. -/
def domainsOk (s : State) (n m lo : Nat) : Bool :=
  let ids := (List.range n).map fun i => bits (rdReg s (.pgMemb i)) lo 8
  ids.all fun d => (ids.filter (· = d)).length ≤ m

/-- The conditions of R139 that the member checks itself. -/
def pgLocalOk (s : State) : Bool :=
  let n := pgN s
  let m := pgM s
  let u (r : Reg) : Nat × Nat := (bits (rdReg s r) 0 20, bits (rdReg s r) 20 20)
  let d := u .pgAreaD
  let p := u .pgAreaP
  let j := u .pgJrn
  let t := (bits (rdReg s .thmArea) 0 20, bits (rdReg s .thmArea) 32 20)
  1 ≤ m && m ≤ 4 && n ≤ 32 && 2 * m + 1 ≤ n && pgSelf s < n &&
  [d, p, j].all (fun a => a.1 + a.2 ≤ 0xC0000 && apart a t) && apart d p && apart d j && apart p j &&
  16 * (d.2 * 16) % (n - m) = 0 && (16 * (d.2 * 16) / (n - m)) * m ≤ 16 * (p.2 * 16) &&
  domainsOk s n m 24 && domainsOk s n m 32

/-- PG_MEMB without MST. -/
def membRow (v : Word) : Word := setBits v 0 2 0

/-- The settings a member reports (R139). -/
def ownCfg (s : State) : GroupCfg :=
  { n := pgN s, spare := decide (pgState s = 10), m := pgM s, aread := rdReg s .pgAreaD, areap := rdReg s .pgAreaP,
    jrn := BitVec.ofNat 64 (bits (rdReg s .pgJrn) 0 40),
    memb := (List.range (pgN s)).map fun i => membRow (rdReg s (.pgMemb i)) }

/-- A group-register write is refused: ERR, and for a configuration the CFG event. -/
def pgErr (s : State) (cfg : Bool) : State :=
  let s := wrReg s .pgCfg (setBits (rdReg s .pgCfg) 30 1 1)
  if cfg then pgEvent s 8 else s

/-- Role of member i in a stripe: its row of G over the data indices, and where its unit lies (R136, R137). -/
def unitRow (n m i st : Nat) : List Nat :=
  let k := n - m
  let j := (i + n - st % n) % n
  if j < m then (List.range k).map fun d => coef k d j
  else (List.range k).map fun d => if d = j - m then 1 else 0

/-- PA of the unit that member i holds in a stripe (R137, R138). -/
def unitAt (s : State) (i st : Nat) : Nat :=
  let n := pgN s
  let m := pgM s
  let j := (i + n - st % n) % n
  if j < m then parityPa s (st / n * m + j)
  else
    let q := ((List.range (st % n)).filter fun t => m ≤ (i + n - t) % n).length
    let (b, len) := areaOf s .pgAreaD
    unitPa b len (st / n * (n - m) + q)

/-- The 4,096 bytes at a PA. -/
def unitBytes (s : State) (pa : Nat) : List Byte := (List.range 4096).map fun i => rdByte s (pa + i)
/-- Writes a unit, clean. -/
def putUnit (s : State) (pa : Nat) (bs : List Byte) : State :=
  (List.range 1024).foldl (fun s i => setMemWord s (pa / 4 + i) ⟨bytesWord bs i, false⟩) s

/-- Data units of the member that hold any listed byte. -/
def usedUnits (s : State) : List Nat :=
  s.mem.foldl (fun l (a, _) =>
    if protectedPa s a && !l.contains (dataUnit s a) then l ++ [dataUnit s a] else l) []

/-- All members of the group. -/
def allMembers (s : State) : W32 := BitVec.ofNat 32 (2 ^ pgN s - 1)

/-- A message of the configuration exchange. -/
def cfgMsg (s : State) (p : CfgPhase) : Instr := .configExchange (pgSelf s) { ownCfg s with phase := p }

/-- A member that has the shares of every other has encoded, and says so (R139). -/
def encodedNow (s : State) : State :=
  if pgState s ≠ 1 || s.group.shared ≠ allMembers s || s.group.encoded.getLsbD (pgSelf s) then s else
  toMembers { s with group := { s.group with encoded := s.group.encoded ||| (1#32 <<< pgSelf s) } } (cfgMsg s .encoded)

/-- The own data units' shares of the parity units that member i holds, and word that they are all sent (R139). -/
def shareWith (s : State) (i : Nat) : State :=
  let n := pgN s
  let m := pgM s
  let (b, len) := areaOf s .pgAreaD
  let s := (usedUnits s).foldl (fun s u =>
    let (st, d) := stripeOf n m (pgSelf s) u
    let data := unitBytes s (unitPa b len u)
    (List.range m).foldl (fun s j =>
      let (h, _) := parityOf n m st j
      let c := coef (n - m) d j
      if h ≠ i then s else toMember s h (.rebuild (pgSelf s) st h (data.map fun x => BitVec.ofNat 8 (gfMul c x.toNat)))) s) s
  toMember s i (cfgMsg s .shared)

/-- Encoding begins (R139): the parity area starts from zero, and every data unit's share goes to its parity holders. -/
def startEncoding (s : State) : State :=
  let (pb, pl) := areaOf s .pgAreaP
  let s := wrReg s .pgCfg (setBits (setBits (rdReg s .pgCfg) 31 1 1) 32 1 0)
  let inP (a : Nat) : Bool := isHbm a && pb ≤ stackOff a && stackOff a < pb + pl
  let self : W32 := 1#32 <<< pgSelf s
  let s := { s with mem := s.mem.filter fun (a, _) => !inP a,
                    group := { since := s.clk, ready := s.group.ready ||| self, shared := self } }
  let s := wrReg (setPgState s 1) .pgJfill 0
  let s := toMembers s (cfgMsg s .encoding)
  encodedNow ((others s).foldl (fun s i => if s.group.ready.getLsbD i then shareWith s i else s) s)

/-- R139: a write of EN = 1 in Disabled checks what the member can check and asks every other member for its settings. -/
def startConf (s : State) : State :=
  if !pgLocalOk s then pgErr s true
  else
    let s := { s with group := { s.group with asking := true, confs := 1#32 <<< pgSelf s } }
    toMembers s (cfgMsg s .ask)

/-- The entry that a rebuild gives an index (R164). -/
def rbldRow (v : Word) : Word := setBits (setBits (setBits 0 16 6 (bits v 16 6)) 24 8 (bits v 24 8)) 32 8 (bits v 32 8)

/-- R139: a member's settings are held against the own. -/
def settingsCome (src : Nat) (cfg : GroupCfg) (s : State) : State :=
  if !s.group.asking then s else
  let s' := { s with group := { s.group with asking := false, confs := 0 } }
  if pgState s ≠ 0 then s'
  else if { cfg with phase := .ask } ≠ ownCfg s then pgErr s' true
  else
    let c := s.group.confs ||| (1#32 <<< src)
    if c = allMembers s then startEncoding s' else { s with group := { s.group with confs := c } }

/-- R164: the settings of the module that is to take an index are held against the group's; it has to be in Spare. -/
def spareComes (cfg : GroupCfg) (s : State) : State :=
  let i := cfg.index
  match mlook s.group.rblds i with
  | none => s
  | some v =>
    let s' := { s with group := { s.group with rblds := mdel s.group.rblds i } }
    let mine := ownCfg s
    if { cfg with phase := .ask, index := 32 } ≠ { mine with memb := mine.memb.set i (rbldRow v), spare := true } then pgErr s' true
    else
      let s := wrReg s' (.pgMemb i) (setBits (rbldRow v) 0 2 2)
      send { s with group := { s.group with rebuilds := s.group.rebuilds.filter (· ≠ i) ++ [i] } } (.rebuild (pgSelf s) 0 i [])

/-- R139, R164: the configuration exchange: a member is asked for its settings, or another's settings or progress arrive. -/
def execConfigExchange (src : Nat) (cfg : GroupCfg) (s : State) : Out :=
  let bit_ : W32 := 1#32 <<< src
  let st := pgState s
  .next (if st = 8 then answerIsolated s src else match cfg.phase with
  | .ask =>
    let s := toMember s src (.configExchange (pgSelf s) { ownCfg s with phase := .report, index := cfg.index })
    if cfg.index = 32 then settingsCome src cfg s else s
  | .report => if cfg.index = 32 then settingsCome src cfg s else spareComes cfg s
  | .encoding =>
    if st = 0 then { s with group := { s.group with ready := s.group.ready ||| bit_ } }
    else if st = 1 then shareWith s src else s
  | .shared => if st = 1 then encodedNow { s with group := { s.group with shared := s.group.shared ||| bit_ } } else s
  | .encoded => if st = 1 then { s with group := { s.group with encoded := s.group.encoded ||| bit_ } } else s)

/-- R139: all members have encoded; messages of round 1 that came early are handled (R166). -/
def execEncodingDone (s : State) : Out :=
  .next (if pgState s ≠ 1 || s.group.encoded ≠ allMembers s then s else
    let t := setPgState (setRnd s 1 0) 2
    peCommit { t with net := t.net ++ s.group.held,
                      group := { t.group with held := [], votes := s.group.heldVotes, heldVotes := 0 } })

/-- EN := 0 is accepted in Running, Isolated and Lost, with no protected task running and USED = 0: parity and journal state are discarded, in
Lost the protected state too (R140, R160). That it clears MISSING and every MST with them is the model's choice (log entry 84). -/
def pgOff (s : State) : State :=
  let st := pgState s
  if !(st = 2 || st = 8 || st = 9) || protectedTask s || jUsed s ≠ 0 then pgErr s false else
  let s := if st = 9 then displaceProtected s else s
  let s := wrReg s .pgCfg (setBits (rdReg s .pgCfg) 31 1 0)
  let s := wrReg s .pgSts (setBits (rdReg s .pgSts) 0 32 0)
  let s := (List.range 32).foldl (fun s i => wrReg s (.pgMemb i) (membRow (rdReg s (.pgMemb i)))) s
  setPgState { s with group := {} } (if bit (rdReg s .pgCfg) 32 then 10 else 0)

/-- A write of PG_CFG (R140, R416): SPARE, N, M and SELF while EN = 0, then EN; a spare that has become Isolated or Lost has EN = 0 and
leaves that state with it (R160). -/
def pgCfgWrite (s : State) (v : Word) : State :=
  if s.bringup < 7 then s else
  let old := rdReg s .pgCfg
  let en := bit old 31
  let x := if bit v 30 then setBits old 30 1 0 else old
  let fixed := setBits (setBits v 30 1 0) 31 1 0
  let oldF := setBits (setBits old 30 1 0) 31 1 0
  let fieldsOf (w : Word) : Nat × Nat × Nat × Nat := (bits w 32 1, bits w 16 6, bits w 8 3, bits w 0 5)
  let s :=
    if en then wrReg s .pgCfg (if fieldsOf fixed ≠ fieldsOf oldF then setBits x 30 1 1 else x)
    else
      let x := setBits (setBits (setBits (setBits x 32 1 (bits v 32 1)) 16 6 (bits v 16 6)) 8 3 (bits v 8 3)) 0 5 (bits v 0 5)
      let s := wrReg s .pgCfg x
      let st := pgState s
      if st = 0 && bit v 32 then setPgState s 10
      else if st = 10 && !bit v 32 then setPgState s 0
      else s
  if !en && bit v 31 then (if pgState s = 0 then startConf s else s)
  else if !bit v 31 && (en || pgState s = 8 || pgState s = 9) then pgOff s
  else s

/-- R139. -/
def execPgCfgEnSet (v : Word) (s : State) : Out := .next (if bit v 31 then pgCfgWrite s v else s)
/-- R140. -/
def execPgCfgEnClear (v : Word) (s : State) : Out := .next (if bit v 31 then s else pgCfgWrite s v)
/-- R140. -/
def execPgCfgSpare (v : Word) (s : State) : Out :=
  .next (if bit v 32 ≠ bit (rdReg s .pgCfg) 32 then pgCfgWrite s v else s)

/-- R149: a preset stores M and PG_TMO, then writes EN = 1. -/
def pgPresetWrite (s : State) (v : Word) : State :=
  let p := bits v 0 3
  if s.bringup < 7 then s
  else if p = 0 || 3 < p || pgOn s then pgErr s false
  else
    let s := wrReg s .pgTmo Reg.pgTmo.reset
    let c := setBits (rdReg s .pgCfg) 8 3 (if p = 3 then 4 else p)
    pgCfgWrite s (setBits (setBits c 30 1 0) 31 1 1)
/-- R149. -/
def execPgPreset (v : Word) (s : State) : Out := .next (pgPresetWrite s v)

/-! ## Rebuild (R136, R164) -/

/-- Row operation over GF(2^8): row x minus c times row y. -/
def gfAxpy (c : Nat) (x y : List Nat) : List Nat := List.zipWith (fun a b => Nat.xor a (gfMul c b)) x y

/-- Gauss-Jordan elimination: the columns done so far stand in `done`, the rows still free in `rest`. -/
def gfSolve : Nat → Nat → List (List Nat) → List (List Nat) → List (List Nat)
  | 0, _, done, _ => done
  | n + 1, col, done, rest =>
    match rest.find? fun r => r.getD col 0 ≠ 0 with
    | none => done
    | some p =>
      let p' := p.map (gfMul (gfInv (p.getD col 0)))
      let clear (r : List Nat) : List Nat := gfAxpy (r.getD col 0) r p'
      gfSolve n (col + 1) (done.map clear ++ [p']) ((rest.erase p).map clear)

/-- Coefficients of k survivors that give the unit of member i in a stripe (R136). -/
def rebuildCoefs (n m st i : Nat) (surv : List Nat) : List Nat :=
  let k := n - m
  let rows := surv.map (fun j => unitRow n m j st)
  let target := unitRow n m i st
  let eqs := (List.range k).map fun c => (rows.map fun r => r.getD c 0) ++ [target.getD c 0]
  (gfSolve k 0 [] eqs).map fun r => r.getD k 0

/-- The chain of survivors of a stripe for member i: k other present members in an order that rotates with the stripe. A member that has
joined during the rebuild is none of them. -/
def rebuildChain (s : State) (st i : Nat) : List Nat :=
  let ps := (present s).filter fun j => j ≠ i && !s.group.late.contains j
  let r := if ps.isEmpty then 0 else st % ps.length
  ((ps.drop r) ++ (ps.take r)).take (pgK s)

/-- Stripes of the data area. -/
def stripeCount (s : State) : Nat := bits (rdReg s .pgAreaD) 20 20 * 16 * 16 / (if pgK s = 0 then 1 else pgK s) * pgN s

/-- The committed bytes of a unit: of a line with a record in the open round its pre-image (R164). -/
def committedBytes (s : State) (pa : Nat) : List Byte :=
  (List.range 32).flatMap fun i => match mlook s.group.journal (pa / 128 + i) with
    | some r => laneBytes r.pre
    | none => laneBytes (memLine s (pa / 128 + i))

/-- One's own share of a stripe's sum goes on along the chain, or to the member that is rebuilt (R164). -/
def passSum (s : State) (st i : Nat) (sum : List Byte) : State :=
  let ch := rebuildChain s st i
  let pos := (ch.takeWhile fun j => j ≠ pgSelf s).length
  let c := (rebuildCoefs (pgN s) (pgM s) st i ch).getD pos 0
  let mine := (committedBytes s (unitAt s (pgSelf s) st)).map fun x => BitVec.ofNat 8 (gfMul c x.toNat)
  let out := if sum.isEmpty then mine else List.zipWith (fun a b => a ^^^ b) mine sum
  match ch[pos + 1]? with
  | some j => toMember s j (.rebuild (pgSelf s) st i out)
  | none => toMember s i (.rebuild (pgSelf s) st i out)

/-- R160, R164: the last stripe is written: the module is a member, takes CRN, ORN and the other missing members from the survivors but
for those that have been rebuilt since, and says so. -/
def joinGroup (s : State) : State :=
  match s.group.gotRnd with
  | none => s
  | some (crn, orn, note) =>
    if pgState s ≠ 11 || s.group.got.length < stripeCount s then s else
    let gone (i : Nat) : Bool := note.missing / 2 ^ i % 2 = 1 && i ≠ pgSelf s && !s.group.joined.contains i
    let again (i : Nat) : Bool := gone i && note.rebuilding / 2 ^ i % 2 = 1
    let more := (List.range (pgN s)).filter again
    let s := setRnd { s with group := { s.group with
      got := [], gotRnd := none, joined := [], rebuilds := more, late := if more.isEmpty then [] else [pgSelf s] } } orn crn
    let s := wrReg s .pgCfg (setBits (setBits (rdReg s .pgCfg) 31 1 1) 32 1 0)
    let s := (List.range (pgN s)).foldl (fun s i =>
      wrReg s (.pgMemb i) (setBits (rdReg s (.pgMemb i)) 0 2 (if again i then 2 else if gone i then 1 else 0))) s
    let mask := (List.range (pgN s)).foldl (fun m i => if gone i then m + 2 ^ i else m) 0
    let s := wrReg s .pgSts (setBits (rdReg s .pgSts) 0 32 mask)
    let s := more.foldl (fun s i => send s (.rebuild (pgSelf s) 0 i [])) s
    toMembers (peCommit (settle (pgEvent s 5))) (.rebuildComplete { src := pgSelf s, unit := pgSelf s, missing := mask } crn orn)

/-- A unit of a rebuild into this module is written. -/
def gotUnit (s : State) (stripe : Nat) (bytes : List Byte) : State :=
  let s := putUnit s (unitAt s (pgSelf s) stripe) bytes
  joinGroup { s with group := { s.group with got := if s.group.got.contains stripe then s.group.got else stripe :: s.group.got } }

/-- The member's turn at a stripe of a rebuild (R164): it starts the sum where it is the first of the chain, and goes on to the next stripe;
after the last one it gives its rounds and missing members to the module that is rebuilt, and starts again, until that module says that it
has every stripe. Outside Degraded the turn waits. -/
def rebuildTurn (s : State) (stripe unit : Nat) : State :=
  let st := pgState s
  if !s.group.rebuilds.contains unit then s
  else if st = 5 || st = 6 then send s (.rebuild (pgSelf s) stripe unit [])
  else if st ≠ 7 then s
  else if stripeCount s ≤ stripe then
    let doing := s.group.rebuilds.foldl (fun m i => if i = unit then m else m + 2 ^ i) 0
    send (toMember s unit (.rebuildComplete ⟨pgSelf s, unit, pgMissing s, doing⟩ (pgCrn s) (pgOrn s))) (.rebuild (pgSelf s) 0 unit [])
  else
    let s := if (rebuildChain s stripe unit).head? = some (pgSelf s) then passSum s stripe unit [] else s
    send s (.rebuild (pgSelf s) (stripe + 1) unit [])

/-- A sum that comes to a survivor goes on where its sender is the one before it in the chain; an empty one of the member that is rebuilt in
place starts it (R161, R164). -/
def rebuildPass (s : State) (src stripe unit : Nat) (bytes : List Byte) : State :=
  let ch := rebuildChain s stripe unit
  let before := (ch.takeWhile fun j => j ≠ pgSelf s).getLast?
  if !ch.contains (pgSelf s) then s
  else if bytes.isEmpty then (if src = unit && before = none then passSum s stripe unit [] else s)
  else if before = some src then passSum s stripe unit bytes else s

/-- R164: a partial sum arrives: combined and passed on, or written by its target. An empty sum from the member itself is its turn at a
stripe; in Encoding a sum is another member's share of a parity unit (R139); in Restoring the last one of a damaged unit is written in
place (R161). -/
def execRebuild (src stripe unit : Nat) (bytes : List Byte) (s : State) : Out :=
  let st := pgState s
  .next (if st = 10 then
    (if pgN s ≤ src || memberSt s src ≠ 0 || bytes.isEmpty then s else
    let s := wrReg s .pgCfg (setBits (rdReg s .pgCfg) 0 5 unit)
    gotUnit { setPgState s 11 with group := { (setPgState s 11).group with got := [], gotRnd := none, joined := [] } } stripe bytes)
  else if isTurn s (.rebuild src stripe unit bytes) then rebuildTurn s stripe unit
  else if st = 8 then answerIsolated s src
  else if !isOther s src || memberSt s src ≠ 0 then s
  else if st = 11 then (if unit = pgSelf s && !bytes.isEmpty then gotUnit s stripe bytes else s)
  else if st = 1 then
    if unit ≠ pgSelf s then s else
    let pa := unitAt s unit stripe
    putUnit s pa (List.zipWith (fun a b => a ^^^ b) (unitBytes s pa) bytes)
  else if st = 0 || st = 9 then s
  else if unit = pgSelf s then
    (if st = 6 && s.group.mend && (damagedStripes s).contains stripe && !bytes.isEmpty then putUnit s (unitAt s unit stripe) bytes else s)
  else if src = unit || st = 7 || memberSt s unit = 0 then rebuildPass s src stripe unit bytes
  else s)

/-- R164: PG_RBLD with GO on a survivor. -/
def pgRbldWrite (s : State) (v : Word) : State :=
  if s.bringup < 7 || !bit v 63 then s else
  let i := bits v 0 5
  let t := wrReg s (.pgMemb i) (rbldRow v)
  if pgN s ≤ i || memberSt s i ≠ 1 || !domainsOk t (pgN s) (pgM s) 24 || !domainsOk t (pgN s) (pgM s) 32 then pgErr s true
  else
    sendOut { s with group := { s.group with rblds := mput s.group.rblds i v } } (bits v 16 6)
      (.configExchange (pgSelf s) { ownCfg t with phase := .ask, index := i })
/-- R164. -/
def execPgRbldGo (v : Word) (s : State) : Out := .next (pgRbldWrite s v)

/-- R160, R164: a survivor gives its rounds to the module under rebuild, which joins once every stripe is written; the module
rebuilt says so to every member, and to another spare that receives. Where the index was declared failed it stays missing (R163). -/
def execRebuildComplete (note : RebuildNote) (crn orn : Nat) (s : State) : Out :=
  let src := note.src
  let unit := note.unit
  let st := pgState s
  .next (if st = 8 then answerIsolated s src
  else if !isOther s src then s
  else if st = 11 then
    (if unit = pgSelf s && memberSt s src = 0 then joinGroup { s with group := { s.group with gotRnd := some (crn, orn, note) } }
    else if unit = src && memberSt s src ≠ 1 then { s with group := { s.group with joined := src :: s.group.joined } } else s)
  else if !(2 ≤ st && st ≤ 7) || src ≠ unit || memberSt s unit ≠ 2 then s
  else
    let left := s.group.rebuilds.filter (· ≠ unit)
    let s := { s with group := { s.group with rebuilds := left, late := if left.isEmpty then [] else unit :: s.group.late } }
    let s := wrReg s (.pgMemb unit) (membRow (rdReg s (.pgMemb unit)))
    let s := pgEvent (wrReg s .pgSts (setBits (rdReg s .pgSts) unit 1 0)) 5
    if st = 7 && pgMissing s = 0 then settle s else s)

end Sys2Proof.Machine
end

