-- ==== Sys2Proof/Machine/Tasks.lean ====
section
/-! DEFINITION. Tasks: dispatch and refusal (R171, R338), grant (R341), set-up (R172-R175), retirement (R186, R187, R384),
pre-emption and resumption (R342, R380-R383), ageing, and the watchdog (R188, R189). -/
namespace Sys2Proof.Machine

/-! ## Dispatch (R171, R172, R338) -/

/-- Entry i of a context's placement map (R330). -/
def pmapAt (s : State) (x i : Nat) : Nat := bits (rdReg s (.pmap x (i / 8))) (8 * (i % 8)) 8

/-- A refused dispatch: its report, and completion with ERROR (R171, R338). -/
def refuseDispatch (s : State) (q pk slot taskid reason : Nat) : State :=
  donePkt (writeReport s slot (reportBytes (1 + 256 * reason) taskid s.clk s.clk 0 [])) q pk 1

/-- The VAs of an image that can be told before it is read whole: its header, and its tables as far as the header reads (R168-R170). -/
def imageVas (s : State) (ctx img : Nat) : List Nat :=
  let f (o n : Nat) : Nat := match cpNum s ctx (img + o) n with
    | .ok x => x
    | .error _ => 0
  let tab (i n : Nat) : List Nat := if n = 0 || f (0x20 + 8 * i) 8 = 0 then [] else wordVas (img + f (0x20 + 8 * i) 8) n
  wordVas img 128 ++ tab 0 256 ++ tab 1 (24 * min 256 (f 0x0C 2)) ++ tab 2 (2 * min 256 (f 0x0E 2)) ++ tab 3 (16 * min 64 (f 0x10 2)) ++
    tab 4 (4 * min 256 (f 0x12 2))

/-- R338 steps 1 and 2: the image and the placement are read; the dispatch is refused, or waits for its cores. -/
def execDispatch (q pk : Nat) (s : State) : Out :=
  match onTurn s q pk 1 with
  | none => .next s
  | some p =>
    if p.done then .next (settlePkt s q pk)
    else if p.started || s.tasks.any fun (_, t) => t.q = q && t.pk = pk then .next s
    else
      let x := queueCtx s q
      let base := bits (p.word 3) 32 16
      let slot := bits (p.word 3) 48 6
      let taskid := bits (p.word 3) 0 32
      .next (match readImage s x base (p.word 1).toNat with
      | .error none => cpAsk s x (imageVas s x (p.word 1).toNat)
      | .error (some r) => refuseDispatch (cpTouch s x (imageVas s x (p.word 1).toNat)) q pk slot taskid r
      | .ok (img, spans) =>
        let s := cpTouch s x (spans.flatMap fun (va, n) => wordVas va n)
        let cores := (List.range img.ncores).map fun i => pmapAt s x (base + i)
        if cores.any s.retired.contains then refuseDispatch s q pk slot taskid 6 else
        let t : Task := { q := q, pk := pk, ctx := x, img := img, arg := p.word 2, taskid := BitVec.ofNat 32 taskid, slot := slot,
                          cores := cores, prio := bits (rdReg s (.qCfg q)) 16 3, readyClk := s.clk }
        { s with tasks := mput s.tasks s.nextTask t, nextTask := s.nextTask + 1 })

/-! ## Arbitration (R341, R342) -/

/-- A dispatch has been ready for AGE units of 65,536 clk (R341). -/
def agedNow (s : State) (t : Task) : Bool :=
  let age := bits (rdReg s (.qCfg t.q)) 0 16
  age ≠ 0 && t.readyClk + age * 65536 ≤ s.clk
/-- Rank of a ready dispatch (R341): 7 for an aged one while its queue's AGE still says so. -/
def rankOf (s : State) (t : Task) : Nat := if t.aged && agedNow s t then 7 else bits (rdReg s (.qCfg t.q)) 16 3
/-- Place in the round robin, starting after the queue last granted. -/
def turnOf (s : State) (t : Task) : Nat := (t.q + 127 - s.lastQ) % 64

/-- The context is stopped (R331), or an emergency holds everything (R406). -/
def heldCtx (s : State) (x : Nat) : Bool := s.ctxStop.contains x || s.emergClk ≠ 0
/-- No task that maps protected pages is dispatched or resumed outside Running (R93, R154). -/
def barred (s : State) (x : Nat) : Bool := pgState s ≠ 2 && ctxMaps s x

/-- Dispatches that wait for cores. -/
def readyTasks (s : State) : FMap Task :=
  s.tasks.filter fun (_, t) => t.st = .ready && t.ended.isNone && !heldCtx s t.ctx && !barred s t.ctx

/-- Two tasks name a common core. -/
def share (a b : Task) : Bool := a.cores.any b.cores.contains

/-- A ready dispatch comes before another (R341). -/
def ahead (s : State) (u t : Task) : Bool :=
  rankOf s t < rankOf s u || (rankOf s u = rankOf s t && turnOf s u < turnOf s t)

/-- No other ready dispatch that names one of its cores comes before it. -/
def leads (s : State) (i : Nat) (t : Task) : Bool :=
  (readyTasks s).all fun (j, u) => j = i || !share u t || !ahead s u t

/-- Every core is free of any task. -/
def coresIdle (s : State) (t : Task) : Bool := t.cores.all fun k => (core s k).task.isNone
/-- A dispatch finds every core free of any task and of a retirement that waits (R172, R410). -/
def coresFree (s : State) (t : Task) : Bool :=
  coresIdle s t && t.cores.all fun k => !(bit (rdReg s .coreRet) 63 && bits (rdReg s .coreRet) 0 7 = k)

/-- Pre-empted tasks that may resume. -/
def waiting (s : State) : FMap Task :=
  s.tasks.filter fun (i, t) => t.st = .preempted && t.ended.isNone && !heldCtx s t.ctx && !barred s t.ctx &&
    t.cores.all fun k => s.saves.any fun x => x.task = i && x.core = k

/-! ## Set-up (R172-R175) -/

/-- The registers of a sequencer at set-up (R169, R174). -/
def setupSeq (t : Task) (xvec : Word) (i j : Nat) : Seq :=
  let act := t.img.entry / 2 ^ j % 2 = 1
  let dor := t.img.dormant / 2 ^ j % 2 = 1
  let put (m : FMap SVal) (n : Nat) (v : Word) : FMap SVal := mset {} m n ⟨v, false⟩
  { kind := if act then .active else if dor then .dormant else .absent
    st := if act then .running else if dor then .dormant else .absent
    pc := if act then t.img.pcs.getD j 0 else 0
    s := put (put (put [] 1 t.arg) 2 (BitVec.ofNat 64 i)) 3 (BitVec.ofNat 64 t.img.ncores)
    taskid := t.taskid
    fcsr := BitVec.ofNat 32 (t.img.flags / 2 % 2 * 2 ^ 12 + t.img.flags / 4 % 4 * 2 ^ 10)
    xvec := xvec }

/-- The lexicon after the verb records are loaded (R173 step 5). -/
def loadLex (vs : List (Nat × List Word)) : FMap Word :=
  vs.foldl (fun m (a, ws) => (ws.mapIdx fun i w => (a + i, w)).foldl (fun m (i, w) => mset 0 m i w) m) []

/-- Operand ranges with a hotness buffer (R105, R170). -/
def rangeBufs (img : TaskImg) : List (Nat × Nat × Nat) :=
  img.ranges.filterMap fun (b, n, a) => if a / 4 % 2 = 1 then some (b, n, a / 256 % 64) else none

/-- R173 steps 1 to 6 on one core, logical index i. Its caches and outstanding registrations are no task's. -/
def setupCore (s : State) (ti : Nat) (t : Task) (i k : Nat) (ex : List Extent) (ds : FMap (Option TDesc)) : State :=
  let c := core s k
  let xvec := rdReg s (.ctxXvec t.ctx) &&& 0x00FFFFFFFFFFFFFE
  setCore s k {
    task := some ti, logical := i, ctx := t.ctx, strict := t.img.flags % 2 = 1, spmSize := t.img.spm
    seqs := (List.range 32).map fun j => (j, setupSeq t xvec i j)
    sems := t.img.sems.foldl (fun m (n, v) => mset 0 m n v) []
    nextId := c.nextId, lex := loadLex t.img.verbs, l1 := c.l1, l1reg := c.l1reg, outst := c.outst, l1err := c.l1err
    xvIn := rdReg s (.ctxXvec t.ctx), xvN := mget 0 s.xvN t.ctx
    extents := ex, descs := ds, bufs := rangeBufs t.img, sink := s.clk, esum := c.esum, swal := c.swal, budget := c.budget,
    firstNow := c.firstNow, firstPrev := c.firstPrev, mxClk := c.mxClk, ready := true }

/-- A pre-empted task of no lower priority whose cores are free comes before a dispatch that names one of them (R342). -/
def resumesFirst (s : State) (t : Task) : Bool := (waiting s).any fun (_, v) => share v t && rankOf s t ≤ v.prio && coresIdle s v

/-- A ready dispatch is granted its cores (R341, R342). -/
def mayGrant (s : State) (i : Nat) (t : Task) : Bool := coresFree s t && leads s i t && !resumesFirst s t

/-- The VAs that building extent tables and freezing descriptors reads behind (R25, R34): a page's entries, a descriptor's words. -/
def setupVas (s : State) (t : Task) : List Nat :=
  (t.img.ranges.flatMap fun (b, n, _) => (List.range (n / 65536 + 2)).map fun i => b + 65536 * i) ++
  t.img.tensors.flatMap fun h =>
    let r := rdReg s (.tdtBase t.ctx)
    if h < bits r 0 13 then wordVas (bits r 16 40 * 65536 + 64 * h) 64 else []

/-- Ballast leaves a core on which set-up begins, for another idle one (R404). -/
def moveBallast (s : State) (t : Task) : Option Nat :=
  if s.ballast.any t.cores.contains then (List.range 128).find? fun k => (core s k).task.isNone && !s.retired.contains k && !t.cores.contains k
  else s.ballast

/-- R341, R173: free cores are granted and set-up runs on all of them; the packet has started. -/
def execDispatchGrant (i : Nat) (s : State) : Out :=
  match mlook s.tasks i with
  | none => .next s
  | some t =>
    if t.st ≠ .ready || heldCtx s t.ctx || barred s t.ctx || t.ended.isSome || !mayGrant s i t then .next s
    else if t.cores.any s.retired.contains then
      .next (refuseDispatch { s with tasks := mdel s.tasks i } t.q t.pk t.slot t.taskid.toNat 6)
    else .next (match buildExtents s t.ctx t.img.ranges ([], 0), readDescs s t.ctx t.img.tensors with
    | .ok (ex, extra), .ok ds =>
      let t := { t with st := .setup, prio := bits (rdReg s (.qCfg t.q)) 16 3, clkbeg := s.clk, xover := extra * t.img.ncores }
      let s := (t.cores.mapIdx fun j k => (j, k)).foldl (fun s (j, k) => setupCore s i t j k ex ds) (cpTouch s t.ctx (setupVas s t))
      startPkt { s with tasks := mput s.tasks i t, lastQ := t.q, ballast := moveBallast s t } t.q t.pk
    | _, _ => cpAsk s t.ctx (setupVas s t))

/-- R173 step 7, R90, R175: every core acquires, and the task runs. -/
def execTaskStart (i : Nat) (s : State) : Out :=
  match mlook s.tasks i with
  | none => .next s
  | some t =>
    if t.st ≠ .setup then .next s else
    let s := t.cores.foldl (fun s k => invalidate s k 6 (-1)) s
    .next { s with tasks := mput s.tasks i { t with st := .running, runClk := s.clk } }

/-! ## Retirement (R90, R186, R187, R384) -/

/-- Writes of cores that hold a task no more belong to no sequencer; their queue still waits for them (R90, R91). -/
def orphanPeers (s : State) (cores : List Nat) : State :=
  { s with peerOut := s.peerOut.map fun o => match o.src with
    | .seq k _ => if cores.contains k then { o with src := .none } else o
    | _ => o }

/-- Every sequencer of a core has ended and every command, entry and fired transfer is over (R186). -/
def coreQuiet (s : State) (k : Nat) : Bool :=
  let c := core s k
  (c.seqs.all fun (j, x) =>
    (x.st = .absent || x.st = .stopped || (x.st = .dormant && x.starts.isEmpty)) && relDone s k j 5) &&
  c.outst.all (fun o => o.performed s k 5) && (c.cmds.all fun x => cmdOver x.2) && c.trig.isEmpty && c.fireQ.isEmpty

/-- The cores of a task that has been reported are free (R186). -/
def freeCores (s : State) (i : Nat) (t : Task) : State :=
  let s := t.cores.foldl (fun s k => if (core s k).task = some i then modCore s k fun c => { c with task := none } else s)
    (orphanPeers s t.cores)
  { s with tasks := mdel s.tasks i, saves := s.saves.filter (·.task ≠ i), emerg := s.emerg.filter (·.task ≠ i) }

/-- The last step of a retirement: once the completion signal has changed, the cores are free (R186). -/
def freeReported (s : State) (i : Nat) (t : Task) : State :=
  let s := settlePkt s t.q t.pk
  if (pktOf s t.q t.pk).isSome then s else freeCores s i t

/-- The report is written and the packet completes; then the cores are free (R186, R187, R335). -/
def reportTask (s : State) (i : Nat) (t : Task) (code detail : Nat) : State :=
  let s := writeReport s t.slot (reportBytes (code + 256 * detail + if t.engErr then 65536 else 0) t.taskid.toNat t.clkbeg s.clk
    t.xover t.hot)
  let s := { s with tasks := mput s.tasks i { t with reported := true } }
  freeReported (donePkt s t.q t.pk (if code = 0 then 0 else if code = 3 then 4 else 1)) i t

/-- R186, R384: a task retires, or its early end is reported once its owned words are cleaned. -/
def execTaskRetire (i : Nat) (s : State) : Out :=
  match mlook s.tasks i with
  | none => .next s
  | some t =>
    if t.reported then .next (freeReported s i t) else
    match t.ended with
    | some (code, detail) =>
      let mine := t.cores.filter fun k => (core s k).task = some i
      let s := mine.foldl (fun s k => cleanCore s k (-1)) s
      .next (if mine.all fun k => (core s k).outst.all (fun o => o.performed s k 5) && (ownedIn (core s k) (-1)).isEmpty then reportTask s i t code detail else s)
    | none =>
      .next (if t.st = .running && t.cores.all (coreQuiet s) then reportTask s i t 0 0 else s)

/-! ## Ageing (R341, R342) -/

/-- R341: a dispatch that has been ready for AGE units ranks 7. -/
def execAgeExpiry (i : Nat) (s : State) : Out :=
  match mlook s.tasks i with
  | none => .next s
  | some t =>
    .next (if t.st = .ready && agedNow s t then { s with tasks := mput s.tasks i { t with aged := true } } else s)

/-- R342: a task that has run MINRUN becomes pre-emptible. -/
def execMinrunExpiry (i : Nat) (s : State) : Out :=
  match mlook s.tasks i with
  | none => .next s
  | some t =>
    .next (if t.st = .running && t.runClk + bits (rdReg s .schCfg) 16 16 * 65536 ≤ s.clk then
      { s with tasks := mput s.tasks i { t with minrun := true } } else s)

/-! ## Pre-emption (R342, R380-R383) -/

/-- Places taken in a core's save area (R342). -/
def savedOn (s : State) (k : Nat) : Nat := (s.saves.filter (·.core = k)).length

/-- A task has run MINRUN, as it stands now (R342). -/
def ranMin (s : State) (t : Task) : Bool := t.minrun && t.runClk + bits (rdReg s .schCfg) 16 16 * 65536 ≤ s.clk

/-- A ready dispatch may pre-empt all holders of its cores (R342): those that are being saved already stop no other. -/
def mayPreempt (s : State) (d : Task) : Bool :=
  let cfg := rdReg s .schCfg
  bit cfg 1 &&
  s.tasks.all fun (_, v) => v.st = .ready || v.st = .preempted || v.st = .saving || !share d v ||
    (v.st = .running && v.ended.isNone && !v.reported && ranMin s v && v.prio + bits cfg 2 3 ≤ rankOf s d &&
      v.cores.all fun k => savedOn s k < 4)

/-- Task i and, where a ready dispatch pre-empts it, the other tasks that hold that dispatch's cores: they stop together (R342). -/
def stopsWith (s : State) (i : Nat) (t : Task) : List Nat :=
  match (readyTasks s).find? fun (_, d) => share d t && mayPreempt s d with
  | none => []
  | some (_, d) => i :: ((s.tasks.filter fun (j, v) => j ≠ i && v.st = .running && v.ended.isNone && share d v).map (·.1))

/-- R380: every core of a task stops at a bundle boundary. -/
def stopTask (s : State) (i : Nat) (t : Task) : State :=
  let s := t.cores.foldl (fun s k =>
    modCore (unpend s k) k fun c => { c with specFail := [], seqs := c.seqs.map fun (j, x) => (j, { x with stalled := false }) }) s
  { s with tasks := mput s.tasks i { t with st := .saving, runClk := s.clk - t.runClk },
           walks := s.walks.filter fun w => !t.cores.contains w.core }

/-- Rank of a context: the highest PRIO among its queues (R406). -/
def ctxRank (s : State) (x : Nat) : Nat :=
  (List.range 64).foldl (fun m q => if queueCtx s q = x && m < bits (rdReg s (.qCfg q)) 16 3 then bits (rdReg s (.qCfg q)) 16 3 else m) 0
/-- In an emergency the contexts are saved one rank at a time, highest first (R406). -/
def emergencyTurn (s : State) (t : Task) : Bool :=
  s.emergClk = 0 || s.tasks.all fun (_, u) =>
    u.ended.isSome || u.st = .ready || u.st = .preempted || ctxRank s u.ctx ≤ ctxRank s t.ctx

/-- The images fit the emergency area, at 5 MiB each (R408). -/
def emergencyFits (s : State) (n : Nat) : Bool :=
  (s.emerg.length + n) * (5 * 2 ^ 20) ≤ 16 * (bits (rdReg s .thmArea) 32 20 * 65536)

/-- Every task of a context that has started ends with CODE 4 and keeps no image (R406 step 3). -/
def endCtx (s : State) (x : Nat) : State :=
  let mine := s.tasks.filter fun (_, t) => t.ctx = x && t.st ≠ .ready
  let is_ := mine.map (·.1)
  let s := is_.foldl (fun s i => endTask s i 4 0) s
  { s with saves := s.saves.filter (fun v => !is_.contains v.task), emerg := s.emerg.filter fun v => !is_.contains v.task }

/-- In an emergency the images of a task move from the save areas to the emergency area, or their context ends (R406). -/
def emergencyMove (s : State) (i : Nat) : State :=
  if s.emergClk = 0 then s else
  let imgs := s.saves.filter (·.task = i)
  if emergencyFits s imgs.length then
    { s with saves := s.saves.filter (·.task ≠ i), emerg := s.emerg ++ imgs }
  else match mlook s.tasks i with
    | none => s
    | some t => endCtx s t.ctx

/-- The highest rank of a context that still has a task to save (R406). -/
def unsavedRank (s : State) : Nat :=
  s.tasks.foldl (fun m (_, t) => if t.ended.isSome || t.st = .ready || t.st = .preempted then m else max m (ctxRank s t.ctx)) 0

/-- In an emergency the images that earlier pre-emptions have left in the save areas move to the emergency area, in the order of their contexts'
ranks, and of one rank in the order in which they were saved, as far as no context of a higher rank has still to be saved (R406). -/
def emergencyEarlier (s : State) : State :=
  if s.emergClk = 0 then s else
  let low := unsavedRank s
  let ids := (s.saves.map (·.task)).eraseDups
  ((List.range 8).reverse.filter fun r => low ≤ r).foldl (fun s r => ids.foldl (fun s i =>
    if (mlook s.tasks i).any fun t => t.ended.isNone && t.st = .preempted && ctxRank s t.ctx = r then emergencyMove s i else s) s) s

/-- The prepare of a round is in progress, until it commits or aborts (R93, R342, R383). -/
def preparing (s : State) : Bool :=
  pgState s = 3 || pgState s = 4 || (pgState s = 5 && s.group.exch.any fun e => e.from_ = 3 || e.from_ = 4)

/-- R342, R331, R406: arbitration or CTX_CFG.STOP stops running tasks, and during a prepare both wait; a thermal emergency does not. -/
def execPreempt (i : Nat) (s : State) : Out :=
  match mlook s.tasks i with
  | none => .next s
  | some t =>
    .next (if t.st ≠ .running || t.ended.isSome || t.reported || (s.emergClk = 0 && preparing s) || !t.cores.all (fun k => savedOn s k < 4) ||
        !emergencyTurn s t then s
      else if s.ctxStop.contains t.ctx then stopTask s i t
      else (stopsWith s i t).foldl (fun s j => match mlook s.tasks j with
        | none => s
        | some u => stopTask s j u) s)

/-! ## What completes before a save (R92, R380) -/

/-- A wait is an access of a bundle that has issued. -/
def pendsAccess : Wait → Bool
  | .atom _ | .store .. | .spm .. | .load .. | .order => true
  | .rel _ (some _) => true
  | _ => false

/-- The waits of a bundle that has issued up to its last access; behind a join, which the stopped engines cannot end, or a home move, accesses
stay unperformed (R380 steps 2 and 3). -/
def accessWaits (x : Seq) : List Wait :=
  let l := x.waits.takeWhile fun w => w ≠ .join && w ≠ .check
  (l.reverse.dropWhile fun w => !pendsAccess w).reverse

/-- Accesses that a sequencer has to perform after all stand first among its waits, to be checked again (R380, R382). -/
def putBack (x : Seq) (ws : List Wait) : Seq :=
  if ws.isEmpty then x else { x with waits := .check :: ws ++ x.waits.filter (· ≠ .check) }

/-- The wait that stands for an atomic which has not executed. -/
def atomWait (w place : Nat) (a : AtomReq) : Wait :=
  .atom { pa := 4 * w, kind := a.kind, size := if a.wide then (if a.signed then .i64 else .n64) else (if a.signed then .i32 else .n32)
          scope := if place < 0x200 then 1 else if place < 0x400 then 2 else 5, acq := false, x := a.x, y := a.y, tag := a.tag, region := a.region }

/-- A store whose registration waits for a home move is unperformed: its bytes leave the L1 and wait with their sequencer (R380). -/
def unstore (s : State) (k w : Nat) : State :=
  match l1At s k w, regEntry (core s k) w with
  | some x, some o =>
    let mask : BitVec 4 := match x.st with
      | .pend m _ => m
      | _ => 15
    let byte (i : Nat) : Wait := .store o.slot 1 ((x.v.toNat / 2 ^ (8 * i) % 256 : Nat)) x.p (o.va / 4 * 4 + i) (4 * w + i) o.region o.buf
    let ws := if mask = 15 then [.store o.slot 4 (x.v.zeroExtend 64) x.p (o.va / 4 * 4) (4 * w) o.region o.buf]
      else ((List.range 4).filter fun i => mask.getLsbD i).map byte
    let mine (m : Instr) : Option (Nat × Wait) := match m with
      | .atomicExecute p y a => if p = k && (y = w || (a.wide && y + 1 = w)) then some (a.seq, atomWait y p a) else none
      | _ => none
    let s := (s.net.filterMap mine).foldl (fun s (q, a) => modSeq s k q fun y => putBack y [a])
      { s with net := s.net.filter fun m => (mine m).isNone }
    modSeq (unregister s k w) k o.seq fun y => putBack y ws
  | _, _ => s

/-- An access that waits at its home for a page that moves has performed nothing: it leaves the home, and is recorded with its sequencer (R65,
R380). -/
def unperformed (s : State) (k : Nat) : State :=
  let onMove (m : Instr) : Bool := ((heldSeq m).any fun x => x.1 = k) && (waitsMove s m || (homeWordOf m).any fun w => movingPa s (4 * w))
  (s.held.filter onMove).foldl (fun s m =>
    match m with
    | .registration _ w _ ask c _ => (if ask.wide then [w, w + 1] else [w]).foldl (fun s x => unstore s c x) s
    | .atomicExecute p w a => modSeq s k a.seq fun y => putBack y [atomWait w p a]
    | _ => s) { s with held := s.held.filter fun m => !onMove m }

/-- The accesses of a core's issued bundles perform. -/
def finishAccesses (s : State) (k : Nat) : State :=
  (core s k).seqs.foldl (fun s (q, x) => testWaits s k q (accessWaits x).length) s

/-- Results in flight land, one bundle time after another. -/
def landAll : Nat → Seq → Seq
  | 0, x => x
  | n + 1, x => if x.infl.isEmpty || !dueReady x then x else landAll n (tick (landDue x))

/-- Entry by a trap or sys bundle that has issued completes before the stop (R383). -/
def finishEntry (s : State) (k q : Nat) : State :=
  match (seqOf s k q).ending with
  | some (.trap c v next) =>
    let s := modSeq s k q fun x => landAll (x.infl.foldl (fun n f => max n f.rem) 0 + 1) x
    if (seqOf s k q).infl.isEmpty && (seqOf s k q).boundary.isEmpty then endIssue s k q (.trap c v next) else s
  | _ => s

/-- Its entry is still under way. -/
def entering (x : Seq) : Bool := x.boundary.isEmpty && match x.ending with
  | some (.trap _ _ _) => true
  | _ => false

/-- Every access of a core has completed: step 2 of R380, and R92. -/
def coreSettled (s : State) (k : Nat) : Bool :=
  let c := core s k
  c.outst.all (fun o => o.performed s k 5) && (ownedIn c (-1)).isEmpty &&
  (c.seqs.all fun x => readsDone x.2 && (accessWaits x.2).isEmpty && !entering x.2) && (c.cmds.all fun x => x.2.left = 0) &&
  s.peerOut.all fun o => match o.src with
    | .seq a _ => a ≠ k
    | .cmd a _ _ => a ≠ k
    | _ => true

/-- The image of a core, with its watchdog count (R381). -/
def coreImage (s : State) (k : Nat) : Core := { core s k with sink := s.clk - (core s k).sink }

/-- A core whose image is saved stands still: it has no task, and its engines and sequencers have nothing to do (R380). -/
def vacate (c : Core) : Core :=
  { c with task := none, seqs := [], mq := [], tq := [], cmds := [], trig := [], fireQ := [], mx := { c.mx with call := none } }

/-- R380, R381: issued accesses and entries complete, the owned words are cleaned, and every core's image enters its save area. -/
def execPreemptSaveDone (i : Nat) (s : State) : Out :=
  match mlook s.tasks i with
  | none => .next s
  | some t =>
    if t.st ≠ .saving then .next s else
    let s := t.cores.foldl (fun s k => unperformed (finishAccesses s k) k) s
    let s := t.cores.foldl (fun s k => (core s k).seqs.foldl (fun s (q, _) => finishEntry s k q) s) s
    if (mlook s.tasks i).any fun u => u.ended.isSome then .next s else
    let s := t.cores.foldl (fun s k => cleanCore s k (-1)) s
    .next (if !t.cores.all (coreSettled s) then s else
      let imgs := t.cores.map fun k => (⟨i, k, coreImage s k⟩ : SaveImg)
      let s := t.cores.foldl (fun s k => modCore s k vacate) s
      emergencyEarlier (emergencyMove { s with tasks := mput s.tasks i { t with st := .preempted }, saves := s.saves ++ imgs } i))

/-- CTX_XVEC written since the task was set up or last resumed acts on it now: VA on every sequencer, and EN (R374). -/
def newXvec (v : Word) (n : Nat) (c : Core) : Core :=
  if n = c.xvN then c else
  { c with xvIn := v, xvN := n, seqs := c.seqs.map fun (j, x) => (j, { x with xvec := v &&& 0x00FFFFFFFFFFFFFE }) }

/-- A core takes its image back: caches and power settings stay, extents and descriptors are new (R30, R34, R382). -/
def restoreCore (s : State) (i k ctx : Nat) (ex : List Extent) (ds : FMap (Option TDesc)) : State :=
  match s.saves.find? fun x => x.task = i && x.core = k with
  | none => s
  | some x =>
    let c := core s k
    let s := setCore s k (newXvec (rdReg s (.ctxXvec ctx)) (mget 0 s.xvN ctx) (wakeAll { x.img with
      task := some i, l1 := c.l1, l1reg := c.l1reg, outst := c.outst, l1err := c.l1err, esum := c.esum, swal := c.swal,
      budget := c.budget, firstNow := c.firstNow, firstPrev := c.firstPrev, mxClk := c.mxClk
      extents := ex, descs := ds, sink := s.clk - x.img.sink }))
    (core s k).seqs.foldl (fun s (q, x) => modSeq s k q fun y => putBack y (if x.waits.any pendsAccess && !x.waits.contains .check then [.check] else [])) s

/-- R342, R382: a pre-empted task resumes on its cores. -/
def execResume (i : Nat) (s : State) : Out :=
  match mlook (waiting s) i with
  | none => .next s
  | some t =>
    if !coresIdle s t || ((readyTasks s).any fun (_, d) => share d t && t.prio < rankOf s d) then .next s else
    .next (match buildExtents s t.ctx t.img.ranges ([], 0), readDescs s t.ctx t.img.tensors with
    | .ok (ex, extra), .ok ds =>
      let s := t.cores.foldl (fun s k => invalidate (restoreCore s i k t.ctx ex ds) k 6 (-1)) (cpTouch s t.ctx (setupVas s t))
      { s with
        saves := s.saves.filter (·.task ≠ i)
        tasks := mput s.tasks i { t with st := .running, runClk := s.clk - t.runClk, xover := extra * t.img.ncores } }
    | _, _ => cpAsk s t.ctx (setupVas s t))

/-! ## The watchdog (R188, R189) -/

/-- The sequencer is frozen on a fault that pends or on a home move (R188). -/
def standsStill (s : State) (k j : Nat) : Bool :=
  let x := seqOf s k j
  isPending s k j || (x.stalled && x.onMove) ||
    s.held.any fun m => heldSeq m = some (k, j) && (waitsMove s m || (homeWordOf m).any fun w => movingPa s (4 * w))

/-- The count of a core runs (R188). -/
def countRuns (s : State) (k : Nat) : Bool :=
  let c := core s k
  (match c.task with
    | none => false
    | some t => (mlook s.tasks t).any fun x => x.st = .running && x.ended.isNone) &&
  bit (rdReg s (.wdgCfg k)) 32 && c.seqs.any fun (j, x) => x.st = .running && !standsStill s k j

/-- SEQi of WDG_SEQ (R189). -/
def seqCode (s : State) (k j : Nat) (x : Seq) : Nat :=
  match x.st with
  | .halted => 3
  | .running =>
    (match x.waits with
    | .sem _ _ :: _ => 3
    | .wfe :: _ => 3
    | .join :: _ => 3
    | _ :: _ => 2
    | [] => if x.stalled || isPending s k j || !dueReady x || frozenHome s k j then 2 else 1)
  | _ => 0

/-- R188: an interval without a sink. -/
def execWatchdogExpiry (k : Nat) (s : State) : Out :=
  let c := core s k
  if !countRuns s k || s.clk < c.sink + bits (rdReg s (.wdgCfg k)) 0 32 * 65536 then .next s else
  let sts := bumpField (rdReg s (.wdgSts k)) 32 16 1
  let s := setCore s k { c with sink := s.clk }
  if bit sts 63 then .next (wrReg s (.wdgSts k) sts) else
  let tid := (taskidOf s k).getD 0
  let sts := setBits (setBits sts 63 1 1) 0 32 tid.toNat
  let sq := c.seqs.foldl (fun v (j, x) => setBits v (2 * j) 2 (seqCode s k j x)) 0
  .next (evPost (wrReg (wrReg s (.wdgSts k) sts) (.wdgSeq k) sq) 5 k sts)

/-- R245: the named Halted sequencers run again, in a saved image too. -/
def seqResume (s : State) (k : Nat) (v : Word) : State :=
  let go (c : Core) : Core := { c with
    seqs := c.seqs.map fun (i, x) => (i, if bit v i && x.st = .halted then { x with st := .running } else x) }
  let s := modCore s k go
  if (core s k).task.isSome then s else
  { s with saves := s.saves.map fun x => if x.core = k then { x with img := go x.img } else x }
/-- R245. -/
def execSeqResumeWrite (core : Nat) (v : Word) (s : State) : Out := .next (if s.bringup < 7 then s else seqResume s core v)

end Sys2Proof.Machine
end

