-- ==== Sys2Proof/Machine/Packets.lean ====
section
/-! DEFINITION. Queues and packets: contexts (R330, R331), queue registers (R332), taking packets (R333-R336), task-graph nodes
(R339), waits (R340), page-home moves (R65, R66), the event ring (R344) and the forecast (R345). -/
namespace Sys2Proof.Machine

/-! ## Stopping a queue (R332) -/

/-- Changes a queue. -/
def modQueue (s : State) (q : Nat) (f : Queue → Queue) : State := { s with queues := mput s.queues q (f (mget {} s.queues q)) }

/-- The queue stands Stopped. -/
def stopped (s : State) (q : Nat) : Bool := bits (rdReg s (.qSts q)) 60 4 = 3

/-- A queue stops with a cause, and an event record tells it; a queue that stands stopped already stays as it is. -/
def stopQueue (s : State) (q cause : Nat) (node : Option Nat) (self : Bool) : State :=
  if stopped s q then s else
  let v := setBits (setBits (rdReg s (.qSts q)) 60 4 3) 56 4 cause
  evPost (modQueue (wrReg s (.qSts q) v) q fun x => { x with stopNode := node, stopSelf := self }) 1 q v

/-- The stop ends. -/
def unstop (s : State) (q : Nat) : State :=
  modQueue (wrReg s (.qSts q) (setBits (rdReg s (.qSts q)) 56 8 0)) q fun x => { x with stopNode := none, stopSelf := false, skip := false }

/-! ## Checks of a packet (R335, R336, R339, R340, R356) -/

/-- The cause with which a packet stops its queue, 0 for none. -/
def packetCause (ws : List Word) : Nat :=
  let w (i : Nat) : Word := ws.getD i 0
  let f (i lo len : Nat) : Nat := bits (w i) lo len
  let zero (is : List Nat) : Bool := is.all fun i => w i = 0
  let al (i n : Nat) : Bool := (w i).toNat % n = 0
  let ok : Option Bool := match f 0 8 8 with
    | 0x01 => some (al 1 64 && f 3 54 10 = 0 && zero [4, 5, 6])
    | 0x03 => some (f 1 32 32 = 0 && zero [2, 3, 4, 5, 6])
    | 0x04 => some (zero [3, 4, 5, 6])
    | 0x05 => some (al 1 8 && al 4 64 && al 5 64 && f 6 32 8 ≤ 5 && f 6 40 24 = 0)
    | 0x06 => some (al 1 8 && al 4 64 && al 6 8 && f 5 16 8 ≤ 5 && f 5 24 8 = 0)
    | 0x07 => some (al 1 8 && al 2 16 && al 3 64 && 1 ≤ f 4 16 8 && f 4 16 8 ≤ 64 && f 4 24 8 ≤ 58 && f 4 32 32 = 0 && zero [5, 6])
    | 0x08 => some (al 1 8 && f 4 0 8 ≤ 5 && f 4 8 24 = 0 && zero [5, 6])
    | 0x10 => some (al 1 4 && al 2 4 && f 3 32 8 = 0 && f 3 48 16 = 0 && al 4 64 && zero [6])
    | 0x11 => some (al 1 4 && al 2 4 && f 3 32 32 = 0 && al 4 64 && zero [6])
    | 0x12 => some (al 1 4 && al 2 4 && f 3 32 8 ≤ 7 && f 3 40 24 = 0 && al 4 64 && al 6 4)
    | 0x13 => some (al 1 4 && al 2 4 && f 3 32 8 ≤ 7 && f 3 40 8 = 0 && f 3 49 15 = 0 && al 4 64 && al 6 4)
    | 0x14 | 0x15 => some (zero [1, 2, 3, 6] && al 4 64)
    | _ => none
  if f 0 16 48 ≠ 0 || f 0 4 4 ≠ 0 || bit (w 0) 2 || !al 7 8 then 2 else
  match ok with
  | none => 1
  | some true => 0
  | some false => 2

/-! ## Taking packets (R333, R334) -/

/-- The VA of slot RD. -/
def slotVa (s : State) (q : Nat) : Nat :=
  bits (rdReg s (.qRing q)) 0 56 + 64 * (bits (rdReg s (.qSts q)) 0 32 % 2 ^ bits (rdReg s (.qCfg q)) 24 4)

/-- RD advances. -/
def bumpRd (s : State) (q : Nat) : State :=
  let v := rdReg s (.qSts q)
  wrReg s (.qSts q) (setBits v 0 32 (bits v 0 32 + 1))

/-- Header write-back with V = 0, as a home write: whether it was performed, `none` to try again. -/
def clearValid (s : State) (q va : Nat) (h : Word) : State × Option Bool :=
  match cpPage s (queueCtx s q) va .store false with
  | .error none => (s, none)
  | .error (some _) => (s, some false)
  | .ok (pa, _) =>
    if spaceOf pa = 2 || 8 ≤ spaceOf pa then (s, some false) else
    match homePerform s ⟨pa / 4, 15, h.truncate 32 &&& 0xFFFFFFFE#32, false, .write, .cp q 0⟩ with
    | .wait s => (s, none)
    | .done s st _ => (s, some (st = 0))

/-- A packet enters a queue under a fresh number, at a place in the list. -/
def addPkt (s : State) (q at_ : Nat) (p : Pkt) : State :=
  modQueue s q fun x => { x with pkts := x.pkts.take at_ ++ [{ p with id := x.next }] ++ x.pkts.drop at_, next := x.next + 1 }

/-- Ring packets taken and not completed (R334). -/
def takenCount (x : Queue) : Nat := (x.pkts.filter fun p => p.parent.isNone).length

/-- SKIP of a stopped ring packet: taken now, its header written back where that is possible, completed with ERROR; a read or write that
has to wait is tried again (R332). -/
def skipRing (s : State) (q : Nat) : State :=
  let va := slotVa s q
  let later (s : State) : State := modQueue s q fun x => { x with skip := true }
  let ask := cpAsk s (queueCtx s q) (wordVas va 64)
  match cpRun s (queueCtx s q) va 8 8 with
  | .error none => later ask
  | .error (some _) => send (bumpRd (unstop ask q) q) (.queueNotify q)
  | .ok ws =>
    let ws := ws.map (BitVec.ofNat 64)
    match clearValid (cpTouch s (queueCtx s q) (wordVas va 64)) q va (ws.getD 0 0) with
    | (s, none) => later s
    | (s, some _) =>
      let x := mget {} s.queues q
      let sig := ws.getD 7 0
      let ws := if sig.toNat % 8 = 0 then ws else ws.set 7 0
      let s := addPkt (bumpRd (unstop s q) q) q x.pkts.length { id := 0, words := ws, started := true, done := true, out := 1 }
      send (settlePkt s q x.next) (.queueNotify q)

/-- R334: a queue that may take reads slot RD, checks it, writes its header back and takes it; a SKIP that waits goes first. -/
def takeSlot (s : State) (q : Nat) : State :=
  let x := mget {} s.queues q
  let ctx := queueCtx s q
  if x.skip && stopped s q then skipRing s q else
  if !bit (rdReg s (.qCfg q)) 63 || stopped s q || heldCtx s ctx || 8 ≤ takenCount x then s else
  let va := slotVa s q
  match cpNum s ctx va 8 with
  | .error none => cpAsk s ctx (wordVas va 8)
  | .error (some _) => stopQueue (cpAsk s ctx (wordVas va 8)) q 3 none false
  | .ok h =>
    if h % 2 = 0 then cpTouch s ctx (wordVas va 8) else
    match cpRun s ctx va 8 8 with
    | .error none => cpAsk s ctx (wordVas va 64)
    | .error (some _) => stopQueue (cpAsk s ctx (wordVas va 64)) q 3 none false
    | .ok ws =>
      let s := cpTouch s ctx (wordVas va 64)
      let ws := ws.map (BitVec.ofNat 64)
      let c := packetCause ws
      if c ≠ 0 then stopQueue s q c none false else
      match clearValid s q va (ws.getD 0 0) with
      | (s, none) => s
      | (s, some false) => stopQueue s q 3 none false
      | (s, some true) => send (addPkt (bumpRd s q) q x.pkts.length { id := 0, words := ws }) (.queueNotify q)

/-- R333, R334: the queue is notified. -/
def execQueueNotify (q : Nat) (s : State) : Out := .next (takeSlot s q)

/-- R333: every enabled queue is polled; completions that had to wait are tried again. -/
def execQueuePoll (s : State) : Out :=
  .next ((List.range 64).foldl (fun s q =>
    let s := (mget {} s.queues q).pkts.foldl (fun s p => if p.done then settlePkt s q p.id else s) s
    takeSlot s q) s)

/-- R332: SKIP while Stopped. A list packet is passed over; a queue stopped by its context has no stopped packet. -/
def skipPacket (s : State) (q : Nat) : State :=
  let x := mget {} s.queues q
  if !stopped s q || bits (rdReg s (.qSts q)) 56 4 = 6 then s else
  match x.stopNode with
  | none => skipRing s q
  | some n =>
    let s := unstop s q
    if !x.stopSelf then
      modPkt s q n fun p => { p with node := p.node.map fun m => { m with next := m.next + 1 } }
    else match pktOf s q n with
      | none => s
      | some p =>
        if p.parent.isNone then donePkt s q n 1
        else modQueue s q fun x => { x with pkts := x.pkts.filter fun p => p.id ≠ n }

/-! ## Queue registers (R332, R416) -/

/-- A write of Q_CFG. -/
def qCfgWrite (s : State) (q : Nat) (v : Word) : State :=
  if s.bringup < 7 then s else
  let old := rdReg s (.qCfg q)
  let en := bit old 63
  let x := setBits (if bit v 61 then setBits old 61 1 0 else old) 0 19 (bits v 0 19)
  let s :=
    if en then wrReg s (.qCfg q) (if bits v 20 8 = bits old 20 8 then x else setBits x 61 1 1)
    else wrReg s (.qCfg q) (setBits x 20 8 (bits v 20 8))
  let s := if bit v 62 then skipPacket s q else s
  let c := rdReg s (.qCfg q)
  if en && !bit v 63 then unstop (wrReg s (.qCfg q) (setBits c 63 1 0)) q
  else if !en && bit v 63 then
    let sz := bits c 24 4
    if 4 ≤ sz && bit (rdReg s (.ctxCfg (bits c 20 4))) 63 && bits (rdReg s (.qRing q)) 0 56 % (64 * 2 ^ sz) = 0 &&
       isHbm (bits (rdReg s (.qNtf q)) 0 52) then
      unstop (wrReg (wrReg s (.qCfg q) (setBits c 63 1 1)) (.qSts q) 0) q
    else wrReg s (.qCfg q) (setBits c 61 1 1)
  else s
/-- R332. -/
def execQCfgEnSet (q : Nat) (v : Word) (s : State) : Out := .next (if bit v 63 then qCfgWrite s q v else s)
/-- R332. -/
def execQCfgEnClear (q : Nat) (v : Word) (s : State) : Out := .next (if bit v 63 then s else qCfgWrite s q v)
/-- R332. -/
def execQCfgSkip (q : Nat) (v : Word) (s : State) : Out := .next (if bit v 62 then qCfgWrite s q v else s)

/-- A register that is fixed while its queue is enabled (R332, R416). -/
def qFixedWrite (s : State) (q : Nat) (r : Reg) (v : Word) : State :=
  let c := rdReg s (.qCfg q)
  if !bit c 63 then wrReg s r v
  else if v = rdReg s r then s else wrReg s (.qCfg q) (setBits c 61 1 1)

/-! ## Contexts (R330, R331) -/

/-- A task of the context stands, or a dispatch of it was taken and waits (R331). -/
def ctxBusy (s : State) (x : Nat) : Bool :=
  (s.tasks.any fun (_, t) => t.ctx = x) ||
  (List.range 64).any fun q => queueCtx s q = x &&
    (bit (rdReg s (.qCfg q)) 63 || (mget {} s.queues q).pkts.any fun p => p.type = 1 && !p.started)

/-- CTX_CFG.STOP: the queues of the context stop with cause 6; its tasks are pre-empted by their own steps (R331, R380). -/
def ctxStopWrite (s : State) (x : Nat) : State :=
  let s := { s with ctxStop := if s.ctxStop.contains x then s.ctxStop else s.ctxStop ++ [x] }
  (List.range 64).foldl (fun s q =>
    if queueCtx s q = x && bit (rdReg s (.qCfg q)) 63 then stopQueue s q 6 none false else s) s

/-- CTX_CFG.GO: STOP is undone; ignored with ERR while an emergency lasts or the context's images lie in the emergency area
(R407, R409). -/
def ctxGoWrite (s : State) (x : Nat) : State :=
  if bits (rdReg s .thmSts) 60 3 ≠ 0 || s.emerg.any fun i => (mlook s.tasks i.task).any fun t => t.ctx = x then
    wrReg s (.ctxCfg x) (setBits (rdReg s (.ctxCfg x)) 62 1 1)
  else
    let s := { s with ctxStop := s.ctxStop.filter (· ≠ x) }
    (List.range 64).foldl (fun s q =>
      if queueCtx s q = x && stopped s q && bits (rdReg s (.qSts q)) 56 4 = 6 then send (unstop s q) (.queueNotify q) else s) s

/-- The placement map of a context is one that R331 accepts. -/
def pmapOk (s : State) (x n : Nat) : Bool :=
  let m := (List.range n).map (pmapAt s x)
  1 ≤ n && n ≤ 128 && noRepeat m && m.all fun k => k < 128 && !s.retired.contains k

/-- A write of CTX_CFG. -/
def ctxCfgWrite (s : State) (x : Nat) (v : Word) : State :=
  if s.bringup < 7 then s else
  let old := rdReg s (.ctxCfg x)
  let en := bit old 63
  let c := if bit v 62 then setBits old 62 1 0 else old
  let c := if !en then setBits c 0 8 (bits v 0 8) else if bits v 0 8 = bits old 0 8 then c else setBits c 62 1 1
  let c :=
    if en && !bit v 63 then (if ctxBusy s x then setBits c 62 1 1 else setBits c 63 1 0)
    else if !en && bit v 63 then (if pmapOk s x (bits v 0 8) then setBits c 63 1 1 else setBits c 62 1 1)
    else c
  let s := wrReg s (.ctxCfg x) c
  let s := if bit v 61 then ctxStopWrite s x else s
  if bit v 60 then ctxGoWrite s x else s
/-- R331. -/
def execCtxCfgEnSet (x : Nat) (v : Word) (s : State) : Out := .next (if bit v 63 then ctxCfgWrite s x v else s)
/-- R331. -/
def execCtxCfgEnClear (x : Nat) (v : Word) (s : State) : Out := .next (if bit v 63 then s else ctxCfgWrite s x v)
/-- R331. -/
def execCtxCfgStop (x : Nat) (v : Word) (s : State) : Out := .next (if bit v 61 then ctxCfgWrite s x v else s)
/-- R331. -/
def execCtxCfgGo (x : Nat) (v : Word) (s : State) : Out := .next (if bit v 60 then ctxCfgWrite s x v else s)

/-- A write of a PMAP register: while EN = 1 its bytes are fixed (R331, R416). -/
def pmapWrite (s : State) (x i : Nat) (v : Word) : State :=
  let c := rdReg s (.ctxCfg x)
  if !bit c 63 then wrReg s (.pmap x i) v
  else if v = rdReg s (.pmap x i) then s else wrReg s (.ctxCfg x) (setBits c 62 1 1)

/-! ## Nodes (R339) -/

/-- Test of a word (R339). -/
def testWord (x mask value : Word) (op : Nat) : Bool :=
  let a := x &&& mask
  match op with
  | 0 => a = value
  | 1 => a ≠ value
  | 2 => a.ult value
  | 3 => !a.ult value
  | 4 => a.slt value
  | _ => !a.slt value

/-- The word of a node read at its home, with the state that the read leaves; else it waits, or a fault stops the queue with cause 5. -/
def nodeWord (s : State) (q : Nat) (p : Pkt) (va : Nat) : Except State (State × Word) :=
  let ask := cpAsk s (queueCtx s q) (wordVas va 8)
  match cpNum s (queueCtx s q) va 8 with
  | .error none => .error ask
  | .error (some _) => .error (stopQueue ask q 5 (some p.id) true)
  | .ok v => .ok (cpTouch s (queueCtx s q) (wordVas va 8), BitVec.ofNat 64 v)

/-- A list begins to run in place of its node. -/
def runList (s : State) (q : Nat) (p : Pkt) (va len passes : Nat) : State :=
  modPkt s q p.id fun p => { p with node := some ⟨va, len, 0, passes⟩ }

/-- Index after a packet and everything that stands inside it. -/
def endOf (ps : List Pkt) (id : Nat) : Nat :=
  let i := (ps.takeWhile fun p => p.id ≠ id).length
  i + 1 + ((ps.drop (i + 1)).takeWhile fun p => (ancestors ps 8 p.parent).contains id).length

/-- The next packet of a node's list is read once every packet before it has started. -/
def readListPkt (s : State) (q : Nat) (p : Pkt) (n : Node) : State :=
  let x := mget {} s.queues q
  if !((x.pkts.filter fun c => c.parent = some p.id).all (fullyStarted x.pkts)) then s else
  let ask := cpAsk s (queueCtx s q) (wordVas (n.list + 64 * n.next) 64)
  match cpRun s (queueCtx s q) (n.list + 64 * n.next) 8 8 with
  | .error none => ask
  | .error (some _) => stopQueue ask q 3 (some p.id) false
  | .ok ws =>
    let s := cpTouch s (queueCtx s q) (wordVas (n.list + 64 * n.next) 64)
    let ws := ws.map (BitVec.ofNat 64)
    let c := packetCause ws
    let t := bits (ws.getD 0 0) 8 8
    if c ≠ 0 then stopQueue s q c (some p.id) false
    else if 4 ≤ p.depth + 1 && (t = 5 || t = 6 || t = 7) then stopQueue s q 4 (some p.id) false
    else
      let s := modPkt s q p.id fun p => { p with node := some { n with next := n.next + 1 } }
      addPkt s q (endOf x.pkts p.id) { id := 0, words := ws, parent := some p.id, depth := p.depth + 1 }

/-- A node that runs a list: its next packet, or what follows once the list has completed. -/
def stepNode (s : State) (q : Nat) (p : Pkt) (n : Node) (fin : State → State) : State :=
  let x := mget {} s.queues q
  if x.stopNode = some p.id then s
  else if n.next < n.len then readListPkt s q p n
  else if x.pkts.any fun c => c.parent = some p.id then s
  else fin s

/-- A node on its turn: started, and not stopped itself. -/
def nodeTurn (s : State) (q pk type : Nat) (f : State → Pkt → State) : Out :=
  match onTurn s q pk type with
  | none => .next s
  | some p =>
    if p.done then .next (settlePkt s q pk)
    else if (mget {} s.queues q).stopNode = some pk then .next s
    else .next (f (startPkt s q pk) p)

/-- R339: COND reads its word once and runs one list. -/
def execCond (q pk : Nat) (s : State) : Out :=
  nodeTurn s q pk 5 fun s p =>
    match p.node with
    | some n => stepNode s q p n fun s => donePkt s q pk 0
    | none => match nodeWord s q p (p.word 1).toNat with
      | .error s => s
      | .ok (s, v) =>
        if testWord v (p.word 2) (p.word 3) (bits (p.word 6) 32 8) then runList s q p (p.word 4).toNat (bits (p.word 6) 0 16) 0
        else runList s q p (p.word 5).toNat (bits (p.word 6) 16 16) 0

/-- An 8-byte write of the command processor: whether it was performed, `none` to try again. -/
def cpWrite8 (s : State) (q pk va : Nat) (v : Word) : State × Option Bool :=
  match cpPage s (queueCtx s q) va .store false with
  | .error none => (s, none)
  | .error (some _) => (s, some false)
  | .ok (pa, _) =>
    let src := WSrc.cp q pk
    let hw (w i : Nat) : HomeWr := ⟨w + i, 15, BitVec.ofNat 32 (bits v (32 * i) 32), false, .write, src⟩
    if isPeerPa pa then (peerWrite s (peerPod pa) (.words [hw (peerWord pa) 0, hw (peerWord pa) 1]) src, some true)
    else if spaceOf pa = 2 then (send s (.registerWrite pa { v := v, src := src }), some true)
    else match performAll [hw (pa / 4) 0, hw (pa / 4) 1] false s with
      | (s, [], d) => (s, some !d)
      | (s, _, _) => (s, none)

/-- Before each pass: the test, the limit, the pass number (R339). -/
def loopTest (s : State) (q : Nat) (p : Pkt) (passes : Nat) : State :=
  match nodeWord s q p (p.word 1).toNat with
  | .error s => s
  | .ok (s, v) =>
    if !testWord v (p.word 2) (p.word 3) (bits (p.word 5) 16 8) then donePkt s q p.id 0
    else if bits (p.word 5) 32 32 ≠ 0 && passes = bits (p.word 5) 32 32 then donePkt s q p.id 32
    else
      let body (s : State) : State := runList s q p (p.word 4).toNat (bits (p.word 5) 0 16) (passes + 1)
      if p.word 6 = 0 then body s else
      match cpWrite8 s q p.id (p.word 6).toNat (BitVec.ofNat 64 passes) with
      | (s, none) => s
      | (s, some true) => body s
      | (s, some false) => stopQueue s q 5 (some p.id) true

/-- R339: LOOP starts with its first test, and reads the packets of its pass. -/
def execLoopNode (q pk : Nat) (s : State) : Out :=
  nodeTurn s q pk 6 fun s p =>
    match p.node with
    | some n => if n.next < n.len then readListPkt s q p n else s
    | none => loopTest s q p 0

/-- R339: a pass has completed: the word is read again. -/
def execLoopPass (q pk : Nat) (s : State) : Out :=
  nodeTurn s q pk 6 fun s p =>
    match p.node with
    | some n => if n.next < n.len then s else stepNode s q p n fun s => loopTest s q p n.passes
    | none => s

/-- R339: SWITCH runs the entry that a field of its word names, or the default list. -/
def execSwitch (q pk : Nat) (s : State) : Out :=
  nodeTurn s q pk 7 fun s p =>
    match p.node with
    | some n => stepNode s q p n fun s => donePkt s q pk 0
    | none => match nodeWord s q p (p.word 1).toNat with
      | .error s => s
      | .ok (s, v) =>
        let i := bits v (bits (p.word 4) 24 8) 6
        if bits (p.word 4) 16 8 ≤ i then runList s q p (p.word 3).toNat (bits (p.word 4) 0 16) 0 else
        match nodeWord s q p ((p.word 2).toNat + 16 * i) with
        | .error s => s
        | .ok (s, a) => match nodeWord s q p ((p.word 2).toNat + 16 * i + 8) with
          | .error s => s
          | .ok (s, b) =>
            if a.toNat % 64 ≠ 0 || bits b 16 48 ≠ 0 then stopQueue s q 2 (some pk) true
            else runList s q p a.toNat (bits b 0 16) 0

/-! ## Waits (R340) -/

/-- R340: WAIT completes when its test holds. -/
def execWait (q pk : Nat) (s : State) : Out :=
  nodeTurn s q pk 8 fun s p =>
    match nodeWord s q p (p.word 1).toNat with
    | .error s => s
    | .ok (s, v) => if testWord v (p.word 2) (p.word 3) (bits (p.word 4) 0 8) then donePkt s q pk 0 else s

/-- R340: a WAIT that has waited TMO completes with TIMEOUT. -/
def execWaitTimeout (q pk : Nat) (s : State) : Out :=
  match pktOf s q pk with
  | none => .next s
  | some p =>
    let tmo := bits (p.word 4) 32 32
    .next (if p.type = 8 && p.started && !p.done && tmo ≠ 0 && p.clk0 + tmo * 65536 ≤ s.clk then donePkt s q pk 16 else s)

/-! ## Page-home moves (R65, R66) -/

/-- The leaf of a VA and where it stands: PA, entry, level; with the state that the reads of the entries leave, whose lost owners are recorded
and whose waits are timed (R58, R59). -/
def leafPlace (s : State) (va : Nat) : Nat → Nat → State × CpR (Nat × Word × Nat)
  | l, table =>
    let pa := table + 8 * (va / 2 ^ lvlShift l % 2 ^ lvlWidth l)
    let t := ownAsk (ownAsk (touchReads s [pa / 4]) (pa / 4)) (pa / 4 + 1)
    match homeRead s (pa / 4) 0, homeRead s (pa / 4 + 1) 0 with
    | .wait, _ => (t, .error none)
    | _, .wait => (t, .error none)
    | .value lo, .value hi =>
      let e : Word := BitVec.ofNat 64 (lo.v.toNat + 2 ^ 32 * hi.v.toNat)
      if lo.p || hi.p || (entryFault s l e).isSome then (t, .error (some 5))
      else if bit e 1 then (t, .ok (pa, e, l))
      else match l with
        | 0 => (t, .error (some 5))
        | l + 1 => leafPlace t va l (bits e 8 44 * 256)
    | _, _ => (t, .error (some 5))

/-- A word of a page. -/
def inPage (pa size w : Nat) : Bool := pa / 4 ≤ w && w < (pa + size) / 4

/-- Both words of a page-table entry can be written at once. -/
def entryReady (s : State) (pa : Nat) : Bool := pokeReady s (pa / 4) && pokeReady s (pa / 4 + 1)

/-- A page-table entry is written. -/
def pokeEntry (s : State) (pa : Nat) (e : Word) (src : WSrc) : State :=
  homePoke (homePoke s (pa / 4) (e.truncate 32) src) (pa / 4 + 1) ((e >>> 32).truncate 32) src

/-- R65: a move is refused, fails, or begins with MV = 1. -/
def execHomemove (q pk : Nat) (s : State) : Out :=
  match onTurn s q pk 4 with
  | none => .next s
  | some p =>
    if p.done then .next (settlePkt s q pk)
    else if s.moves.any fun m => m.q = q && m.pk = pk then .next s
    else
      let x := queueCtx s q
      let va := (p.word 1).toNat
      let newPa := (p.word 2).toNat
      let root := rdReg s (.xltRoot x)
      .next (if 2 ^ 56 ≤ va || inFixed va || !bit root 0 || !isHbm (bits root 11 41 * 2048) then donePkt s q pk 64 else
      match leafPlace s va 4 (bits root 11 41 * 2048) with
      | (s, .error none) => s
      | (s, .error (some _)) => donePkt s q pk 64
      | (s, .ok (lp, e, l)) =>
        let size := pageSize l
        let toHost := bits e 11 2 = 0
        let e' := setBits (setBits (setBits e 16 36 (newPa / 65536)) 11 2 (if toHost then 1 else 0)) 15 1 0
        if bit e 10 || bit e 13 || bits e 11 2 = 2 || l = 2 || bit e 15 || newPa % size ≠ 0 || 2 ^ 52 ≤ newPa ||
           (if toHost then !isHostPa newPa else !isHbm newPa) || !leafPaOk s e' size then donePkt s q pk 8
        else if !hostUp s 0 then donePkt s q pk 64
        else
          let old := leafPa e l va / size * size
          if !entryReady s lp then s else
          let m : Move := { q := q, pk := pk, ctx := x, va := va / size * size, oldPa := old, newPa := newPa, size := size,
                            leafPa := lp, leaf := e }
          { pokeEntry (startPkt s q pk) lp (setBits e 15 1 1) (.cp q pk) with moves := s.moves ++ [m] })

/-- Words of a move's page that differ from plain zero anywhere: word offsets. -/
def moveWords (s : State) (m : Move) : List Nat :=
  let off (w : Nat) : List Nat :=
    if m.oldPa / 4 ≤ w && w < (m.oldPa + m.size) / 4 then [w - m.oldPa / 4]
    else if m.newPa / 4 ≤ w && w < (m.newPa + m.size) / 4 then [w - m.newPa / 4] else []
  let all := (s.mem.flatMap fun (a, _) => off (a / 4)) ++ (s.pois.flatMap fun (w, _) => off w) ++
    (s.bad.flatMap fun (w, _) => off w) ++ s.lvl.flatMap fun (k, _) => off (k % 2 ^ 50)
  all.foldl (fun l i => if l.contains i then l else l ++ [i]) []

/-- The values of a page's words at the old home, by word offset: a lost word is recorded and poisoned; none where one is under way (R59,
R65 steps 2 and 3). -/
def moveValues (m : Move) : List Nat → State → Option (State × List (Nat × Lane))
  | [], s => some (s, [])
  | i :: r, s =>
    let w := m.oldPa / 4 + i
    match homeFind s w with
    | .busy => none
    | .val x _ _ => (moveValues m r s).map fun (s, l) => (s, (i, x) :: l)
    | .lost path id cause => (moveValues m r (loseWord s w path id cause)).map fun (s, l) => (s, (i, ⟨(memWord s w).v, true⟩) :: l)

/-- An extent that covers a moved page, cut around it (R30, R65). -/
def cutExtent (m : Move) (hk : Nat) (x : Extent) : List Extent :=
  if m.va < x.va || x.va + x.len < m.va + m.size then [x] else
  let before := { x with len := m.va - x.va }
  let here := { x with va := m.va, pa := m.newPa, len := m.size, hk := hk }
  let after := { x with va := m.va + m.size, pa := x.pa + (m.va + m.size - x.va), len := x.va + x.len - (m.va + m.size) }
  [before, here, after].filter fun y => y.len ≠ 0

/-- A word of the old page at its new place. -/
def movedWord (m : Move) (w : Nat) : Nat := if inPage m.oldPa m.size w then w - m.oldPa / 4 + m.newPa / 4 else w

/-- The core to which the Owner entries lead from a place down. -/
def ownerBelow (s : State) (w : Nat) : Nat → Nat → Nat
  | 0, p => p
  | n + 1, p => if p < 0x200 then p else match lvlAt s p w with
    | some (.owner q) => ownerBelow s w n q
    | _ => p

/-- The stores whose registrations have still to come to the old home: core and word, those that wait there first (R65 step 1, R66). -/
def unregistered (s : State) (m : Move) : List (Nat × Nat) :=
  let mine (k w : Nat) : List (Nat × Nat) := if inPage m.oldPa m.size w then [(k, w)] else []
  ((s.held ++ s.net).flatMap fun i => match i with
    | .registration org w _ ask _ _ => mine (ownerBelow s w 6 org) w ++ (if ask.wide then mine (ownerBelow s (w + 1) 6 org) (w + 1) else [])
    | .displacement w _ _ (.own k) => mine k w
    | .displacement w _ _ (.l1 k) => mine k w
    | _ => []).eraseDups

/-- A message about the old page goes on at the new one: an atomic, a home write, a load; what a store has under way is made anew
(R65 step 6). -/
def redirect (m : Move) (i : Instr) : Option Instr :=
  let load (w : Nat) (ret : Ret) : Option Instr := if !inPage m.oldPa m.size w then some i else match ret with
    | .load k _ _ _ _ _ => let top := (chain k (movedWord m w)).getLastD 0; some (.forwardedRead (movedWord m w) top top ret)
    | _ => none
  match i with
  | .homeWrite h => some (.homeWrite { h with w := movedWord m h.w })
  | .peerWriteArrival x => some (.peerWriteArrival { x with body := match x.body with
    | .words ws => .words (ws.map fun h => { h with w := movedWord m h.w })
    | .atomic w a => .atomic (movedWord m w) a })
  | .orderedContribution o => some (.orderedContribution { o with words := o.words.map (movedWord m) })
  | .collectivePayload x => some (.collectivePayload { x with word := x.word.map (movedWord m) })
  | .atomicExecute p w a =>
    if !inPage m.oldPa m.size w then some i else
    some (.atomicExecute (if p < 0x400 then p else atomPlace a.core (movedWord m w) 6) (movedWord m w) a)
  | .forwardedRead w _ _ ret => load w ret
  | .notHeldAnswer w _ _ ret _ => load w ret
  | .readReply w _ ret _ _ _ _ => load w ret
  | .registration _ w _ _ _ _ => if inPage m.oldPa m.size w then none else some i
  | .displacement w _ _ _ => if inPage m.oldPa m.size w then none else some i
  | i => some i

/-- The bytes that an L1 holds of stores whose registration has still to come to its home: all four of an owned word; none for a
registration with fetch of no bytes. -/
def storedMask : L1St → BitVec 4
  | .o => 15
  | .pend mask whole => if whole then 15 else mask
  | .v => 0

/-- The stores of a core to a word that have still to come to the old home are taken to the new page (R66): their bytes in its L1, and their
entries; answers what they ask of the new home. Stores of other cores that they have displaced are performed with them. -/
def moveStore (m : Move) (old s : State) (x : Nat × Nat) : State × List Instr :=
  let (k, w) := x
  let w' := movedWord m w
  let mine (c : Core) : List Outst := c.outst.filter fun o => o.w = w
  match l1At old k w with
  | none => (s, [])
  | some y =>
    let mask := storedMask y.st
    if mask = 0 || (core s k).outst.any (fun o => o.w = w' && !o.acked.contains 0x2000) then (s, []) else
    let os := (mine (core old k)).mapIdx fun i o => { o with w := w', acked := [], join := decide (0 < i) }
    let s := setL1 (reachL1 s k w' (os.headD { w := w', seq := 0 }).region) k w' ⟨if mask = 15 then .o else .pend mask false, y.v, y.p⟩
    let there (c : Core) : Bool := c.outst.any fun o => o.w = w'
    let entries (j : Nat) (c : Core) : List Outst :=
      if j = k then (c.outst.filter fun o => o.w ≠ w') ++ os else if there c then c.outst else
      c.outst ++ (mine (core old j)).map fun o => { o with w := w', acked := o.acked ++ [0x2000] }
    let s := { s with cores := s.cores.map fun (j, c) => (j, { c with outst := entries j c }) }
    (s, [.registration k w' (plLanding (layerOf k)) ⟨mask ≠ 15, false⟩ k (os.headD { w := w', seq := 0 }).seq])

/-- A store that has reached the old home stands among the accesses that wait there, as a registration at its new home that still climbs from
its L1 (R66). -/
def atNewHome : Instr → Instr
  | .registration k w _ ask c q => .registration k w ((chain k w).getLastD 0) ask c q
  | i => i

/-- Accesses that waited at the old home wait at the new one, in the order in which they reached the old one (R66). -/
def moveHeld (m : Move) (old : State) (s : State) : List Instr → State
  | [] => s
  | i :: r =>
    let stores : List (Nat × Nat) := match i with
      | .registration org w _ ask _ _ => ((if ask.wide then [w, w + 1] else [w]).filter (inPage m.oldPa m.size)).map fun x => (ownerBelow old x 6 org, x)
      | _ => []
    let s := if stores.isEmpty then { s with held := s.held ++ (redirect m i).toList }
      else stores.foldl (fun s x => let (t, l) := moveStore m old s x; { t with held := t.held ++ l.map atNewHome }) s
    moveHeld m old s r

/-- An access that a sequencer has still to make in a bundle that has issued is made at the new page (R65 step 6). -/
def moveWait (m : Move) (x : Wait) : Wait :=
  let moved (pa : Nat) : Nat := if m.oldPa ≤ pa && pa < m.oldPa + m.size then pa - m.oldPa + m.newPa else pa
  match x with
  | .rel sc (some a) => .rel sc (some { a with pa := moved a.pa })
  | .atom a => .atom { a with pa := moved a.pa }
  | .store sl n d p va pa rg b => .store sl n d p va (moved pa) rg b
  | .load t e n va pa rg => .load t e n va (moved pa) rg
  | x => x

/-- Words written at the new home; none where one has to wait. -/
def moveWrite (s : State) (m : Move) : List (Nat × Lane) → Option State
  | [] => some s
  | (i, x) :: r => match homePerform s ⟨m.newPa / 4 + i, 15, x.v, x.p, .write, .none⟩ with
    | .wait _ => none
    | .done s _ _ => moveWrite s m r

/-- The lines of a page as the memory at both homes answers for them (R97, R98). -/
def moveMeets (s : State) (m : Move) (r : HbmRes) : Bool :=
  (List.range (m.size / 128)).any fun i => hbmRead s (m.oldPa + 128 * i) = r || hbmRes s (m.newPa + 128 * i) = r

/-- The page cannot be copied: a link is down, or an uncorrectable error is met (R66). -/
def moveFails (s : State) (m : Move) : Bool :=
  !hostUp s 0 || moveMeets s m .failed || (moveWords s m).any fun i => match homeFind s (m.oldPa / 4 + i) with
    | .val _ h _ => badFrom s h (m.oldPa / 4 + i)
    | _ => false

/-- R65 steps 2 to 6, in one event: no access of its page falls between them. What a store, load or atomic has under way is laid aside while
the page is copied, and goes on at the new page. -/
def movePage (s : State) (m : Move) : Option State :=
  let page (w : Nat) : Bool := inPage m.oldPa m.size w
  let aside := { s with moves := s.moves.erase m, locks := s.locks.filter fun (_, w) => !page w }
  match moveValues m (moveWords s m) (touchReads aside ((List.range (m.size / 128)).map fun i => m.oldPa / 4 + 32 * i)) with
  | none => none
  | some (t, vs) => (moveWrite t m vs).map fun t =>
    let hk := if bits m.leaf 11 2 = 0 then 1 else 0
    let t := dropWords true { t with net := t.net.filterMap (redirect m), held := [] } page
    let t := { t with
      wcache := t.wcache.filter fun e => e.ctx ≠ m.ctx
      cores := t.cores.map fun (k, c) => (k, { c with
        extents := if c.ctx = m.ctx then c.extents.flatMap (cutExtent m hk) else c.extents
        seqs := c.seqs.map fun (q, x) => (q, { x with waits := x.waits.map (moveWait m) }) }) }
    let t := moveHeld m s t s.held
    let t := (unregistered s m).foldl (fun t x => let (t, l) := moveStore m s t x; { t with net := t.net ++ l }) t
    pokeEntry t m.leafPa (setBits (setBits m.leaf 16 36 (m.newPa / 65536)) 11 2 hk) (.cp m.q m.pk)

/-- R65 steps 2 to 6. -/
def execHomemoveComplete (q pk : Nat) (s : State) : Out :=
  match s.moves.find? fun m => m.q = q && m.pk = pk with
  | none => .next s
  | some m =>
    if moveFails s m || moveMeets s m .held || !entryReady s m.leafPa then .next s else
    .next (match movePage s m with
    | none => s
    | some t => donePkt t q pk 0)

/-- R66: a move that fails before step 4 leaves the leaf as it was. -/
def execHomemoveFailed (q pk : Nat) (s : State) : Out :=
  match s.moves.find? fun m => m.q = q && m.pk = pk with
  | none => .next s
  | some m =>
    .next (if moveFails s m && entryReady s m.leafPa then
      donePkt (pokeEntry { s with moves := s.moves.erase m } m.leafPa m.leaf (.cp q pk)) q pk 64 else s)

/-! ## The event ring and the forecast (R344, R345) -/

/-- A write of EVQ_CFG. -/
def evqCfgWrite (s : State) (v : Word) : State :=
  if s.bringup < 7 then s else
  let old := rdReg s .evqCfg
  let en := bit old 63
  let c := if bit v 62 then setBits old 62 1 0 else old
  let c := if !en then setBits c 0 4 (bits v 0 4) else if bits v 0 4 = bits old 0 4 then c else setBits c 62 1 1
  if en && !bit v 63 then wrReg s .evqCfg (setBits c 63 1 0)
  else if !en && bit v 63 then
    let pa := bits (rdReg s .evqBase) 0 52
    if 4 ≤ bits c 0 4 && pa % (16 * 2 ^ bits c 0 4) = 0 && (isHbm pa || isHostPa pa) then
      let mine (m : Instr) : Bool := match m with
        | .homeWrite h => h.src = .evq
        | _ => false
      -- records under way and waiting belong to no ring any more: they are dropped
      let lost := s.evWait.length + if s.evLeft = 0 then 0 else 1
      let s := { s with evWait := [], evLeft := 0, net := s.net.filter fun m => !mine m, held := s.held.filter fun m => !mine m }
      wrReg (wrReg (wrReg s .evqCfg (bumpField (setBits c 63 1 1) 16 16 lost)) .evqWr 0) .evqRd 0
    else wrReg s .evqCfg (setBits c 62 1 1)
  else wrReg s .evqCfg c
/-- R344. -/
def execEvqCfgEnSet (v : Word) (s : State) : Out := .next (if bit v 63 then evqCfgWrite s v else s)
/-- R344. -/
def execEvqCfgEnClear (v : Word) (s : State) : Out := .next (if bit v 63 then s else evqCfgWrite s v)

/-- A write of EVQ_RD (R344). -/
def evqRdSet (s : State) (v : Word) : State :=
  if s.bringup < 7 then s else
  let rd := bits v 0 32
  let wr := bits (rdReg s .evqWr) 0 32
  if 2 ^ bits (rdReg s .evqCfg) 0 4 < (wr + 2 ^ 32 - rd) % 2 ^ 32 then wrReg s .evqCfg (setBits (rdReg s .evqCfg) 62 1 1)
  else wrReg s .evqRd (BitVec.ofNat 64 rd)
/-- R344. -/
def execEvqRdWrite (v : Word) (s : State) : Out := .next (evqRdSet s v)

/-- Cores that a dispatch packet names, from its image's header; none where it cannot be read. -/
def pktCores (s : State) (q : Nat) (p : Pkt) : Nat :=
  match cpNum s (queueCtx s q) ((p.word 1).toNat + 4) 2 with
  | .ok n => n
  | .error _ => 0

/-- R345: the forecast is recomputed. -/
def execActFcstRecompute (s : State) : Out :=
  let now := s.tasks.foldl (fun n (_, t) => if t.st = .running || t.st = .setup || t.st = .saving then n + t.cores.length else n) 0
  let rs := readyTasks s
  let f4 := min 128 (now + rs.foldl (fun n (i, t) =>
    if mayGrant s i t || (!coresIdle s t && leads s i t && !resumesFirst s t && mayPreempt s t) then n + t.cores.length else n) 0)
  let f8 := min 128 (f4 + (List.range 64).foldl (fun n q =>
    (((mget {} s.queues q).pkts.drop 1).filter fun p => p.type = 1 && !p.started).foldl (fun n p => n + pktCores s q p) n) 0)
  let sq := (bits (rdReg s .actFcst) 0 16 + 1) % 2 ^ 16
  .next (wrReg s .actFcst (BitVec.ofNat 64
    (2 ^ 63 + f8 * 2 ^ 48 + f4 * 2 ^ 40 + now * 2 ^ 32 + (min 65535 rs.length) * 2 ^ 16 + sq)))

end Sys2Proof.Machine
end

