-- ==== Sys2Proof/Machine/Special.lean ====
section
/-! DEFINITION. The F slot: correctly rounded functions, divisions, random numbers, CRC, hash and GF(2^8) products
(R268-R275). -/
namespace Sys2Proof.Machine

/-! ## Fixed-point functions

The elementary functions are computed with 512 fraction bits, far below any rounding boundary of F32 (log entry 12). -/

/-- Fraction bits. -/
def fxP : Nat := 512
/-- One in fixed point. -/
def fxOne : Nat := 2 ^ fxP
/-- π in fixed point, rounded down. -/
def fxPi : Nat := 0x3243f6a8885a308d313198a2e03707344a4093822299f31d0082efa98ec4e6c89452821e638d01377be5466cf34e90c6cc0ac29b7c97c50dd3f84d5b5b5470917

/-- Product of two fixed-point numbers. -/
def fxMul (a b : Nat) : Nat := a * b / fxOne

/-- Σ t_k with t_(k+1) = t_k z / (d k): the terms of a power series, even and odd ones summed apart. -/
def fxSeries (z : Nat) (d : Nat → Nat) : Nat → Nat → Nat → Nat × Nat
  | 0, _, _ => (0, 0)
  | n + 1, k, t =>
    let (odd, even) := fxSeries z d n (k + 1) (fxMul t z / d k)
    (even + t, odd)

/-- e^y for 0 ≤ y < 1. -/
def fxExp (y : Nat) : Nat := let (a, b) := fxSeries y (fun k => k + 1) 128 0 fxOne; a + b

/-- sin r for 0 ≤ r < 2. -/
def fxSin (r : Nat) : Nat :=
  let (a, b) := fxSeries (fxMul r r) (fun k => (2 * k + 2) * (2 * k + 3)) 80 0 r; a - b
/-- cos r for 0 ≤ r < 2. -/
def fxCos (r : Nat) : Nat :=
  let (a, b) := fxSeries (fxMul r r) (fun k => (2 * k + 1) * (2 * k + 2)) 80 0 fxOne; a - b

/-- Σ z^(2k+1) / (2k+1): atanh z for z ≤ 1/3. -/
def fxAtanh (z : Nat) : Nat → Nat → Nat → Nat
  | 0, _, _ => 0
  | n + 1, k, t => t / (2 * k + 1) + fxAtanh z n (k + 1) (fxMul (fxMul t z) z)

/-- ln of x / y for y ≤ x < 2 y. -/
def fxLn (x y : Nat) : Nat := let z := (x - y) * fxOne / (x + y); 2 * fxAtanh z 180 0 z
/-- ln 2. -/
def fxLn2 : Nat := 2 * fxAtanh (fxOne / 3) 180 0 (fxOne / 3)

/-- Integer square root, bit by bit. -/
def isqrtGo (n : Nat) : Nat → Nat → Nat
  | 0, r => r
  | k + 1, r => let c := r + 2 ^ k; isqrtGo n k (if c * c ≤ n then c else r)
/-- Floor of the square root. -/
def isqrt (n : Nat) : Nat := isqrtGo n (Nat.log2 n / 2 + 1) 0

/-! ## Functions of F32 (R269, R270) -/

/-- Nearest even, with the sequencer's flushing (R269). -/
def nearEnv (env : REnv) : REnv := { env with mode := .rm 0 }

/-- Decoded and flushed F32 input. -/
def inF32 (env : REnv) (a : Nat) : Fv := flushIn env.ftz (fF32.decode a)

/-- m / n rounded, with 70 quotient bits and a sticky remainder. -/
def roundQuot (env : REnv) (neg : Bool) (m n : Nat) (exp : Int) : Nat × Flags :=
  let k := 70 + Nat.log2 n
  fF32.round env neg (m * 2 ^ k / n) (exp - k) (m * 2 ^ k % n != 0)

/-- 1 / a (R270). -/
def fRcp (env : REnv) (a : Nat) : Nat × Flags :=
  let v := inF32 env a
  match nanOf fF32 [v] with
  | some r => r
  | none =>
    match v with
    | .inf n => (fF32.sign n, 0)
    | .fin n m e => if m = 0 then (fF32.infBits n, flDZ) else roundQuot env n 1 m (-e)
    | _ => invalid fF32

/-- √(m 2^e), with its sticky bit. -/
def sqrtExact (m : Nat) (e : Int) : Nat × Int × Bool :=
  let (m, e) := if e % 2 = 0 then (m, e) else (2 * m, e - 1)
  let x := m * 2 ^ 128
  let r := isqrt x
  (r, e / 2 - 64, r * r != x)

/-- √a (R270). -/
def fSqrt (env : REnv) (a : Nat) : Nat × Flags :=
  let v := inF32 env a
  match nanOf fF32 [v] with
  | some r => r
  | none =>
    match v with
    | .inf n => if n then invalid fF32 else (fF32.infBits false, 0)
    | .fin n m e =>
      if m = 0 then (fF32.sign n, 0) else if n then invalid fF32 else
      let (r, x, sticky) := sqrtExact m e
      fF32.round env false r x sticky
    | _ => invalid fF32

/-- 1 / √a (R270): √(2^200 / m) with the remainder kept sticky. -/
def fRsqrt (env : REnv) (a : Nat) : Nat × Flags :=
  let v := inF32 env a
  match nanOf fF32 [v] with
  | some r => r
  | none =>
    match v with
    | .inf n => if n then invalid fF32 else (0, 0)
    | .fin n m e =>
      if m = 0 then (fF32.infBits n, flDZ) else if n then invalid fF32 else
      let (m, e) := if e % 2 = 0 then (m, e) else (2 * m, e - 1)
      let r := isqrt (2 ^ 200 / m)
      fF32.round env false r (-(e / 2) - 100) (r * r * m != 2 ^ 200)
    | _ => invalid fF32

/-- d / a (R269, R270); NaNs in the order d, a. -/
def fDiv (env : REnv) (d a : Nat) : Nat × Flags :=
  let vd := inF32 env d
  let va := inF32 env a
  match nanOf fF32 [vd, va] with
  | some r => r
  | none =>
    match vd, va with
    | .inf _, .inf _ => invalid fF32
    | .inf n, .fin k _ _ => (fF32.infBits (n != k), 0)
    | .fin n _ _, .inf k => (fF32.sign (n != k), 0)
    | .fin n x e, .fin k y g =>
      if y = 0 then (if x = 0 then invalid fF32 else (fF32.infBits (n != k), flDZ))
      else if x = 0 then (fF32.sign (n != k), 0)
      else roundQuot env (n != k) x y (e - g)
    | _, _ => invalid fF32

/-- 2^a (R269, R270): exact for integers, else 2^n times e^(f ln 2). -/
def fExp2 (env : REnv) (a : Nat) : Nat × Flags :=
  let v := inF32 env a
  match nanOf fF32 [v] with
  | some r => r
  | none =>
    match v with
    | .inf n => (if n then 0 else fF32.infBits false, 0)
    | .fin n m e =>
      if m = 0 then (0x3F800000, 0) else
      if decide (12 < e + (Nat.log2 m : Int)) then
        fF32.round (nearEnv env) false 1 (if n then -5000 else 5000) true
      else
        -- a as a multiple of 2^-200
        let x : Int := (m * 2 ^ (e + 200).toNat : Nat)
        let x := if n then -x else x
        let k := x / 2 ^ 200
        let f := (x % 2 ^ 200).toNat
        if f = 0 then fF32.round (nearEnv env) false 1 k false
        else fF32.round (nearEnv env) false (fxExp (fxMul (f * 2 ^ (fxP - 200)) fxLn2)) (k - fxP) true
    | _ => invalid fF32

/-- log2 a (R269, R270): exact for powers of two. -/
def fLog2 (env : REnv) (a : Nat) : Nat × Flags :=
  let v := inF32 env a
  match nanOf fF32 [v] with
  | some r => r
  | none =>
    match v with
    | .inf n => if n then invalid fF32 else (fF32.infBits false, 0)
    | .fin n m e =>
      if m = 0 then (fF32.infBits true, flDZ) else if n then invalid fF32 else
      let l := Nat.log2 m
      let k : Int := e + l
      if m = 2 ^ l then fF32.round (nearEnv env) (decide (k < 0)) k.natAbs 0 false else
      let frac := fxLn m (2 ^ l) * fxOne / fxLn2
      let t : Int := k * (fxOne : Nat) + frac
      fF32.round (nearEnv env) (decide (t < 0)) t.natAbs (-(fxP : Int)) true
    | _ => invalid fF32

/-- sin or cos of quarter turn `q` plus the angle `r` in the first quarter: sign and magnitude. -/
def quarter (wantCos : Bool) (q r : Nat) : Bool × Nat :=
  let q := (if wantCos then q + 1 else q) % 4
  (2 ≤ q, if q % 2 = 0 then fxSin r else fxCos r)

/-- sin or cos in radians (R269, R270). -/
def trigRad (wantCos : Bool) (env : REnv) (a : Nat) : Nat × Flags :=
  let v := inF32 env a
  match nanOf fF32 [v] with
  | some r => r
  | none =>
    match v with
    | .inf _ => invalid fF32
    | .fin n m e =>
      if m = 0 then (if wantCos then 0x3F800000 else fF32.sign n, 0) else
      -- |a| in units of 2^-512, reduced by multiples of π/2 kept with as many extra bits as |a| has
      let x := m * 2 ^ (e + fxP).toNat
      let q := x * 2 / fxPi
      let r := (x * 2 - q * fxPi) / 2
      let (neg, y) := quarter wantCos (q % 4) r
      fF32.round (nearEnv env) (neg != (n && !wantCos)) y (-(fxP : Int)) true
    | _ => invalid fF32

/-- sin or cos of 2π a (R269, R270): exact at multiples of 1/4; a zero of fcos.t is +0 (the model's choice, log 79). -/
def trigTurn (wantCos : Bool) (env : REnv) (a : Nat) : Nat × Flags :=
  let v := inF32 env a
  match nanOf fF32 [v] with
  | some r => r
  | none =>
    match v with
    | .inf _ => invalid fF32
    | .fin n m e =>
      -- |a| in units of 2^-152, modulo one turn
      let x := m * 2 ^ (e + 152).toNat % 2 ^ 152
      let q := x / 2 ^ 150
      let f := x % 2 ^ 150
      if f = 0 then
        let k := (if wantCos then q + 1 else q) % 4
        if k % 2 = 0 then (if wantCos then 0 else fF32.sign n, 0)
        else (fF32.sign ((k == 3) != (n && !wantCos)) + 0x3F800000, 0)
      else
        let (neg, y) := quarter wantCos q (2 * fxMul (f * 2 ^ (fxP - 152)) fxPi)
        fF32.round (nearEnv env) (neg != (n && !wantCos)) y (-(fxP : Int)) true
    | _ => invalid fF32

/-! ## Slot forms (R268) -/

/-- A function of d and a: scalar form on 64 bits, vector form on 32 bits per lane. -/
def fSlot (f : FOp) (lat : Nat) (readD : Bool) (sc : REnv → Word → Word → Word × Flags)
    (vc : REnv → W32 → W32 → W32 × Flags) (s : State) : Out :=
  guarded f.g s fun s =>
    let x := me s
    match f.form with
    | .scalar =>
      let a := rdS x f.a
      let d := rdS x f.d
      let (v, fl) := sc (envOf x) d.v a.v
      result s lat (.s f.d.toNat v (a.p || (readD && d.p)) :: if fl = 0 then [] else [.flags fl])
    | .vector q =>
      laneResult s lat f.d ((active (rdQ x q)).map fun l =>
        let a := rdV x f.a l
        let d := rdV x f.d l
        let (v, fl) := vc (envOf x) d.v a.v
        (l, ⟨v, fl, a.p || (readD && d.p)⟩))

/-- A function of F32 in both forms: the scalar form reads bits [31:0] and zero-extends (R268). -/
def fUn (f : FOp) (lat : Nat) (k : REnv → Nat → Nat × Flags) (s : State) : Out :=
  fSlot f lat false (fun env _ a => let (v, fl) := k env (a.toNat % 2 ^ 32); (BitVec.ofNat 64 v, fl))
    (fun env _ a => let (v, fl) := k env a.toNat; (BitVec.ofNat 32 v, fl)) s

/-- R269. -/
def execFrcp (f : FOp) (s : State) : Out := fUn f 8 fRcp s
/-- R269. -/
def execFrsqrt (f : FOp) (s : State) : Out := fUn f 8 fRsqrt s
/-- R269. -/
def execFsqrt (f : FOp) (s : State) : Out := fUn f 12 fSqrt s
/-- R269. -/
def execFexp2 (f : FOp) (s : State) : Out := fUn f 10 fExp2 s
/-- R269. -/
def execFlog2 (f : FOp) (s : State) : Out := fUn f 10 fLog2 s
/-- R269: radians, or turns with U. -/
def execFsin (f : FOp) (u : Bool) (s : State) : Out := fUn f 12 (if u then trigTurn false else trigRad false) s
/-- R269: radians, or turns with U. -/
def execFcos (f : FOp) (u : Bool) (s : State) : Out := fUn f 12 (if u then trigTurn true else trigRad true) s
/-- R269. -/
def execFdiv (f : FOp) (s : State) : Out :=
  fSlot f 20 true
    (fun env d a => let (v, fl) := fDiv env (d.toNat % 2 ^ 32) (a.toNat % 2 ^ 32); (BitVec.ofNat 64 v, fl))
    (fun env d a => let (v, fl) := fDiv env d.toNat a.toNat; (BitVec.ofNat 32 v, fl)) s

/-- Integer division of w bits (R271): quotient toward zero or remainder. -/
def divide {w : Nat} (sgn rem : Bool) (d a : BitVec w) : BitVec w × Flags :=
  if a = 0 then (if rem then d else -1, flDZ)
  else if sgn then
    (if rem then d.srem a else d.sdiv a, flIf (d = BitVec.intMin w && a = -1) flOF)
  else (if rem then d.umod a else d.udiv a, 0)

/-- R271, R204: latency 20. -/
def execIdiv (f : FOp) (rem : Bool) (s : State) : Out :=
  fSlot f 20 true (fun _ d a => divide true rem d a) (fun _ d a => divide true rem d a) s
/-- R271. -/
def execIdivu (f : FOp) (rem : Bool) (s : State) : Out :=
  fSlot f 20 true (fun _ d a => divide false rem d a) (fun _ d a => divide false rem d a) s

/-- One round of Rng (R272). -/
def rngRound (k x : Word) (i : Nat) : Word :=
  let x := x + k + BitVec.ofNat 64 i * 0x9E3779B97F4A7C15
  let x := (x ^^^ (x >>> 30)) * 0xBF58476D1CE4E5B9
  let x := (x ^^^ (x >>> 27)) * 0x94D049BB133111EB
  x ^^^ (x >>> 31)
/-- Rng(K, C) (R272). -/
def rngOf (k c : Word) : Word := rngRound k (rngRound k (rngRound k c 0) 1) 2

/-- R272: the s pair a, a + 1 in both forms; latency 6. -/
def execRng (f : FOp) (s : State) : Out :=
  guarded f.g s fun s =>
    let x := me s
    let k := rdS x f.a
    let c := rdS x (f.a + 1)
    match f.form with
    | .scalar => result s 6 [.s f.d.toNat (rngOf k.v c.v) (k.p || c.p)]
    | .vector q =>
      laneResult s 6 f.d ((active (rdQ x q)).map fun l =>
        (l, ⟨(rngOf k.v (c.v + BitVec.ofNat 64 l)).truncate 32, 0, k.p || c.p⟩))

/-- One bit step of the reflected CRC (R273). -/
def crcBit (p c : W32) : W32 := if c.getLsbD 0 then (c >>> 1) ^^^ p else c >>> 1
/-- The low n bytes of `a` fed into the CRC (R273). -/
def crcBytes (p : W32) (a : Word) (n : Nat) (c : W32) : W32 :=
  (List.range n).foldl (fun c i =>
    (List.range 8).foldl (fun c _ => crcBit p c) (c ^^^ ((a >>> (8 * i)).truncate 8 : BitVec 8).zeroExtend 32)) c

/-- R273: latency 4. -/
def execCrc (f : FOp) (poly : Bool) (sz : BitVec 2) (s : State) : Out :=
  let p : W32 := if poly then 0x82F63B78 else 0xEDB88320
  let n := 2 ^ sz.toNat
  fSlot f 4 true (fun _ d a => ((crcBytes p a n (d.truncate 32)).zeroExtend 64, 0))
    (fun _ d a => (crcBytes p (a.zeroExtend 64) n d, 0)) s

/-- One 64-bit mixing step (R274). -/
def hashStep64 (h x : Word) : Word := (h ^^^ (x * 0x8E3B5A07C91D2F6B)).rotateLeft 29 * 0x6D4A93F10B7E25C9
/-- One 32-bit mixing step (R274). -/
def hashStep32 (h x : W32) : W32 := (h ^^^ (x * 0x9E5D3C27)).rotateLeft 13 * 0x4A7F61B3

/-- R274: latency 4. -/
def execHash (f : FOp) (s : State) : Out :=
  fSlot f 4 true (fun _ d a => (hashStep64 d a, 0)) (fun _ d a => (hashStep32 d a, 0)) s

/-- Byte-wise product in GF(2^8) (R275). -/
def gfBytes (n d a : Nat) : Nat :=
  (List.range n).foldl (fun z i => z + gfMul (d / 256 ^ i % 256) (a / 256 ^ i % 256) * 256 ^ i) 0

/-- R275: latency 4. -/
def execGfmul (f : FOp) (s : State) : Out :=
  fSlot f 4 true (fun _ d a => (BitVec.ofNat 64 (gfBytes 8 d.toNat a.toNat), 0))
    (fun _ d a => (BitVec.ofNat 32 (gfBytes 4 d.toNat a.toNat), 0)) s

end Sys2Proof.Machine
end

