-- ==== Sys2Proof/Machine/Fabric.lean ====
section
/-! DEFINITION. Links and routes (R346-R350), collectives and barriers (R91, R356-R362), and ordered reductions (R353). -/
namespace Sys2Proof.Machine

/-! ## Ports and routes (R347-R350) -/

/-- Link retrain timeout in clk (R349). -/
def rtmo (s : State) : Nat := bits (rdReg s .fabCfg) 0 32 * 1024

/-- Changes ports or routes: a route that leaves Up notes the clk, one that is Up again forgets it; the unacknowledged writes to a peer whose
route goes down are recorded, and members of the coding group that no route reaches are suspected (R88, R159, R350). -/
def rerouted (s : State) (f : State → State) : State :=
  let was := (List.range 64).map (routeOf s)
  let s := f s
  suspectRoutes (recordRoutes ((List.range 64).foldl (fun s j =>
    let now := routeOf s j
    if now = .up then { s with routeLeft := mdel s.routeLeft j }
    else if was.getD j .down = .up then { s with routeLeft := mput s.routeLeft j (s.clk + 1) }
    else s) s))

/-- A port enters a state (R348): the clk, the event record, the error log. -/
def setPort (s : State) (p st : Nat) : State :=
  rerouted s fun s =>
    let v := setBits (rdReg s (.lnkSts p)) 61 3 st
    let x := mget {} s.ports p
    evPost { wrReg s (.lnkSts p) v with ports := mput s.ports p { x with since := s.clk } } 8 p v

/-- Changes the model's counts of a port. -/
def modPort (s : State) (p : Nat) (f : Port → Port) : State := { s with ports := mput s.ports p (f (mget {} s.ports p)) }

/-- R348: the far end of a Down port that may train answers; before step 5 of the bring-up no port trains (R415). -/
def execLinkTraining (p peer pport : Nat) (s : State) : Out :=
  .next (if p < 26 && 4 ≤ s.bringup && portState s p = 0 && bit (rdReg s (.lnkCfg p)) 63 then
    let far := if p < 24 then setBits (setBits (rdReg s (.lnkSts p)) 55 6 peer) 50 5 pport else rdReg s (.lnkSts p)
    setPort (wrReg s (.lnkSts p) far) p 1
  else s)

/-- R348: training or retraining succeeds. -/
def execLinkUp (p : Nat) (s : State) : Out :=
  .next (if p < 26 && (portState s p = 1 || portState s p = 3) then
    setPort (modPort s p fun x => { x with fails := 0, replays := [] }) p 2 else s)

/-- A port has stood in its state for RTMO (R348). -/
def portLate (s : State) (p : Nat) : Bool := (mget {} s.ports p).since + rtmo s ≤ s.clk

/-- R348: a training fails: Down, or Failed at the fourth in a row. -/
def execLinkTrainingTimeout (p : Nat) (s : State) : Out :=
  .next (if portState s p = 1 && portLate s p then
    let n := (mget {} s.ports p).fails + 1
    let s := modPort s p fun x => { x with fails := n }
    if n < 4 then setPort s p 0 else
    let s := setPort s p 4
    if p < 24 then replReason s 3 else s
  else s)

/-- R348: a retraining fails; the kept flits are discarded. -/
def execLinkRetrainTimeout (p : Nat) (s : State) : Out :=
  .next (if portState s p = 3 && portLate s p then setPort s p 0 else s)

/-- An Up port goes to Retraining (R347, R348). -/
def retrain (s : State) (p : Nat) : State :=
  let s := wrReg s (.lnkSts p) (bumpField (rdReg s (.lnkSts p)) 8 8 1)
  setPort (modPort s p fun x => { x with replays := [] }) p 3

/-- R348: a flit with a bad CRC is replayed; the eighth replay of one flit starts a retrain. -/
def execFlitReplay (err : FlitErr) (s : State) : Out :=
  let p := err.port
  .next (if portState s p ≠ 2 then s else
    let s := wrReg s (.lnkSts p) (bumpField (bumpField (rdReg s (.lnkSts p)) 32 16 1) 16 16 1)
    let s := logErr s 3 p [BitVec.ofNat 64 err.flit]
    let n := mget 0 (mget {} s.ports p).replays err.flit + 1
    if 8 ≤ n then retrain s p else modPort s p fun x => { x with replays := mput x.replays err.flit n })

/-- R350: a flit for another pod index goes on without touching memory; the eighth forwarding discards it. -/
def execFlitForward (pod : Nat) (hops : BitVec 4) (s : State) : Out :=
  .next (if 7 ≤ hops.toNat || routeOf s pod = .down then s else sendOut s pod (.flitForward pod (hops + 1)))

/-- A write of LNK_CFG (R347, R348). -/
def lnkCfgWrite (s : State) (p : Nat) (v : Word) : State :=
  if s.bringup < 7 then s else
  let old := rdReg s (.lnkCfg p)
  let s := wrReg s (.lnkCfg p) (setBits 0 63 1 (bits v 63 1))
  let s := if portState s p = 4 && !bit old 63 && bit v 63 then setPort (modPort s p fun x => { x with fails := 0 }) p 1 else s
  if bit v 62 && portState s p = 2 then retrain s p else s
/-- R347. -/
def execLnkCfgEn (p : Nat) (v : Word) (s : State) : Out := .next (lnkCfgWrite s p v)
/-- R347. -/
def execLnkCfgRetrain (p : Nat) (v : Word) (s : State) : Out := .next (if bit v 62 then lnkCfgWrite s p v else s)

/-! ## Group records and the handshake (R356-R359) -/

/-- Changes a collective in progress. -/
def modColl (s : State) (q pk : Nat) (f : Coll → Coll) : State := modPkt s q pk fun p => { p with coll := p.coll.map f }

/-- Words that the layout of a type spans at SRC and DST (R360). -/
def collSpans (typ n count c : Nat) : Nat × Nat :=
  match typ with
  | 0x11 => (count, n * count)
  | 0x12 => (n * count, count)
  | 0x13 => (if c ≠ 0 then 2 * (c - 1) + 2 else count, count)
  | _ => (count, count)

/-- SRC and DST overlap in a way that R360 does not allow. -/
def collOverlap (typ n rank root count src dst c : Nat) : Bool :=
  let (a, b) := collSpans typ n count c
  let meet := src < dst + 4 * b && dst < src + 4 * a
  let same := src = dst && (typ = 0x12 || (typ = 0x13 && c = 0) || (typ = 0x10 && rank = root))
  typ < 0x14 && meet && !same

/-- The signature of R358. -/
def collHash (count typ op flags root gid n sq : Nat) : Word :=
  let x0 : Word := BitVec.ofNat 64 (count + typ * 2 ^ 32 + op * 2 ^ 40 + flags * 2 ^ 48 + root * 2 ^ 56)
  let x1 : Word := BitVec.ofNat 64 (gid + n * 2 ^ 32)
  hashStep64 (hashStep64 (hashStep64 0 x0) x1) (BitVec.ofNat 64 sq)

/-- The collective of a packet from its group record: `none` to wait, a reason for ERROR (R357, R360). -/
def readColl (s : State) (q : Nat) (p : Pkt) : CpR Coll := do
  let ctx := queueCtx s q
  let g := (p.word 4).toNat
  let r ← cpRun s ctx g 1 128
  let n := r.getD 0 0 + 256 * r.getD 1 0
  let rank := r.getD 2 0
  let memb := (List.range n).map fun i => r.getD (8 + i) 0
  refuseIf (n = 0 || 64 < n || n ≤ rank || memb.getD rank 64 ≠ podIdx s || !noRepeat memb || memb.any (fun j => podSize s ≤ j) ||
    r.getD 3 0 ≠ 0 || (r.drop 72).any (fun x => x ≠ 0)) 1
  let gid := r.getD 4 0 + 2 ^ 8 * r.getD 5 0 + 2 ^ 16 * r.getD 6 0 + 2 ^ 24 * r.getD 7 0
  let typ := p.type
  let count := bits (p.word 3) 0 32
  let op := bits (p.word 3) 32 8
  let root := bits (p.word 3) 40 8
  let flags := bits (p.word 3) 48 8
  let sq := bits (p.word 5) 0 32
  refuseIf (typ = 0x10 && n ≤ root) 1
  let pairs ← (if flags % 2 = 1 then cpNum s ctx (p.word 1).toNat 4 else .ok 0)
  refuseIf (collOverlap typ n rank root count (p.word 1).toNat (p.word 2).toNat (if flags % 2 = 1 then pairs + 1 else 0)) 1
  .ok { typ := typ, gid := gid, sq := sq, n := n, rank := rank, memb := memb, h := collHash count typ op flags root gid n sq,
        src := (p.word 1).toNat, dst := (p.word 2).toNat, stage := (p.word 6).toNat, count := count, op := op, root := root,
        sparse := flags % 2 = 1 }

/-- The other members' pod indices. -/
def Coll.others (c : Coll) : List Nat := c.memb.filter fun j => j ≠ c.memb.getD c.rank 64
/-- Pod index of a rank, modulo N. -/
def Coll.pod (c : Coll) (r : Nat) : Nat := c.memb.getD (r % c.n) 64

/-- The packet whose collective has a GID and SEQ: queue, packet, collective. -/
def findColl (s : State) (gid sq : Nat) : Option (Nat × Nat × Coll) :=
  s.queues.findSome? fun (q, x) => x.pkts.findSome? fun p =>
    match p.coll with
    | some c => if c.gid = gid && c.sq = sq && !p.done then some (q, p.id, c) else none
    | none => none

/-- COLL_ERR records the first mismatch (R359). -/
def collErr (s : State) (pod q sq : Nat) : State :=
  let s := logErr s 4 16 [BitVec.ofNat 64 pod, BitVec.ofNat 64 sq]
  if bit (rdReg s .collErr) 63 then s
  else wrReg s .collErr (BitVec.ofNat 64 (2 ^ 63 + pod * 2 ^ 57 + q * 2 ^ 51 + sq))

/-- The SIG held from some member differs from the own signature. -/
def Coll.mismatch (c : Coll) : Option Nat := (c.sigs.find? fun x => x.2 ≠ c.h).map (·.1)
/-- A SIG from every other member is held. -/
def Coll.complete (c : Coll) : Bool := c.others.all fun j => c.sigs.any fun x => x.1 = j

/-- What the SIGs held so far decide (R358): ERROR with CABORT to every member, or the handshake complete. -/
def judgeSigs (s : State) (q pk : Nat) : State :=
  match (pktOf s q pk).bind (·.coll) with
  | none => s
  | some c =>
    match c.mismatch with
    | some pod =>
      let s := collErr s pod q c.sq
      donePkt (c.others.foldl (fun s j => sendOut s j (.cabort (podIdx s) c.gid c.sq)) s) q pk 1
    | none => if c.announced && c.complete then modColl s q pk fun c => { c with shaken := true } else s

/-- The member announces itself: its SIG goes to every other member (R358). -/
def announce (s : State) (q pk : Nat) (c : Coll) : State :=
  let s := modColl s q pk fun c => { c with announced := true }
  judgeSigs (c.others.foldl (fun s j => sendOut s j (.sig (podIdx s) c.gid c.sq c.h)) s) q pk

/-- A collective starts: its record is read; SIGs and CABORTs that came early are taken (R357, R358). -/
def openColl (s : State) (q : Nat) (p : Pkt) : State :=
  let ask := cpAsk s (queueCtx s q) (wordVas (p.word 4).toNat 128 ++ wordVas (p.word 1).toNat 4)
  match readColl s q p with
  | .error none => ask
  | .error (some _) => donePkt ask q p.id 1
  | .ok c =>
    let s := startPkt (cpTouch s (queueCtx s q) (wordVas (p.word 4).toNat 128)) q p.id
    match s.aborts.find? fun (_, g, n) => g = c.gid && n = c.sq with
    | some (pod, _, _) =>
      let s := { s with aborts := s.aborts.filter fun (_, g, n) => !(g = c.gid && n = c.sq) }
      donePkt (collErr s pod q c.sq) q p.id 1
    | none =>
      let mine := s.early.filter fun (j, g, n, _) => g = c.gid && n = c.sq && c.memb.contains j
      let c := { c with sigs := mine.map fun (j, _, _, h) => (j, h) }
      let s := { s with early := s.early.filter fun x => !mine.contains x }
      modPkt s q p.id fun p => { p with coll := some c }

/-- R358: a signature arrives: counted for its collective, or kept, up to 64; beyond them its sender sends it again. -/
def execSig (src gid sq : Nat) (h : Word) (s : State) : Out :=
  .next (match findColl s gid sq with
  | some (q, pk, c) =>
    if !c.memb.contains src then s else
    judgeSigs (modColl s q pk fun c => { c with sigs := (c.sigs.filter fun x => x.1 ≠ src) ++ [(src, h)] }) q pk
  | none => if 64 ≤ s.early.length then s else { s with early := s.early ++ [(src, gid, sq, h)] })

/-- R358: a signature that a peer could not keep is sent again. -/
def execSigResend (gid sq pod : Nat) (s : State) : Out :=
  .next (match findColl s gid sq with
  | some (_, _, c) => if c.announced && c.others.contains pod then sendOut s pod (.sig (podIdx s) gid sq c.h) else s
  | none => s)

/-- STAGE is zeroed at the end of a reduce-type collective (R362). -/
def zeroStage (s : State) (q pk : Nat) (c : Coll) : State :=
  if c.typ ≠ 0x12 && c.typ ≠ 0x13 then s else
  (List.range (c.n * c.count)).foldl (fun s i =>
    match cpPage s (queueCtx s q) (c.stage + 4 * i) .store false with
    | .ok (pa, _) => if isPeerPa pa || spaceOf pa = 2 then s else send s (.homeWrite ⟨pa / 4, 15, 0, false, .write, .cp q pk⟩)
    | .error _ => s) s

/-- A collective ends early with an outcome (R362); before its handshake nothing was written. -/
def failColl (s : State) (q pk : Nat) (c : Coll) (out : BitVec 7) : State :=
  donePkt (if c.shaken then zeroStage s q pk c else s) q pk out

/-- R358: a CABORT arrives. -/
def execCabort (src gid sq : Nat) (s : State) : Out :=
  .next (match findColl s gid sq with
  | some (q, pk, _) => donePkt (collErr s src q sq) q pk 1
  | none => { s with aborts := s.aborts ++ [(src, gid, sq)] })

/-! ## Moving words (R360, R361) -/

/-- Words read through the context's page tables, poison included. -/
def collRead (s : State) (q va n : Nat) : CpR (List (W32 × Bool)) :=
  match cpWords s (queueCtx s q) ((List.range n).map fun i => va + 4 * i) with
  | .ok xs => .ok (xs.map fun x => (x.v, x.p))
  | .error e => .error e

/-- The PAs of words written through the context's page tables (R360): none where one waits, or a fault. -/
def collPlaces (s : State) (q : Nat) : List (Nat × W32 × Bool) → CpR (List (Nat × W32 × Bool))
  | [] => .ok []
  | (va, v, p) :: r =>
    match cpPage s (queueCtx s q) va .store false with
    | .error e => .error e
    | .ok (pa, _) =>
      if spaceOf pa = 2 then .error (some 5) else
      match collPlaces s q r with
      | .error e => .error e
      | .ok l => .ok ((pa, v, p) :: l)

/-- Words perform at their PAs, one after another: none where one waits, else the state after them, or after the one that failed alone. -/
def collPerform (s0 : State) (q pk : Nat) : List (Nat × W32 × Bool) → State → Option (State × Bool)
  | [], s => some (s, true)
  | (pa, v, p) :: r, s =>
    let src := WSrc.cp q pk
    let h : HomeWr := ⟨pa / 4, 15, v, p, .write, src⟩
    if isPeerPa pa then collPerform s0 q pk r (peerWrite s (peerPod pa) (.words [{ h with w := peerWord pa }]) src)
    else match homePerform s h with
      | .wait _ => none
      | .done t st _ =>
        if st = 0 then collPerform s0 q pk r t
        else some (match homePerform s0 h with
          | .wait s => s
          | .done s _ _ => s, false)

/-- Words written through the context's page tables, all of them or none (R362): `none` to wait, else whether they were performed. -/
def collWrite (s : State) (q pk : Nat) (ws : List (Nat × W32 × Bool)) : Option (State × Bool) :=
  match collPlaces s q ws with
  | .error none => none
  | .error (some _) => some (s, false)
  | .ok l => collPerform s q pk l s

/-- Consecutive words at a VA. -/
def at4 (va : Nat) (ws : List (W32 × Bool)) : List (Nat × W32 × Bool) := ws.mapIdx fun i x => (va + 4 * i, x.1, x.2)

/-- A payload leaves for a rank (R361). -/
def sendPayload (s : State) (q pk : Nat) (c : Coll) (rank : Nat) (stage : Bool) (off : Nat) (data : List (W32 × Bool)) : State :=
  peerSend s (c.pod rank) (.words []) (.cp q pk) fun id => .collectivePayload
    { src := podIdx s, id := id, gid := c.gid, sq := c.sq, stage := stage, off := off, data := data }

/-- Words per chunk (R361). -/
def Coll.chunk (c : Coll) : Nat := if c.typ = 0x13 then (c.count + c.n - 1) / c.n else c.count
/-- Words of chunk j. -/
def Coll.chunkLen (c : Coll) (j : Nat) : Nat := if c.typ = 0x13 then min c.chunk (c.count - j * c.chunk) else c.count

/-- VA at which a payload's words begin: its rank's place in STAGE, or its chunk of DST (R361). -/
def payloadVa (c : Coll) (x : CollPayload) : Nat :=
  if x.stage then c.stage + 4 * (c.memb.takeWhile fun j => j ≠ x.src).length * c.chunk else c.dst + 4 * x.off * c.chunk

/-- R361: a payload performs at DST or STAGE, and the sender is told; one that is not performed, because its collective has ended here or a page
denies it, is refused, and its sender records it undeliverable (R351; log entry 87). -/
def payloadNow (x : CollPayload) (s : State) : State :=
  let tell (s : State) (performed : Bool) : State :=
    sendOut s x.src (if performed then .peerWriteAck x.id ackDone false false else .peerWriteAck x.id ackDropped false true)
  match findColl s x.gid x.sq with
  | none => if s.early.any fun (_, g, n, _) => g = x.gid && n = x.sq then requeue s (.collectivePayload x) else tell s false
  | some (q, pk, c) =>
    if !c.shaken then requeue s (.collectivePayload x) else
    let rank := (c.memb.takeWhile fun j => j ≠ x.src).length
    let key := if x.stage then (0, rank) else (1, x.off)
    if c.sparse then
      tell (modColl s q pk fun c => { c with got := c.got ++ [(key.1, key.2, x.data)] }) true
    else match collWrite s q pk (at4 (payloadVa c x) x.data) with
      | none => requeue (cpAsk s (queueCtx s q) [payloadVa c x]) (.collectivePayload x)
      | some (s, false) => failColl (tell s false) q pk c 1
      | some (s, true) => tell (modColl s q pk fun c => { c with got := c.got ++ [(key.1, key.2, [])] }) true

/-- The word of a payload's first destination, where its collective takes it and its page translates (R93). -/
def payloadWord (s : State) (x : CollPayload) : Option Nat :=
  match findColl s x.gid x.sq with
  | none => none
  | some (q, _, c) =>
    if !c.shaken || c.sparse || x.data.isEmpty then none else
    match cpPage s (queueCtx s q) (payloadVa c x) .store false with
    | .ok (pa, _) => if isPeerPa pa || spaceOf pa = 2 then none else some (pa / 4)
    | .error _ => none

/-- R361, R358: a payload is accepted only for a collective whose handshake is complete; until then it waits, as it does behind a start that its
link holds (R178), and at its home behind the accesses that wait there (R93). -/
def execCollectivePayload (x : CollPayload) (s : State) : Out :=
  let y : CollPayload := { x with word := payloadWord s x }
  .next (if peerBehind s (.collectivePayload x) then send s (.collectivePayload x)
  else atHome s (.collectivePayload y) (payloadNow y s))

/-- A payload has been received. -/
def Coll.has (c : Coll) (kind i : Nat) : Bool := c.got.any fun (k, j, _) => k = kind && j = i

/-- The member's own sends are acknowledged (R361). -/
def sendsDone (s : State) (q pk : Nat) : Bool := !s.peerOut.any fun o => o.src = .cp q pk

/-- The element operation of a collective (R297, R360), with rounding to nearest and no flushing. -/
def collOp (op : Nat) (a b : W32 × Bool) : W32 × Bool :=
  let r := (combineWord op 0 false ⟨a.1, a.2⟩ ⟨b.1, b.2⟩).1
  (r.v, r.p)

/-- Fold of contributions of equal length, in order (R360). -/
def foldWords (op : Nat) : List (List (W32 × Bool)) → List (W32 × Bool)
  | [] => []
  | x :: r => r.foldl (fun z y => List.zipWith (collOp op) z y) x

/-- Ranks in the order of a fold: ascending, or the order of arrival for OP 0 (R360). -/
def Coll.order (c : Coll) : List Nat :=
  if c.op = 0 then (c.got.filter fun (k, _, _) => k = 0).map fun (_, r, _) => r else List.range c.n

/-- Reads several runs of words. -/
def collReads (s : State) (q : Nat) : List (Nat × Nat) → CpR (List (List (W32 × Bool)))
  | [] => .ok []
  | (va, n) :: r => match collRead s q va n with
    | .error e => .error e
    | .ok x => match collReads s q r with
      | .error e => .error e
      | .ok xs => .ok (x :: xs)

/-- Continues with words read at some ranges of VAs, waits, or ends with ERROR (R362). -/
def withRead {α : Type} (s : State) (q pk : Nat) (c : Coll) (spans : List (Nat × Nat)) (r : CpR α) (f : State → α → State) : State :=
  let ask := cpAsk s (queueCtx s q) (spans.flatMap fun (va, n) => wordVas va n)
  match r with
  | .error none => ask
  | .error (some _) => failColl ask q pk c 1
  | .ok x => f (cpTouch s (queueCtx s q) (spans.flatMap fun (va, n) => wordVas va n)) x

/-- Continues with runs of words. -/
def withRuns (s : State) (q pk : Nat) (c : Coll) (runs : List (Nat × Nat)) (f : State → List (List (W32 × Bool)) → State) : State :=
  withRead s q pk c (runs.map fun (va, n) => (va, 4 * n)) (collReads s q runs) f
/-- Continues with one run of words. -/
def withWords (s : State) (q pk : Nat) (c : Coll) (va n : Nat) (f : State → List (W32 × Bool) → State) : State :=
  withRead s q pk c [(va, 4 * n)] (collRead s q va n) f

/-- Continues after words are written, waits, or ends with ERROR (R362). -/
def withWrite (s : State) (q pk : Nat) (c : Coll) (ws : List (Nat × W32 × Bool)) (f : State → State) : State :=
  match collWrite s q pk ws with
  | none => s
  | some (s, false) => failColl s q pk c 1
  | some (s, true) => f s

/-! ## The chains (R361) -/

/-- Broadcast after the handshake. -/
def broadcastStep (s : State) (q pk : Nat) (c : Coll) : State :=
  let v := (c.rank + c.n - c.root) % c.n
  if c.step = 0 then
    if v = 0 then
      withWords s q pk c c.src c.count fun s ws =>
        withWrite s q pk c (at4 c.dst ws) fun s => modColl s q pk fun c => { c with step := 1 }
    else if c.has 1 0 then modColl s q pk fun c => { c with step := 1 } else s
  else if c.step = 1 then
    let kids := ((List.range 6).map fun t => 2 ^ t).filter fun d => v < d && v + d < c.n
    if kids.isEmpty then modColl s q pk fun c => { c with step := 2 } else
    withWords s q pk c (if v = 0 then c.src else c.dst) c.count fun s ws =>
      let s := kids.foldl (fun s d => sendPayload s q pk c (c.rank + d) false 0 ws) s
      modColl s q pk fun c => { c with step := 2 }
  else if sendsDone s q pk then donePkt s q pk 0 else s

/-- The ring of an all-gather over chunks of DST: step t sends chunk rank - t + 1 to the next rank. -/
def gatherStep (s : State) (q pk : Nat) (c : Coll) : State :=
  let t := c.sent + 1
  if c.n ≤ t then
    (if (List.range c.n).all (c.has 1) && sendsDone s q pk then donePkt s q pk 0 else s)
  else
    let j := (c.rank + c.n + 1 - t) % c.n
    if !c.has 1 j then s else
    withWords s q pk c (c.dst + 4 * j * c.chunk) (c.chunkLen j) fun s ws =>
      modColl (sendPayload s q pk c (c.rank + 1) false j ws) q pk fun c => { c with sent := t }

/-- All-gather after the handshake. -/
def allGatherStep (s : State) (q pk : Nat) (c : Coll) : State :=
  if c.step = 0 then
    withWords s q pk c c.src c.count fun s ws =>
      withWrite s q pk c (at4 (c.dst + 4 * c.rank * c.count) ws) fun s =>
        modColl s q pk fun c => { c with step := 2, got := c.got ++ [(1, c.rank, [])] }
  else gatherStep s q pk c

/-- Every chunk of SRC goes to its folding member, one's own into STAGE. -/
def scatterStep (s : State) (q pk : Nat) (c : Coll) : State :=
  withRuns s q pk c ((List.range c.n).map fun j => (c.src + 4 * j * c.chunk, c.chunkLen j)) fun s chunks =>
    withWrite s q pk c (at4 (c.stage + 4 * c.rank * c.chunk) (chunks.getD c.rank [])) fun s =>
      let s := (List.range c.n).foldl (fun s j =>
        if j = c.rank then s else sendPayload s q pk c j true 0 (chunks.getD j [])) s
      modColl s q pk fun c => { c with step := 1, got := c.got ++ [(0, c.rank, [])] }

/-- The fold of STAGE once every chunk is there and the own sends are complete; STAGE ends zero. -/
def foldStep (s : State) (q pk : Nat) (c : Coll) (dst : Nat) (fin : State → State) : State :=
  if !((List.range c.n).all (c.has 0)) || !sendsDone s q pk then s else
  withRuns s q pk c (c.order.map fun r => (c.stage + 4 * r * c.chunk, c.chunkLen c.rank)) fun s xs =>
    withWrite s q pk c (at4 dst (foldWords c.op xs)) fun s => fin (zeroStage s q pk c)

/-- Reduce-scatter after the handshake. -/
def reduceScatterStep (s : State) (q pk : Nat) (c : Coll) : State :=
  if c.step = 0 then scatterStep s q pk c else foldStep s q pk c c.dst fun s => donePkt s q pk 0

/-- Pairs of a list whose index lies in chunk j. -/
def pairsOf (c : Coll) (ws : List (W32 × Bool)) (j : Nat) : List (Nat × W32 × Bool) :=
  (sparsePairs ws).filter fun (i, _, _) => j * c.chunk ≤ i && i < j * c.chunk + c.chunk
/-- Pairs as words. -/
def pairWords (ps : List (Nat × W32 × Bool)) : List (W32 × Bool) := ps.flatMap fun (i, v, p) => [(BitVec.ofNat 32 i, false), (v, p)]

/-- Merge of lists: pairs of equal index combined in order (R354, R360). -/
def mergePairs (op : Nat) (ls : List (List (Nat × W32 × Bool))) : List (Nat × W32 × Bool) :=
  let m : FMap (W32 × Bool) := ls.foldl (fun m l => l.foldl (fun m (i, x) =>
    mput m i (match mlook m i with
      | none => x
      | some y => collOp op y x)) m) []
  m.map fun (i, x) => (i, x.1, x.2)

/-- Sparse all-reduce after the handshake: lists travel, are merged at the folding member and gathered. -/
def sparseStep (s : State) (q pk : Nat) (c : Coll) : State :=
  if c.step = 0 then
    withRead s q pk c [(c.src, 4)] (do
      let n ← cpNum s (queueCtx s q) c.src 4
      let ws ← collRead s q (c.src + 8) (2 * n)
      refuseIf (!rising (sparsePairs ws) || (sparsePairs ws).any fun (i, _, _) => c.count ≤ i) 1
      .ok ws) fun s ws =>
      let s := cpTouch s (queueCtx s q) (wordVas (c.src + 8) (4 * ws.length))
      let s := (List.range c.n).foldl (fun s j =>
        if j = c.rank then s else sendPayload s q pk c j true 0 (pairWords (pairsOf c ws j))) s
      modColl s q pk fun c => { c with step := 1, got := c.got ++ [(0, c.rank, pairWords (pairsOf c ws c.rank))] }
  else if c.step = 1 then
    if !((List.range c.n).all (c.has 0)) || !sendsDone s q pk then s else
    let ls := c.order.map fun r => sparsePairs ((c.got.findSome? fun (k, i, l) => if k = 0 && i = r then some l else none).getD [])
    modColl s q pk fun c => { c with step := 2, got := c.got ++ [(1, c.rank, pairWords (mergePairs c.op ls))] }
  else
    let t := c.sent + 1
    let list (j : Nat) : List (W32 × Bool) := (c.got.findSome? fun (k, i, l) => if k = 1 && i = j then some l else none).getD []
    if c.n ≤ t then
      if !((List.range c.n).all (c.has 1)) || !sendsDone s q pk then s else
      let ws := (List.range c.n).flatMap fun j => (sparsePairs (list j)).map fun (i, x) => (c.dst + 4 * i, x)
      withWrite s q pk c ws fun s => donePkt (zeroStage s q pk c) q pk 0
    else
      let j := (c.rank + c.n + 1 - t) % c.n
      if !c.has 1 j then s else
      modColl (sendPayload s q pk c (c.rank + 1) false j (list j)) q pk fun c => { c with sent := t }

/-- All-reduce after the handshake. -/
def allReduceStep (s : State) (q pk : Nat) (c : Coll) : State :=
  if c.sparse then sparseStep s q pk c
  else if c.step = 0 then scatterStep s q pk c
  else if c.step = 1 then
    foldStep s q pk c (c.dst + 4 * c.rank * c.chunk) fun s =>
      modColl s q pk fun c => { c with step := 2, got := c.got ++ [(1, c.rank, [])] }
  else gatherStep s q pk c

/-- A collective on its turn: opened, announced, and after its handshake its chain goes on; sends recorded undeliverable end it
(R362). -/
def collTurn (q pk type : Nat) (s : State) (go : State → Coll → State) : Out :=
  match onTurn s q pk type with
  | none => .next s
  | some p =>
    if p.done then .next (settlePkt s q pk)
    else .next (match p.coll with
    | none => openColl s q p
    | some c =>
      if !c.announced then announce s q pk c
      else if !c.shaken then s
      else if p.out.getLsbD 1 then failColl s q pk c 2
      else go s c)

/-- R360, R361. -/
def execBroadcast (q pk : Nat) (s : State) : Out := collTurn q pk 0x10 s fun s c => broadcastStep s q pk c
/-- R360, R361. -/
def execAllGather (q pk : Nat) (s : State) : Out := collTurn q pk 0x11 s fun s c => allGatherStep s q pk c
/-- R360, R361. -/
def execReduceScatter (q pk : Nat) (s : State) : Out := collTurn q pk 0x12 s fun s c => reduceScatterStep s q pk c
/-- R360, R361. -/
def execAllReduce (q pk : Nat) (s : State) : Out := collTurn q pk 0x13 s fun s c => allReduceStep s q pk c

/-- R91: the default barrier announces its arrival once every peer-bound write of its queue is acknowledged or recorded. -/
def execDefaultBarrier (q pk : Nat) (s : State) : Out :=
  match onTurn s q pk 0x14 with
  | none => .next s
  | some p =>
    if p.done then .next (settlePkt s q pk)
    else .next (match p.coll with
    | none => openColl s q p
    | some c =>
      if !c.announced then (if s.peerOut.any fun o => o.queue = q then s else announce s q pk c)
      else if !c.shaken then s
      else
        let und := (mget {} s.queues q).und
        donePkt (modQueue s q fun x => { x with und := false }) q pk (if und then 2 else 0))

/-- R91: the expert barrier announces its arrival at once. -/
def execExpertBarrier (q pk : Nat) (s : State) : Out := collTurn q pk 0x15 s fun s _ => donePkt s q pk 0

/-- R362: TMO has passed with the handshake incomplete or inputs missing. -/
def execCollectiveTimeout (q pk : Nat) (s : State) : Out :=
  match pktOf s q pk with
  | none => .next s
  | some p =>
    let tmo := bits (p.word 5) 32 32
    .next (match p.coll with
    | none => s
    | some c =>
      if p.done || tmo = 0 || s.clk < p.clk0 + tmo * 65536 then s
      else if !c.shaken then failColl s q pk c 16
      else if c.typ < 0x14 && !(if c.typ = 0x12 then (List.range c.n).all (c.has 0)
        else if c.typ = 0x10 then c.rank = c.root || c.has 1 0 else (List.range c.n).all (c.has 1)) then failColl s q pk c 16
      else s)

/-! ## Ordered reductions (R353) -/

/-- Chiplet of an ordering point: the home's; that of the gateway for host memory. -/
def pointChip (key : Nat) : Nat := if isHostPa key then 0 else homeChip key

/-- The words of a contribution combined: `none` where one has to wait; the first status and all flags. -/
def combineAll (s : State) (variant : Nat) (o : OrdContrib) (src : WSrc) : List (Nat × W32 × Bool) → Option (State × Nat × Flags)
  | [] => some (s, 0, 0)
  | (w, v, p) :: r => match homePerform s ⟨w, 15, v, p, .combine variant o.rm o.ftz, src⟩ with
    | .wait _ => none
    | .done s st fl => match combineAll s variant o src r with
      | none => none
      | some (s, st', fl') => some (s, if st = 0 then st' else st, fl ||| fl')

/-- The sender of a contribution learns that it was combined: status and flags for a local command; the acknowledgement for a
peer, or a refusal where a protected home discarded a word (R289, R297, R351, R417). -/
def contribDone (s : State) (o : OrdContrib) (st : Nat) (fl : Flags) : State :=
  match o.src with
  | .peer pod id =>
    if o.words.any fun w => dropsPa s (4 * w) then sendOut s pod (.peerWriteAck id ackDropped false true)
    else sendOut s pod (.peerWriteAck id ackDone false false)
  | src => accountWrite s src st fl

/-- Bytes of payload held at a chiplet until their turn, by its keys and by its parameter engines (R353, R366). -/
def heldBytes (s : State) (chip : Nat) : Nat :=
  let n := s.ordKeys.foldl (fun n k => if k.chip = chip then
    (k.held.filter fun o => o.rank ≠ k.next).foldl (fun n o => n + 4 * o.data.length) n else n) 0
  s.pes.foldl (fun n (e, p) => if e / 2 = chip then
    p.blocks.foldl (fun n (_, x) => x.held.foldl (fun n (_, o) => n + 4 * o.data.length) n) n else n) n

/-- A contribution finds no room: it is refused back to its sender, whose engine sends it again later (R353). -/
def noRoom (s : State) (o : OrdContrib) : State :=
  match o.src with
  | .peer pod id => sendOut s pod (.peerWriteAck id ackNoRoom false false)
  | _ => { s with resend := s.resend ++ [(s.clk, o)] }

/-- A contribution is held at its ordering point; a peer learns that it is (R353). -/
def tellHeld (s : State) (o : OrdContrib) : State :=
  match o.src with
  | .peer pod id => sendOut s pod (.peerWriteAck id ackHeld false false)
  | _ => s

/-- The open keys of an ordering point with one replaced (R353). -/
def putKey (s : State) (k : OrdKey) : State :=
  { s with ordKeys := (s.ordKeys.filter fun x => !(x.chip = k.chip && x.key = k.key && x.tag = k.tag)) ++ [k] }

/-- A contribution whose turn it is, is combined; the next rank's, where it is held, comes to its turn, and stays held until it is combined. One that
has to wait is held too, so that its key is open and knows its rank (R353). -/
def combineTurn (o : OrdContrib) (k : OrdKey) (s : State) : State :=
  match combineAll s 1 o o.src (List.zip o.words o.data) with
  | none => requeue (putKey s { k with held := if k.held.contains o then k.held else k.held ++ [o] }) (.orderedContribution o)
  | some (s, st, fl) =>
    let s := contribDone s o st fl
    let k := { k with next := k.next + 1, held := k.held.erase o }
    let s := putKey s k
    if k.ncon ≤ k.next then { s with ordKeys := s.ordKeys.erase k }
    else { s with net := ((k.held.filter fun (h : OrdContrib) => h.rank = k.next).map Instr.orderedContribution) ++ s.net }

/-- An ordered contribution at its ordering point (R353). -/
def orderedNow (o : OrdContrib) (s : State) : State :=
  let chip := pointChip o.key
  let mine (k : OrdKey) : Bool := k.chip = chip && k.key = o.key && k.tag = o.tag
  match (match s.ordKeys.find? mine with
    | some k => some k
    | none => if 1024 ≤ (s.ordKeys.filter fun (k : OrdKey) => k.chip = chip).length then none
        else some { chip := chip, key := o.key, tag := o.tag, next := 0, ncon := o.ncon }) with
  | none => noRoom s o
  | some k =>
    if o.rank = k.next && k.held.contains o then combineTurn o k s
    else if o.ncon ≠ k.ncon || o.rank < k.next || (k.held.any fun (h : OrdContrib) => h.rank = o.rank) then remoteDone s o.src true
    else if o.rank = k.next then combineTurn o k s
    else if 4 * 2 ^ 20 < heldBytes s chip + 4 * o.data.length then noRoom s o
    else tellHeld (putKey s { k with held := k.held ++ [o] }) o

/-- An unordered contribution of a peer: its words are combined one after another, in the order in which they reach their homes (R352). -/
def wordsNow (o : OrdContrib) (s : State) : State :=
  let hw (x : Nat × W32 × Bool) : HomeWr := ⟨x.1, 15, x.2.1, x.2.2, .combine o.variant o.rm o.ftz, o.src⟩
  let (t, rest, _) := performAll ((List.zip o.words o.data).map hw) false s
  if rest.isEmpty then contribDone t o 0 0
  else requeue t (.orderedContribution { o with words := rest.map (·.w), data := rest.map fun h => (h.data, h.poison) })

/-- R352, R353: a contribution at its home: at a parameter engine's window it is the engine's (R366); an ordered one is combined in its turn,
held, refused for want of room, or discarded; another one is combined word by word. -/
def contributionNow (o : OrdContrib) (s : State) : State :=
  match intakeOf s o.key with
  | some e => send s (.peContribution e o o.variant o.sparse)
  | none => if o.variant = 1 then orderedNow o s else wordsNow o s

/-- R352, R353: a contribution arrives, and waits at its home behind the accesses that wait there (R65, R93). -/
def execOrderedContribution (o : OrdContrib) (s : State) : Out :=
  .next (if peerBehind s (.orderedContribution o) then send s (.orderedContribution o)
  else atHome s (.orderedContribution o) (contributionNow o s))

/-- R353: a contribution that found no room is sent again after 4,096 clk. -/
def execContributionResend (core id : Nat) (s : State) : Out :=
  let mine (x : Nat × OrdContrib) : Bool := (match x.2.src with
    | .cmd k _ i => k = core && i = id
    | _ => false) && x.1 + 4096 ≤ s.clk
  .next (match s.resend.find? mine with
  | none => s
  | some x => sendContribution { s with resend := s.resend.erase x } x.2)

end Sys2Proof.Machine
end

