-- ==== Sys2Proof/Machine/Params.lean ====
section
/-! DEFINITION. The parameter engines: their registers and rules (R363-R365), contributions (R366), steps (R367) and the
step timeout (R368). -/
namespace Sys2Proof.Machine

/-! ## The rule (R365) -/

/-- A slot word that a rule may hold (R365). -/
def ruleWordOk (x : Nat × Nat) : Bool :=
  let op := fld x.2 26 6
  if x.1 = 2 || x.1 = 3 || x.1 = 4 then fld x.2 22 4 = 0 && !(0x16 ≤ op && op ≤ 0x1C)
  else if x.1 = 5 then fld x.2 9 1 = 1 && fld x.2 5 4 = 0
  else false

/-- The bundles of a rule from an offset on, and the offset after the STOP bundle; `line` gives the bytes of a fetch line. -/
def parseRule (line : Nat → CpR (List Byte)) : Nat → Nat → Nat → CpR (List Bundle × Nat)
  | 0, _, _ => .error (some 5)
  | n + 1, off, count =>
    if 2048 ≤ off || 64 ≤ count then .error (some 5) else
    match line (off / 64) with
    | .error e => .error e
    | .ok bs =>
      match rawBundle (off % 64) (bs.drop (off % 64)) with
      | .error .pad => parseRule line n ((off / 64 + 1) * 64) count
      | .error _ => .error (some 5)
      | .ok r =>
        match decodeSlots r.slots with
        | .error _ => .error (some 5)
        | .ok l =>
          if !r.slots.all ruleWordOk || (r.hold && !r.stop) then .error (some 5) else
          let b : Bundle := ⟨r.len, r.stop, r.hold, r.weight, l⟩
          if r.stop then .ok ([b], off + r.len)
          else match parseRule line n (off + r.len) (count + 1) with
            | .error e => .error e
            | .ok (bs, e) => .ok (b :: bs, e)

/-- One fetch line of a rule image, read through the engine's context. -/
def ruleLine (s : State) (ctx va i : Nat) : CpR (List Byte) :=
  match cpRun s ctx (va + 64 * i) 8 8 with
  | .error e => .error e
  | .ok ws => .ok (ws.flatMap fun w => leBytes w 8)

/-- The bytes of an accepted rule image. -/
def loadRule (s : State) (ctx va : Nat) : CpR (List Byte) :=
  match parseRule (ruleLine s ctx va) 128 0 0 with
  | .error e => .error e
  | .ok (_, n) =>
    match cpRun s ctx va 8 ((n + 7) / 8) with
    | .error e => .error e
    | .ok ws => .ok ((ws.flatMap fun w => leBytes w 8).take n)

/-- The bundles of a loaded rule. -/
def ruleBundles (bs : List Byte) : List Bundle :=
  match parseRule (fun i => .ok ((bs.drop (64 * i)).take 64)) 128 0 0 with
  | .ok (l, _) => l
  | .error _ => []

/-- The slots a rule may hold. -/
def ruleOp (i : Instr) (s : State) : Out :=
  match i with
  | .vadd f ty => execVadd f ty s
  | .vsub f ty => execVsub f ty s
  | .vmul f ty => execVmul f ty s
  | .vfma f ty => execVfma f ty s
  | .vfms f ty => execVfms f ty s
  | .vmin f ty => execVmin f ty s
  | .vmax f ty => execVmax f ty s
  | .vabs f ty => execVabs f ty s
  | .vneg f ty => execVneg f ty s
  | .vclamp f ty => execVclamp f ty s
  | .vand f => execVand f s
  | .vor f => execVor f s
  | .vxor f => execVxor f s
  | .vandn f => execVandn f s
  | .vshl f ty => execVshl f ty s
  | .vshr f ty => execVshr f ty s
  | .vsar f ty => execVsar f ty s
  | .vpopc f => execVpopc f s
  | .vclz f => execVclz f s
  | .qand f => execQand f s
  | .qor f => execQor f s
  | .qxor f => execQxor f s
  | .qandn f => execQandn f s
  | .vsel f n => execVsel f n s
  | .vcvt f sat rtz a b => execVcvt f sat rtz a b s
  | .frcp f => execFrcp f s
  | .frsqrt f => execFrsqrt f s
  | .fsqrt f => execFsqrt f s
  | .fexp2 f => execFexp2 f s
  | .flog2 f => execFlog2 f s
  | .fsin f u => execFsin f u s
  | .fcos f u => execFcos f u s
  | .fdiv f => execFdiv f s
  | .idiv f r => execIdiv f r s
  | .idivu f r => execIdivu f r s
  | .rng f => execRng f s
  | .crc f p z => execCrc f p z s
  | .hash f => execHash f s
  | .gfmul f => execGfmul f s
  | _ => .next s

/-- A compare in a rule: a poisoned lane gives 0 and taints its lane (R365). -/
def ruleCmp (c : VCond) (f : VCmp) (ty : VType) (a : State × BitVec 16) : State × BitVec 16 :=
  let x := me a.1
  let bad := cmpBad f x
  (result a.1 2 (cmpWrites c f ty x ((active (rdQ x f.q)).filter fun l => !bad.contains l)), a.2 ||| maskOf bad)

/-- One slot of a rule on 16 lanes; the second component holds the tainted lanes. -/
def ruleSlot (a : State × BitVec 16) (x : Nat × Instr) : State × BitVec 16 :=
  let s := { a.1 with cur := { a.1.cur with slot := x.1 } }
  match x.2 with
  | .vcmpeq f ty => ruleCmp .eq f ty (s, a.2)
  | .vcmplt f ty => ruleCmp .lt f ty (s, a.2)
  | .vcmple f ty => ruleCmp .le f ty (s, a.2)
  | i => match ruleOp i s with
    | .next s => (s, a.2)
    | _ => (s, a.2)

/-- Results land until nothing is in flight (R183): the longest latency is 20. -/
def ruleDrain (s : State) : State := (List.range 21).foldl (fun s _ => modMe s fun x => tick (landDue x)) s

/-- One bundle of a rule: landing, issue, one bundle time. -/
def ruleBundle (a : State × BitVec 16) (b : Bundle) : State × BitVec 16 :=
  let s := if b.hold then ruleDrain a.1 else modMe a.1 landDue
  let (s, t) := b.slots.foldl ruleSlot (s, a.2)
  (modMe s tick, t)

/-- One element's inputs or outputs: v0-v3 at entry; v1, v2, v3 and v7 at exit. -/
structure PeElem where
  a : Lane
  b : Lane
  c : Lane
  d : Lane
  deriving DecidableEq, Repr

/-- v registers at entry for the 16 elements from i0 on (R365). -/
def ruleRegs (i0 : Nat) (step : Nat) (hyp : List Lane) (es : List PeElem) : FMap Lane :=
  let reg (n : Nat) (k : Nat → Lane) : FMap Lane := (List.range 16).map fun l => (16 * n + l, k l)
  let at_ (l : Nat) : PeElem := es.getD l ⟨{}, {}, {}, {}⟩
  reg 0 (fun l => (at_ l).a) ++ reg 1 (fun l => (at_ l).b) ++ reg 2 (fun l => (at_ l).c) ++ reg 3 (fun l => (at_ l).d) ++
  reg 4 (fun l => ⟨BitVec.ofNat 32 (i0 + l), false⟩) ++ reg 5 (fun _ => ⟨BitVec.ofNat 32 step, false⟩) ++
  (List.range 8).flatMap fun h => reg (8 + h) fun _ => hyp.getD h {}

/-- The rule on 16 elements from i0 on, with their results and flags. Lane l of the 64 lanes a rule runs on stands here as lane
l mod 16 of run l div 16; s registers read 0, but an odd one holds 16 (l div 16), the part of the lane number that rng adds
(R272). -/
def ruleRun (rule : List Bundle) (rm : Nat) (ftz : Bool) (i0 step : Nat) (hyp : List Lane) (es : List PeElem) :
    List PeElem × Flags :=
  let x : Seq := {
    s := ((List.range 32).map fun i => (2 * i + 1, (⟨BitVec.ofNat 64 (i0 % 64), false⟩ : SVal)))
    v := ruleRegs i0 step hyp es
    fcsr := BitVec.ofNat 32 (rm * 2 ^ 10 + if ftz then 2 ^ 12 else 0) }
  let s : State := { cores := [(0, { seqs := [(0, x)] })] }
  let (s, t) := rule.foldl ruleBundle (s, 0)
  let x := me (ruleDrain s)
  let out (n : BitVec 6) (l : Nat) : Lane := let y := rdV x n l; { y with p := y.p || t.getLsbD l }
  ((List.range 16).map fun l => ⟨out 1 l, out 2 l, out 3 l, out 7 l⟩, x.fcsr.extractLsb' 0 6)

/-! ## Pushed images (R128, R367) -/

/-- Exp of R128 for a finite F32; none for a special value. -/
def expOf (b : Nat) : Option Int :=
  match fF32.decode b with
  | .fin _ m e => some (if m = 0 then -200 else e + (Nat.log2 m : Int))
  | _ => none

/-- Exp(MaxAbs) of some values; of none, as of zero, -200 (R128; the model's choice, log 77). -/
def maxExp (xs : List Nat) : Int := (xs.filterMap expOf).foldl (fun a b => if a < b then b else a) (-200)

/-- x clamped to a range. -/
def clampI (lo hi x : Int) : Int := if x < lo then lo else if hi < x then hi else x

/-- One described block of 60 or 120 elements as a 512-bit image (R117-R119, R128); `u i` is the random number of element i. -/
def packBlock (q4 : Bool) (u : Nat → Nat) (xs : List Nat) : Nat :=
  let group (k : Nat) : List Nat := (xs.drop (24 * k)).take 24
  let e (k : Nat) : Int := maxExp (group k) - (if q4 then 2 else 7)
  let top (ks : List Nat) : Int := ks.foldl (fun a k => if a < e k then e k else a) (e (ks.headD 0))
  let base : Int := if q4 then top (List.range 5) - 3 else (let b := top [1, 2] - 3; if b < e 0 then e 0 else b)
  let scale : Int := clampI 0 255 (base + 127)
  let off (k : Nat) : Int := if !q4 && k = 0 then 0 else clampI (-4) 3 (e k - (scale - 127))
  let code := if q4 then 0x18 else 0x10
  let t : Nat := if q4 then (List.range 5).foldl (fun t k => t + intBits 3 (off k) * 2 ^ (3 * k)) 0
    else intBits 3 (off 1) + intBits 3 (off 2) * 8
  let head := code + 256 * scale.toNat + t * 2 ^ 496
  (xs.mapIdx fun i x => (i, x)).foldl (fun img (i, x) =>
    let v := (fF32.decode x).scale (-(scale - 127 + off (i / 24)))
    let env : REnv := { mode := .stoch (u i), ftz := false, sat := true }
    let (lo, len) := elemAt .blk code i
    imgPut img lo len (if q4 then intBits 4 (toQ4 env.mode v).1 else (encodeFv fF8E4 env x v).1)) head

/-- Blocks of n elements. -/
def chunksOf {α : Type} (n : Nat) (xs : List α) : List (List α) :=
  (List.range ((xs.length + n - 1) / n)).map fun i => (xs.drop (n * i)).take n

/-- Pack(Out, OFMT): the words pushed (R367). PE_CFG.FTZ flushes in the rule only (R363). -/
def packOut (ofmt : Nat) (u : Nat → Nat) (out : List Lane) : List Lane :=
  let half (f : Fmt) : List Lane :=
    (chunksOf 2 (out.mapIdx fun i x => (i, x))).map fun ps =>
      ⟨BitVec.ofNat 32 ((ps.mapIdx fun j (i, x) =>
        (cvtFloat fF32 f { mode := .stoch (u i), ftz := false, sat := true } x.v.toNat).1 * 2 ^ (16 * j)).foldl (· + ·) 0),
       ps.any fun y => y.2.p⟩
  let blocks (q4 : Bool) (n : Nat) : List Lane :=
    ((chunksOf n out).mapIdx fun b xs => (b, xs)).flatMap fun (b, xs) =>
      let img := packBlock q4 (fun i => u (n * b + i)) (xs.map fun x => x.v.toNat)
      (List.range 16).map fun w => ⟨BitVec.ofNat 32 (imgBits img (32 * w) 32), xs.any Lane.p⟩
  match ofmt with
  | 0 => out
  | 1 => half fB16
  | 2 => half fF16
  | 3 => blocks false 60
  | _ => blocks true 120

/-! ## Registers (R363, R364) -/

/-- Base PA and length of the intake window (R363). -/
def intakeWin (s : State) (e : Nat) : Nat × Nat :=
  let v := rdReg s (.peIntk e)
  (bits v 16 36 * 65536, bits v 0 16 * 65536)

/-- The window lies in stack e, outside the protected pages (R363). -/
def intakeOk (s : State) (e : Nat) : Bool :=
  let (b, n) := intakeWin s e
  let (db, dn) := areaOf s .pgAreaD
  isHbm b && stackOf b = e && stackOff b + n ≤ 0xC00000000 && !(pgOn s && stackOff b < db + dn && db < stackOff b + n)

/-- Every page of a range is protected, as the areas of the group say (R135), and homed on a chiplet (R364). -/
def onProtected (s : State) (ctx chip : Nat) : List (Nat × Nat) → CpR Bool
  | [] => .ok true
  | (va, _) :: r =>
    match cpPage s ctx va .load false with
    | .error none => .error none
    | .error (some _) => .ok false
    | .ok (pa, _) => if protectedPa s pa && homeChip pa = chip then onProtected s ctx chip r else .ok false

/-- A block table entry (R364): the block, not valid where a rule is broken. -/
def readBlock_ (s : State) (e ctx step0 va : Nat) : CpR PeBlk :=
  let bad : PeBlk := { step := step0, saved := step0 }
  match cpRun s ctx va 8 8 with
  | .error none => .error none
  | .error (some _) => .ok bad
  | .ok ws =>
    let w (i : Nat) : Word := BitVec.ofNat 64 (ws.getD i 0)
    let nelem := bits (w 4) 0 32
    let intoff := bits (w 4) 32 32
    let ncon := bits (w 6) 0 16
    let ofmt := bits (w 6) 16 8
    let ndst := bits (w 6) 24 8
    let master := (w 0).toNat
    let mom := (w 1).toNat
    let hyp := (w 2).toNat
    if nelem % 64 ≠ 0 || (ofmt = 3 && nelem % 60 ≠ 0) || (ofmt = 4 && nelem % 120 ≠ 0) || intoff % 128 ≠ 0 || ncon = 0 || 64 < ncon ||
       4 < ofmt || 64 < ndst || bits (w 6) 32 32 ≠ 0 || w 7 ≠ 0 || (intakeWin s e).2 < intoff + 8 * nelem ||
       master % 4 ≠ 0 || mom % 4 ≠ 0 || hyp % 4 ≠ 0 || 2 ^ 56 < master + 4 * nelem || 2 ^ 56 < mom + 8 * nelem || 2 ^ 56 < hyp + 32 then .ok bad
    else match onProtected s ctx (e / 2) (pageCuts master (4 * nelem) ++ pageCuts mom (8 * nelem)) with
      | .error x => .error x
      | .ok false => .ok bad
      | .ok true => match cpRun s ctx (w 3).toNat 8 (2 * ndst) with
        | .error none => .error none
        | .error (some _) => .ok bad
        | .ok ds =>
          let dl := (List.range ndst).map fun i => (BitVec.ofNat 64 (ds.getD (2 * i) 0), (BitVec.ofNat 64 (ds.getD (2 * i + 1) 0) : Word))
          if dl.any fun d => bit d.2 63 then .ok bad else
          .ok { bad with
            master := master, mom := mom, hyp := hyp, dlist := dl, nelem := nelem, intoff := intoff, ebase := w 5, ncon := ncon,
            ofmt := ofmt, valid := true }

/-- The block table (R363, R364). -/
def readBlocks (s : State) (e ctx step0 base : Nat) : List Nat → CpR (FMap PeBlk)
  | [] => .ok []
  | i :: r => match readBlock_ s e ctx step0 (base + 64 * i) with
    | .error x => .error x
    | .ok b => match readBlocks s e ctx step0 base r with
      | .error x => .error x
      | .ok m => .ok ((i, b) :: m)

/-- The ranges of VAs that the block table and its distribution lists were read from. -/
def blockSpans (s : State) (ctx base : Nat) (bs : FMap PeBlk) : List (Nat × Nat) :=
  bs.flatMap fun (i, x) => (base + 64 * i, 64) :: match cpNum s ctx (base + 64 * i + 0x18) 8 with
    | .ok va => [(va, 16 * x.dlist.length)]
    | .error _ => []

/-- ERR of PE_CFG. -/
def peErr (s : State) (e : Nat) : State := wrReg s (.peCfg e) (setBits (rdReg s (.peCfg e)) 62 1 1)

/-- EN := 1 (R363): the rule is loaded, the block table read, both intake halves of every block zeroed. A value still on its
way makes the write wait. -/
def peEnable (s : State) (e : Nat) : State :=
  let cfg := rdReg s (.peCfg e)
  let ctx := bits cfg 52 4
  let step0 := bits cfg 0 32
  let bt := rdReg s (.peBtab e)
  let spans := (bits (rdReg s (.peRule e)) 0 56, 2048) :: (bits bt 0 50 * 64, 64 * bits bt 51 13) :: []
  let s := cpAsk s ctx (spans.flatMap fun (va, n) => wordVas va n)
  let again (s : State) : State := send s (.registerWrite (Reg.peCfg e).pa { v := setBits (setBits cfg 62 1 0) 63 1 1 })
  match loadRule s ctx (bits (rdReg s (.peRule e)) 0 56) with
  | .error none => again s
  | .error (some _) => peErr s e
  | .ok rule =>
    if !intakeOk s e then peErr s e else
    match readBlocks s e ctx step0 (bits bt 0 50 * 64) (List.range (bits bt 51 13)) with
    | .error none => again s
    | .error (some _) => peErr s e
    | .ok bs =>
      let spans := (bits (rdReg s (.peRule e)) 0 56, rule.length) :: blockSpans s ctx (bits bt 0 50 * 64) bs
      let s := cpTouch s ctx (spans.flatMap fun (va, n) => wordVas va n)
      let s := bs.foldl (fun s (_, x) => zeroIntake (zeroIntake s e x 0) e x 1) s
      let s := { s with pes := mput s.pes e { rule := rule, blocks := bs } }
      wrReg s (.peCfg e) (setBits cfg 63 1 1)

/-- EN := 0 (R363): every block's state is discarded; a contribution still held is refused. -/
def peDisable (s : State) (e : Nat) : State :=
  let p := mget {} s.pes e
  let s := p.blocks.foldl (fun s (_, x) => x.held.foldl (fun s (_, o) => remoteDone s o.src true) s) s
  let s := { s with pes := if p.pushes.isEmpty then mdel s.pes e else mput s.pes e { pushes := p.pushes } }
  wrReg s (.peCfg e) (setBits (rdReg s (.peCfg e)) 63 1 0)

/-- A write of PE_CFG (R363, R416): CTX and STEP0 are fixed while EN = 1. -/
def peCfgWrite (s : State) (e : Nat) (v : Word) : State :=
  if s.bringup < 7 then s else
  let old := rdReg s (.peCfg e)
  let en := bit old 63
  let x := if bit v 62 then setBits old 62 1 0 else old
  let x := setBits (setBits (setBits x 60 2 (bits v 60 2)) 59 1 (bits v 59 1)) 32 16 (bits v 32 16)
  let fixed := bits v 52 4 ≠ bits old 52 4 || bits v 0 32 ≠ bits old 0 32
  let x := if en then (if fixed then setBits x 62 1 1 else x) else setBits (setBits x 52 4 (bits v 52 4)) 0 32 (bits v 0 32)
  let s := wrReg s (.peCfg e) x
  if !en && bit v 63 then peEnable s e
  else if en && !bit v 63 then peDisable s e
  else s

/-- A write of PE_BTAB or PE_INTK, already masked (R363): fixed while EN = 1. -/
def peFixedWrite (s : State) (e : Nat) (r : Reg) (v : Word) : State :=
  if bit (rdReg s (.peCfg e)) 63 then (if v = rdReg s r then s else peErr s e) else wrReg s r v

/-- R363. -/
def execPeCfgEnSet (e : Nat) (v : Word) (s : State) : Out := .next (if bit v 63 then peCfgWrite s e v else s)
/-- R363. -/
def execPeCfgEnClear (e : Nat) (v : Word) (s : State) : Out := .next (if bit v 63 then s else peCfgWrite s e v)

/-! ## Contributions (R366) -/

/-- A block of an engine. -/
def peBlock (s : State) (e b : Nat) : PeBlk := mget {} (mget {} s.pes e).blocks b
/-- Replaces a block. -/
def setBlock (s : State) (e b : Nat) (x : PeBlk) : State :=
  let p := mget {} s.pes e
  { s with pes := mput s.pes e { p with blocks := mput p.blocks b x } }

/-- Contributions received for a half (R366). -/
def PeBlk.got (x : PeBlk) (h : Nat) : List Nat := if h = 0 then x.got0 else x.got1
/-- With the contributions of a half replaced. -/
def PeBlk.setGot (x : PeBlk) (h : Nat) (l : List Nat) : PeBlk := if h = 0 then { x with got0 := l } else { x with got1 := l }
/-- Contributions folded into a half. -/
def PeBlk.folded (x : PeBlk) (h : Nat) : List Nat :=
  (x.got h).filter fun r => !x.held.any fun (k, o) => k = h && o.rank = r
/-- Half h holds all contributions (R367). -/
def PeBlk.full (x : PeBlk) (h : Nat) : Bool := x.ncon ≤ (x.folded h).length

/-- The block and half whose intake begins at an offset of the window (R366). -/
def intakeAt (p : Pe) (off : Nat) : Option (Nat × PeBlk × Nat) :=
  p.blocks.findSome? fun (b, x) =>
    if !x.valid then none else if off = x.intoff then some (b, x, 0) else if off = x.intoff + 4 * x.nelem then some (b, x, 1) else none

/-- Word number of a half's first word. -/
def halfWord (s : State) (e : Nat) (x : PeBlk) (h : Nat) : Nat := ((intakeWin s e).1 + x.intoff + 4 * h * x.nelem) / 4

/-- Contributions of a half that wait for their rank fold in ascending rank (R353, R366). -/
def foldTurn (s : State) (e b h : Nat) : Nat → State
  | 0 => s
  | n + 1 =>
    let x := peBlock s e b
    let next := ((List.range 65536).find? fun r => !(x.folded h).contains r).getD 65536
    match x.held.find? fun (k, o) => k = h && o.rank = next with
    | none => s
    | some (_, o) =>
      match combineAll s 1 o .none (o.data.mapIdx fun i d => (halfWord s e x h + i, d)) with
      | none => s
      | some (s, st, fl) =>
        let s := contribDone s o st fl
        let x := peBlock s e b
        foldTurn (setBlock s e b { x with held := x.held.filter fun (k, o) => !(k = h && o.rank = next) }) e b h n

/-- Contributions of both halves fold as far as their ranks have come. -/
def foldTurns (s : State) (e b : Nat) : State := foldTurn (foldTurn s e b 0 64) e b 1 64

/-- R366, R353: a contribution is folded, held for its rank as far as there is room, dropped, or refused. Its sender learns of it once it is folded,
or when an abort discards it (R369). -/
def execPeContribution (e : Nat) (o : OrdContrib) (variant : Nat) (sparse : Bool) (s : State) : Out :=
  let p := mget {} s.pes e
  let refuse : State := remoteDone (rejectIntake s e) o.src true
  let dup : State := remoteDone (wrReg s (.peSts e) (bumpField (rdReg s (.peSts e)) 48 16 1)) o.src false
  let tag := o.tag.toNat
  .next (match intakeAt p (o.key - (intakeWin s e).1) with
  | none => refuse
  | some (b, x, h) =>
    if !x.valid || 2 ≤ variant || sparse || h ≠ tag % 2 || o.data.length ≠ x.nelem || o.ncon ≠ x.ncon ||
       pgState s = 5 || pgState s = 6 || pgState s = 8 || pgState s = 9 then refuse else
    let d := (tag + 2 ^ 16 - x.step % 2 ^ 16) % 2 ^ 16
    if d = 0xFFFF then dup
    else if 2 ≤ d then refuse
    else
      let g := (x.step + d) % 2
      if (x.got g).contains o.rank then dup else
      let x' := { x.setGot g (x.got g ++ [o.rank]) with since := if d = 0 && (x.got g).isEmpty then s.clk else x.since }
      if variant = 1 then
        let t := foldTurn (setBlock s e b { x' with held := x'.held ++ [(g, o)] }) e b g 64
        if !((peBlock t e b).folded g).contains o.rank && 4 * 2 ^ 20 < heldBytes t (e / 2) then noRoom s o else t
      else match combineAll s 0 o .none (o.data.mapIdx fun i d => (halfWord s e x g + i, d)) with
        | none => requeue s (.peContribution e o variant sparse)
        | some (s, st, fl) => foldTurn (setBlock (contribDone s o st fl) e b x') e b g 64)

/-! ## Steps (R367) -/

/-- The word at a VA of the engine, read at its home; a word in host memory through the gateway of the engine's reticle (R52). A word that cannot
be read is a poisoned input (R107, R367). -/
def peWord (s : State) (e ctx va : Nat) : CpR Lane :=
  match cpPage s ctx va .load false with
  | .error x => .error x
  | .ok (pa, _) =>
    if spaceOf pa = 2 then cpWord s ctx va else
    match homeRead s (pa / 4) (e / 8) with
    | .value x => .ok x
    | .wait => .error none
    | _ => .ok { p := true }

/-- The VAs of n words. -/
def vaWords (va n : Nat) : List Nat := (List.range n).map fun i => va + 4 * i

/-- Words at the engine's own addresses. -/
def peWords (s : State) (e ctx : Nat) : List Nat → CpR (List Lane)
  | [] => .ok []
  | va :: r => match peWord s e ctx va with
    | .error x => .error x
    | .ok x => match peWords s e ctx r with
      | .error x => .error x
      | .ok xs => .ok (x :: xs)

/-- Words read at their homes. -/
def homeWords (s : State) : List Nat → CpR (List Lane)
  | [] => .ok []
  | w :: r => match homeRead s w 0 with
    | .value x => (match homeWords s r with
      | .error e => .error e
      | .ok xs => .ok (x :: xs))
    | .wait => .error none
    | _ => (match homeWords s r with
      | .error e => .error e
      | .ok xs => .ok (({ p := true } : Lane) :: xs))

/-- Word numbers of VAs that the engine writes. -/
def peDest (s : State) (ctx : Nat) : List Nat → CpR (List Nat)
  | [] => .ok []
  | va :: r => match cpPage s ctx va .engWrite false with
    | .error e => .error e
    | .ok (pa, _) => match peDest s ctx r with
      | .error e => .error e
      | .ok l => .ok (pa / 4 :: l)

/-- A home write of the engine performs, or waits at its home. -/
def pePost (s : State) (h : HomeWr) : State :=
  match homePerform s h with
  | .wait s => send s (.homeWrite h)
  | .done s _ _ => s

/-- Home writes of the engine, in order; a round that ends on the way undoes them by its restore (R369). -/
def pePut (s : State) (e : Nat) (ws : List (Nat × Lane)) : State :=
  ws.foldl (fun s (w, x) => if pgState s ≠ 2 then s else pePost s ⟨w, 15, x.v, x.p, .write, .pe e⟩) s

/-- Writes of an engine still wait at their homes. -/
def peWriting (s : State) (e : Nat) : Bool := (s.net ++ s.held).any fun m => match m with
  | .homeWrite h => h.src = .pe e
  | _ => false

/-- Pages of a push: parts of its range in the peer's or the module's memory; none where a page denies the write. -/
def pushParts (s : State) (ctx : Nat) : List (Nat × Nat) → CpR (Option (List (Nat × Nat)))
  | [] => .ok (some [])
  | (va, n) :: r =>
    match cpPage s ctx va .engWrite false with
    | .error none => .error none
    | .error (some _) => .ok none
    | .ok (pa, _) =>
      if !(isHbm pa || isHostPa pa || isPeerPa pa) then .ok none else
      match pushParts s ctx r with
      | .error e => .error e
      | .ok none => .ok none
      | .ok (some l) => .ok (some ((pa, n) :: l))

/-- Parts of every push of a block. -/
def allParts (s : State) (ctx n : Nat) : List (Word × Word) → CpR (List (Word × Option (List (Nat × Nat))))
  | [] => .ok []
  | (va, x) :: r =>
    match (if 2 ^ 56 < va.toNat + n then .ok none else pushParts s ctx (pageCuts va.toNat n)) with
    | .error e => .error e
    | .ok ps => match allParts s ctx n r with
      | .error e => .error e
      | .ok l => .ok ((x, ps) :: l)

/-- A push recorded undeliverable (R367). -/
def pushUnd (s : State) (e : Nat) : State := wrReg s (.peSts e) (bumpField (rdReg s (.peSts e)) 16 16 1)

/-- Home writes of one push; the words in peer windows are returned with their pods. -/
def pushWords (s : State) (e : Nat) : List (Nat × Nat) → List (Byte × Bool) → State × List (Nat × HomeWr)
  | [], _ => (s, [])
  | (pa, n) :: r, bs =>
    let hs := (byteWords pa (bs.take n)).map fun (w, m, v, p) => (⟨w, m, v, p, .write, .pe e⟩ : HomeWr)
    if isPeerPa pa then
      let (s, l) := pushWords s e r (bs.drop n)
      (s, hs.map (fun h => (peerPod pa, { h with w := peerWord (4 * h.w) })) ++ l)
    else pushWords (hs.foldl pePost s) e r (bs.drop n)

/-- A push is under way. -/
def addPush (s : State) (e : Nat) (x : Push) : State :=
  let p := mget {} s.pes e
  { s with pes := mput s.pes e { p with pushes := p.pushes ++ [x] } }

/-- The remote signal of a distribution entry (R293). -/
def pushSignal (e : Nat) (x : Word) : Option Remote :=
  if xRS x then some {
    core := bits x 50 7, ttag := BitVec.ofNat 16 (bits x 22 16),
    sig := some (BitVec.ofNat 8 (bits x 42 8), BitVec.ofNat 4 (bits x 38 4)), start := none, src := .pe e }
  else none

/-- One push (R367): the words in this module, then those of each peer, each on its way to its own home; the signal goes to the module of
the first byte. -/
def push (s : State) (e : Nat) (bs : List (Byte × Bool)) (d : Word × Option (List (Nat × Nat))) : State :=
  match d.2 with
  | none => pushUnd s e
  | some ps =>
    let pod := match ps.head? with
      | some (pa, _) => if isPeerPa pa then peerPod pa else 64
      | none => 64
    let (s, hs) := pushWords s e ps bs
    let pods := (hs.map (·.1)).eraseDups
    let s := addPush s e { pod := pod, sig := pushSignal e d.1, ids := (List.range pods.length).map fun i => s.nextPeer + i }
    pods.foldl (fun s p => peerWrite s p (.words ((hs.filter fun h => h.1 = p).map (·.2))) (.pe e)) s

/-- The writes of a push are performed: its signal leaves, and a push with nothing left is over (R94). -/
def sendPush (e : Nat) (s : State) (x : Push) : State :=
  if x.ids.any fun id => s.peerOut.any fun o => o.id = id then addPush s e x else
  match x.sig with
  | none => s
  | some r =>
    if x.pod = 64 then send s (.remoteSignal r)
    else peerSend (addPush s e { x with sig := none, ids := [s.nextPeer] }) x.pod (.words []) (.pe e) fun id =>
      .remoteSignal { r with src := .peer (podIdx s) id }

/-- Signals of an engine's pushes leave once their writes are performed (R94). -/
def sendPushes (s : State) (e : Nat) : State :=
  let p := mget {} s.pes e
  if p.pushes.isEmpty || peWriting s e then s
  else p.pushes.foldl (sendPush e) { s with pes := mput s.pes e { p with pushes := [] } }

/-- What a step reads: gradients, masters, moments, hyperparameters; the places it writes; its pushes. -/
structure PeIn where
  es : List PeElem
  hyp : List Lane
  dst : List Nat
  parts : List (Word × Option (List (Nat × Nat)))

/-- Bytes of an element of OFMT times NELEM. -/
def outBytes (ofmt nelem : Nat) : Nat :=
  match ofmt with
  | 0 => 4 * nelem
  | 1 | 2 => 2 * nelem
  | 3 => nelem / 60 * 64
  | _ => nelem / 120 * 64

/-- Words of the gradients that step s of a block takes. -/
def gradWords (s : State) (e : Nat) (x : PeBlk) : List Nat := (List.range x.nelem).map fun i => halfWord s e x (x.step % 2) + i

/-- Everything step s of a block reads (R365, R367). -/
def stepInputs (s : State) (e : Nat) (x : PeBlk) : CpR PeIn := do
  let ctx := bits (rdReg s (.peCfg e)) 52 4
  let n := x.nelem
  let g ← homeWords s (gradWords s e x)
  let m ← peWords s e ctx (vaWords x.master n)
  let mo ← peWords s e ctx (vaWords x.mom (2 * n))
  let hy ← peWords s e ctx (vaWords x.hyp 8)
  let dm ← peDest s ctx (vaWords x.master n)
  let dmo ← peDest s ctx (vaWords x.mom (2 * n))
  let ps ← allParts s ctx (outBytes x.ofmt n) x.dlist
  let es := List.zipWith (fun (a : Lane × Lane) (b : Lane × Lane) => (⟨a.1, a.2, b.1, b.2⟩ : PeElem))
    (List.zip g m) (List.zip (mo.take n) (mo.drop n))
  .ok ⟨es, hy, dm ++ dmo, ps⟩

/-- Step s of a block (R367); none where it cannot be applied now. -/
def applyStep (s : State) (e b : Nat) : Option State :=
  let p := mget {} s.pes e
  let x := peBlock s e b
  let cfg := rdReg s (.peCfg e)
  let h := x.step % 2
  if !bit cfg 63 || !x.valid || !x.full h || pgState s ≠ 2 || peWriting s e then none else
  let vas := vaWords x.master x.nelem ++ vaWords x.mom (2 * x.nelem) ++ vaWords x.hyp 8
  match stepInputs s e x with
  | .error _ => some (cpAsk ((gradWords s e x).foldl ownAsk s) (bits cfg 52 4) vas)
  | .ok i =>
    let ftz := bit cfg 59
    let s := (gradWords s e x).foldl ownAsk (touchReads s (gradWords s e x))
    let s := cpTouch s (bits cfg 52 4) vas
    let rule := ruleBundles p.rule
    let runs := (chunksOf 16 i.es).mapIdx fun k es => ruleRun rule (bits cfg 60 2) ftz (16 * k) x.step i.hyp es
    let out := runs.flatMap (·.1)
    let fl := runs.foldl (fun f r => f ||| r.2) 0
    let ws := out.map (·.a) ++ out.map (·.b) ++ out.map (·.c)
    let t := pePut s e (List.zip i.dst ws)
    if pgState t ≠ 2 then some t else
      let t := wrReg t (.peFlg e) (rdReg t (.peFlg e) ||| fl.zeroExtend 64)
      let key := rdReg t (.peKey e) ^^^ BitVec.ofNat 64 x.step
      let u (i : Nat) : Nat := (rngOf key (x.ebase + BitVec.ofNat 64 i)).toNat % 2 ^ 16
      let bs := lanesToBytes (packOut x.ofmt u (out.map (·.d)))
      let t := i.parts.foldl (fun t d => push t e bs d) t
      let t := zeroIntake t e x h
      some (setBlock t e b { x.setGot h [] with step := (x.step + 1) % 2 ^ 32, since := t.clk })

/-- R367, R94: contributions whose rank has come are folded, a complete step is applied, signals of earlier pushes leave. -/
def execPeStepApply (e b : Nat) (s : State) : Out :=
  let s := foldTurns (sendPushes s e) e b
  .next ((applyStep s e b).getD s)

/-- R368: an event for a block that waits on a partial step. -/
def execPeStepTimeout (e b : Nat) (s : State) : Out :=
  let x := peBlock s e b
  let got := x.got (x.step % 2)
  let tmo := bits (rdReg s (.peCfg e)) 32 16 * 65536
  let low := ((List.range x.ncon).find? fun r => !got.contains r).getD 0
  .next (if tmo = 0 || !x.valid || got.isEmpty || x.ncon ≤ got.length || s.clk < x.since + tmo then s
  else
    evPost (setBlock s e b { x with since := x.since + tmo }) 7 e
      (BitVec.ofNat 64 (b % 2 ^ 12 * 2 ^ 52 + x.step % 2 ^ 16 * 2 ^ 36 + (x.ncon - got.length) % 2 ^ 8 * 2 ^ 28 + low % 64 * 2 ^ 22)))

end Sys2Proof.Machine
end

