-- ==== Sys2Proof/Machine/Store.lean ====
section
/-! DEFINITION. Stacked memory and flash tiers as devices: lane repair (R96, R97), power states (R98, R99), and the append-log
handles (R102-R104). -/
namespace Sys2Proof.Machine

/-! ## Lane groups (R96, R97) -/

/-- Key of a lane group. -/
def grpKey (stack ch grp : Nat) : Nat := 64 * stack + 2 * ch + grp
/-- A lane group. -/
def grpOf (s : State) (stack ch grp : Nat) : LaneGrp := mget {} s.grps (grpKey stack ch grp)
/-- Replaces a lane group. -/
def setGrp (s : State) (stack ch grp : Nat) (x : LaneGrp) : State := { s with grps := mput s.grps (grpKey stack ch grp) x }

/-- A retrain of the channel begins: RETRAINS counts (R99). -/
def startRetrain (s : State) (stack ch grp : Nat) (x : LaneGrp) : State :=
  let s := wrReg s (.hbmSts stack) (bumpField (rdReg s (.hbmSts stack)) 40 8 1)
  setGrp s stack ch grp { x with st := .retrain, replays := [], since := s.clk }

/-- Errors of a lane within the last 2^20 bursts of its group. -/
def laneErrs (x : LaneGrp) (lane : Nat) : Nat := (x.errs.filter fun (l, b) => l = lane && x.bursts < b + 2 ^ 20).length

/-- A burst has had another bad CRC: of its first a replay begins, and each further one is a replay that has failed (R97). -/
def LaneGrp.replay (x : LaneGrp) (burst clk : Nat) : LaneGrp :=
  { x with replays := mput x.replays burst (match mlook x.replays burst with | some n => n + 1 | none => 0), lastBad := clk }

/-- A replay of the group is outstanding: it ends in the clk after the bad CRC unless it fails too (R97; log entry 83). -/
def LaneGrp.replaying (x : LaneGrp) (clk : Nat) : Bool := !x.replays.isEmpty && clk ≤ x.lastBad

/-- R97: a burst with a bad CRC is replayed; the 16th error of a lane makes a repair wanted, or, with the tracking lane in
use, a retrain; during Pending a burst whose replay fails for the eighth time forces the retrain. -/
def execBurstCrcError (stack ch grp : Nat) (err : BurstErr) (s : State) : Out :=
  let lane := err.lane
  let x := grpOf s stack ch grp
  if x.st = .failed || x.st = .switch || x.st = .retrain || s.chFail.contains (32 * stack + ch) then .next s else
  let s := wrReg s (.hbmSts stack) (bumpField (rdReg s (.hbmSts stack)) 16 16 1)
  let s := logErr s 1 stack [BitVec.ofNat 64 ch, BitVec.ofNat 64 grp, BitVec.ofNat 64 lane, BitVec.ofNat 64 err.burst]
  let x := { x with errs := x.errs ++ [(lane, x.bursts)] }.replay err.burst s.clk
  let n := mget 0 x.replays err.burst
  .next (if x.st = .pending then
    if 8 ≤ n then startRetrain s stack ch grp x else setGrp s stack ch grp x
  else if laneErrs x lane < 16 then setGrp s stack ch grp x
  else if x.spare.isSome then startRetrain s stack ch grp { x with errs := [] }
  else setGrp s stack ch grp { x with st := .pending, want := some lane, since := s.clk })

/-- The other group of a channel. -/
def neighbour (grp : Nat) : Nat := 1 - grp

/-- R96, R97: the sampling phase moves between bursts; no access is stalled or replayed. A group whose tracking lane carries data takes its
phase from its neighbour's. -/
def execTrackingPhaseMove (stack ch grp : Nat) (s : State) : Out :=
  let x := grpOf s stack ch grp
  let y := grpOf s stack ch (neighbour grp)
  if x.spare.isSome then .next s else
  let s := setGrp s stack ch grp { x with phase := x.phase + 1 }
  .next (if y.spare.isSome then setGrp s stack ch (neighbour grp) { y with phase := x.phase + 1 } else s)

/-- R97: no replay is outstanding any more, and the mapping switches. -/
def execRepairSwitch (stack ch grp : Nat) (s : State) : Out :=
  let x := grpOf s stack ch grp
  .next (if x.st = .pending && !x.replaying s.clk then setGrp s stack ch grp { x with st := .switch, replays := [], since := s.clk } else s)

/-- The group's tracking lane takes the place of the lane wanted for repair, and the group its phase from its neighbour's (R97, R99). -/
def takeSpare (s : State) (stack ch grp : Nat) (x : LaneGrp) : State :=
  let v := rdReg s (.hbmSts stack)
  let spares := bits v 48 8 - 1
  let s := wrReg s (.hbmSts stack) (bumpField (setBits v 48 8 spares) 8 8 1)
  let s := if spares = 0 then replReason s 1 else s
  setGrp s stack ch grp { x with
    st := .normal, spare := x.want, want := none, phase := (grpOf s stack ch (neighbour grp)).phase, errs := x.errs.filter fun e => some e.1 ≠ x.want }

/-- Training of the stacks at bring-up: a group in which a lane is found bad is repaired (R97, R415 step 3). -/
def trainStacks (s : State) : State :=
  let t := (List.range 1024).foldl (fun t key => match Config.badLane s.fresh key with
    | none => t
    | some lane => takeSpare t (key / 64) (key / 2 % 32) (key % 2) { want := some lane.toNat }) s
  { t with fresh := s.fresh + 1 }

/-- R97, R99: the tracking lane has taken the lane's place, and the group takes its phase from the neighbouring group's. -/
def execRepairSwitchDone (stack ch grp : Nat) (s : State) : Out :=
  let x := grpOf s stack ch grp
  if x.st ≠ .switch then .next s else
  .next (takeSpare s stack ch grp x)

/-- R97: the retrain succeeds. -/
def execRetrainDone (stack ch grp : Nat) (s : State) : Out :=
  let x := grpOf s stack ch grp
  .next (if x.st = .retrain then
    setGrp s stack ch grp { x with st := if x.want.isSome then .pending else .normal, replays := [], since := s.clk } else s)

/-- R97, R98, R411: a retrain not done within 20 µs (48,000 clk) leaves the channel Failed. -/
def execRetrainTimeout (stack ch grp : Nat) (s : State) : Out :=
  let x := grpOf s stack ch grp
  if x.st ≠ .retrain || s.clk < x.since + 48000 then .next s else
  let s := setGrp s stack ch grp { x with st := .failed }
  let s := { s with chFail := s.chFail ++ [32 * stack + ch] }
  let s := if (List.range 32).all fun c => s.chFail.contains (32 * stack + c) then
      wrReg s (.hbmSts stack) (setBits (rdReg s (.hbmSts stack)) 0 3 4) else s
  .next (replReason s 0)

/-! ## Power states (R98, R99) -/

/-- R98: 4,096 clk without access. -/
def execHbmPowerDown (stack : Nat) (s : State) : Out :=
  let v := rdReg s (.hbmSts stack)
  .next (if bits v 0 3 = 0 && mget 0 s.stackUse stack + 4096 ≤ s.clk then wrReg s (.hbmSts stack) (setBits v 0 3 1) else s)

/-- R98, R99: a write of PSTATE 0, 2 or 3; a Failed stack stays Failed. -/
def execHbmStsWrite (stack : Nat) (v : Word) (s : State) : Out :=
  let old := rdReg s (.hbmSts stack)
  let p := bits v 0 3
  .next (if s.bringup < 7 || bits old 0 3 = 4 || !(p = 0 || p = 2 || p = 3) then s else
    let s := { s with stackUse := mput s.stackUse stack s.clk }
    wrReg s (.hbmSts stack) (setBits old 0 3 p))

/-! ## Append-log handles (R102-R104) -/

/-- R102: the next page of a handle is written to the cells and checked; the durable pointer passes it. -/
def execFlashPageDurable (tier h : Nat) (s : State) : Out :=
  let st := bits (rdReg s (.fahCtl tier h)) 62 2
  let p := rdReg s (.fahPtr tier h)
  .next (if (st = 1 || st = 3) && bits p 30 30 < bits p 0 30 then wrReg s (.fahPtr tier h) (setBits p 30 30 (bits p 30 30 + 1)) else s)

/-- FAH_CTL after a write of its fields, before the command: ERR cleared by a one, BASE and LAST stored only while Free, a
refused change setting ERR (R104, R416). -/
def fahFields (old v : Word) : Word :=
  let x := if bit v 61 then setBits old 61 1 0 else old
  if bits old 62 2 = 0 then setBits (setBits x 0 29 (bits v 0 29)) 29 29 (bits v 29 29)
  else if bits old 0 58 ≠ bits v 0 58 then setBits x 61 1 1
  else x

/-- A write of FAH_CTL with its command (R103, R104); a command not accepted is ignored and sets ERR, command 0 among them. Trim makes every
page of the range unwritten, with no error that a check could find. -/
def fahWrite (s : State) (tier h : Nat) (v : Word) : State :=
  let old := rdReg s (.fahCtl tier h)
  let x := fahFields old v
  let st := bits old 62 2
  let bad := wrReg s (.fahCtl tier h) (setBits x 61 1 1)
  if s.bringup < 7 then s else
  match bits v 58 3 with
  | 1 =>
    if st ≠ 0 || bits x 29 29 < bits x 0 29 then bad else
    let b := bits x 0 29
    wrReg (wrReg s (.fahCtl tier h) (setBits x 62 2 1)) (.fahPtr tier h) (BitVec.ofNat 64 (b * 2 ^ 30 + b))
  | 2 => if st ≠ 1 then bad else wrReg s (.fahCtl tier h) (setBits x 62 2 3)
  | 3 =>
    if st ≠ 2 then bad else
    let lo := tier * 2 ^ 29 + bits x 0 29
    let hi := tier * 2 ^ 29 + bits x 29 29
    let inside (pa : Nat) : Bool := isFlashPa pa && lo ≤ pa % 2 ^ 43 / 4096 && pa % 2 ^ 43 / 4096 ≤ hi
    wrReg { s with flashW := s.flashW.filter fun e => !(lo ≤ e.1 && e.1 ≤ hi)
                   bad := s.bad.filter fun e => !inside (4 * e.1) } (.fahCtl tier h) (setBits x 62 2 0)
  | _ => bad

/-- R103: Open. -/
def execFahOpen (tier h : Nat) (v : Word) (s : State) : Out :=
  .next (if bits v 58 3 = 1 then fahWrite s tier h v else s)
/-- R103: Seal. -/
def execFahSeal (tier h : Nat) (v : Word) (s : State) : Out :=
  .next (if bits v 58 3 = 2 then fahWrite s tier h v else s)
/-- R103: Trim. -/
def execFahTrim (tier h : Nat) (v : Word) (s : State) : Out :=
  .next (if bits v 58 3 = 3 then fahWrite s tier h v else s)

/-- R103: a handle being sealed whose pages are all durable is Sealed. -/
def execFahSealDone (tier h : Nat) (s : State) : Out :=
  let c := rdReg s (.fahCtl tier h)
  let p := rdReg s (.fahPtr tier h)
  .next (if bits c 62 2 = 3 && bits p 30 30 = bits p 0 30 then wrReg s (.fahCtl tier h) (setBits c 62 2 2) else s)

end Sys2Proof.Machine
end

