-- ==== Sys2Proof/Machine/Power.lean ====
section
/-! DEFINITION. Power (R400-R405), the thermal emergency (R406-R409), retirement and replacement (R410, R411), firmware,
attestation and the error log (R412-R414), reset and bring-up (R415), the scope table (R70-R72). -/
namespace Sys2Proof.Machine

/-! ## Power settings and windows (R400-R405) -/

/-- R400: BUDGET is at least 16, SWAL not 0. -/
def pwrCoreWrite (s : State) (k : Nat) (v : Word) : State :=
  let b := bits v 16 16
  let w := bits v 0 16
  wrReg s (.pwrCore k) (BitVec.ofNat 64 ((if b < 16 then 16 else b) * 65536 + if w = 0 then 1 else w))
/-- R400. -/
def execPwrCoreWrite (core : Nat) (v : Word) (s : State) : Out := .next (pwrCoreWrite s core v)

/-- SWAL and BUDGET of a profile (R403). -/
def profileOf : Nat → Option (Nat × Nat)
  | 0 => some (0xFFFF, 0x7BC0)
  | 1 => some (0xFFFF, 0x3C00)
  | 2 => some (0xEEEE, 0x1E00)
  | 3 => some (0x8888, 0x0800)
  | _ => none

/-- R403: the pair of a profile goes into every core's PWR_CORE; 4-7 are ignored. -/
def pwrProfWrite (s : State) (v : Word) : State :=
  match profileOf (bits v 0 3) with
  | none => s
  | some (w, b) => (List.range 128).foldl (fun s k => pwrCoreWrite s k (BitVec.ofNat 64 (b * 65536 + w))) s
/-- R403. -/
def execPwrProfWrite (v : Word) (s : State) : Out := .next (pwrProfWrite s v)

/-- A core that ballast may run on: powered, with its number, and without a task; the lowest one is the model's choice (R404; log entry 85). -/
def idleCore (s : State) : Option Nat :=
  if bits (rdReg s .thmSts) 60 3 = 2 then none else (List.range 128).find? fun k => (core s k).task.isNone && !s.retired.contains k

/-- A core's settings as its next window takes them (R400). -/
def Core.newWindow (v : Word) (c : Core) : Core := { c with esum := 0, swal := v.extractLsb' 0 16, budget := bits v 16 16 }

/-- Window boundaries that have passed take effect (R400, R402, R404): sums restart, every core's settings come into force, and where the demand
falls below the floor that RAMP leaves, ballast on an idle core makes it up. -/
def windows (s : State) : State :=
  let n := s.clk / 64 - s.winN
  if n = 0 then s else
  let ramp := bits (rdReg s .pwrRamp) 0 32
  let sum := s.cores.foldl (fun m (_, c) => m + c.esum) 0
  let floor := s.lastW - ramp
  let bal := sum < floor && (idleCore s).isSome
  let first := if bal then floor else sum
  let last := if (idleCore s).isSome then first - (n - 1) * ramp else if n = 1 then first else 0
  let bal := if n = 1 then bal else 0 < last
  let unlisted := (List.range 128).filter fun k => (mlook s.cores k).isNone && rdReg s (.pwrCore k) ≠ (Reg.pwrCore k).reset
  let cores := unlisted.foldl (fun m k => mput m k {}) s.cores
  let s := { s with
    winN := s.clk / 64, lastW := last, ballast := if bal then idleCore s else none
    cores := cores.map fun (k, c) => (k, c.newWindow (rdReg s (.pwrCore k))) }
  wrReg s .pwrRamp (setBits (rdReg s .pwrRamp) 63 1 (if bal then 1 else 0))
/-- R402: a power window ends. -/
def execPowerWindow (s : State) : Out := .next (windows s)

/-! ## The thermal emergency (R406-R409) -/

/-- STATE of THM_STS (R407). -/
def thmState (s : State) : Nat := bits (rdReg s .thmSts) 60 3
/-- STATE of THM_STS is set. -/
def setThm (s : State) (n : Nat) : State := wrReg s .thmSts (setBits (rdReg s .thmSts) 60 3 n)

/-- R406: an emergency is declared: no packet is taken, every context is stopped, earlier images move to the emergency area in the order of
their contexts' ranks, a member in a prepare enters Isolated, replacement is requested. -/
def execThermalEmergency (s : State) : Out :=
  .next (if thmState s ≠ 0 then s else
    let s := setThm (wrReg s .thmSts (setBits (rdReg s .thmSts) 63 1 1)) 1
    let s := { s with emergClk := s.clk + 1 }
    let s := (List.range 16).foldl ctxStopWrite s
    let s := if preparing s then dropProtected s 8 6 else s
    replReason (emergencyEarlier s) 4)

/-- A bound counted from the declaration has passed (R406). -/
def emergencyLate (s : State) (clks : Nat) : Bool := thmState s = 1 && s.emergClk ≠ 0 && s.emergClk - 1 + clks ≤ s.clk

/-- R406 step 3: contexts that are not saved end, and the images of the others that still lie in save areas move. -/
def endUnsaved (s : State) : State :=
  let late := s.tasks.filter fun (_, t) => t.ended.isNone && t.st ≠ .ready && t.st ≠ .preempted
  emergencyEarlier (late.foldl (fun s (_, t) => endCtx s t.ctx) s)

/-- R406 step 3, at 18 ms. -/
def execEmergencySaveTimeout (s : State) : Out := .next (if !emergencyLate s 43200000 then s else endUnsaved s)

/-- R406 steps 4 and 5: at 20 ms, behind step 3, every stack is in thermal self-refresh and the compute rails are removed: what cores and
landings hold is gone; the owned words of the tasks that have ended are cleaned before (R384). -/
def execEmergencyRailsOff (s : State) : Out :=
  .next (if !emergencyLate s 48000000 then s else
    let s := endUnsaved s
    let s := (s.cores.map (·.1)).foldl (fun s k => cleanCore s k (-1)) s
    let s := (List.range 16).foldl (fun s i =>
      let v := rdReg s (.hbmSts i)
      if bits v 0 3 = 4 then s else wrReg s (.hbmSts i) (setBits v 0 3 3)) s
    let landing (p : Nat) : Bool := 0x200 ≤ p && p < 0x400
    setThm { s with
      cores := s.cores.map fun (k, c) => (k, { swal := c.swal, budget := c.budget, esum := c.esum })
      walks := [], ballast := none
      lvl := s.lvl.filter (fun (k, _) => !landing (k / 2 ^ 50)), reg := s.reg.filter (fun (k, _) => !landing (k / 2 ^ 50))
      locks := s.locks.filter fun (p, _) => !landing p } 2)

/-- A free core is retired: the unused spare of its chiplet takes its number, else the number is marked retired (R3, R410, R411). -/
def retireCore (s : State) (k : Nat) : State :=
  let c := core s k
  if s.retired.contains k then s
  else if s.sparesUsed.contains (chipOf k) then replReason { s with retired := s.retired ++ [k] } 2
  else setCore { s with sparesUsed := s.sparesUsed ++ [chipOf k] } k { swal := c.swal, budget := c.budget, esum := c.esum }

/-- The self-test of the cores: each that fails is retired (R415 step 4). -/
def selfTest (s : State) : State :=
  let bad := Config.failedCores s.fresh
  ((List.range 128).filter fun k => bad.getLsbD k).foldl retireCore { s with fresh := s.fresh + 1 }

/-- R407: after 1 s below 85 °C the compute part of bring-up runs (STATE 3: the compute rail, the self-test); then the stacks return to Active,
and STATE is 0. -/
def execCooldownComplete (s : State) : Out :=
  .next (if thmState s = 2 then setThm s 3
  else if thmState s ≠ 3 then s else
    let s := (List.range 16).foldl (fun s i =>
      let v := rdReg s (.hbmSts i)
      if bits v 0 3 = 3 then wrReg { s with stackUse := mput s.stackUse i s.clk } (.hbmSts i) (setBits v 0 3 0) else s) (selfTest s)
    setThm { s with emergClk := 0 } 0)

/-- R408: the emergency area moves, or the write is refused. -/
def thmAreaWrite (s : State) (v : Word) : State :=
  let old := rdReg s .thmArea
  let used := (List.range 16).any fun x => bit (rdReg s (.ctxCfg x)) 63
  if 0xC0000 < bits v 0 20 + bits v 32 20 || used || !s.emerg.isEmpty then wrReg s .thmArea (setBits old 31 1 1)
  else
    let x := if bit v 31 then setBits old 31 1 0 else old
    wrReg s .thmArea (setBits (setBits x 32 20 (bits v 32 20)) 0 20 (bits v 0 20))
/-- R408. -/
def execThmAreaWrite (v : Word) (s : State) : Out := .next (thmAreaWrite s v)

/-- Images of a context in the emergency area. -/
def emergOf (s : State) (x : Nat) : List SaveImg := s.emerg.filter fun i => (mlook s.tasks i.task).any fun t => t.ctx = x

/-- R409: a write of THM_RES: ignored with ERR outside STATE 0; GO is refused while busy or without images. -/
def thmResWrite (s : State) (v : Word) : State :=
  let old := rdReg s .thmRes
  if thmState s ≠ 0 then wrReg s .thmRes (setBits old 61 1 1) else
  let x := setBits (if bit v 61 then setBits old 61 1 0 else old) 0 4 (bits v 0 4)
  if !bit v 63 then wrReg s .thmRes x
  else if bit old 62 || (emergOf s (bits v 0 4)).isEmpty then wrReg s .thmRes (setBits old 61 1 1)
  else wrReg { s with resCtx := bits v 0 4 } .thmRes (setBits x 62 1 1)
/-- R409. -/
def execThmResGo (v : Word) (s : State) : Out := .next (if bit v 63 then thmResWrite s v else s)

/-- R409: the images are back in the save areas, in the order in which they were saved. -/
def execThmResDone (s : State) : Out :=
  .next (if !bit (rdReg s .thmRes) 62 then s else
    let imgs := emergOf s s.resCtx
    wrReg { s with saves := s.saves ++ imgs, emerg := s.emerg.filter fun i => !imgs.contains i } .thmRes
      (setBits (rdReg s .thmRes) 62 1 0))

/-! ## Retirement and replacement (R3, R410, R411) -/

/-- R410: a write is ignored while a retirement waits. -/
def coreRetWrite (s : State) (v : Word) : State :=
  let old := rdReg s .coreRet
  if bit old 63 then s else wrReg s .coreRet (setBits (setBits old 0 7 (bits v 0 7)) 63 1 (if bit v 7 then 1 else 0))
/-- R410. -/
def execCoreRetGo (v : Word) (s : State) : Out := .next (if bit v 7 then coreRetWrite s v else s)

/-- R410, R3: a core free of tasks and images is retired once its owned words are cleaned; the unused spare of its chiplet takes
its number, else the number is marked retired. -/
def execCoreRetirement (s : State) : Out :=
  let v := rdReg s .coreRet
  let k := bits v 0 7
  .next (if !bit v 63 || (core s k).task.isSome || (s.saves ++ s.emerg).any (fun i => i.core = k) then s else
    let s := cleanCore s k (-1)
    if !(core s k).outst.isEmpty || !(ownedIn (core s k) (-1)).isEmpty then s else
    retireCore (wrReg s .coreRet (setBits v 63 1 0)) k)

/-- R411: a fault on a power-delivery rail. -/
def execPdRailFault (s : State) : Out := .next (replReason s 7)

/-! ## Firmware, attestation, the error log (R412-R414) -/

/-- A number from bytes, lowest first (R10). -/
def leNum (bs : List Byte) : Nat := bs.foldr (fun b n => b.toNat + 256 * n) 0

/-- A record as it is appended (R412): its bytes are the image, the digest of 64 bytes and the signature of 132 bytes (log entry 4). -/
def fwRecord (m ver : Nat) (bytes : List Byte) : FwRec :=
  let n := bytes.length - 196
  { m := m, ver := ver, image := bytes.take n, digest := BitVec.ofNat 512 (leNum ((bytes.drop n).take 64))
    sig := BitVec.ofNat 1056 (leNum (bytes.drop (n + 64))) }

/-- A record verifies: its digest is its image's, and the signature over digest and header is the Halwiet key's (R412). -/
def FwRec.genuine (r : FwRec) : Bool := r.digest = Config.sha512 r.image && Config.firmwareSigned r.digest r.m r.ver r.sig

/-- A module's newest accepted record is not the active one: its replacement is due. -/
def fwDue (s : State) (m : Nat) : Bool :=
  match (s.fw.filter fun r => r.m = m && !r.rejected).getLast? with
  | none => false
  | some r => mlook s.fwActive m ≠ some r.ver

/-- R412: a record is appended and verified; one with a bad signature or below the active version is marked rejected. An accepted one is
next to become active, one module at a time. -/
def execFirmwareRecordAppend (m ver : Nat) (image : List Byte) (s : State) : Out :=
  let r := fwRecord m ver image
  let bad := !r.genuine || (mlook s.fwActive m).any fun v => ver < v
  let s := { s with fw := s.fw ++ [{ r with rejected := bad }] }
  .next (if bad then replReason s 5 else { s with fwSwap := s.fwSwap.or (some m) })

/-- A quiescent point (R412): the command processor is between packets, none that it works on itself has begun and is not done; between two
steps of the machine every link controller is between two flits. -/
def quiescent (s : State) : Bool :=
  s.queues.all fun (_, x) => x.pkts.all fun p => !p.started || p.done || !(p.type = 3 || p.type = 4 || 0x10 ≤ p.type)

/-- R412: at a quiescent point the newest accepted record of the module that is being replaced becomes active; then the next module's turn comes. -/
def execFirmwareActivate (m : Nat) (s : State) : Out :=
  .next (if s.fwSwap ≠ some m || !quiescent s then s else
    match (s.fw.filter fun r => r.m = m && !r.rejected).getLast? with
    | none => s
    | some r =>
      let s := { s with fwActive := mput s.fwActive m r.ver }
      { s with fwSwap := (s.fw.find? fun x => fwDue s x.m).map (·.m) })

/-- The digests of the active modules (R413). -/
def activeDigests (s : State) : List (Nat × BitVec 512) := s.fwActive.map fun (m, v) =>
  (m, (((s.fw.filter fun r => r.m = m && r.ver = v && !r.rejected).getLast?).map (·.digest)).getD 0)

/-- What the module has retired, for a quote: cores, spares taken, channels of HBM (R413). -/
def retiredMap (s : State) : List Nat := s.retired ++ s.sparesUsed.map (256 + ·) ++ s.chFail.map (512 + ·)

/-- R413: a quote: the signature over the nonce, the digests of the active modules, the fuse configuration and the map of retired resources. -/
def execAttestationQuote (nonce : BitVec 512) (s : State) : Out :=
  .next { s with
    fresh := s.fresh + 1
    quotes := s.quotes ++ [(nonce, Config.quoteSignature nonce (activeDigests s) Config.fuses (retiredMap s) s.fresh)] }

/-- R414: the oldest record is merged into its kind's total. -/
def execErrorLogMerge (s : State) : Out :=
  .next (match s.errLog with
  | [] => s
  | r :: l => { s with errLog := l, logTotals := mput s.logTotals r.kind (mget 0 s.logTotals r.kind + 1) })

/-! ## The scope table (R70-R72) -/

/-- A level entry of R72: INSTANCES, AGENTS, MEET, INVAL, ATOM, six costs. -/
def scopeLevel (pod : Nat) : Nat → List Nat
  | 0 => [4096, 1, 0, 0, 0, 1, 1, 1, 1, 0, 0]
  | 1 => [128, 32, 0, 0, 0, 4, 120, 1, 1, 0, 0]
  | 2 => [16, 256, 0x01010101, 1, 1, 24, 640, 48, 260, 0, 0]
  | 3 => [8, 512, 0x02020203, 3, 8, 96, 2400, 160, 1100, 0, 0]
  | 4 => [2, 2048, 0x05040303, 7, 8, 220, 4800, 1900, 12300, 0, 0]
  | 5 => [1, 4096, 0x06030303, 7, 8, 380, 9600, 1900, 12300, 0, 0]
  | 6 => [1, 4096 * pod, 0x06030303, 7, 8, 380, 9600, 1900, 12300, 2600, 0xFFFFFFFF]
  | _ => []

/-- A level entry's 64 bytes (R71). -/
def scopeEntry (pod i : Nat) : List Byte :=
  let l := scopeLevel pod i
  if l.isEmpty then leBytes 0 64 else
  let f (j : Nat) : Nat := l.getD j 0
  leBytes 1 1 ++ leBytes i 1 ++ leBytes (f 0) 2 ++ leBytes (f 1) 4 ++ leBytes (f 2) 4 ++ leBytes (f 3) 1 ++ leBytes (f 4) 1 ++
  leBytes 0 2 ++ leBytes (f 5) 4 ++ leBytes (f 6) 4 ++ leBytes (f 7) 4 ++ leBytes (f 8) 4 ++ leBytes (f 9) 4 ++ leBytes (f 10) 4 ++
  leBytes 0 24

/-- The table's 576 bytes (R70). -/
def scopeTable (idx pod : Nat) : List Byte :=
  leBytes 1 4 ++ leBytes 7 2 ++ leBytes 64 2 ++ leBytes pod 2 ++ leBytes idx 2 ++ leBytes 0 52 ++
  (List.range 8).flatMap (scopeEntry pod)

/-- R346: the pod forms; PODIDX, PODSIZE and the agents of the pod level change. -/
def execPodForm (idx size : Nat) (s : State) : Out :=
  .next (if s.bringup < 6 || 64 < size || size ≤ idx then s else wrBytes s fixedPa (scopeTable idx size))

/-! ## Reset and bring-up (R415) -/

/-- What a cold reset leaves: flash, the firmware log, the error log, retirements; and what lies outside the machine. -/
def afterColdReset (s : State) : State := {
  mem := s.mem.filter (fun (a, _) => isFlashPa a), flashW := s.flashW, fw := s.fw, fwActive := s.fwActive, fwSwap := s.fwSwap,
  errLog := s.errLog, past := s.past + s.clk, uncErrs := s.uncErrs,
  logTotals := s.logTotals, retired := s.retired, sparesUsed := s.sparesUsed, script := s.script, pace := s.pace,
  outbox := s.outbox, fresh := s.fresh, sysRd := s.sysRd, quotes := s.quotes }

/-- Step 1 verifies the log: every active version has an accepted record, and its digest and signature verify (R412, R415). -/
def fwOk (s : State) : Bool := s.fwActive.all fun (m, v) => s.fw.any fun r => r.m = m && r.ver = v && !r.rejected && r.genuine

/-- What a step of bring-up does, by the steps complete before it (R415): training of the stacks, the self-test of the cores, the scope table.
In the fifth step the links begin to train, as their far ends answer (R348). -/
def bringupStep (s : State) : State :=
  match s.bringup with
  | 2 => trainStacks s
  | 3 => selfTest s
  | 5 => wrBytes s fixedPa (scopeTable 0 1)
  | _ => s

/-- R415: a cold reset of a module in service; otherwise the next step of bring-up completes. -/
def execColdReset (s : State) : Out :=
  .next (if 7 ≤ s.bringup then afterColdReset s
  else if s.bringup = 0 && !fwOk s then s
  else { bringupStep s with bringup := s.bringup + 1 })

end Sys2Proof.Machine
end

