-- ==== Sys2Proof/Machine/Scalar.lean ====
section
/-! DEFINITION. The S slots: integer arithmetic, compares, branches, the loop, special registers, semaphores, events and
entry to and return from system mode (R222-R245). -/
namespace Sys2Proof.Machine

/-! ## Integer arithmetic and logic (R223-R226) -/

/-- R223. -/
def execAdd (f : SReg) (s : State) : Out := bin f 1 (fun x y => x + y) s
/-- R223. -/
def execSub (f : SReg) (s : State) : Out := bin f 1 (fun x y => x - y) s
/-- R223, R204: latency 3. -/
def execMul (f : SReg) (s : State) : Out := bin f 3 (fun x y => x * y) s
/-- R223: high half of the signed product. -/
def execMulh (f : SReg) (s : State) : Out := bin f 3 (fun x y => ofI (x.toInt * y.toInt / 2 ^ 64)) s
/-- R223: high half of the unsigned product. -/
def execMulhu (f : SReg) (s : State) : Out := bin f 3 (fun x y => BitVec.ofNat 64 (x.toNat * y.toNat / 2 ^ 64)) s
/-- R223. -/
def execAnd (f : SReg) (s : State) : Out := bin f 1 (fun x y => x &&& y) s
/-- R223. -/
def execOr (f : SReg) (s : State) : Out := bin f 1 (fun x y => x ||| y) s
/-- R223. -/
def execXor (f : SReg) (s : State) : Out := bin f 1 (fun x y => x ^^^ y) s
/-- R223. -/
def execAndn (f : SReg) (s : State) : Out := bin f 1 (fun x y => x &&& ~~~y) s
/-- R223. -/
def execShl (f : SReg) (s : State) : Out := bin f 1 shiftL s
/-- R223. -/
def execShr (f : SReg) (s : State) : Out := bin f 1 shiftR s
/-- R223. -/
def execSar (f : SReg) (s : State) : Out := bin f 1 shiftA s
/-- R223. -/
def execMin (f : SReg) (s : State) : Out := bin f 1 (fun x y => if x.slt y then x else y) s
/-- R223. -/
def execMinu (f : SReg) (s : State) : Out := bin f 1 (fun x y => if x.ult y then x else y) s
/-- R223. -/
def execMax (f : SReg) (s : State) : Out := bin f 1 (fun x y => if x.slt y then y else x) s
/-- R223. -/
def execMaxu (f : SReg) (s : State) : Out := bin f 1 (fun x y => if x.ult y then y else x) s

/-- R223: only the chosen operand is read. -/
def execSel (f : SReg) (n : BitVec 4) (s : State) : Out :=
  guarded f.g s fun s =>
    let x := rdS (me s) (if rdP (me s) n then f.a else f.b)
    result s 1 [.s f.d.toNat x.v x.p]

/-- R224. -/
def execBfx (f : SReg) (s : State) : Out := bin f 1 fieldS s
/-- R224. -/
def execBfxu (f : SReg) (s : State) : Out := bin f 1 fieldU s
/-- R224: reads d as well. -/
def execBfi (f : SReg) (s : State) : Out :=
  guarded f.g s fun s =>
    let a := rdS (me s) f.a
    let b := rdS (me s) f.b
    let d := rdS (me s) f.d
    result s 1 [.s f.d.toNat (fieldI d.v a.v b.v) (a.p || b.p || d.p)]
/-- R223. -/
def execClz (f : SUn) (s : State) : Out := un f (fun x => BitVec.ofNat 64 (leadZeros x)) s
/-- R223. -/
def execCtz (f : SUn) (s : State) : Out := un f (fun x => BitVec.ofNat 64 (trailZeros x)) s
/-- R223. -/
def execPopc (f : SUn) (s : State) : Out := un f (fun x => BitVec.ofNat 64 (popCount x)) s
/-- R225. -/
def execAddi (f : SImm) (s : State) : Out := imm f.g f.d f.a (fun x => x + f.imm.signExtend 64) s
/-- R225. -/
def execAndi (f : SImm) (s : State) : Out := imm f.g f.d f.a (fun x => x &&& f.imm.signExtend 64) s
/-- R225. -/
def execOri (f : SImm) (s : State) : Out := imm f.g f.d f.a (fun x => x ||| f.imm.signExtend 64) s
/-- R225. -/
def execXori (f : SImm) (s : State) : Out := imm f.g f.d f.a (fun x => x ^^^ f.imm.signExtend 64) s
/-- R225. -/
def execShli (f : SShift) (s : State) : Out := imm f.g f.d f.a (fun x => x <<< f.cnt.toNat) s
/-- R225. -/
def execShri (f : SShift) (s : State) : Out := imm f.g f.d f.a (fun x => x >>> f.cnt.toNat) s
/-- R225. -/
def execSari (f : SShift) (s : State) : Out := imm f.g f.d f.a (fun x => x.sshiftRight f.cnt.toNat) s
/-- R226: s62, never poisoned. -/
def execLis (f : SLong) (s : State) : Out :=
  guarded f.g s fun s => result s 1 [.s 62 (f.imm.signExtend 64) false]
/-- R226. -/
def execLic (f : SLong) (s : State) : Out :=
  guarded f.g s fun s =>
    let x := rdS (me s) 62
    result s 1 [.s 62 ((x.v <<< 22) ||| f.imm.zeroExtend 64) x.p]

/-! ## Compares and predicates (R227, R228) -/

/-- R227. -/
def execCmpeq (f : SCmp) (s : State) : Out := cmpRR f (fun x y => x == y) s
/-- R227. -/
def execCmplt (f : SCmp) (s : State) : Out := cmpRR f (fun x y => x.slt y) s
/-- R227. -/
def execCmpltu (f : SCmp) (s : State) : Out := cmpRR f (fun x y => x.ult y) s
/-- R227. -/
def execCmpeqi (f : SCmpi) (s : State) : Out := cmpRI f (fun x y => x == y) s
/-- R227. -/
def execCmplti (f : SCmpi) (s : State) : Out := cmpRI f (fun x y => x.slt y) s
/-- R227. -/
def execCmpltui (f : SCmpi) (s : State) : Out := cmpRI f (fun x y => x.ult y) s
/-- R228. -/
def execPand (f : SPred) (s : State) : Out := predOp f (fun a b => a && b) s
/-- R228. -/
def execPor (f : SPred) (s : State) : Out := predOp f (fun a b => a || b) s
/-- R228. -/
def execPxor (f : SPred) (s : State) : Out := predOp f (fun a b => a != b) s
/-- R228. -/
def execPandn (f : SPred) (s : State) : Out := predOp f (fun a b => a && !b) s

/-! ## Branches (R207-R210, R229-R232) -/

/-- R229. -/
def execBr (f : SLong) (s : State) : Out :=
  branchSlot f.g s fun s => branch s (some (relTarget s f.imm.toInt))
/-- R229, R210. -/
def execBrl (f : SLong) (s : State) : Out :=
  branchSlot f.g s fun s => branch (result s 1 [.s 63 s.cur.link false]) (some (relTarget s f.imm.toInt))

/-- Transfer to the value of a register: poison and odd targets fault at the branch (R207, R229). -/
def branchReg (a : BitVec 6) (link : Bool) (s : State) : State :=
  let t := rdS (me s) a
  if t.p then poisonFault s
  else if bit t.v 0 then fault s 4 (memVal s.cur.slot t.v.toNat)
  else branch (if link then result s 1 [.s 63 s.cur.link false] else s) (some t.v)

/-- R229. -/
def execBrr (g : BitVec 4) (a : BitVec 6) (s : State) : Out := branchSlot g s (branchReg a false)
/-- R229, R210. -/
def execBrrl (g : BitVec 4) (a : BitVec 6) (s : State) : Out := branchSlot g s (branchReg a true)

/-- R231: counters and rotation land at latency 1. -/
def execLoop (f : SLong) (s : State) : Out :=
  branchSlot f.g s fun s =>
    let x := me s
    let t := some (relTarget s f.imm.toInt)
    if x.lc ≠ 0 then branch (result s 1 [.special 0 (x.lc - 1), .rot true]) t
    else if 1 < x.ec.toNat then branch (result s 1 [.special 1 (x.ec - 1), .rot false]) t
    else if x.ec = 1 then branch (result s 1 [.special 1 0, .rot false]) none
    else branch s none

/-- Branch to recovery code when something is poisoned (R232). -/
def check (f : SChk) (bad : Bool) (s : State) : Out :=
  branchSlot f.g s fun s => branch s (if bad then some (relTarget s f.off.toInt) else none)

/-- R232. -/
def execChkS (f : SChk) (s : State) : Out := check f (rdS (me s) f.a).p s
/-- R232: any lane, lane predicates play no part. -/
def execChkV (f : SChk) (s : State) : Out := check f ((List.range 16).any fun l => (rdV (me s) f.a l).p) s

/-! ## Special registers (R233-R236) -/

/-- R233, R234: a system register in user mode is a privilege fault; a read of dstat clears its RC fields, and a second slot of the
bundle reads what stood at issue; evp is read as it stood then too, whatever a semaphore operation of the bundle has done to it (R89, R205). -/
def execMfs (g : BitVec 4) (d x : BitVec 6) (s : State) : Out :=
  guarded g s fun s =>
    if 16 ≤ x.toNat && !(me s).mode then fault s 3 (slotVal s) else
    let now := readSpecial { me s with evp := s.cur.evp } s.cur.core s.cur.seq s.clk x.toNat
    if x = 7 then
      let v := s.cur.dstat.getD now
      modMe (result { s with cur := { s.cur with dstat := some v } } 1 [.s d.toNat v false]) fun q => { q with dCount := 0, dPeer := 0 }
    else result s 1 [.s d.toNat now false]

/-- R233, R234. Of a privilege fault and a poisoned source the privilege fault is taken: the spec gives no order, and this one is the model's
choice (log entry 82). -/
def execMts (g : BitVec 4) (x a : BitVec 6) (s : State) : Out :=
  guarded g s fun s =>
    if 16 ≤ x.toNat && !(me s).mode then fault s 3 (slotVal s) else
    let v := rdS (me s) a
    if v.p then poisonFault s else result s 1 [.special x.toNat v.v]

/-! ## Semaphores and events (R237-R240) -/

/-- R237: the value at its place in the semaphore order, at latency 2. -/
def execSemget (f : SImm) (s : State) : Out :=
  guarded f.g s fun s =>
    if (rdS (me s) f.a).p then poisonFault s else
    result s 2 [.s f.d.toNat (BitVec.ofNat 64 (semVal (myCore s) (semIdx (me s) f))) false]

/-- The semaphore of the operand takes the value that `k` gives from its old value and s_d; above 0xFFFF the semaphore
overflow fault, precise (R179, R237). -/
def semWrite (f : SImm) (k : Nat → Nat → Nat) (incr : Bool) (s : State) : Out :=
  guarded f.g s fun s =>
    let d := rdS (me s) f.d
    if (rdS (me s) f.a).p || d.p then poisonFault s else
    let i := semIdx (me s) f
    if incr && d.v.toNat = 0 then s else
    let v := k (semVal (myCore s) i) d.v.toNat
    if 0xFFFF < v then fault s 14 (BitVec.ofNat 64 i)
    else modCore (if incr then sink s s.cur.core else s) s.cur.core fun c => semPut c i v

/-- R237. -/
def execSemset (f : SImm) (s : State) : Out := semWrite f (fun _ d => d) false s
/-- R237: an increment of 0 changes nothing; any other is a sink of the watchdog (R188). -/
def execSemsig (f : SImm) (s : State) : Out := semWrite f (fun v d => v + d) true s

/-- R237, R238: the wait is tested after the bundle. -/
def execSemwait (f : SImm) (s : State) : Out :=
  guarded f.g s fun s =>
    let d := rdS (me s) f.d
    if (rdS (me s) f.a).p || d.p then poisonFault s else
    let i := semIdx (me s) f
    modMe s fun x => { x with waits := x.waits ++ [.sem i d.v] }

/-- R240: tested at the end of the clk. An mts evp of the same bundle lands one bundle time later (R181), behind the freeze: it is no
event of the wfe's own bundle (log entry 71). -/
def execWfe (g : BitVec 4) (s : State) : Out :=
  guarded g s fun s => modMe s fun x => { x with waits := x.waits ++ [.wfe] }

/-! ## System mode (R241-R244) -/

/-- trap and sys: in user mode the handler is entered once every result in flight has landed (R241); beside STOP they perform nothing
(R244). -/
def enterBy (f : SLong) (cause : Nat) (s : State) : State :=
  if s.cur.stop then s else
  if (me s).mode then fault s 3 (slotVal s)
  else modMe s fun x => { x with ending := some (.trap cause (f.imm.signExtend 64) s.cur.next) }

/-- R241: breakpoint, cause 21. -/
def execTrap (f : SLong) (s : State) : Out := guarded f.g s (enterBy f 21)
/-- R241: system call, cause 22. -/
def execSys (f : SLong) (s : State) : Out := guarded f.g s (enterBy f 22)
/-- R242: in user mode the privilege fault; beside STOP nothing (R244). -/
def execEret (g : BitVec 4) (s : State) : Out :=
  guarded g s fun s =>
    if s.cur.stop then s else
    if (me s).mode then modMe s fun x => { x with ending := some .eret } else fault s 3 (slotVal s)
/-- R243. -/
def execHalt (g : BitVec 4) (s : State) : Out :=
  guarded g s fun s => modMe s fun x => { x with ending := some (.halt s.cur.next) }

/-- R192: an empty bundle performs no slot. -/
def execNop (s : State) : Out := .next s

end Sys2Proof.Machine
end

