-- ==== Sys2Proof/Machine/Sys.lean ====
section
/-! DEFINITION. Writes of device registers, field by field (R11, R12, R416): each register's own rule stands with its unit; here
stands the table of them all. -/
namespace Sys2Proof.Machine

/-- Keeps the named fields of a written value: low bit and width (R12). -/
def keepFields (v : Word) (fs : List (Nat × Nat)) : Word :=
  fs.foldl (fun x (lo, len) => setBits x lo len (bits v lo len)) 0

/-- A field in which a write of 0 stores 1. -/
def atLeastOne (v : Word) (lo len : Nat) : Word := if bits v lo len = 0 then setBits v lo len 1 else v

/-- A field above its greatest value stores that value. -/
def capField (v : Word) (lo len top : Nat) : Word := if top < bits v lo len then setBits v lo len top else v

/-- A write of ones clears bits (R11). -/
def clearOnes (s : State) (r : Reg) (v : Word) : State := wrReg s r (rdReg s r &&& ~~~(v &&& r.w1c))

/-- A register of the coding group that is fixed while EN = 1 (R140, R141, R147, R416). -/
def pgFixedWrite (s : State) (r : Reg) (v : Word) : State :=
  if pgOn s then (if v = rdReg s r then s else pgErr s false) else wrReg s r v

/-- EVQ_BASE is fixed while EVQ_CFG.EN = 1 (R344, R416). -/
def evqBaseWrite (s : State) (v : Word) : State :=
  let c := rdReg s .evqCfg
  if !bit c 63 then wrReg s .evqBase v
  else if v = rdReg s .evqBase then s else wrReg s .evqCfg (setBits c 62 1 1)

/-- State that a meaning leaves. -/
def after (s : State) (o : Out) : State :=
  match o with
  | .next t => t
  | _ => s

/-- A write of FLT_CMD (R378, R379). -/
def fltCmdWrite (s : State) (k : Nat) (v : Word) : State :=
  let idx := if bit v 5 then 32 + bits v 0 1 else bits v 0 5
  match bits v 62 2 with
  | 1 => after s (execFltCmdResume k idx s)
  | 2 => after s (execFltCmdDeliver k idx s)
  | 3 => after s (execFltCmdKill k idx s)
  | _ => s

/-- What a write does to each register; a register without an arm here is read only. -/
def regWrite (s : State) (r : Reg) (v : Word) : State :=
  match r with
  | .ownTmo => wrReg s r (atLeastOne (keepFields v [(0, 16)]) 0 16)
  | .ownLogB _ => clearOnes s r v
  | .hbmSts i => after s (execHbmStsWrite i v s)
  | .fahCtl t h => fahWrite s t h v
  | .pgCfg => pgCfgWrite s v
  | .pgAreaD => pgFixedWrite s r (keepFields v [(20, 20), (0, 20)])
  | .pgAreaP => pgFixedWrite s r (keepFields v [(20, 20), (0, 20)])
  | .pgJrn => pgFixedWrite s r (keepFields v [(48, 8), (20, 20), (0, 20)])
  | .pgTmo => wrReg s r (atLeastOne (atLeastOne (atLeastOne (keepFields v [(32, 16), (16, 16), (0, 16)]) 32 16) 16 16) 0 16)
  | .pgEvt => clearOnes s r v
  | .pgRbld => pgRbldWrite s v
  | .pgPreset => pgPresetWrite s v
  | .pgMemb _ =>
    pgFixedWrite s r (setBits (keepFields v [(32, 8), (24, 8), (16, 6)]) 0 2 (bits (rdReg s r) 0 2))
  | .wdgCfg _ => wrReg s r (atLeastOne (keepFields v [(32, 1), (0, 32)]) 0 32)
  | .wdgSts _ => clearOnes s r v
  | .seqResume k => seqResume s k v
  | .engErr _ => clearOnes s r v
  | .qRing q => qFixedWrite s q r (keepFields v [(0, 56)])
  | .qCfg q => qCfgWrite s q v
  | .qNtf q => qFixedWrite s q r (keepFields v [(3, 49)])
  | .xltRoot _ => wrReg s r (keepFields v [(11, 41), (0, 1)])
  | .xltWinv x => after s (execXltWinvWrite x v s)
  | .tdtBase _ => wrReg s r (capField (keepFields v [(16, 40), (0, 13)]) 0 13 4096)
  | .ctxCfg x => ctxCfgWrite s x v
  | .ctxXvec x => { wrReg s r (keepFields v [(63, 1), (1, 55)]) with xvN := mput s.xvN x (mget 0 s.xvN x + 1) }
  | .pmap x i => pmapWrite s x i v
  | .schCfg => wrReg s r (atLeastOne (keepFields v [(16, 16), (2, 3), (1, 1)]) 2 3)
  | .evqBase => evqBaseWrite s (keepFields v [(6, 46)])
  | .evqCfg => evqCfgWrite s v
  | .evqRd => evqRdSet s v
  | .lnkCfg p => lnkCfgWrite s p v
  | .fabCfg => wrReg s r (atLeastOne (keepFields v [(40, 8), (0, 32)]) 0 32)
  | .route _ => rerouted s fun s => wrReg s r (keepFields v [(0, 24)])
  | .peCfg e => peCfgWrite s e v
  | .peBtab e => peFixedWrite s e r (capField (keepFields v [(51, 13), (0, 50)]) 51 13 4096)
  | .peIntk e => peFixedWrite s e r (keepFields v [(0, 52)])
  | .peRule _ => wrReg s r (keepFields v [(0, 56)])
  | .peKey _ => wrReg s r v
  | .peFlg _ => clearOnes s r v
  | .collErr => clearOnes s r v
  | .fltCmd k => fltCmdWrite s k v
  | .pwrCore k => pwrCoreWrite s k v
  | .pwrProf => pwrProfWrite s v
  | .pwrRamp => wrReg s r (setBits (rdReg s r) 0 32 (bits v 0 32))
  | .thmSts => clearOnes s r v
  | .replSts => clearOnes s r v
  | .coreRet => coreRetWrite s v
  | .thmArea => thmAreaWrite s v
  | .thmRes => thmResWrite s v
  | _ => s

/-- The whole value that a write of some bits of a register stands for: the others keep what they read as, and those that a one clears
stand as zeros (R11; log entry 14). -/
def mergeReg (s : State) (r : Reg) (x : RegPut) : Word := (regValue s r &&& ~~~r.w1c &&& ~~~x.mask) ||| (x.v &&& x.mask)

/-- R11, R12, R416: a write reaches a register; until bring-up is complete only the registers of chapter 18 take it (R415), and
a PA without a register ignores it (R16). -/
def execRegisterWrite (pa : Nat) (x : RegPut) (s : State) : Out :=
  let s' := match writeAt s pa (x.v &&& x.mask) with
    | none => s
    | some r => if s.bringup < 7 && !r.early then s else regWrite s r (mergeReg s r x)
  .next (accountWrite s' x.src 0 0)

end Sys2Proof.Machine
end

