-- ==== Sys2Proof/Machine/Dispatch.lean ====
section
/-! DEFINITION. One arm per instruction: each arm calls the meaning of its instruction. -/
namespace Sys2Proof.Machine

/-- The effect of one instruction or step. -/
def exec (i : Instr) (s : State) : Host.Outcome State Fault Refusal :=
  match i with
  | .add f => Sys2Proof.Machine.execAdd f s
  | .sub f => Sys2Proof.Machine.execSub f s
  | .mul f => Sys2Proof.Machine.execMul f s
  | .mulh f => Sys2Proof.Machine.execMulh f s
  | .mulhu f => Sys2Proof.Machine.execMulhu f s
  | .and f => Sys2Proof.Machine.execAnd f s
  | .or f => Sys2Proof.Machine.execOr f s
  | .xor f => Sys2Proof.Machine.execXor f s
  | .andn f => Sys2Proof.Machine.execAndn f s
  | .shl f => Sys2Proof.Machine.execShl f s
  | .shr f => Sys2Proof.Machine.execShr f s
  | .sar f => Sys2Proof.Machine.execSar f s
  | .min f => Sys2Proof.Machine.execMin f s
  | .minu f => Sys2Proof.Machine.execMinu f s
  | .max f => Sys2Proof.Machine.execMax f s
  | .maxu f => Sys2Proof.Machine.execMaxu f s
  | .sel f n => Sys2Proof.Machine.execSel f n s
  | .bfx f => Sys2Proof.Machine.execBfx f s
  | .bfxu f => Sys2Proof.Machine.execBfxu f s
  | .bfi f => Sys2Proof.Machine.execBfi f s
  | .clz f => Sys2Proof.Machine.execClz f s
  | .ctz f => Sys2Proof.Machine.execCtz f s
  | .popc f => Sys2Proof.Machine.execPopc f s
  | .addi f => Sys2Proof.Machine.execAddi f s
  | .andi f => Sys2Proof.Machine.execAndi f s
  | .ori f => Sys2Proof.Machine.execOri f s
  | .xori f => Sys2Proof.Machine.execXori f s
  | .shli f => Sys2Proof.Machine.execShli f s
  | .shri f => Sys2Proof.Machine.execShri f s
  | .sari f => Sys2Proof.Machine.execSari f s
  | .lis f => Sys2Proof.Machine.execLis f s
  | .lic f => Sys2Proof.Machine.execLic f s
  | .cmpeq f => Sys2Proof.Machine.execCmpeq f s
  | .cmplt f => Sys2Proof.Machine.execCmplt f s
  | .cmpltu f => Sys2Proof.Machine.execCmpltu f s
  | .cmpeqi f => Sys2Proof.Machine.execCmpeqi f s
  | .cmplti f => Sys2Proof.Machine.execCmplti f s
  | .cmpltui f => Sys2Proof.Machine.execCmpltui f s
  | .pand f => Sys2Proof.Machine.execPand f s
  | .por f => Sys2Proof.Machine.execPor f s
  | .pxor f => Sys2Proof.Machine.execPxor f s
  | .pandn f => Sys2Proof.Machine.execPandn f s
  | .br f => Sys2Proof.Machine.execBr f s
  | .brl f => Sys2Proof.Machine.execBrl f s
  | .brr g a => Sys2Proof.Machine.execBrr g a s
  | .brrl g a => Sys2Proof.Machine.execBrrl g a s
  | .loop f => Sys2Proof.Machine.execLoop f s
  | .chkS f => Sys2Proof.Machine.execChkS f s
  | .chkV f => Sys2Proof.Machine.execChkV f s
  | .mfs g d x => Sys2Proof.Machine.execMfs g d x s
  | .mts g x a => Sys2Proof.Machine.execMts g x a s
  | .semget f => Sys2Proof.Machine.execSemget f s
  | .semset f => Sys2Proof.Machine.execSemset f s
  | .semsig f => Sys2Proof.Machine.execSemsig f s
  | .semwait f => Sys2Proof.Machine.execSemwait f s
  | .wfe g => Sys2Proof.Machine.execWfe g s
  | .trap f => Sys2Proof.Machine.execTrap f s
  | .sys f => Sys2Proof.Machine.execSys f s
  | .eret g => Sys2Proof.Machine.execEret g s
  | .halt g => Sys2Proof.Machine.execHalt g s
  | .nop => Sys2Proof.Machine.execNop s
  | .vadd f ty => Sys2Proof.Machine.execVadd f ty s
  | .vsub f ty => Sys2Proof.Machine.execVsub f ty s
  | .vmul f ty => Sys2Proof.Machine.execVmul f ty s
  | .vfma f ty => Sys2Proof.Machine.execVfma f ty s
  | .vfms f ty => Sys2Proof.Machine.execVfms f ty s
  | .vmin f ty => Sys2Proof.Machine.execVmin f ty s
  | .vmax f ty => Sys2Proof.Machine.execVmax f ty s
  | .vabs f ty => Sys2Proof.Machine.execVabs f ty s
  | .vneg f ty => Sys2Proof.Machine.execVneg f ty s
  | .vclamp f ty => Sys2Proof.Machine.execVclamp f ty s
  | .vand f => Sys2Proof.Machine.execVand f s
  | .vor f => Sys2Proof.Machine.execVor f s
  | .vxor f => Sys2Proof.Machine.execVxor f s
  | .vandn f => Sys2Proof.Machine.execVandn f s
  | .vshl f ty => Sys2Proof.Machine.execVshl f ty s
  | .vshr f ty => Sys2Proof.Machine.execVshr f ty s
  | .vsar f ty => Sys2Proof.Machine.execVsar f ty s
  | .vpopc f => Sys2Proof.Machine.execVpopc f s
  | .vclz f => Sys2Proof.Machine.execVclz f s
  | .vcmpeq f ty => Sys2Proof.Machine.execVcmpeq f ty s
  | .vcmplt f ty => Sys2Proof.Machine.execVcmplt f ty s
  | .vcmple f ty => Sys2Proof.Machine.execVcmple f ty s
  | .qand f => Sys2Proof.Machine.execQand f s
  | .qor f => Sys2Proof.Machine.execQor f s
  | .qxor f => Sys2Proof.Machine.execQxor f s
  | .qandn f => Sys2Proof.Machine.execQandn f s
  | .vsel f n => Sys2Proof.Machine.execVsel f n s
  | .vcvt f sat rtz src dst => Sys2Proof.Machine.execVcvt f sat rtz src dst s
  | .vpack f fmt => Sys2Proof.Machine.execVpack f fmt s
  | .vunpack f fmt => Sys2Proof.Machine.execVunpack f fmt s
  | .vperm f pat k => Sys2Proof.Machine.execVperm f pat k s
  | .vbcast f k => Sys2Proof.Machine.execVbcast f k s
  | .vbcastS f => Sys2Proof.Machine.execVbcastS f s
  | .vbcastH f => Sys2Proof.Machine.execVbcastH f s
  | .vxlane f => Sys2Proof.Machine.execVxlane f s
  | .vxlaneZ f => Sys2Proof.Machine.execVxlaneZ f s
  | .vred f op ty => Sys2Proof.Machine.execVred f op ty s
  | .vscan f op excl ty => Sys2Proof.Machine.execVscan f op excl ty s
  | .frcp f => Sys2Proof.Machine.execFrcp f s
  | .frsqrt f => Sys2Proof.Machine.execFrsqrt f s
  | .fsqrt f => Sys2Proof.Machine.execFsqrt f s
  | .fexp2 f => Sys2Proof.Machine.execFexp2 f s
  | .flog2 f => Sys2Proof.Machine.execFlog2 f s
  | .fsin f u => Sys2Proof.Machine.execFsin f u s
  | .fcos f u => Sys2Proof.Machine.execFcos f u s
  | .fdiv f => Sys2Proof.Machine.execFdiv f s
  | .idiv f rem => Sys2Proof.Machine.execIdiv f rem s
  | .idivu f rem => Sys2Proof.Machine.execIdivu f rem s
  | .rng f => Sys2Proof.Machine.execRng f s
  | .crc f poly sz => Sys2Proof.Machine.execCrc f poly sz s
  | .hash f => Sys2Proof.Machine.execHash f s
  | .gfmul f => Sys2Proof.Machine.execGfmul f s
  | .ld f => Sys2Proof.Machine.execLd f s
  | .st f => Sys2Proof.Machine.execSt f s
  | .vld f => Sys2Proof.Machine.execVld f s
  | .vst f => Sys2Proof.Machine.execVst f s
  | .vldr f => Sys2Proof.Machine.execVldr f s
  | .vstr f => Sys2Proof.Machine.execVstr f s
  | .vgather f => Sys2Proof.Machine.execVgather f s
  | .vscatter f => Sys2Proof.Machine.execVscatter f s
  | .sld f => Sys2Proof.Machine.execSld f s
  | .vsld f => Sys2Proof.Machine.execVsld f s
  | .ldSpm f => Sys2Proof.Machine.execLdSpm f s
  | .stSpm f => Sys2Proof.Machine.execStSpm f s
  | .vldSpm f => Sys2Proof.Machine.execVldSpm f s
  | .vstSpm f => Sys2Proof.Machine.execVstSpm f s
  | .vgatherSpm f => Sys2Proof.Machine.execVgatherSpm f s
  | .vscatterSpm f => Sys2Proof.Machine.execVscatterSpm f s
  | .aadd f => Sys2Proof.Machine.execAadd f s
  | .amin f => Sys2Proof.Machine.execAmin f s
  | .amax f => Sys2Proof.Machine.execAmax f s
  | .aand f => Sys2Proof.Machine.execAand f s
  | .aor f => Sys2Proof.Machine.execAor f s
  | .axor f => Sys2Proof.Machine.execAxor f s
  | .aswp f => Sys2Proof.Machine.execAswp f s
  | .acas f => Sys2Proof.Machine.execAcas f s
  | .acq f scope => Sys2Proof.Machine.execAcq f scope s
  | .rel g scope => Sys2Proof.Machine.execRel g scope s
  | .inval f scope => Sys2Proof.Machine.execInval f scope s
  | .drain g => Sys2Proof.Machine.execDrain g s
  | .drainX g => Sys2Proof.Machine.execDrainX g s
  | .cln f => Sys2Proof.Machine.execCln f s
  | .mark g qm => Sys2Proof.Machine.execMark g qm s
  | .join g => Sys2Proof.Machine.execJoin g s
  | .mcall g a w => Sys2Proof.Machine.execMcall g a w s
  | .xferGg f => Sys2Proof.Machine.execXferGg f s
  | .xferSg f => Sys2Proof.Machine.execXferSg f s
  | .xferGs f => Sys2Proof.Machine.execXferGs f s
  | .xferSs f => Sys2Proof.Machine.execXferSs f s
  | .xferTg f => Sys2Proof.Machine.execXferTg f s
  | .xferTs f => Sys2Proof.Machine.execXferTs f s
  | .xferGt f => Sys2Proof.Machine.execXferGt f s
  | .xferSt f => Sys2Proof.Machine.execXferSt f s
  | .xferGa f => Sys2Proof.Machine.execXferGa f s
  | .xferSa f => Sys2Proof.Machine.execXferSa f s
  | .xredAddF32 f => Sys2Proof.Machine.execXredAddF32 f s
  | .xredAddoF32 f => Sys2Proof.Machine.execXredAddoF32 f s
  | .xredAddB16 f => Sys2Proof.Machine.execXredAddB16 f s
  | .xredAddI32 f => Sys2Proof.Machine.execXredAddI32 f s
  | .xredMinF32 f => Sys2Proof.Machine.execXredMinF32 f s
  | .xredMaxF32 f => Sys2Proof.Machine.execXredMaxF32 f s
  | .xredMinI32 f => Sys2Proof.Machine.execXredMinI32 f s
  | .xredMaxI32 f => Sys2Proof.Machine.execXredMaxI32 f s
  | .trig f variant => Sys2Proof.Machine.execTrig f variant s
  | .tldT f => Sys2Proof.Machine.execTldT f s
  | .tldS f => Sys2Proof.Machine.execTldS f s
  | .tstT f => Sys2Proof.Machine.execTstT f s
  | .tstS f => Sys2Proof.Machine.execTstS f s
  | .tcfgShp g a n w => Sys2Proof.Machine.execTcfgShp g a n w s
  | .tcfgM g a n => Sys2Proof.Machine.execTcfgM g a n s
  | .tcfgM2 g a n => Sys2Proof.Machine.execTcfgM2 g a n s
  | .qcut g sel w => Sys2Proof.Machine.execQcut g sel w s
  | .bundleFetch core seq => Sys2Proof.Machine.execBundleFetch core seq s
  | .loadValueArrives core seq tag elem wi v poison err => Sys2Proof.Machine.execLoadValueArrives core seq tag elem wi v poison err s
  | .lxEnd => Sys2Proof.Machine.execLxEnd s
  | .lxSig sem inc => Sys2Proof.Machine.execLxSig sem inc s
  | .lxSetk k src => Sys2Proof.Machine.execLxSetk k src s
  | .lxAddk k imm => Sys2Proof.Machine.execLxAddk k imm s
  | .lxLoop k tgt => Sys2Proof.Machine.execLxLoop k tgt s
  | .lxBr k cond tgt => Sys2Proof.Machine.execLxBr k cond tgt s
  | .lxNop => Sys2Proof.Machine.execLxNop s
  | .lxFetch t ti b u ms mb => Sys2Proof.Machine.execLxFetch t ti b u ms mb s
  | .lxSel t ti hi => Sys2Proof.Machine.execLxSel t ti hi s
  | .lxSkip src tgt => Sys2Proof.Machine.execLxSkip src tgt s
  | .lxScan kn1 => Sys2Proof.Machine.execLxScan kn1 s
  | .lxMac kn1 => Sys2Proof.Machine.execLxMac kn1 s
  | .lxAcc => Sys2Proof.Machine.execLxAcc s
  | .lxCvt ei mu ms clr => Sys2Proof.Machine.execLxCvt ei mu ms clr s
  | .lxWout dst fmt sat rp => Sys2Proof.Machine.execLxWout dst fmt sat rp s
  | .remoteSignal r => Sys2Proof.Machine.execRemoteSignal r s
  | .peerWriteArrival m => Sys2Proof.Machine.execPeerWriteArrival m s
  | .peerWriteAck id old poison refused => Sys2Proof.Machine.execPeerWriteAck id old poison refused s
  | .registration org w at_ ask core seq => Sys2Proof.Machine.execRegistration org w at_ ask core seq s
  | .registrationAck org w at_ last => Sys2Proof.Machine.execRegistrationAck org w at_ last s
  | .displacement w at_ src ret => Sys2Proof.Machine.execDisplacement w at_ src ret s
  | .forwardedRead w at_ src ret => Sys2Proof.Machine.execForwardedRead w at_ src ret s
  | .readReply w src ret v poison skip locks => Sys2Proof.Machine.execReadReply w src ret v poison skip locks s
  | .recallWord place w => Sys2Proof.Machine.execRecall place w s
  | .notHeldAnswer w at_ src ret locks => Sys2Proof.Machine.execNotHeldAnswer w at_ src ret locks s
  | .homeWrite h => Sys2Proof.Machine.execHomeWrite h s
  | .atomicExecute place w a => Sys2Proof.Machine.execAtomicExecute place w a s
  | .walkComplete core idx => Sys2Proof.Machine.execWalkComplete core idx s
  | .configExchange src cfg => Sys2Proof.Machine.execConfigExchange src cfg s
  | .delta src rnd unit off bytes => Sys2Proof.Machine.execDelta src rnd unit off bytes s
  | .dack src rnd line => Sys2Proof.Machine.execDack src rnd line s
  | .round q pk => Sys2Proof.Machine.execRound q pk s
  | .prepared src rnd => Sys2Proof.Machine.execPrepared src rnd s
  | .abort src rnd reason => Sys2Proof.Machine.execAbort src rnd reason s
  | .vquery src rnd => Sys2Proof.Machine.execVquery src rnd s
  | .vset src rnd crn votes committed restored dec => Sys2Proof.Machine.execVset src rnd crn votes committed restored dec s
  | .decide src rnd d => Sys2Proof.Machine.execDecide src rnd d s
  | .isolated src => Sys2Proof.Machine.execIsolated src s
  | .rebuild src stripe unit bytes => Sys2Proof.Machine.execRebuild src stripe unit bytes s
  | .rebuildComplete note crn orn => Sys2Proof.Machine.execRebuildComplete note crn orn s
  | .queueNotify q => Sys2Proof.Machine.execQueueNotify q s
  | .sig src gid sq h => Sys2Proof.Machine.execSig src gid sq h s
  | .cabort src gid sq => Sys2Proof.Machine.execCabort src gid sq s
  | .collectivePayload p => Sys2Proof.Machine.execCollectivePayload p s
  | .flitForward pod hops => Sys2Proof.Machine.execFlitForward pod hops s
  | .orderedContribution o => Sys2Proof.Machine.execOrderedContribution o s
  | .peContribution e o variant sparse => Sys2Proof.Machine.execPeContribution e o variant sparse s
  | .registerWrite pa x => Sys2Proof.Machine.execRegisterWrite pa x s
  | .verbCallStart core => Sys2Proof.Machine.execVerbCallStart core s
  | .engineCommandStart core q id => Sys2Proof.Machine.execEngineCommandStart core q id s
  | .engineCommandComplete core q id => Sys2Proof.Machine.execEngineCommandComplete core q id s
  | .firedTransferEnqueue core slot => Sys2Proof.Machine.execFiredTransferEnqueue core slot s
  | .handlerStart core seq => Sys2Proof.Machine.execHandlerStart core seq s
  | .undeliverableRecording pod => Sys2Proof.Machine.execUndeliverableRecording pod s
  | .ownTmoExpiry w at_ src ret locks => Sys2Proof.Machine.execOwnTmoExpiry w at_ src ret locks s
  | .hostLineRecall port line => Sys2Proof.Machine.execHostLineRecall port line s
  | .hostLineInvalidate port line => Sys2Proof.Machine.execHostLineInvalidate port line s
  | .uncorrectableError place w => Sys2Proof.Machine.execUncorrectableError place w s
  | .coreReset core => Sys2Proof.Machine.execCoreReset core s
  | .homemove q pk => Sys2Proof.Machine.execHomemove q pk s
  | .homemoveComplete q pk => Sys2Proof.Machine.execHomemoveComplete q pk s
  | .homemoveFailed q pk => Sys2Proof.Machine.execHomemoveFailed q pk s
  | .burstCrcError stack ch grp err => Sys2Proof.Machine.execBurstCrcError stack ch grp err s
  | .trackingPhaseMove stack ch grp => Sys2Proof.Machine.execTrackingPhaseMove stack ch grp s
  | .repairSwitch stack ch grp => Sys2Proof.Machine.execRepairSwitch stack ch grp s
  | .repairSwitchDone stack ch grp => Sys2Proof.Machine.execRepairSwitchDone stack ch grp s
  | .retrainDone stack ch grp => Sys2Proof.Machine.execRetrainDone stack ch grp s
  | .retrainTimeout stack ch grp => Sys2Proof.Machine.execRetrainTimeout stack ch grp s
  | .hbmPowerDown stack => Sys2Proof.Machine.execHbmPowerDown stack s
  | .hbmStsWrite stack v => Sys2Proof.Machine.execHbmStsWrite stack v s
  | .hbmStsRead stack => Sys2Proof.Machine.execHbmStsRead stack s
  | .flashPageDurable tier h => Sys2Proof.Machine.execFlashPageDurable tier h s
  | .fahOpen tier h v => Sys2Proof.Machine.execFahOpen tier h v s
  | .fahSeal tier h v => Sys2Proof.Machine.execFahSeal tier h v s
  | .fahSealDone tier h => Sys2Proof.Machine.execFahSealDone tier h s
  | .fahTrim tier h v => Sys2Proof.Machine.execFahTrim tier h v s
  | .ownLogbRead chiplet => Sys2Proof.Machine.execOwnLogbRead chiplet s
  | .xltWinvWrite ctx v => Sys2Proof.Machine.execXltWinvWrite ctx v s
  | .xltWinvComplete ctx => Sys2Proof.Machine.execXltWinvComplete ctx s
  | .pgCfgEnSet v => Sys2Proof.Machine.execPgCfgEnSet v s
  | .pgCfgEnClear v => Sys2Proof.Machine.execPgCfgEnClear v s
  | .pgCfgSpare v => Sys2Proof.Machine.execPgCfgSpare v s
  | .pgPreset v => Sys2Proof.Machine.execPgPreset v s
  | .pgRbldGo v => Sys2Proof.Machine.execPgRbldGo v s
  | .encodingDone => Sys2Proof.Machine.execEncodingDone s
  | .dackTimeout member => Sys2Proof.Machine.execDackTimeout member s
  | .voteTimeout => Sys2Proof.Machine.execVoteTimeout s
  | .memberDeadReport member => Sys2Proof.Machine.execMemberDeadReport member s
  | .vsetTimeout => Sys2Proof.Machine.execVsetTimeout s
  | .decideTimeout => Sys2Proof.Machine.execDecideTimeout s
  | .restoreDone => Sys2Proof.Machine.execRestoreDone s
  | .dispatch q pk => Sys2Proof.Machine.execDispatch q pk s
  | .dispatchGrant t => Sys2Proof.Machine.execDispatchGrant t s
  | .taskStart t => Sys2Proof.Machine.execTaskStart t s
  | .taskRetire t => Sys2Proof.Machine.execTaskRetire t s
  | .ageExpiry t => Sys2Proof.Machine.execAgeExpiry t s
  | .minrunExpiry t => Sys2Proof.Machine.execMinrunExpiry t s
  | .preempt t => Sys2Proof.Machine.execPreempt t s
  | .preemptSaveDone t => Sys2Proof.Machine.execPreemptSaveDone t s
  | .resume t => Sys2Proof.Machine.execResume t s
  | .watchdogExpiry core => Sys2Proof.Machine.execWatchdogExpiry core s
  | .wdgStsRead core => Sys2Proof.Machine.execWdgStsRead core s
  | .seqResumeWrite core v => Sys2Proof.Machine.execSeqResumeWrite core v s
  | .engErrRead core => Sys2Proof.Machine.execEngErrRead core s
  | .ctxCfgEnSet x v => Sys2Proof.Machine.execCtxCfgEnSet x v s
  | .ctxCfgEnClear x v => Sys2Proof.Machine.execCtxCfgEnClear x v s
  | .ctxCfgStop x v => Sys2Proof.Machine.execCtxCfgStop x v s
  | .ctxCfgGo x v => Sys2Proof.Machine.execCtxCfgGo x v s
  | .qCfgEnSet q v => Sys2Proof.Machine.execQCfgEnSet q v s
  | .qCfgEnClear q v => Sys2Proof.Machine.execQCfgEnClear q v s
  | .qCfgSkip q v => Sys2Proof.Machine.execQCfgSkip q v s
  | .queuePoll => Sys2Proof.Machine.execQueuePoll s
  | .cond q pk => Sys2Proof.Machine.execCond q pk s
  | .loopNode q pk => Sys2Proof.Machine.execLoopNode q pk s
  | .loopPass q pk => Sys2Proof.Machine.execLoopPass q pk s
  | .switch q pk => Sys2Proof.Machine.execSwitch q pk s
  | .wait q pk => Sys2Proof.Machine.execWait q pk s
  | .waitTimeout q pk => Sys2Proof.Machine.execWaitTimeout q pk s
  | .broadcast q pk => Sys2Proof.Machine.execBroadcast q pk s
  | .allGather q pk => Sys2Proof.Machine.execAllGather q pk s
  | .reduceScatter q pk => Sys2Proof.Machine.execReduceScatter q pk s
  | .allReduce q pk => Sys2Proof.Machine.execAllReduce q pk s
  | .defaultBarrier q pk => Sys2Proof.Machine.execDefaultBarrier q pk s
  | .expertBarrier q pk => Sys2Proof.Machine.execExpertBarrier q pk s
  | .collectiveTimeout q pk => Sys2Proof.Machine.execCollectiveTimeout q pk s
  | .evqCfgEnSet v => Sys2Proof.Machine.execEvqCfgEnSet v s
  | .evqCfgEnClear v => Sys2Proof.Machine.execEvqCfgEnClear v s
  | .evqCfgRead => Sys2Proof.Machine.execEvqCfgRead s
  | .evqRdWrite v => Sys2Proof.Machine.execEvqRdWrite v s
  | .actFcstRecompute => Sys2Proof.Machine.execActFcstRecompute s
  | .linkTraining p peer pport => Sys2Proof.Machine.execLinkTraining p peer pport s
  | .linkUp p => Sys2Proof.Machine.execLinkUp p s
  | .linkTrainingTimeout p => Sys2Proof.Machine.execLinkTrainingTimeout p s
  | .linkRetrainTimeout p => Sys2Proof.Machine.execLinkRetrainTimeout p s
  | .flitReplay err => Sys2Proof.Machine.execFlitReplay err s
  | .lnkCfgEn p v => Sys2Proof.Machine.execLnkCfgEn p v s
  | .lnkCfgRetrain p v => Sys2Proof.Machine.execLnkCfgRetrain p v s
  | .lnkStsRead p => Sys2Proof.Machine.execLnkStsRead p s
  | .contributionResend core id => Sys2Proof.Machine.execContributionResend core id s
  | .peCfgEnSet e v => Sys2Proof.Machine.execPeCfgEnSet e v s
  | .peCfgEnClear e v => Sys2Proof.Machine.execPeCfgEnClear e v s
  | .peStsRead e => Sys2Proof.Machine.execPeStsRead e s
  | .peStepApply e b => Sys2Proof.Machine.execPeStepApply e b s
  | .peStepTimeout e b => Sys2Proof.Machine.execPeStepTimeout e b s
  | .fltCmdResume core idx => Sys2Proof.Machine.execFltCmdResume core idx s
  | .fltCmdDeliver core idx => Sys2Proof.Machine.execFltCmdDeliver core idx s
  | .fltCmdKill core idx => Sys2Proof.Machine.execFltCmdKill core idx s
  | .pwrCoreWrite core v => Sys2Proof.Machine.execPwrCoreWrite core v s
  | .pwrProfWrite v => Sys2Proof.Machine.execPwrProfWrite v s
  | .powerWindow => Sys2Proof.Machine.execPowerWindow s
  | .thermalEmergency => Sys2Proof.Machine.execThermalEmergency s
  | .emergencySaveTimeout => Sys2Proof.Machine.execEmergencySaveTimeout s
  | .emergencyRailsOff => Sys2Proof.Machine.execEmergencyRailsOff s
  | .cooldownComplete => Sys2Proof.Machine.execCooldownComplete s
  | .thmAreaWrite v => Sys2Proof.Machine.execThmAreaWrite v s
  | .thmResGo v => Sys2Proof.Machine.execThmResGo v s
  | .thmResDone => Sys2Proof.Machine.execThmResDone s
  | .coreRetGo v => Sys2Proof.Machine.execCoreRetGo v s
  | .coreRetirement => Sys2Proof.Machine.execCoreRetirement s
  | .firmwareRecordAppend m ver image => Sys2Proof.Machine.execFirmwareRecordAppend m ver image s
  | .firmwareActivate m => Sys2Proof.Machine.execFirmwareActivate m s
  | .attestationQuote nonce => Sys2Proof.Machine.execAttestationQuote nonce s
  | .errorLogMerge => Sys2Proof.Machine.execErrorLogMerge s
  | .coldReset => Sys2Proof.Machine.execColdReset s
  | .hostRequest r => Sys2Proof.Machine.execHostRequest r s
  | .podForm idx size => Sys2Proof.Machine.execPodForm idx size s
  | .correctedError stage => Sys2Proof.Machine.execCorrectedError stage s
  | .pdRailFault => Sys2Proof.Machine.execPdRailFault s
  | .sigResend gid sq pod => Sys2Proof.Machine.execSigResend gid sq pod s
  | .invalidMicroWord core => Sys2Proof.Machine.execInvalidMicroWord core s

end Sys2Proof.Machine
end

