-- ==== Sys2Proof/Machine/Issue.lean ====
section
/-! DEFINITION. Issue of bundles (R73, R181-R184, R193, R205-R210, R400-R402) and micro-words (R185, R315, R401, R402), the clock
(R1, R105, R188, R402), and the schedule: which agent moves next. -/
namespace Sys2Proof.Machine

/-! ## The slots of a bundle -/

/-- Slots that read global memory or the scratchpad: they read before any store of their bundle performs (R73). -/
def isRead : Instr → Bool
  | .ld _ | .vld _ | .vldr _ | .vgather _ | .sld _ | .vsld _ | .ldSpm _ | .vldSpm _ | .vgatherSpm _ => true
  | _ => false

/-- Branches with a link, which need the return address (R210). -/
def isLinking : Instr → Bool
  | .brl _ | .brrl _ _ => true
  | _ => false

/-- An acquire in M0: a load in M1 comes after it (R73, R79). -/
def isAcquire : Instr → Bool
  | .acq _ _ => true
  | _ => false

/-- The order in which the slots of a bundle perform (R73): S, V and F slots, the loads of M0 and M1, then the rest; behind an acquire in
M0 a load keeps its place. -/
def issueOrder (l : List (Nat × Instr)) : List (Nat × Instr) :=
  let first (x : Nat × Instr) : Bool := isRead x.2 && !l.any fun y => y.1 = 6 && isAcquire y.2
  l.filter (fun x => x.1 < 6) ++ l.filter (fun x => 6 ≤ x.1 && first x) ++ l.filter (fun x => 6 ≤ x.1 && !first x)

/-- The slots perform one after another, each under its own number. -/
def runSlots : List (Nat × Instr) → State → Out
  | [], s => .next s
  | (n, i) :: r, s =>
    match exec i { s with cur := { s.cur with slot := n } } with
    | .next t => runSlots r t
    | .fault f => .fault f
    | .refused e => .refused e

/-- Results of the bundle stand in slot order behind those of earlier bundles (R206). -/
def bySlot (n : Nat) (l : List InFlight) : List InFlight :=
  l.take n ++ (List.range 8).flatMap fun i => (l.drop n).filter fun f => f.slot = i

/-- The sequencer after its bundle has performed: results in order, one bundle time passed, the pending transfer counted, STOP
(R181, R183, R206, R208, R244). -/
def closeSeq (before : Seq) (b : Ready) (x : Seq) : Seq :=
  let next := b.pc + BitVec.ofNat 64 b.raw.len
  let x := tick { x with infl := bySlot before.infl.length x.infl, stalled := false }
  if b.raw.stop then { x with xfer := none, ending := some .stop, pc := next }
  else match before.xfer with
    | none => { x with pc := next }
    | some t => if t.left ≤ 1 then { x with xfer := none, pc := t.target.getD next }
      else { x with xfer := some ⟨t.left - 1, t.target⟩, pc := next }

/-- Semaphore waits of a sequencer that hold already end (R238). -/
def metNow (c : Core) (x : Seq) : Seq :=
  { x with waits := x.waits.filter fun w => match w with
    | .sem i t => !(t.toNat ≤ semVal c i)
    | _ => true }

/-- A sequencer has acted in this clk: only higher ones of its core come after it (R180, R238, R278). -/
def tookTurn (s : State) (k q : Nat) : State := { s with clkSeq := mput s.clkSeq k (max (q + 1) (mget 0 s.clkSeq k)) }

/-- What follows a bundle that has performed: its sequencer goes on, its weight counts, fired transfers enter, and in this clk only higher
sequencers still issue (R180, R238, R278, R402). -/
def closeBundle (s : State) (k q : Nat) (before : Seq) (b : Ready) : State :=
  let s := modSeq s k q (closeSeq before b)
  let s := modCore s k fun c => enqueueAllFired { c with esum := c.esum + b.raw.weight }
  let s := modCore s k fun c => { c with firstNow := if c.firstNow.isSome then c.firstNow else some q }
  modSeq (tookTurn s k q) k q (metNow (core s k))

/-- The return address of a bundle with a branch that links (R210), and whether a delay slot that cannot be fetched yet keeps it from being
known; none while memory on the way to it is late. -/
def linkOf (s : State) (k q : Nat) (b : Ready) (next : Word) : Option (Word × Bool) :=
  if b.slots.any fun x => isLinking x.2 then
    match headAfter s k q allLines 3 next with
    | .at_ pc => some (pc, false)
    | .short pc => some (pc, true)
    | .late => none
  else some (next, false)

/-- The place a bundle's slots execute at. -/
def curOf (s : State) (k q : Nat) (b : Ready) (link : Word × Bool) : Cur :=
  { core := k, seq := q, slot := 0, pc := b.pc, next := b.pc + BitVec.ofNat 64 b.raw.len, link := link.1, short := link.2,
    tag0 := s.nextTag, stop := b.raw.stop, evp := (seqOf s k q).evp }

/-- The state in which a bundle's slots begin: its place, and its tag in the order of all bundles (R84). -/
def beginBundle (s : State) (k q : Nat) (b : Ready) (link : Word × Bool) : State :=
  modSeq { s with cur := curOf s k q b link, raised := none, nextTag := s.nextTag + 1 } k q fun x =>
    { x with tag0 := s.nextTag, relink := if link.2 then some link.1 else x.relink }

/-- A checked bundle performs: all its slots, or none where one of them raises something (R193, R248, R373). -/
def issueBundle (s : State) (k q : Nat) (b : Ready) : Out :=
  match linkOf s k q b (b.pc + BitVec.ofNat 64 b.raw.len) with
  | none => .next (raiseAt s k q b.pc .stall)
  | some link =>
  match runSlots (issueOrder b.slots) (beginBundle s k q b link) with
  | .next t =>
    .next (match t.raised with
    | some (_, r) => raiseAt { s with cur := {}, raised := none } k q b.pc r
    | none => closeBundle { t with cur := {} } k q (seqOf s k q) b)
  | .fault f => .fault f
  | .refused e => .refused e

/-! ## Issue rate (R400-R402) -/

/-- The clk is delivered to a core (R400, R401). -/
def delivered (s : State) (k : Nat) : Bool := (core s k).swal.getLsbD (s.clk % 16)
/-- A bundle or micro-word of a weight fits the window's budget beside what comes before it (R402). -/
def fits (s : State) (k before weight : Nat) : Bool := (core s k).esum + before + weight ≤ (core s k).budget

/-- Weights that sequencers may still issue in this clk, as far as they fit (R402). -/
def weightsOf (s : State) (k : Nat) : List Nat → Nat → Nat
  | [], n => n
  | q :: r, n => match (prepareBundle s k q).2 with
    | some b => weightsOf s k r (if fits s k n b.raw.weight then n + b.raw.weight else n)
    | none => weightsOf s k r n

/-- What comes before sequencer q of a core in this clk and has not issued yet: sequencers are considered in ascending order from behind the one
that issued first in the clk before (R402). Where every sequencer fits, the order is of no account. -/
def before (s : State) (k q : Nat) : Nat :=
  let c := core s k
  if c.esum + 15 * 33 ≤ c.budget then 0 else
  let l := (c.seqs.map (·.1)).filter fun r => q < r && c.firstPrev < r && q ≤ c.firstPrev
  weightsOf s k l 0

/-- A sequencer's turn: a bundle, an empty bundle time, what ends or begins before a bundle, or nothing; within one clk the sequencers of a
core take their turns in ascending order, before engines and messages act on the core (R180, R238, R278). -/
def issueSeq (s : State) (k q : Nat) : Out :=
  if !delivered s k || q < mget 0 s.clkSeq k then .next s else
  match prepareBundle s k q with
  | (t, none) => .next (if (seqOf t k q).waits.length = (seqOf s k q).waits.length then t else tookTurn t k q)
  | (t, some b) => if fits t k (before s k q) b.raw.weight then issueBundle t k q b else .next t

/-- Weight of a micro-word (R402). -/
def microWeight : Instr → Nat
  | .lxScan _ | .lxMac _ => 15
  | _ => 0

/-- What the sequencers of a core that have not had their turn in this clk may issue before its matrix engine (R402). -/
def beforeEngine (s : State) (k : Nat) : Nat :=
  let c := core s k
  if c.esum + 15 * 33 ≤ c.budget then 0 else
  weightsOf s k ((c.seqs.map (·.1)).filter fun r => mget 0 s.clkSeq k ≤ r) 0

/-- The matrix engine's turn: the next micro-word of the call in progress, one in a clk, after the sequencers (R76, R185, R313-R315, R402). -/
def microStep (k : Nat) (s : State) : Out :=
  let c := core s k
  if c.mx.call.isNone || !engineRuns s k || !delivered s k || c.mxClk = s.clk + 1 then .next s else
  match nextMicro c with
  | none => execInvalidMicroWord k s
  | some i =>
    if !fits s k (beforeEngine s k) (microWeight i) then .next s else
    match exec i { afterSeqs s k with cur := { core := k } } with
    | .next t => .next { (modCore t k fun c => { c with esum := c.esum + microWeight i, mxClk := s.clk + 1 }) with cur := {} }
    | .fault f => .fault f
    | .refused e => .refused e

/-! ## The clock -/

/-- A core's watchdog stands still: the clk of its last sink moves on (R188). -/
def holdWatchdogs (s : State) (d : Nat) : State :=
  { s with cores := s.cores.map fun (k, c) => (k, if countRuns s k then c else { c with sink := c.sink + d }) }

/-- The buffer of a late access: that of its first element that has not arrived (R105). -/
def Late.buf (l : Late) : Nat := ((l.elems.find? fun e => !e.full).getD {}).buf

/-- The oldest of a sequencer's accesses whose value has not arrived. -/
def oldestLate (x : Seq) : Option Nat := (x.lates.find? fun l => !l.full).map Late.buf

/-- A wait for accesses of the same bundle (R73, R182). -/
def Wait.onMemory : Wait → Bool
  | .order | .atom _ | .store .. | .spm .. | .load .. => true
  | _ => false

/-- The buffer of an access that waits at its home. -/
def heldBuf (c : Core) (x : Seq) : Instr → Option Nat
  | .registration _ w _ _ _ _ => (regEntry c w).map (·.buf)
  | .atomicExecute _ _ a => (x.lates.find? fun l => l.tag = a.tag).map Late.buf
  | _ => none

/-- The buffer of the oldest access a sequencer is frozen on (R105): a value that is due, an access behind another one of its bundle, a
walk, an access that waits at its home, or an access to memory that is late. -/
def frozenOn (s : State) (k q : Nat) : Option Nat :=
  let c := core s k
  let x := seqOf s k q
  if x.st ≠ .running then none else
  match s.walks.find? fun w => w.core = k && w.idx = q with
  | some w => match peekWalk s k w.va with
    | .at_ _ a => some (bufferOf c w.va a)
    | _ => none
  | none =>
    match s.held.find? fun m => heldSeq m = some (k, q) with
    | some m => heldBuf c x m
    | none =>
      match x.waits with
      | w :: _ => if w.onMemory then oldestLate x else none
      | [] =>
        if !dueReady x then
          (x.lates.find? fun l => !l.full && x.infl.any fun f => f.rem = 0 && f.late = some l.tag).map Late.buf
        else if x.stalled then oldestLate x else none

/-- Stall bundle times of the sequencers frozen on late values (R105). -/
def chargeStalls (s : State) (d : Nat) : State :=
  s.cores.foldl (fun s (k, c) =>
    match c.task with
    | none => s
    | some t => c.seqs.foldl (fun s (q, _) =>
      match frozenOn s k q, mlook s.tasks t with
      | some b, some y => if y.st ≠ .running || !delivered s k then s else chargeHot s t b (Hot.addStall d)
      | _, _ => s) s) s

/-- The wfe waits of a sequencer at the end of a clk: a pending bit ends one and is cleared (R240). -/
def endWfe (x : Seq) : Seq :=
  if x.evp && x.waits.contains .wfe then { x with evp := false, waits := x.waits.erase .wfe } else x

/-- A clk has ended: wfe waits are tested, writes performed everywhere are no longer listed, routes that are down or past their timeout are
recorded and suspected, and the places of the new clk are free (R47, R48, R88, R159, R180, R240, R402). -/
def endClk (s : State) : State :=
  let s := { s with regNow := [], clkSeq := [], cores := s.cores.map fun (k, c) =>
    (k, doneOutst s { c with seqs := c.seqs.map fun (q, x) => (q, endWfe x), firstPrev := c.firstNow.getD c.firstPrev, firstNow := none }) }
  let s := if s.peerOut.isEmpty then s else recordRoutes s
  suspectRoutes s

/-- Time passes: as many clk as the pace says, one where it says nothing; power windows end at multiples of 64 (R1, R402). -/
def advance (s : State) : State :=
  let d := s.pace.headD 1
  if d = 0 then { s with pace := s.pace.tail } else
  let s := chargeStalls (holdWatchdogs s d) d
  endClk (windows { s with clk := s.clk + d, pace := s.pace.tail })

/-! ## Messages under way -/

/-- Messages of one class about one word, or to the registers, keep their order among themselves. -/
def msgKey : Instr → Option (Nat × Nat × Nat)
  | .homeWrite h => some (1, h.w, 0)
  | .registration org w _ _ _ _ => some (2, w, org)
  | .registerWrite _ _ => some (3, 0, 0)
  | .atomicExecute _ w _ => some (4, w, 0)
  | .displacement w at_ _ _ => some (5, w, at_)
  | .forwardedRead w _ _ (.load k q _ _ _ _) => some (6, w, 1024 * k + q)
  | .collectivePayload _ => none
  | m => (peerIdOf m).map fun x => (7, x.1, 0)

/-- No earlier message of its class waits before message n. -/
def mayDeliver (s : State) (n : Nat) : Bool :=
  match s.net[n]? with
  | none => false
  | some m => match msgKey m with
    | none => true
    | some key => (s.net.take n).all fun x => msgKey x ≠ some key

/-- Message n arrives. -/
def deliver (s : State) (n : Nat) : Out :=
  match s.net[n]? with
  | none => .next s
  | some m => if mayDeliver s n then exec m { s with net := s.net.eraseIdx n } else .next s

/-- The messages that may arrive now. -/
def deliverable (s : State) : List Nat := (List.range s.net.length).filter (mayDeliver s)

/-! ## What moves by itself -/

/-- Sequencers that run, on cores with a task. -/
def runners (s : State) : List (Nat × Nat) :=
  s.cores.flatMap fun (k, c) =>
    if c.task.isNone then [] else (c.seqs.filter fun (_, x) => x.st = .running).map fun (q, _) => (k, q)

/-- Steps of a core's engines and start queues, and its watchdog. -/
def coreMoves (s : State) : List (State → Out) :=
  s.cores.flatMap fun (k, c) =>
    (if c.mx.call.isSome then [microStep k] else []) ++ (if c.mq.isEmpty then [] else [execVerbCallStart k]) ++
    ([0, 1].filterMap fun q => (turnCmd c q).map fun m => execEngineCommandStart k q m.id) ++
    ((c.cmds.filter fun x => x.2.st = .done).map fun (id, m) => execEngineCommandComplete k m.q id) ++
    (match c.fireQ with
      | n :: _ => [execFiredTransferEnqueue k n]
      | [] => []) ++
    ((c.seqs.filter fun (_, x) => x.st = .dormant && !x.starts.isEmpty).map fun (q, _) => execHandlerStart k q) ++
    (if c.task.isSome then [execWatchdogExpiry k] else [])

/-- Two messages are the same access at a home. -/
def sameAccess (m n : Instr) : Bool :=
  match m, n with
  | .peerWriteArrival a, .peerWriteArrival b => a.pod = b.pod && a.id = b.id
  | .homeWrite _, .homeWrite _ | .atomicExecute .., .atomicExecute .. => msgKey m = msgKey n
  | .registration _ w p _ k q, .registration _ x y _ l r => w = x && p = y && k = l && q = r
  | .orderedContribution a, .orderedContribution b => a.src = b.src && a.rank = b.rank
  | .collectivePayload a, .collectivePayload b => a.src = b.src && a.id = b.id
  | _, _ => false

/-- An access at its home, whatever waits there (R65, R155). -/
def accessNow (m : Instr) (s : State) : State :=
  match m with
  | .homeWrite h => homeWriteNow h s
  | .registration org w p ask k q =>
    if org < 0x200 && p ≠ plLanding (layerOf k) then registerUp 5 k w (plLanding (layerOf k)) ask k q s else registerNow org w p ask k q s
  | .atomicExecute p w a => atomicNow p w a s
  | .peerWriteArrival m => peerNow m s
  | .orderedContribution o => contributionNow o s
  | .collectivePayload x => payloadNow x s
  | .forwardedRead w p _ ret => readNow s p w ret
  | _ => s

/-- The held access at a place goes on: it performs, or keeps its place where something else keeps it. -/
def releaseAt (i : Nat) (s : State) : State :=
  match s.held[i]? with
  | none => s
  | some m =>
    let t := accessNow m { s with held := s.held.eraseIdx i }
    match t.net with
    | n :: r => if sameAccess m n then { t with net := r, held := t.held.take i ++ n :: t.held.drop i } else t
    | [] => t

/-- An access that waits at its home may go on: its page moves no more and the group runs, and no earlier one of its order waits. -/
def mayRelease (s : State) (i : Nat) : Bool :=
  match s.held[i]? with
  | none => false
  | some m => !mustHold s m && !waitsMove s m && !heldBefore { s with held := s.held.take i } m

/-- R65, R93, R155: the first access that may go on from its home does. -/
def releaseHeld (s : State) : Out :=
  .next (match (List.range s.held.length).find? (mayRelease s) with
  | none => s
  | some i => releaseAt i s)

/-- Walks and invalidations of translations, and accesses that have waited at their homes. -/
def walkMoves (s : State) : List (State → Out) :=
  (s.walks.map fun w => execWalkComplete w.core w.idx) ++ s.winv.map execXltWinvComplete ++
    if s.held.isEmpty then [] else [releaseHeld]

/-- Steps of tasks. -/
def taskMoves (s : State) : List (State → Out) :=
  s.tasks.flatMap fun (i, t) =>
    if t.ended.isSome then [execTaskRetire i] else
    match t.st with
    | .ready => [execDispatchGrant i, execAgeExpiry i]
    | .setup => [execTaskStart i]
    | .running => [execTaskRetire i, execMinrunExpiry i, execPreempt i]
    | .saving => [execPreemptSaveDone i]
    | .preempted => [execResume i]

/-- Steps of a packet, by its TYPE (R335). -/
def packetMoves (q : Nat) (p : Pkt) : List (State → Out) :=
  let pk := p.id
  match p.type with
  | 0x01 => [execDispatch q pk]
  | 0x03 => [execRound q pk]
  | 0x04 => [execHomemove q pk, execHomemoveComplete q pk, execHomemoveFailed q pk]
  | 0x05 => [execCond q pk]
  | 0x06 => [execLoopNode q pk, execLoopPass q pk]
  | 0x07 => [execSwitch q pk]
  | 0x08 => [execWait q pk, execWaitTimeout q pk]
  | 0x10 => [execBroadcast q pk, execCollectiveTimeout q pk]
  | 0x11 => [execAllGather q pk, execCollectiveTimeout q pk]
  | 0x12 => [execReduceScatter q pk, execCollectiveTimeout q pk]
  | 0x13 => [execAllReduce q pk, execCollectiveTimeout q pk]
  | 0x14 => [execDefaultBarrier q pk, execCollectiveTimeout q pk]
  | 0x15 => [execExpertBarrier q pk, execCollectiveTimeout q pk]
  | _ => []

/-- Steps of the queues and their packets. -/
def queueMoves (s : State) : List (State → Out) :=
  execQueuePoll :: s.queues.flatMap fun (q, x) => x.pkts.flatMap (packetMoves q)

/-- Steps of the coding group. -/
def groupMoves (s : State) : List (State → Out) :=
  if !pgMember s then [] else
  [execEncodingDone, execVoteTimeout, execVsetTimeout, execDecideTimeout, execRestoreDone] ++
    s.group.deltas.map fun x => execDackTimeout x.member

/-- Steps of links, peers and refused contributions. -/
def fabricMoves (s : State) : List (State → Out) :=
  ((List.range 26).flatMap fun p => match portState s p with
    | 1 => [execLinkTrainingTimeout p]
    | 3 => [execLinkRetrainTimeout p]
    | _ => []) ++
  (s.peerOut.map fun o => execUndeliverableRecording o.pod) ++
  s.resend.filterMap fun (_, o) => match o.src with
    | .cmd k _ id => some (execContributionResend k id)
    | _ => none

/-- Steps of the parameter engines. -/
def paramMoves (s : State) : List (State → Out) :=
  s.pes.flatMap fun (e, p) => p.blocks.flatMap fun (b, _) => [execPeStepApply e b, execPeStepTimeout e b]

/-- Steps of the stacks and of the append-log handles. -/
def storeMoves (s : State) : List (State → Out) :=
  ((List.range 16).map execHbmPowerDown) ++
  (s.grps.flatMap fun (key, g) =>
    let (st, ch, gr) := (key / 64, key / 2 % 32, key % 2)
    match g.st with
    | .pending => [execRepairSwitch st ch gr]
    | .switch => [execRepairSwitchDone st ch gr]
    | .retrain => [execRetrainTimeout st ch gr]
    | _ => []) ++
  (List.range 256).flatMap fun i =>
    if bits (rdReg s (.fahCtl (i / 64) (i % 64))) 62 2 = 0 then []
    else [execFlashPageDurable (i / 64) (i % 64), execFahSealDone (i / 64) (i % 64)]

/-- Steps of the service core: the forecast every 2,048 clk (R345), an emergency, a restore, a retirement. -/
def serviceMoves (s : State) : List (State → Out) :=
  (if s.clk / 2048 % 2 ^ 16 = bits (rdReg s .actFcst) 0 16 then [] else [execActFcstRecompute]) ++
  (if s.emergClk = 0 then [] else [execEmergencySaveTimeout, execEmergencyRailsOff]) ++ (if thmState s = 3 then [execCooldownComplete] else []) ++
  (if bit (rdReg s .thmRes) 62 then [execThmResDone] else []) ++
  (if bit (rdReg s .coreRet) 63 then [execCoreRetirement] else [])

/-- The moves of one kind of agent. -/
def movesOf (s : State) (kind : Nat) : List (State → Out) :=
  match kind with
  | 0 => coreMoves s
  | 1 => walkMoves s
  | 2 => taskMoves s
  | 3 => queueMoves s
  | 4 => groupMoves s
  | 5 => fabricMoves s
  | 6 => paramMoves s
  | 7 => storeMoves s
  | _ => serviceMoves s

/-- The move whose turn it is. -/
def selfMove (s : State) : Out :=
  let l := movesOf s (s.rr % 9)
  match l[s.rr / 9 % l.length]? with
  | none => .next s
  | some f => f s

/-! ## The schedule (log entry 2) -/

/-- An event from outside: no slot, no micro-word, and no message of the levels among themselves. -/
def fromOutside (i : Instr) : Bool :=
  (encodeSlot i).isNone && (encodeMicro i).isNone && match i with
  | .nop | .bundleFetch _ _ | .loadValueArrives .. | .registration .. | .registrationAck .. | .displacement .. | .forwardedRead ..
  | .readReply .. | .recallWord .. | .notHeldAnswer .. | .homeWrite _ | .atomicExecute .. => false
  | _ => true

/-- A choice of the script. -/
def runPick (s : State) (p : Pick) : Out :=
  match p with
  | .event i => if fromOutside i then exec i s else .next s
  | .net n => deliver s n
  | .seq k q => issueSeq s k q
  | .drop place line => .next ((dropLine s place line).getD s)
  | .chipDead chip => .next { s with deadChips := chip :: s.deadChips }

/-- Without a script the agents take turns: a message, a sequencer, another agent; before bring-up is complete, bring-up. -/
def runTurn (s : State) : Out :=
  if s.bringup < 7 then execColdReset s else
  match s.phase with
  | 0 =>
    let l := deliverable s
    let s := { s with phase := 1 }
    match l[s.rr % l.length]? with
    | none => .next s
    | some n => deliver s n
  | 1 =>
    let l := runners s
    let s := { s with phase := 2 }
    match l[s.rr % l.length]? with
    | none => .next s
    | some (k, q) => issueSeq s k q
  | _ => selfMove { s with phase := 0, rr := s.rr + 1 }

/-- One step of the machine: time passes, and one agent moves. -/
def stepOnce (s : State) : Out :=
  let s := settleLevels (advance s)
  match s.script with
  | p :: r => runPick { s with script := r } p
  | [] => runTurn s

/-! ## Placing a bundle (log entry 3) -/

/-- VA and PA at which `placeBundle` puts its bytes. -/
def placeVa : Nat := 0x4000000000
def placePa : Nat := 0x100000
/-- The leaf of the code page: V, T, R, X, 64 KiB. -/
def placeLeaf : Word := BitVec.ofNat 64 (placePa + 0xA3)

/-- Nothing above memory holds a word of the bytes, for core 0. -/
def clearWord (s : State) (w : Nat) : State :=
  let s := (chain 0 w).foldl (fun s p => delLvl { s with locks := s.locks.erase (p, w) } p w) s
  modCore { s with pois := mdel s.pois w, bad := mdel s.bad w } 0 fun c =>
    { c with l1 := mdel c.l1 w, l1err := c.l1err.filter (· ≠ w) }

/-- The bytes stand as the next bundle of sequencer 0 of core 0, whose turn is next, with its task running in context 0, whose
XLT_ROOT.EN is 1 (R22): what a load of a program and a dispatch leave. -/
def placeBundle (s : State) (bs : List Byte) : State :=
  let s := wrBytes s placePa bs
  let s := wrReg s (.xltRoot 0) (rdReg s (.xltRoot 0) ||| 1)
  let s := (List.range 16).foldl (fun s i => clearWord s (placePa / 4 + i)) s
  let t : Task := { q := 0, pk := 0, ctx := 0, arg := 0, taskid := 0, slot := 0, cores := [0], st := .running }
  let x : Seq := { seqOf s 0 0 with
    kind := .active, st := .running, pc := BitVec.ofNat 64 placeVa, infl := [], lates := [], xfer := none, waits := [], ending := none,
    boundary := [], stalled := false }
  let s := setSeq s 0 0 x
  let s := modCore s 0 fun c => { c with task := some s.nextTask, ctx := 0, swal := 0xFFFF, esum := 0, budget := 0x7BC0 }
  clearPend { s with
    held := s.held.filter (heldSeq · ≠ some (0, 0)), clkSeq := mdel s.clkSeq 0
    bringup := 7, tasks := mput s.tasks s.nextTask t, nextTask := s.nextTask + 1
    wcache := ⟨0, 0, 0, vaPrefix 0 placeVa, placeLeaf⟩ :: s.wcache
    walks := s.walks.filter (fun w => !(w.core = 0 && w.idx = 0))
    script := .seq 0 0 :: s.script, pace := 0 :: s.pace } 0 0

end Sys2Proof.Machine
end

