-- ==== Sys2Proof/Machine/Step.lean ====
section
/-! DEFINITION. One step of the machine, and placing an instruction where the next step fetches it. -/
namespace Sys2Proof.Machine

/-- The state with an instruction's bytes as the next bundle to issue. -/
def State.withFetchWord (s : State) (_nbits w : Nat) : State := placeBundle s (natBytes maxBundle w)

/-- One step (log entry 2). -/
def step (s : State) : Host.Outcome State Fault Refusal := stepOnce s

end Sys2Proof.Machine
end

