-- ==== Sys2Proof/Safety.lean ====
section
/-! DEFINITION. What a safe run is, and the words the statements use: slots under a guard, frames, what may not change. -/
namespace Sys2Proof
open Machine

/-- The machine runs `k` steps from `s` without a fault or a refusal. -/
def runsSafely : Nat → Machine.State → Prop
  | 0, _ => True
  | k + 1, s => ∃ t, Machine.step s = .next t ∧ runsSafely k t

/-- What a slot leaves under its scalar guard (R211): `t` where the guard holds, else the state unchanged. -/
def underGuard (s : State) (g : BitVec 4) (t : State) : State := if rdP (me s) g then t else s

/-- The sequencer that executes has one more result in flight, and nothing else of the machine differs (R181). -/
def onlyResult (s t : State) (lat : Nat) (ws : List LandW) : Prop :=
  t = setSeq s s.cur.core s.cur.seq { me s with infl := (me s).infl ++ [⟨lat, s.cur.slot, ws, none⟩] }

/-- The slots that touch registers of their own sequencer only: every S, V and F slot but semaphore operations, and the
engine slots that write m registers. -/
def registerOnly : Instr → Bool
  | .add _ | .sub _ | .mul _ | .mulh _ | .mulhu _ | .and _ | .or _ | .xor _ | .andn _ | .shl _ | .shr _ | .sar _ | .min _
  | .minu _ | .max _ | .maxu _ | .sel _ _ | .bfx _ | .bfxu _ | .bfi _ | .clz _ | .ctz _ | .popc _ | .addi _ | .andi _
  | .ori _ | .xori _ | .shli _ | .shri _ | .sari _ | .lis _ | .lic _ | .cmpeq _ | .cmplt _ | .cmpltu _ | .cmpeqi _
  | .cmplti _ | .cmpltui _ | .pand _ | .por _ | .pxor _ | .pandn _ | .br _ | .brl _ | .brr _ _ | .brrl _ _ | .loop _
  | .chkS _ | .chkV _ | .mfs _ _ _ | .mts _ _ _ | .semget _ | .semwait _ | .wfe _ | .trap _ | .sys _ | .eret _ | .halt _ | .nop => true
  | .vadd _ _ | .vsub _ _ | .vmul _ _ | .vfma _ _ | .vfms _ _ | .vmin _ _ | .vmax _ _ | .vabs _ _ | .vneg _ _ | .vclamp _ _
  | .vand _ | .vor _ | .vxor _ | .vandn _ | .vshl _ _ | .vshr _ _ | .vsar _ _ | .vpopc _ | .vclz _ | .vcmpeq _ _
  | .vcmplt _ _ | .vcmple _ _ | .qand _ | .qor _ | .qxor _ | .qandn _ | .vsel _ _ | .vcvt _ _ _ _ _ | .vpack _ _
  | .vunpack _ _ | .vperm _ _ _ | .vbcast _ _ | .vbcastS _ | .vbcastH _ | .vxlane _ | .vxlaneZ _ | .vred _ _ _
  | .vscan _ _ _ _ => true
  | .frcp _ | .frsqrt _ | .fsqrt _ | .fexp2 _ | .flog2 _ | .fsin _ _ | .fcos _ _ | .fdiv _ | .idiv _ _ | .idivu _ _ | .rng _
  | .crc _ _ _ | .hash _ | .gfmul _ => true
  | .ldSpm _ | .vldSpm _ | .vgatherSpm _ | .acq _ _ | .rel _ _ | .drain _ | .drainX _ | .cln _ | .join _
  | .tcfgM _ _ _ | .tcfgM2 _ _ _ => true
  | _ => false

/-- The architectural registers of a sequencer, which change only when a result lands (R167, R181, R205); dstat's count apart,
which a read clears. -/
def sameRegisters (x y : Seq) : Prop :=
  x.s = y.s ∧ x.v = y.v ∧ x.p = y.p ∧ x.q = y.q ∧ x.m = y.m ∧ x.lc = y.lc ∧ x.ec = y.ec ∧ x.fcsr = y.fcsr ∧ x.evp = y.evp ∧
  x.mode = y.mode ∧ x.pmode = y.pmode ∧ x.xpc = y.xpc ∧ x.xcause = y.xcause ∧ x.xval = y.xval ∧ x.xvec = y.xvec ∧ x.xsc = y.xsc ∧
  x.taskid = y.taskid ∧ x.pc = y.pc ∧ x.dUnd = y.dUnd

/-- Memory, device registers, levels and everything shared between cores stay (the frame of a slot). -/
def sameOutside (s t : State) : Prop :=
  t.mem = s.mem ∧ (∀ a, rdByte t a = rdByte s a) ∧ t.pois = s.pois ∧ t.bad = s.bad ∧ t.dev = s.dev ∧ t.clk = s.clk ∧ t.lvl = s.lvl ∧
  t.reg = s.reg ∧ t.locks = s.locks ∧ t.gw = s.gw ∧ t.wcache = s.wcache ∧ t.walks = s.walks ∧ t.net = s.net ∧ t.outbox = s.outbox ∧
  t.group = s.group ∧ t.queues = s.queues ∧ t.tasks = s.tasks ∧ t.peerOut = s.peerOut ∧ t.pes = s.pes ∧ t.errLog = s.errLog

/-- A core but for the list of its sequencers. -/
def sameCore (c d : Core) : Prop := { c with seqs := [] } = { d with seqs := [] }

/-! ## Tables of operations the statements range over -/

/-- The three-register operations of R223 and R224 with their latencies (R204), over the integers the operands stand for. -/
def scalarTable : List ((SReg → Instr) × Nat × (Word → Word → Word)) := [
  (.add, 1, fun x y => BitVec.ofInt 64 (x.toInt + y.toInt)),
  (.sub, 1, fun x y => BitVec.ofInt 64 (x.toInt - y.toInt)),
  (.mul, 3, fun x y => BitVec.ofInt 64 (x.toInt * y.toInt)),
  (.mulh, 3, fun x y => (x.signExtend 128 * y.signExtend 128).extractLsb' 64 64),
  (.mulhu, 3, fun x y => (x.zeroExtend 128 * y.zeroExtend 128).extractLsb' 64 64),
  (.and, 1, fun x y => x &&& y),
  (.or, 1, fun x y => x ||| y),
  (.xor, 1, fun x y => x ^^^ y),
  (.andn, 1, fun x y => x &&& ~~~y),
  (.shl, 1, fun x y => BitVec.ofNat 64 (x.toNat * 2 ^ min y.toNat 64)),
  (.shr, 1, fun x y => BitVec.ofNat 64 (x.toNat / 2 ^ min y.toNat 64)),
  (.sar, 1, fun x y => BitVec.ofInt 64 (x.toInt / 2 ^ min y.toNat 64)),
  (.min, 1, fun x y => BitVec.ofInt 64 (min x.toInt y.toInt)),
  (.minu, 1, fun x y => BitVec.ofNat 64 (min x.toNat y.toNat)),
  (.max, 1, fun x y => BitVec.ofInt 64 (max x.toInt y.toInt)),
  (.maxu, 1, fun x y => BitVec.ofNat 64 (max x.toNat y.toNat)),
  (.bfxu, 1, fun x y => (x >>> (y.extractLsb' 0 6).toNat) &&& BitVec.ofNat 64 (2 ^ (y.extractLsb' 8 7).toNat - 1)),
  (.bfx, 1, fun x y =>
    let pos := (y.extractLsb' 0 6).toNat
    let w := min (y.extractLsb' 8 7).toNat (64 - pos)
    if w = 0 then 0 else (x <<< (64 - pos - w)).sshiftRight (64 - w))]

/-- The compares of R227 with the relation each decides, over integers. -/
def compareTable : List ((SCmp → Instr) × (SCmpi → Instr) × (Word → Word → Bool)) := [
  (.cmpeq, .cmpeqi, fun x y => decide (x = y)),
  (.cmplt, .cmplti, fun x y => decide (x.toInt < y.toInt)),
  (.cmpltu, .cmpltui, fun x y => decide (x.toNat < y.toNat))]

/-- An element operation of width w applied to a lane of a type: once to 32 bits, or to each half (R246). -/
def lanewise (ty : VType) (op : (w : Nat) → BitVec w → BitVec w → BitVec w → BitVec w) (a b d : W32) : W32 :=
  if ty.width = 32 then op 32 a b d
  else (op 16 (a.extractLsb' 16 16) (b.extractLsb' 16 16) (d.extractLsb' 16 16) ++
    op 16 (a.extractLsb' 0 16) (b.extractLsb' 0 16) (d.extractLsb' 0 16) : BitVec (16 + 16))

/-- The smaller and the larger element of a type, signed or unsigned (R251). -/
def elemMin (sgn : Bool) (w : Nat) (a b : BitVec w) : BitVec w := if (if sgn then a.slt b else a.ult b) then a else b
def elemMax (sgn : Bool) (w : Nat) (a b : BitVec w) : BitVec w := if (if sgn then a.slt b else a.ult b) then b else a

/-- The two-source integer operations of R249 and R251: latency, whether vd is a source, the element operation. -/
def vectorIntTable : List ((VBin → VType → Instr) × Nat × Bool × (Bool → (w : Nat) → BitVec w → BitVec w → BitVec w → BitVec w)) := [
  (.vadd, 2, false, fun _ _ a b _ => a + b),
  (.vsub, 2, false, fun _ _ a b _ => a - b),
  (.vmul, 4, false, fun _ _ a b _ => a * b),
  (.vfma, 4, true, fun _ _ a b d => a * b + d),
  (.vfms, 4, true, fun _ _ a b d => d - a * b),
  (.vmin, 2, false, fun sgn w a b _ => elemMin sgn w a b),
  (.vmax, 2, false, fun sgn w a b _ => elemMax sgn w a b),
  (.vclamp, 2, true, fun sgn w a b d => elemMin sgn w (elemMax sgn w d a) b)]

/-- The two-source float operations of R249 and R250. -/
def vectorFloatTable : List ((VBin → VType → Instr) × Nat × Bool × (Fmt → REnv → Nat → Nat → Nat → Nat × Flags)) := [
  (.vadd, 2, false, fun f env a b _ => fAdd f env a b),
  (.vsub, 2, false, fun f env a b _ => fSub f env a b),
  (.vmul, 4, false, fun f env a b _ => fMul f env a b),
  (.vfma, 4, true, fun f env a b d => fFma f env a b d),
  (.vfms, 4, true, fun f env a b d => fFma f env (f.neg a) b d),
  (.vmin, 2, false, fun f env a b _ => fMinMax f env false a b),
  (.vmax, 2, false, fun f env a b _ => fMinMax f env true a b),
  (.vclamp, 2, true, fun f env a b d =>
    let m := fMinMax f env true d a
    let r := fMinMax f env false m.1 b
    (r.1, m.2 ||| r.2))]

/-- The F-slot functions of R269 with their latencies. -/
def floatFnTable : List ((FOp → Instr) × Nat × (REnv → Nat → Nat × Flags)) := [
  (.frcp, 8, fRcp), (.frsqrt, 8, fRsqrt), (.fsqrt, 12, fSqrt), (.fexp2, 10, fExp2), (.flog2, 10, fLog2),
  (fun f => .fsin f false, 12, trigRad false), (fun f => .fsin f true, 12, trigTurn false),
  (fun f => .fcos f false, 12, trigRad true), (fun f => .fcos f true, 12, trigTurn true)]

/-- The rational number that a decoded finite float stands for, 0 for the others. -/
def floatValue (v : Fv) : ℚ :=
  match v with
  | .fin n m e => (if n then -1 else 1) * (m : ℚ) * (2 : ℚ) ^ e
  | _ => 0

/-- A decoded float is finite. -/
def finite (v : Fv) : Bool :=
  match v with
  | .fin _ _ _ => true
  | _ => false

/-- The formats of R110 and R111. -/
def formats : List Fmt := [fF32, fF16, fB16, fF8E4, fF8E5]

/-- R123: a magnitude `x`, of a negative number or not, taken to a multiple `v` of 2^q by a mode: the multiple below it, or the next one
up where the mode says so of the part left over. -/
def RoundsAt (mode : RMode) (neg : Bool) (x : ℝ) (q : ℤ) (v : ℝ) : Prop :=
  let k : ℕ := ⌊x / 2 ^ q⌋₊
  let g : ℝ := x / 2 ^ q - k
  let up : Prop := match mode with
    | .rm 0 => 1 / 2 < g ∨ (g = 1 / 2 ∧ k % 2 = 1)
    | .rm 1 => False
    | .rm 2 => neg = true ∧ g ≠ 0
    | .rm _ => neg = false ∧ g ≠ 0
    | .stoch u => g ≠ 0 ∧ 2 ^ 16 ≤ ⌊g * 2 ^ 16⌋₊ + u
  (up ∧ v = (k + 1) * 2 ^ q) ∨ (¬up ∧ v = k * 2 ^ q)

/-- R123, R124, R127: bits and flags of a nonzero number of magnitude `x` rounded to a format: p is the place of the last bit with no lower
bound on exponents, t what tininess is judged by, v the rounded magnitude. -/
def RoundsTo (f : Fmt) (env : REnv) (neg : Bool) (x : ℝ) (r : Nat × Flags) : Prop :=
  ∃ (p : ℤ) (t v : ℝ), 2 ^ (p + f.fb) ≤ x ∧ x < 2 ^ (p + f.fb + 1) ∧ RoundsAt env.mode neg x p t ∧
    RoundsAt env.mode neg x (max p (1 - (f.bias : ℤ) - f.fb)) v ∧
    let flushed : Prop := t < 2 ^ (1 - (f.bias : ℤ)) ∧ env.ftz = true
    let top : ℝ := ((floatValue (f.decode (f.maxBits false)) : ℚ) : ℝ)
    let toMax : Bool := env.sat || f.eb < 5 || f.fb < 3 || env.mode == .rm 1 || (env.mode == .rm 2 && !neg) || (env.mode == .rm 3 && neg)
    (flushed → r = (f.sign neg, flUF ||| flNX)) ∧
    (¬flushed → top < v → r = (if toMax then f.maxBits neg else f.infBits neg, flOF ||| flNX)) ∧
    (¬flushed → v ≤ top →
      (r.1 < 2 ^ (f.eb + f.fb + 1) ∧ (2 ^ (f.eb + f.fb) ≤ r.1 ↔ neg = true) ∧ finite (f.decode r.1) = true ∧
        ((floatValue (f.decode r.1) : ℚ) : ℝ) = (if neg then -1 else 1) * v) ∧
      (v = x → r.2 = 0) ∧ (v ≠ x → t < 2 ^ (1 - (f.bias : ℤ)) → r.2 = flNX ||| flUF) ∧ (v ≠ x → 2 ^ (1 - (f.bias : ℤ)) ≤ t → r.2 = flNX))

/-- The order of the numbers that decoded floats stand for, the infinities at its ends. -/
def floatRank (v : Fv) : WithBot (WithTop ℚ) :=
  match v with
  | .inf n => if n then ⊥ else ((⊤ : WithTop ℚ) : WithBot (WithTop ℚ))
  | v => ((floatValue v : WithTop ℚ) : WithBot (WithTop ℚ))

/-- Elements of each format of an image but the described block (R258). -/
def elementCounts : List (PkFmt × Nat) := [
  (.f16, 32), (.b16, 32), (.f8e4, 64), (.f8e5, 64), (.q4x, 128), (.bin1, 512), (.i16, 32), (.i8, 64)]

/-- Reductions: operation, type, identity of a scan, the step of the vector operation of that type (R267, R249-R252). -/
def reductionTable : List (RedOp × VType × W32 × (REnv → W32 → W32 → W32 × Flags)) :=
  let fl (op : REnv → Nat → Nat → Nat × Flags) (env : REnv) (a b : W32) : W32 × Flags :=
    let r := op env a.toNat b.toNat
    (BitVec.ofNat 32 r.1, r.2)
  let int (op : W32 → W32 → W32) (_ : REnv) (a b : W32) : W32 × Flags := (op a b, 0)
  [(.add, .f32, 0, fl (fAdd fF32)), (.min, .f32, 0x7F800000, fl fun env => fMinMax fF32 env false),
   (.max, .f32, 0xFF800000, fl fun env => fMinMax fF32 env true)] ++
  [VType.i32, VType.n32].flatMap fun ty =>
    [(.add, ty, 0, int (· + ·)), (.min, ty, if ty.isSigned then 0x7FFFFFFF else 0xFFFFFFFF, int (elemMin ty.isSigned 32)),
     (.max, ty, if ty.isSigned then 0x80000000 else 0, int (elemMax ty.isSigned 32)),
     (.and, ty, 0xFFFFFFFF, int (· &&& ·)), (.or, ty, 0, int (· ||| ·)), (.xor, ty, 0, int (· ^^^ ·))]

/-- The tree of R267: what stands at lane l once neighbours up to 2^d apart are combined; an absent lane takes no part. -/
def treeAt {α : Type} (op : α → α → α) (x : Nat → Option α) : Nat → Nat → Option α
  | 0, l => x l
  | d + 1, l =>
    match treeAt op x d l, treeAt op x d (l + 2 ^ d) with
    | a, none => a
    | none, b => b
    | some a, some b => some (op a b)

/-! ## Memory accesses -/

/-- Byte `a` of a scratchpad (R14). -/
def spmByte (c : Core) (a : Nat) : Nat := (spmWord c (a / 4)).v.toNat / 2 ^ (8 * (a % 4)) % 256
/-- Little-endian number of `n` scratchpad bytes at `a` (R10). -/
def spmLe (c : Core) (a : Nat) : Nat → Nat
  | 0 => 0
  | n + 1 => spmByte c a + 256 * spmLe c (a + 1) n

/-- The element sizes of R197 and R279 in bytes. -/
def accessSize (n : Nat) : Prop := n = 1 ∨ n = 2 ∨ n = 4 ∨ n = 8

/-- The elements that a mem form accesses, by its slot (R276, R278-R280). -/
def scalarElems (x : Seq) (f : MMem) : List Elem := [{ lane := 0, addr := (rdS x f.base).v + (rdS x f.idx).v + BitVec.ofInt 64 f.off.toInt }]
def contiguousElems (x : Seq) (f : MMem) : List Elem := (active (rdQ x f.g)).map fun l =>
  { lane := l, addr := (rdS x f.base).v + (rdS x f.idx).v + BitVec.ofInt 64 f.off.toInt + BitVec.ofNat 64 (l * sizeBytes f.size) }
def stridedElems (x : Seq) (f : MMem) : List Elem := (active (rdQ x f.g)).map fun l =>
  { lane := l, addr := (rdS x f.base).v + BitVec.ofInt 64 f.off.toInt + BitVec.ofNat 64 l * (rdS x f.idx).v }
def indexedElems (x : Seq) (f : MMem) : List Elem := (active (rdQ x f.g)).map fun l =>
  { lane := l, addr := (rdS x f.base).v + BitVec.ofInt 64 (rdV x f.idx l).v.toInt + BitVec.ofInt 64 f.off.toInt, pois := (rdV x f.idx l).p }

/-- The registers of its address are clean: base and index, or base alone where the index is a vector. -/
def cleanAddr (x : Seq) (f : MMem) (vecIdx : Bool) : Prop := (rdS x f.base).p = false ∧ (vecIdx = false → (rdS x f.idx).p = false)

/-- The data a store takes for a lane: s_d, or the lane of v_d. -/
def scalarData (x : Seq) (f : MMem) (_ : Nat) : SVal := rdS x f.data
def vectorData (x : Seq) (f : MMem) (l : Nat) : SVal := ⟨(rdV x f.data l).v.zeroExtend 64, (rdV x f.data l).p⟩

/-- Global loads: the slot, whether it has a scalar guard, its elements, whether its index is a vector. -/
def loadTable : List ((MMem → Instr) × Bool × (Seq → MMem → List Elem) × Bool) := [
  (.ld, true, scalarElems, false), (.vld, false, contiguousElems, false), (.vldr, false, stridedElems, false),
  (.vgather, false, indexedElems, true)]
/-- Speculative loads. -/
def specTable : List ((MMem → Instr) × Bool × (Seq → MMem → List Elem)) := [
  (.sld, true, scalarElems), (.vsld, false, contiguousElems)]
/-- Global stores with the data they take. -/
def storeTable : List ((MMem → Instr) × Bool × (Seq → MMem → List Elem) × Bool × (Seq → MMem → Nat → SVal)) := [
  (.st, true, scalarElems, false, scalarData), (.vst, false, contiguousElems, false, vectorData),
  (.vstr, false, stridedElems, false, vectorData), (.vscatter, false, indexedElems, true, vectorData)]
/-- Scratchpad loads and stores. -/
def spmLoadTable : List ((MMem → Instr) × Bool × (Seq → MMem → List Elem) × Bool) := [
  (.ldSpm, true, scalarElems, false), (.vldSpm, false, contiguousElems, false), (.vgatherSpm, false, indexedElems, true)]
def spmStoreTable : List ((MMem → Instr) × Bool × (Seq → MMem → List Elem) × Bool × (Seq → MMem → Nat → SVal)) := [
  (.stSpm, true, scalarElems, false, scalarData), (.vstSpm, false, contiguousElems, false, vectorData),
  (.vscatterSpm, false, indexedElems, true, vectorData)]

/-- Where a load's value goes: s_d, or the lanes of v_d. -/
def loadDst (scalar : Bool) (f : MMem) : LateDst := if scalar then .s f.data.toNat f.size else .v f.data.toNat f.size

/-- The atomics with their kinds (R284). -/
def atomTable : List ((MAtom → Instr) × AKind) := [
  (.aadd, .add), (.amin, .min), (.amax, .max), (.aand, .and), (.aor, .or), (.axor, .xor), (.aswp, .swp), (.acas, .cas)]

/-- The state after a load has begun: one more late access under the next tag, its result in flight at a latency. -/
def lateBegun (s t : State) (lat : Nat) (dst : LateDst) : Prop :=
  (seqOf t s.cur.core s.cur.seq).infl = (me s).infl ++ [⟨lat, s.cur.slot, [], some s.nextTag⟩] ∧ t.nextTag = s.nextTag + 1 ∧
  ∃ l ∈ (seqOf t s.cur.core s.cur.seq).lates, l.tag = s.nextTag ∧ l.dst = dst ∧ l.slot = s.cur.slot

/-- A word of plain HBM or host memory, whose line no intake window holds. -/
def plainPa (s : State) (pa : Nat) : Prop := isPeerPa pa = false ∧ spaceOf pa ≠ 2 ∧ spaceOf pa ≠ 3 ∧ intakeOf s pa = none

/-! ## Engine commands -/

/-- Commands of consecutive s registers: opcode, variant, how many registers from s_A (R292, R294, R296, R297). -/
def regCmdTable : List ((MEng → Instr) × Nat × Nat × (Seq → MEng → Nat)) := [
  (.xferGg, 0x21, 0, fun x f => if (rdS x f.b).v.getLsbD 63 then 4 else 2),
  (.xferSg, 0x21, 1, fun x f => if (rdS x f.b).v.getLsbD 63 then 4 else 2),
  (.xferGs, 0x21, 2, fun x f => if (rdS x f.b).v.getLsbD 63 then 4 else 2),
  (.xferSs, 0x21, 3, fun x f => if (rdS x f.b).v.getLsbD 63 then 4 else 2),
  (.xferGa, 0x21, 12, fun _ _ => 2), (.xferSa, 0x21, 13, fun _ _ => 2),
  (.xredAddF32, 0x22, 0, fun _ _ => 3), (.xredAddoF32, 0x22, 1, fun _ _ => 3), (.xredAddB16, 0x22, 2, fun _ _ => 3),
  (.xredAddI32, 0x22, 3, fun _ _ => 3), (.xredMinF32, 0x22, 4, fun _ _ => 3), (.xredMaxF32, 0x22, 5, fun _ _ => 3),
  (.xredMinI32, 0x22, 6, fun _ _ => 3), (.xredMaxI32, 0x22, 7, fun _ _ => 3)]
/-- Commands of a tile descriptor: queue, opcode, variant (R295, R301). -/
def tileCmdTable : List ((MEng → Instr) × Nat × Nat × Nat) := [
  (.xferTg, 1, 0x21, 4), (.xferTs, 1, 0x21, 6), (.xferGt, 1, 0x21, 8), (.xferSt, 1, 0x21, 9),
  (.tldT, 0, 0x24, 0), (.tldS, 0, 0x24, 1), (.tstT, 0, 0x25, 0), (.tstS, 0, 0x25, 1)]

/-- The queue has a place, or not: then the sequencer waits, or in system mode takes the queue overflow fault (R288). -/
def issued (s : State) (q : Nat) (m : Cmd) : State :=
  if (myCore s).places q < (if q = 0 then 64 else 128) then modCore s s.cur.core fun c => enqueue c m
  else if (me s).mode then fault s 15 (BitVec.ofNat 64 q) else raise s .stall

/-- The words of a write from a peer perform one after another at their homes, the state after all of them, and whether one of them was
discarded at a protected home (R351, R417). -/
def performedInOrder : List HomeWr → Bool → Machine.State → Machine.State → Bool → Prop
  | [], d, s, t, e => t = s ∧ e = d
  | h :: r, d, s, t, e => ∃ u st fl, homePerform s h = .done u st fl ∧ performedInOrder r (d || dropsPa s (4 * h.w)) u t e

/-- A micro-operation runs on the core under way (R314): its call's command, and no other part of the machine than that core's engine,
tiles, accumulators and scratchpad changes. -/
def microFrame (s t : State) : Prop :=
  sameOutside s t ∧ (∀ k, k ≠ s.cur.core → Machine.core t k = Machine.core s k) ∧ (∀ q, seqOf t s.cur.core q = seqOf s s.cur.core q) ∧
  (Machine.core t s.cur.core).l1 = (myCore s).l1 ∧ (Machine.core t s.cur.core).sems = (myCore s).sems ∧ (Machine.core t s.cur.core).mq = (myCore s).mq ∧
  (Machine.core t s.cur.core).tq = (myCore s).tq ∧ (Machine.core t s.cur.core).lex = (myCore s).lex

/-- The micro-PC moves on to the next micro-word, the call goes on. -/
def wentOn (s t : State) : Prop :=
  (Machine.core t s.cur.core).mx.upc = (myCore s).mx.upc + 1 ∧ (Machine.core t s.cur.core).mx.call = (myCore s).mx.call

/-! ## The coding group, queues and tasks -/

/-- No byte of memory changes. -/
def bytesStay (s t : State) : Prop := ∀ a, rdByte t a = rdByte s a

/-- Registers other than some hold their values. -/
def otherRegsStay (s t : State) (rs : List Reg) : Prop := ∀ r : Reg, (∀ x ∈ rs, x.key ≠ r.key) → rdReg t r = rdReg s r

/-- A message has gone to every other member of the group, and nothing else left the module. -/
def sentToMembers (s t : State) (m : Instr) : Prop := t.outbox = s.outbox ++ (others s).map fun i => (memberPod s i, m)

/-- A message from a member that is present reaches a member that takes part (R166). -/
def fromMember (s : State) (src : Nat) : Prop :=
  src < pgN s ∧ src ≠ pgSelf s ∧ memberSt s src = 0 ∧ pgState s ≠ 0 ∧ pgState s ≠ 8 ∧ pgState s ≠ 9 ∧ pgState s ≠ 10

/-- A line's pre-image stands in the journal, or a record for it has room and passes no mark (R150, R153). -/
def canRecord (s : State) (line : Nat) : Prop :=
  (mlook s.group.journal line).isSome = true ∨
  (jUsed s < jCap s ∧ (s.group.high = true ∨ jUsed s + 1 ≤ bits (rdReg s .pgJrn) 48 8 * jCap s / 256))

/-- No word has a lost owner (R58, R59). -/
def noLoss (s : State) : Prop := ∀ w path id c, homeFind s w ≠ .lost path id c

/-- No event ring takes records (R344). -/
def noRing (s : State) : Prop := bit (rdReg s .evqCfg) 63 = false

end Sys2Proof
end

