-- ==== Sys2Proof/Certificates/Slice0/Obligations.lean ====
section
/-! DEFINITION. The statements: what the spec's rules say the machine does, for the provers. -/
open Sys2Proof hiding core
open Sys2Proof.Machine

/-! ## Scalar slots (R222-R245) -/

/-- R223, R224, R222, R204: every three-register operation puts its result in flight for d at its latency, poisoned when a
source is, and changes nothing else; under a false guard nothing changes (R211). -/
def Parts.ScalarThreeRegisterResults : Prop :=
  ∀ e ∈ scalarTable, ∀ (f : SReg) (s : State),
    let a := rdS (me s) f.a
    let b := rdS (me s) f.b
    (rdP (me s) f.g = true → ∃ t, exec (e.1 f) s = .next t ∧
      onlyResult s t e.2.1 [.s f.d.toNat (e.2.2 a.v b.v) (a.p || b.p)]) ∧
    (rdP (me s) f.g = false → exec (e.1 f) s = .next s)

/-- R223, R224: sel reads only the chosen operand; bfi replaces the field of d's value at issue; the counts of one operand. -/
def Parts.ScalarSelectInsertAndCounts : Prop :=
  ∀ (f : SReg) (u : SUn) (n : BitVec 4) (s : State),
    exec (.sel f n) s = .next (underGuard s f.g (
      let x := rdS (me s) (if rdP (me s) n then f.a else f.b)
      result s 1 [.s f.d.toNat x.v x.p])) ∧
    exec (.bfi f) s = .next (underGuard s f.g (
      let a := rdS (me s) f.a
      let b := rdS (me s) f.b
      let d := rdS (me s) f.d
      let pos := (b.v.extractLsb' 0 6).toNat
      let w := min (b.v.extractLsb' 8 7).toNat (64 - pos)
      let m : Word := BitVec.ofNat 64 ((2 ^ w - 1) * 2 ^ pos)
      result s 1 [.s f.d.toNat ((d.v &&& ~~~m) ||| ((a.v <<< pos) &&& m)) (a.p || b.p || d.p)])) ∧
    (rdP (me s) u.g = true → ∃ c z o, c ≤ 64 ∧ z ≤ 64 ∧ o ≤ 64 ∧
      exec (.clz u) s = .next (result s 1 [.s u.d.toNat (BitVec.ofNat 64 c) (rdS (me s) u.a).p]) ∧
      exec (.ctz u) s = .next (result s 1 [.s u.d.toNat (BitVec.ofNat 64 z) (rdS (me s) u.a).p]) ∧
      exec (.popc u) s = .next (result s 1 [.s u.d.toNat (BitVec.ofNat 64 o) (rdS (me s) u.a).p]) ∧
      (rdS (me s) u.a).v.toNat < 2 ^ (64 - c) ∧ (c < 64 → 2 ^ (63 - c) ≤ (rdS (me s) u.a).v.toNat) ∧
      (∀ i < z, (rdS (me s) u.a).v.getLsbD i = false) ∧ (z < 64 → (rdS (me s) u.a).v.getLsbD z = true) ∧
      o = ((List.range 64).filter fun i => (rdS (me s) u.a).v.getLsbD i).length) ∧
    (rdP (me s) u.g = false → exec (.clz u) s = .next s ∧ exec (.ctz u) s = .next s ∧ exec (.popc u) s = .next s)

/-- R225, R226: the immediate operations and the two that build constants in s62. -/
def Parts.ScalarImmediateResults : Prop :=
  ∀ (f : SImm) (h : SShift) (l : SLong) (s : State),
    let x := rdS (me s) f.a
    let y := rdS (me s) h.a
    let i : Word := BitVec.ofInt 64 f.imm.toInt
    let put (d : BitVec 6) (v : Word) (p : Bool) : State := result s 1 [.s d.toNat v p]
    exec (.addi f) s = .next (underGuard s f.g (put f.d (BitVec.ofInt 64 (x.v.toInt + f.imm.toInt)) x.p)) ∧
    exec (.andi f) s = .next (underGuard s f.g (put f.d (x.v &&& i) x.p)) ∧
    exec (.ori f) s = .next (underGuard s f.g (put f.d (x.v ||| i) x.p)) ∧
    exec (.xori f) s = .next (underGuard s f.g (put f.d (x.v ^^^ i) x.p)) ∧
    exec (.shli h) s = .next (underGuard s h.g (put h.d (BitVec.ofNat 64 (y.v.toNat * 2 ^ h.cnt.toNat)) y.p)) ∧
    exec (.shri h) s = .next (underGuard s h.g (put h.d (BitVec.ofNat 64 (y.v.toNat / 2 ^ h.cnt.toNat)) y.p)) ∧
    exec (.sari h) s = .next (underGuard s h.g (put h.d (BitVec.ofInt 64 (y.v.toInt / 2 ^ h.cnt.toNat)) y.p)) ∧
    exec (.lis l) s = .next (underGuard s l.g (put 62 (BitVec.ofInt 64 l.imm.toInt) false)) ∧
    exec (.lic l) s = .next (underGuard s l.g (put 62
      (BitVec.ofNat 64 ((rdS (me s) 62).v.toNat * 2 ^ 22 + l.imm.toNat)) (rdS (me s) 62).p))

/-- R227, R206: a compare of clean operands puts its condition in flight for pt and the negation for pf, so that pt stands where
they are one; a poisoned operand raises the poison consumed fault and nothing performs. -/
def Parts.CompareResults : Prop :=
  ∀ e ∈ compareTable, ∀ (f : SCmp) (h : SCmpi) (s : State),
    let a := rdS (me s) f.a
    let b := rdS (me s) f.b
    let c := e.2.2 a.v b.v
    let x := rdS (me s) h.a
    let d := e.2.2 x.v (BitVec.ofInt 64 h.imm.toInt)
    (a.p = false → b.p = false →
      exec (e.1 f) s = .next (underGuard s f.g (result s 1 [.pred f.pf.toNat (!c), .pred f.pt.toNat c]))) ∧
    (a.p = true ∨ b.p = true → exec (e.1 f) s = .next (underGuard s f.g (fault s 8 (poisonVal s 1)))) ∧
    (x.p = false → exec (e.2.1 h) s = .next (underGuard s h.g (result s 1 [.pred h.pf.toNat (!d), .pred h.pt.toNat d]))) ∧
    (x.p = true → exec (e.2.1 h) s = .next (underGuard s h.g (fault s 8 (poisonVal s 1))))

/-- R228: predicate logic, p0 reading as 1. -/
def Parts.PredicateLogicResults : Prop :=
  ∀ (f : SPred) (s : State),
    let a := rdP (me s) f.a
    let b := rdP (me s) f.b
    let put (c : Bool) : State := result s 1 [.pred f.d.toNat c]
    exec (.pand f) s = .next (underGuard s f.g (put (a && b))) ∧
    exec (.por f) s = .next (underGuard s f.g (put (a || b))) ∧
    exec (.pxor f) s = .next (underGuard s f.g (put (a ^^ b))) ∧
    exec (.pandn f) s = .next (underGuard s f.g (put (a && !b)))

/-- R207-R210, R229: a branch whose guard holds has three delay slots and its target; the links give s63 the return address;
register targets must be clean and even; a false guard leaves fetch in sequence. -/
def Parts.BranchesTransferAfterThreeDelaySlots : Prop :=
  ∀ (f : SLong) (g : BitVec 4) (a : BitVec 6) (s : State),
    let go (s : State) (t : Option Word) : State := modMe s fun x => { x with xfer := some ⟨3, t⟩ }
    let rel : Word := s.cur.pc + BitVec.ofInt 64 (2 * f.imm.toInt)
    let r := rdS (me s) a
    let linked := result s 1 [.s 63 s.cur.link false]
    exec (.br f) s = .next (if rdP (me s) f.g then go s (some rel) else go s none) ∧
    exec (.brl f) s = .next (if rdP (me s) f.g then go linked (some rel) else go s none) ∧
    (rdP (me s) g = false → exec (.brr g a) s = .next (go s none) ∧ exec (.brrl g a) s = .next (go s none)) ∧
    (rdP (me s) g = true → r.p = false → r.v.getLsbD 0 = false →
      exec (.brr g a) s = .next (go s (some r.v)) ∧ exec (.brrl g a) s = .next (go linked (some r.v))) ∧
    (rdP (me s) g = true → r.p = true →
      exec (.brr g a) s = .next (fault s 8 (poisonVal s 1)) ∧ exec (.brrl g a) s = .next (fault s 8 (poisonVal s 1))) ∧
    (rdP (me s) g = true → r.p = false → r.v.getLsbD 0 = true →
      exec (.brr g a) s = .next (fault s 4 (memVal s.cur.slot r.v.toNat)) ∧
      exec (.brrl g a) s = .next (fault s 4 (memVal s.cur.slot r.v.toNat)))

/-- R231: the four cases of loop, by lc and ec as it reads them at issue; a false guard changes no counter and no predicate. -/
def Parts.LoopCountsAndRotates : Prop :=
  ∀ (f : SLong) (s : State),
    let x := me s
    let go (s : State) (t : Option Word) : State := modMe s fun x => { x with xfer := some ⟨3, t⟩ }
    let rel : Word := s.cur.pc + BitVec.ofInt 64 (2 * f.imm.toInt)
    (rdP x f.g = false → exec (.loop f) s = .next (go s none)) ∧
    (rdP x f.g = true → 0 < x.lc.toNat →
      exec (.loop f) s = .next (go (result s 1 [.special 0 (x.lc - 1), .rot true]) (some rel))) ∧
    (rdP x f.g = true → x.lc.toNat = 0 → 1 < x.ec.toNat →
      exec (.loop f) s = .next (go (result s 1 [.special 1 (x.ec - 1), .rot false]) (some rel))) ∧
    (rdP x f.g = true → x.lc.toNat = 0 → x.ec.toNat = 1 →
      exec (.loop f) s = .next (go (result s 1 [.special 1 0, .rot false]) none)) ∧
    (rdP x f.g = true → x.lc.toNat = 0 → x.ec.toNat = 0 → exec (.loop f) s = .next (go s none))

/-- R213: when a rotation lands, p9-p15 take p8-p14, p8 takes the stage bit, and p1-p7 keep their values. -/
def Parts.RotationShiftsTheStagePredicates : Prop :=
  ∀ (x : Seq) (b : Bool) (n : BitVec 4), n ≠ 0 →
    rdP (applyW x (.rot b)) n = if n = 8 then b else if 8 < n then rdP x (n - 1) else rdP x n

/-- R232: chk transfers where the register, or any lane of it, is poisoned, and reads no value. -/
def Parts.CheckBranchesOnPoison : Prop :=
  ∀ (f : SChk) (s : State),
    let go (t : Option Word) : State := modMe s fun x => { x with xfer := some ⟨3, t⟩ }
    let rel : Word := s.cur.pc + BitVec.ofInt 64 (2 * f.off.toInt)
    (rdP (me s) f.g = false → exec (.chkS f) s = .next (go none) ∧ exec (.chkV f) s = .next (go none)) ∧
    (rdP (me s) f.g = true → exec (.chkS f) s = .next (go (if (rdS (me s) f.a).p then some rel else none))) ∧
    (rdP (me s) f.g = true → (∃ l < 16, (rdV (me s) f.a l).p = true) → exec (.chkV f) s = .next (go (some rel))) ∧
    (rdP (me s) f.g = true → (∀ l < 16, (rdV (me s) f.a l).p = false) → exec (.chkV f) s = .next (go none))

/-- R233, R234, R89, R205: mfs reads at issue, unpoisoned, evp as it stood before the bundle's semaphore operations; a read of dstat gives every
slot of its bundle the value at issue and clears its counted fields; mts writes at latency 1; a system register in user mode is a privilege
fault, before any poison of the source (an order that is the model's choice: log entry 82); a poisoned source of mts is consumed. -/
def Parts.SpecialRegisterMoves : Prop :=
  ∀ (g : BitVec 4) (d x a : BitVec 6) (s : State), rdP (me s) g = true →
    let now := readSpecial { me s with evp := s.cur.evp } s.cur.core s.cur.seq s.clk x.toNat
    let dstat := s.cur.dstat.getD now
    (16 ≤ x.toNat → (me s).mode = false →
      exec (.mfs g d x) s = .next (fault s 3 (BitVec.ofNat 64 s.cur.slot)) ∧
      exec (.mts g x a) s = .next (fault s 3 (BitVec.ofNat 64 s.cur.slot))) ∧
    (x.toNat < 16 ∨ (me s).mode = true → x ≠ 7 → exec (.mfs g d x) s = .next (result s 1 [.s d.toNat now false])) ∧
    (x = 7 → exec (.mfs g d x) s = .next (modMe (result { s with cur := { s.cur with dstat := some dstat } } 1 [.s d.toNat dstat false])
      fun q => { q with dCount := 0, dPeer := 0 })) ∧
    (x.toNat < 16 ∨ (me s).mode = true → (rdS (me s) a).p = false →
      exec (.mts g x a) s = .next (result s 1 [.special x.toNat (rdS (me s) a).v])) ∧
    (x.toNat < 16 ∨ (me s).mode = true → (rdS (me s) a).p = true →
      exec (.mts g x a) s = .next (fault s 8 (poisonVal s 1)))

/-- R121, R234-R236, R239: what a landing write of each special register leaves, read back in the same sequencer; read-only
registers ignore it. -/
def Parts.SpecialRegisterWriteReadBack : Prop :=
  ∀ (x : Seq) (v : Word) (k seq clk : Nat),
    let rd (n : Nat) : Word := readSpecial (applyW x (.special n v)) k seq clk n
    (∀ n ∈ [0, 1, 17, 18, 19, 20, 21, 22, 23, 24], rd n = v) ∧
    (∀ n ∈ [2, 3, 4, 5, 7], rd n = readSpecial x k seq clk n) ∧
    rd 6 = (v &&& 0x1E00) ||| (readSpecial x k seq clk 6 &&& 0x3F &&& ~~~v) ∧
    rd 8 = (v &&& 0xFFFE) ||| 1 ∧
    rd 9 = v &&& 1 ∧
    rd 16 = (v &&& 2) ||| (readSpecial x k seq clk 16 &&& 1)

/-- R179, R237: the semaphore of the operand is read at latency 2; set and increased, by values up to 0xFFFF; above it the
overflow fault, nothing changed; an increment of 0 changes nothing; the wait is left to the end of the bundle (R238). -/
def Parts.SemaphoreSlots : Prop :=
  ∀ (f : SImm) (s : State), rdP (me s) f.g = true → (rdS (me s) f.a).p = false →
    let i := ((rdS (me s) f.a).v.toNat + (f.imm.signExtend 64).toNat) % 256
    let v := semVal (myCore s) i
    let d := rdS (me s) f.d
    let put (s : State) (n : Nat) : State := modCore s s.cur.core fun c => semPut c i n
    exec (.semget f) s = .next (result s 2 [.s f.d.toNat (BitVec.ofNat 64 v) false]) ∧
    (d.p = false → d.v.toNat ≤ 0xFFFF → exec (.semset f) s = .next (put s d.v.toNat)) ∧
    (d.p = false → 0xFFFF < d.v.toNat → exec (.semset f) s = .next (fault s 14 (BitVec.ofNat 64 i))) ∧
    (d.p = false → d.v = 0 → exec (.semsig f) s = .next s) ∧
    (d.p = false → d.v ≠ 0 → v + d.v.toNat ≤ 0xFFFF → exec (.semsig f) s = .next (put (sink s s.cur.core) (v + d.v.toNat))) ∧
    (d.p = false → 0xFFFF < v + d.v.toNat → d.v ≠ 0 → exec (.semsig f) s = .next (fault s 14 (BitVec.ofNat 64 i))) ∧
    (d.p = false → exec (.semwait f) s = .next (modMe s fun x => { x with waits := x.waits ++ [.sem i d.v] })) ∧
    (d.p = true → exec (.semset f) s = .next (fault s 8 (poisonVal s 1)) ∧
      exec (.semsig f) s = .next (fault s 8 (poisonVal s 1)) ∧ exec (.semwait f) s = .next (fault s 8 (poisonVal s 1)))

/-- R179, R239: a semaphore that takes a value holds it, every other keeps its own, and every sequencer of the core has its
pending bit set. -/
def Parts.SemaphoreTakesItsValueAndWakes : Prop :=
  ∀ (c : Core) (i v : Nat),
    semVal (semPut c i v) i = v ∧ (∀ j, j ≠ i → semVal (semPut c i v) j = semVal c j) ∧
    (∀ x ∈ (semPut c i v).seqs, x.2.evp = true)

/-- R240-R244: wfe waits; trap and sys in user mode end their bundle with entry to the handler, eret in system mode with the
return, halt with Halted; in the other mode trap, sys and eret raise the privilege fault; in a bundle with STOP set trap, sys and eret
perform nothing; nop performs nothing. -/
def Parts.WaitsAndModeChangesBegin : Prop :=
  ∀ (f : SLong) (g : BitVec 4) (s : State),
    let ends (e : Ending) : State := modMe s fun x => { x with ending := some e }
    let imm : Word := BitVec.ofInt 64 f.imm.toInt
    let priv := fault s 3 (BitVec.ofNat 64 s.cur.slot)
    exec (.wfe g) s = .next (underGuard s g (modMe s fun x => { x with waits := x.waits ++ [.wfe] })) ∧
    (s.cur.stop = true → exec (.trap f) s = .next s ∧ exec (.sys f) s = .next s ∧ exec (.eret g) s = .next s) ∧
    (s.cur.stop = false → (me s).mode = false →
      exec (.trap f) s = .next (underGuard s f.g (ends (.trap 21 imm s.cur.next))) ∧
      exec (.sys f) s = .next (underGuard s f.g (ends (.trap 22 imm s.cur.next))) ∧
      exec (.eret g) s = .next (underGuard s g priv)) ∧
    (s.cur.stop = false → (me s).mode = true →
      exec (.trap f) s = .next (underGuard s f.g priv) ∧ exec (.sys f) s = .next (underGuard s f.g priv) ∧
      exec (.eret g) s = .next (underGuard s g (ends .eret))) ∧
    exec (.halt g) s = .next (underGuard s g (ends (.halt s.cur.next))) ∧
    exec .nop s = .next s

/-- R241-R243, R373, R376: what trap, sys, eret and halt do once every result in flight has landed: entry saves the next head with pads
skipped, the cause, the value and the mode and goes to xvec; without a handler the task ends with the cause (the model's choice for trap
and sys, log entry 72); the return restores pc, mode, results in flight and the pending transfer; an odd xpc faults instead; halt enters
Halted at the next bundle. -/
def Parts.HandlerEntryReturnAndHalt : Prop :=
  ∀ (s : State) (k q c : Nat) (v next pc : Word),
    let x := seqOf s k q
    let after (e : Ending) : Seq := seqOf (endIssue s k q e) k q
    (hasHandler s k = false → endIssue s k q (.trap c v next) = endCoreTask (logFault s (64 * k + q) ⟨c, v⟩) k 2 c) ∧
    (hasHandler s k = true → headAfter s k q allLines 0 next = .at_ pc → let y := after (.trap c v next);
      (endIssue s k q (.trap c v next)).mem = s.mem ∧
      y.pc = x.xvec ∧ y.xpc = pc ∧ y.xcause = BitVec.ofNat 64 c ∧ y.xval = v ∧ y.pmode = x.mode ∧ y.mode = true ∧
      y.bankU = [] ∧ y.savedXfer = none ∧ y.s = x.s ∧ y.v = x.v ∧ y.p = x.p ∧ y.xvec = x.xvec ∧ y.xsc = x.xsc) ∧
    (x.xpc.getLsbD 0 = false → let y := after .eret;
      y.pc = x.xpc ∧ y.mode = x.pmode ∧ y.pmode = false ∧ y.infl = x.bankU ++ x.infl ∧ y.xfer = x.savedXfer ∧
      y.bankU = [] ∧ y.savedXfer = none ∧ y.xpc = x.xpc ∧ y.s = x.s ∧ y.xcause = x.xcause ∧ y.xval = x.xval) ∧
    (x.xpc.getLsbD 0 = true → endIssue s k q .eret = takeTrap s k q x.pc ⟨4, memVal 8 x.xpc.toNat⟩) ∧
    (let y := after (.halt next);
      y.st = .halted ∧ y.pc = next ∧ y.s = x.s ∧ y.mode = x.mode) ∧
    (∀ e, e = .stop ∨ e = .halt next → (endIssue s k q e).mem = s.mem)

/-- R373-R375: a fault taken in user mode where the task was given a handler, at its set-up or its last resumption, saves the head, the cause, the value, the mode, the
results in flight and the pending transfer, and goes to xvec in system mode; in system mode, or without a handler, the task of the
core ends with the fault's cause (R384). -/
def Parts.FaultsTakeTheirRoute : Prop :=
  ∀ (s : State) (k q : Nat) (pc : Word) (c : Nat) (v : Word),
    let x := seqOf s k q
    let logged := logFault s (64 * k + q) ⟨c, v⟩
    (x.mode = false → hasHandler s k = true →
      let y := seqOf (takeTrap s k q pc ⟨c, v⟩) k q;
      y.pc = x.xvec ∧ y.xpc = pc ∧ y.xcause = BitVec.ofNat 64 c ∧ y.xval = v ∧ y.pmode = false ∧ y.mode = true ∧
      y.bankU = x.infl ∧ y.infl = [] ∧ y.savedXfer = x.xfer ∧ y.xfer = none ∧ y.s = x.s ∧ y.v = x.v ∧ y.p = x.p ∧
      (∀ a, rdByte (takeTrap s k q pc ⟨c, v⟩) a = rdByte s a)) ∧
    (x.mode = true ∨ hasHandler s k = false →
      takeTrap s k q pc ⟨c, v⟩ = endCoreTask logged k 2 c)

/-- R181, R199, R205: a result lands after its latency: a later read of the register gives it, every other register reads as
before, and s0 stays zero. -/
def Obligations.ResultsLandAfterTheirLatency : Prop :=
  ∀ (x : Seq) (d : BitVec 6) (v : Word) (p : Bool) (lat slot : Nat), x.infl = [] →
    let start : Seq := { x with infl := [⟨lat, slot, [.s d.toNat v p], none⟩] }
    let after (n : Nat) : Seq := landDue (Nat.repeat tick n start)
    (∀ n < lat, ∀ r, rdS (after n) r = rdS x r) ∧
    rdS (after lat) d = (if d = 0 then ⟨0, false⟩ else ⟨v, p⟩) ∧
    (∀ r, r ≠ d → rdS (after lat) r = rdS x r) ∧
    (after lat).infl = [] ∧ (∀ r l, rdV (after lat) r l = rdV x r l) ∧ (after lat).p = x.p

/-- R199, R281 and others: a slot of the register-only families leaves all of memory, every device register, every level, every
other core and every other sequencer as they were, and its own registers until results land; only dstat's counts may clear. -/
def Obligations.RegisterSlotsFrame : Prop :=
  ∀ (i : Instr) (s t : State), registerOnly i = true → exec i s = .next t →
    sameOutside s t ∧ sameRegisters (seqOf t s.cur.core s.cur.seq) (me s) ∧ (∀ k, sameCore (core t k) (core s k)) ∧
    (∀ k q, ¬(k = s.cur.core ∧ q = s.cur.seq) → seqOf t k q = seqOf s k q)

/-! ## Vector and function slots (R246-R275) -/

/-- R246, R247, R249, R251, R204: the integer operations of every active lane, both halves for 16-bit types; no flag; the result is
poisoned when a source lane is. -/
def Parts.VectorIntegerArithmetic : Prop :=
  ∀ e ∈ vectorIntTable, ∀ (f : VBin) (ty : VType) (s : State), ty.isFloat = false →
    let x := me s
    exec (e.1 f ty) s = .next (laneResult s e.2.1 f.vd ((active (rdQ x f.q)).map fun l =>
      let a := rdV x f.va l
      let b := rdV x f.vb l
      let d := rdV x f.vd l
      (l, ⟨lanewise ty (e.2.2.2 ty.isSigned) a.v b.v d.v, 0, a.p || b.p || (e.2.2.1 && d.p)⟩)))

/-- R249, R250: the float operations of every active lane with their flags, and the sign operations of vabs and vneg for float and
signed integer types. -/
def Parts.VectorFloatArithmetic : Prop :=
  ∀ (f : VBin) (u : VUn) (ty : VType) (s : State),
    let x := me s
    (∀ e ∈ vectorFloatTable, ∀ fm, floatOf ty = some fm →
      exec (e.1 f ty) s = .next (laneResult s e.2.1 f.vd ((active (rdQ x f.q)).map fun l =>
        let a := rdV x f.va l
        let b := rdV x f.vb l
        let d := rdV x f.vd l
        let r := byElem ty (e.2.2.2 fm (envOf x)) a.v b.v d.v
        (l, ⟨r.1, r.2, a.p || b.p || (e.2.2.1 && d.p)⟩)))) ∧
    (let signs (op : (w : Nat) → BitVec w → BitVec w) : Out := .next (laneResult s 2 u.vd ((active (rdQ x u.q)).map fun l =>
        let a := rdV x u.va l
        (l, ⟨lanewise ty (fun w a _ _ => op w a) a.v 0 0, 0, a.p⟩)));
     (ty.isFloat = true → exec (.vabs u ty) s = signs (fun w a => a &&& ~~~(1#w <<< (w - 1))) ∧
        exec (.vneg u ty) s = signs (fun w a => a ^^^ (1#w <<< (w - 1)))) ∧
     (ty.isSigned = true → exec (.vabs u ty) s = signs (fun _ a => if a.msb then -a else a) ∧
        exec (.vneg u ty) s = signs (fun _ a => -a)))

/-- R252: bitwise operations, shifts by the whole element of vb, and counts. -/
def Parts.VectorLogicShiftsAndCounts : Prop :=
  ∀ (f : VBin) (u : VUn) (ty : VType) (s : State),
    let x := me s
    let two (op : W32 → W32 → W32) : Out := .next (laneResult s 2 f.vd ((active (rdQ x f.q)).map fun l =>
      (l, ⟨op (rdV x f.va l).v (rdV x f.vb l).v, 0, (rdV x f.va l).p || (rdV x f.vb l).p⟩)))
    let one (op : W32 → Nat) : Out := .next (laneResult s 2 u.vd ((active (rdQ x u.q)).map fun l =>
      (l, ⟨BitVec.ofNat 32 (op (rdV x u.va l).v), 0, (rdV x u.va l).p⟩)))
    exec (.vand f) s = two (fun a b => a &&& b) ∧ exec (.vor f) s = two (fun a b => a ||| b) ∧
    exec (.vxor f) s = two (fun a b => a ^^^ b) ∧ exec (.vandn f) s = two (fun a b => a &&& ~~~b) ∧
    (ty.isFloat = false →
      exec (.vshl f ty) s = two (fun a b => lanewise ty (fun w a b _ => if b.toNat < w then a <<< b.toNat else 0) a b 0) ∧
      exec (.vshr f ty) s = two (fun a b => lanewise ty (fun w a b _ => if b.toNat < w then a >>> b.toNat else 0) a b 0)) ∧
    (ty.isSigned = true →
      exec (.vsar f ty) s = two (fun a b => lanewise ty (fun w a b _ => a.sshiftRight (min b.toNat (w - 1))) a b 0)) ∧
    exec (.vpopc u) s = one (fun a => ((List.range 32).filter fun i => a.getLsbD i).length) ∧
    exec (.vclz u) s = one (fun a => if a = 0 then 32 else 31 - Nat.log2 a.toNat)

/-- R253, R254, R212, R255: compares put the condition of each active lane in flight, 0 for each inactive lane, with the flags of all of
them; poisoned active lanes are consumed, and none performs; lane-predicate logic. -/
def Parts.VectorCompareSlots : Prop :=
  ∀ (f : VCmp) (h : QLog) (ty : VType) (s : State),
    let x := me s
    let a (l : Nat) : Lane := rdV x f.va l
    let b (l : Nat) : Lane := rdV x f.vb l
    let ls := active (rdQ x f.q)
    let bad := ls.filter fun l => (a l).p || (b l).p
    let logic (op : BitVec 16 → BitVec 16 → BitVec 16) : Out :=
      .next (result s 2 [.q h.qd.toNat ((op (rdQ x h.qa) (rdQ x h.qb) &&& rdQ x h.q))])
    (∀ e ∈ ([(.vcmpeq, .eq), (.vcmplt, .lt), (.vcmple, .le)] : List ((VCmp → VType → Instr) × VCond)),
      let c (l : Nat) : Bool × Flags := cond e.2 ty (envOf x).ftz (a l).v.toNat (b l).v.toNat
      let fl : Flags := ls.foldl (fun z l => z ||| (c l).2) 0
      (bad = [] → ∃ m : BitVec 16, exec (e.1 f ty) s = .next (result s 2 (.q f.qd.toNat m :: if fl = 0 then [] else [.flags fl])) ∧
        ∀ l < 16, m.getLsbD l = ((rdQ x f.q).getLsbD l && (c l).1)) ∧
      (bad ≠ [] → ∃ m : BitVec 16, exec (e.1 f ty) s = .next (fault s 8 (poisonVal s m.toNat)) ∧
        ∀ l < 16, m.getLsbD l = ((rdQ x f.q).getLsbD l && ((a l).p || (b l).p)))) ∧
    exec (.qand h) s = logic (· &&& ·) ∧ exec (.qor h) s = logic (· ||| ·) ∧ exec (.qxor h) s = logic (· ^^^ ·) ∧
    exec (.qandn h) s = logic (fun p q => p &&& ~~~q)

/-- R253: what a compare decides: signed or unsigned order of 32-bit integers without a flag; the order of the numbers that two floats
stand for, -0 and +0 equal; false with NV beside a NaN, for equality with NV only beside a signalling one; with FTZ subnormals compare as
zeros. -/
def Parts.ConditionsOfCompares : Prop :=
  ∀ (p r : W32) (c : VCond),
    let f (ftz : Bool) : Bool × Flags := cond c .f32 ftz p.toNat r.toNat
    let dp := fF32.decode p.toNat
    let dr := fF32.decode r.toNat
    let flushed (w : W32) : W32 := if w.extractLsb' 23 8 = 0 then w &&& 0x80000000 else w
    cond .lt .i32 false p.toNat r.toNat = (p.slt r, 0) ∧ cond .le .i32 false p.toNat r.toNat = (p.sle r, 0) ∧
    cond .eq .i32 false p.toNat r.toNat = (p == r, 0) ∧
    cond .lt .n32 false p.toNat r.toNat = (p.ult r, 0) ∧ cond .le .n32 false p.toNat r.toNat = (p.ule r, 0) ∧
    cond .eq .n32 false p.toNat r.toNat = (p == r, 0) ∧
    (dp.isNan = false → dr.isNan = false → (f false).2 = 0 ∧ ((f false).1 = true ↔
      match c with
      | .eq => floatRank dp = floatRank dr
      | .lt => floatRank dp < floatRank dr
      | .le => floatRank dp ≤ floatRank dr)) ∧
    (dp.isNan = true ∨ dr.isNan = true →
      f false = (false, if c ≠ .eq ∨ fF32.snan dp = true ∨ fF32.snan dr = true then flNV else 0)) ∧
    f true = cond c .f32 false (flushed p).toNat (flushed r).toNat

/-- R256, R264, R265: selection, permutation and broadcast take whole lanes with their poison. -/
def Parts.LaneMovement : Prop :=
  ∀ (f : VBin) (u : VUn) (n k : BitVec 4) (s : State),
    let x := me s
    let move (src : Nat → Lane) : Out := .next (laneResult s 4 u.vd ((active (rdQ x u.q)).map fun l => (l, ⟨(src l).v, 0, (src l).p⟩)))
    let v (l : Nat) : Lane := rdV x u.va l
    let w := rdS x u.va
    exec (.vsel f n) s = .next (laneResult s 2 f.vd ((active (rdQ x f.q)).map fun l =>
      let a := if (rdQ x n).getLsbD l then rdV x f.va l else rdV x f.vb l
      (l, ⟨a.v, 0, a.p⟩))) ∧
    exec (.vperm u .rot k) s = move (fun l => v ((l + k.toNat) % 16)) ∧
    exec (.vperm u .xor k) s = move (fun l => v (l ^^^ k.toNat)) ∧
    exec (.vperm u .shd k) s = move (fun l => if l + k.toNat < 16 then v (l + k.toNat) else ⟨0, false⟩) ∧
    exec (.vperm u .rev 0) s = move (fun l => v (15 - l)) ∧
    exec (.vperm u .zip 0) s = move (fun l => v (if l % 2 = 0 then l / 2 else 8 + l / 2)) ∧
    exec (.vperm u .uzp 0) s = move (fun l => v (if l < 8 then 2 * l else 2 * (l - 8) + 1)) ∧
    exec (.vperm u .hsw 0) s = move (fun l => ⟨(v l).v.rotateLeft 16, (v l).p⟩) ∧
    exec (.vbcast u k) s = move (fun _ => v k.toNat) ∧
    exec (.vbcastS u) s = move (fun _ => ⟨w.v.extractLsb' 0 32, w.p⟩) ∧
    exec (.vbcastH u) s = move (fun _ => ⟨w.v.extractLsb' 0 16 ++ w.v.extractLsb' 0 16, w.p⟩)

/-- R266: each active lane reads the lane that its lane of vb names; the strict form faults where that lane is inactive, the
permissive form gives 0. -/
def Parts.CrossLaneReads : Prop :=
  ∀ (f : VBin) (s : State),
    let x := me s
    let q := rdQ x f.q
    let at_ (l : Nat) : Nat := (rdV x f.vb l).v.toNat % 16
    let put (z : Nat → LaneRes) : Out := .next (laneResult s 4 f.vd ((active q).map fun l => (l, z l)))
    let got (l : Nat) : LaneRes := ⟨(rdV x f.va (at_ l)).v, 0, (rdV x f.va (at_ l)).p || (rdV x f.vb l).p⟩
    ((∀ l ∈ active q, q.getLsbD (at_ l) = true) → exec (.vxlane f) s = put got) ∧
    ((∃ l ∈ active q, q.getLsbD (at_ l) = false) → ∃ m : BitVec 16, exec (.vxlane f) s = .next (fault s 10 (m.zeroExtend 64)) ∧
      ∀ l < 16, m.getLsbD l = (q.getLsbD l && !q.getLsbD (at_ l))) ∧
    exec (.vxlaneZ f) s = put (fun l => if q.getLsbD (at_ l) then got l else ⟨0, 0, (rdV x f.vb l).p⟩)

/-- R267: vred combines the active lanes in its fixed tree, each step that of the vector operation of the type, and gives the result with
the flags of every step to every active lane; vscan gives each active lane the combination of the active lanes up to it, or before it in
the exclusive form, from the identity, in ascending order; poison comes from every lane that takes part. -/
def Parts.ReductionsAndScans : Prop :=
  ∀ e ∈ reductionTable, ∀ (f : VUn) (s : State),
    let x := me s
    let q := rdQ x f.q
    let ls := active q
    let v (l : Nat) : W32 := (rdV x f.va l).v
    let p (l : List Nat) : Bool := l.any fun k => (rdV x f.va k).p
    let step := e.2.2.2 (envOf x)
    let both (a b : W32 × Flags) : W32 × Flags := let r := step a.1 b.1; (r.1, a.2 ||| b.2 ||| r.2)
    let tree := treeAt both (fun l => if q.getLsbD l then some (v l, 0) else none) 4 0
    let upTo (l : Nat) : W32 := (ls.filter fun k => k < l).foldl (fun z k => (step z (v k)).1) e.2.2.1
    exec (.vred f e.1 e.2.1) s = .next (laneResult s 6 f.vd (ls.map fun l => (l, ⟨(tree.getD (0, 0)).1, (tree.getD (0, 0)).2, p ls⟩))) ∧
    exec (.vscan f e.1 false e.2.1) s = .next (laneResult s 6 f.vd (ls.map fun l =>
      (l, ⟨(step (upTo l) (v l)).1, (step (upTo l) (v l)).2, p (ls.filter fun k => k ≤ l)⟩))) ∧
    exec (.vscan f e.1 true e.2.1) s = .next (laneResult s 6 f.vd (ls.map fun l =>
      (l, ⟨upTo l, (step (upTo l) (v l)).2, p (ls.filter fun k => k < l)⟩)))

/-- R257, R127: vcvt converts each element of the active lanes at latency 4. Between the two 32-bit integer types it saturates or keeps the
bits; an integer becomes the float it rounds to; a float becomes the integer next to it toward zero in the rtz form, the type's limit with
NV where that does not fit, 0 with NV for a NaN; a finite float of another format rounds once. -/
def Parts.ConversionsBetweenLaneTypes : Prop :=
  ∀ (f : VUn) (sat rtz : Bool) (src dst : VType) (s : State),
    let x := me s
    let env : REnv := { envOf x with sat := sat, mode := if rtz then .rm 1 else (envOf x).mode }
    let put (z : W32 → LaneRes) : Out := .next (laneResult s 4 f.vd ((active (rdQ x f.q)).map fun l =>
      (l, { z (rdV x f.va l).v with p := (rdV x f.va l).p })))
    exec (.vcvt f sat rtz src dst) s = put (fun a => let r := byElem dst (fun a _ _ => cvtElem src dst env a) a 0 0; ⟨r.1, r.2, false⟩) ∧
    exec (.vcvt f false rtz .i32 .n32) s = put (fun a => ⟨a, 0, false⟩) ∧
    exec (.vcvt f false rtz .n32 .i32) s = put (fun a => ⟨a, 0, false⟩) ∧
    exec (.vcvt f true rtz .i32 .n32) s = put (fun a => if a.msb then ⟨0, flOF, false⟩ else ⟨a, 0, false⟩) ∧
    exec (.vcvt f true rtz .n32 .i32) s = put (fun a => if a.msb then ⟨0x7FFFFFFF, flOF, false⟩ else ⟨a, 0, false⟩) ∧
    (∀ g, floatOf dst = some g → floatOf src = none → ∀ a < 2 ^ src.width,
      cvtElem src dst env a = g.round { env with sat := false } (decide (intOf src a < 0)) (intOf src a).natAbs 0 false) ∧
    (∀ g, floatOf src = some g → floatOf dst = none → env.ftz = false → ∀ a,
      let v := g.decode a
      let lo : Int := if dst.isSigned then -2 ^ (dst.width - 1) else 0
      let hi : Int := if dst.isSigned then 2 ^ (dst.width - 1) - 1 else 2 ^ dst.width - 1
      let z : Int := if 0 ≤ floatValue v then ⌊floatValue v⌋ else ⌈floatValue v⌉
      let low (i : Int) : Nat := (i % 2 ^ dst.width).toNat
      (v.isNan = true → cvtElem src dst env a = (0, flNV)) ∧
      (∀ n, v = .inf n → cvtElem src dst env a = (low (if n then lo else hi), flNV)) ∧
      (finite v = true → rtz = true → lo ≤ z → z ≤ hi → cvtElem src dst env a = (low z, if (z : ℚ) = floatValue v then 0 else flNX)) ∧
      (finite v = true → rtz = true → z < lo → cvtElem src dst env a = (low lo, flNV)) ∧
      (finite v = true → rtz = true → hi < z → cvtElem src dst env a = (low hi, flNV))) ∧
    (∀ g h, floatOf src = some g → floatOf dst = some h → env.ftz = false → ∀ a n m e, g.decode a = .fin n m e →
      cvtElem src dst env a = h.round env n m e false)

/-- R260, R262, R263, R122: packing writes back the whole image with its poison bits and the flags of its lanes, taken in ascending order,
and unpacking writes the active lanes, at latency 4, unless a format error is to be trapped: then the format error fault, and nothing
else. -/
def Parts.PackingWritesImagesOrFaults : Prop :=
  ∀ (f : VBin) (fmt : PkFmt) (s : State),
    let x := me s
    let ls := active (rdQ x f.q)
    let code := (rdV x f.vd 0).v.toNat % 256
    let fe : Flags := if fmt = .blk ∧ code ≠ 0x10 ∧ code ≠ 0x11 ∧ code ≠ 0x18 ∧ ls ≠ [] then flFE else 0
    let pois : BitVec 16 := maskOf ((List.range 16).filter fun l => (rdV x f.vd l).p)
    let r := ls.foldl (fun acc l => packLane fmt (envOf x) code acc (rdV x f.va l) (rdV x f.vb l)) (image x f.vd, pois, fe)
    let u (l : Nat) : Nat × Flags × List Nat := unpackLane fmt (envOf x) (image x f.va) (rdV x f.vb l).v
    let flag (fl : Flags) : List LandW := if fl = 0 then [] else [.flags fl]
    let trapped (fl : Flags) : Bool := x.fcsr.getLsbD 9 && fl.getLsbD 5
    let ufl : Flags := ls.foldl (fun z l => z ||| (u l).2.1) 0
    let fault19 : Out := .next (fault s 19 (BitVec.ofNat 64 s.cur.slot))
    (trapped r.2.2 = false → exec (.vpack f fmt) s = .next (result s 4 ((List.range 16).map (fun l =>
      LandW.lane f.vd.toNat l (BitVec.ofNat 32 (r.1 / 2 ^ (32 * l))) (r.2.1.getLsbD l)) ++ flag r.2.2))) ∧
    (trapped r.2.2 = true → exec (.vpack f fmt) s = fault19) ∧
    (trapped ufl = false → exec (.vunpack f fmt) s = .next (laneResult s 4 f.vd (ls.map fun l =>
      (l, ⟨BitVec.ofNat 32 (u l).1, (u l).2.1, (rdV x f.vb l).p || (u l).2.2.any fun k => (rdV x f.va k).p⟩)))) ∧
    (trapped ufl = true → exec (.vunpack f fmt) s = fault19)

/-- R258-R261, R263: what one lane of vpack does to the image: an index past the last element changes nothing; otherwise the bits of its
element, and of the two behind it for an outlier, are those of the converted value, every other bit stays, and poison reaches the lanes
written. -/
def Parts.PackedElements : Prop :=
  ∀ (env : REnv) (code img : Nat) (pois : BitVec 16) (fl : Flags) (a b : Lane), env.ftz = false →
    let p := (b.v.extractLsb' 8 9).toNat
    let e := (b.v.extractLsb' 0 8).toInt
    let opt := b.v.getLsbD 17
    let at_ (i lo n : Nat) : Nat := i / 2 ^ lo % 2 ^ n
    let go (fmt : PkFmt) : Nat × BitVec 16 × Flags := packLane fmt env code (img, pois, fl) a b
    let marked (lo : Nat) : BitVec 16 := if a.p || b.p then pois ||| (1#16 <<< (lo / 32)) else pois
    let puts (fmt : PkFmt) (w : Nat) (v : Nat) (g : Flags) : Prop :=
      at_ (go fmt).1 (w * p) w = v ∧ (∀ j n, j + n ≤ w * p ∨ w * p + w ≤ j → at_ (go fmt).1 j n = at_ img j n) ∧
      (go fmt).2 = (marked (w * p), fl ||| g)
    (∀ c ∈ elementCounts, c.2 ≤ p → go c.1 = (img, pois, fl)) ∧
    (∀ c ∈ ([(.f16, fF16, 16, opt), (.b16, fB16, 16, opt), (.f8e4, fF8E4, 8, true), (.f8e5, fF8E5, 8, false)] : List (PkFmt × Fmt × Nat × Bool)),
      c.2.2.1 * p < 512 → ∀ n m k, fF32.decode a.v.toNat = .fin n m k →
        let r := c.2.1.round { env with sat := c.2.2.2 } n m (k - e) false
        puts c.1 c.2.2.1 r.1 r.2) ∧
    (∀ c ∈ ([(.i16, 16), (.i8, 8)] : List (PkFmt × Nat)), c.2 * p < 512 →
      let lo : Int := -2 ^ (c.2 - 1)
      let hi : Int := 2 ^ (c.2 - 1) - 1
      let low (i : Int) : Nat := (i % 2 ^ c.2).toNat
      let i := a.v.toInt
      (opt = false ∨ (lo ≤ i ∧ i ≤ hi) → puts c.1 c.2 (low i) 0) ∧
      (opt = true → i < lo → puts c.1 c.2 (low lo) flOF) ∧ (opt = true → hi < i → puts c.1 c.2 (low hi) flOF)) ∧
    (p < 512 → puts .bin1 1 (if a.v.msb then 1 else 0) 0) ∧
    (p < 128 → ∀ n m k, fF32.decode a.v.toNat = .fin n m k →
      let z := roundInt env.mode n m (k - e)
      let room := p % 24 + 3 ≤ (if 120 ≤ p then 8 else 24)
      (-7 ≤ z.1 → z.1 ≤ 7 → puts .q4x 4 (z.1 % 16).toNat (if z.2 then flNX else 0)) ∧
      (z.1 < -7 ∨ 7 < z.1 → opt = false ∨ ¬room → puts .q4x 4 (if n then 9 else 7) (flOF ||| flNX)) ∧
      (z.1 < -7 ∨ 7 < z.1 → opt = true → room →
        let o := fF8E4.round { env with sat := true } n m (k - e) false
        at_ (go .q4x).1 (4 * p) 4 = 8 ∧ at_ (go .q4x).1 (4 * p + 4) 8 = o.1 ∧
        (∀ j n, j + n ≤ 4 * p ∨ 4 * p + 12 ≤ j → at_ (go .q4x).1 j n = at_ img j n) ∧
        (go .q4x).2 = (if a.p || b.p then marked (4 * p) ||| (1#16 <<< ((4 * p + 4) / 32)) ||| (1#16 <<< ((4 * p + 8) / 32)) else pois, fl ||| o.2)))

/-- R258, R262, R118, R119: what one lane of vunpack reads: 0 with FE past the last element or of a block with an unknown code, 0 of a null
block; otherwise the value of the element times its power of two rounded to F32, an overflow becoming an infinity. -/
def Parts.UnpackedElements : Prop :=
  ∀ (env : REnv) (img : Nat) (c : W32), env.ftz = false →
    let p := (c.extractLsb' 8 9).toNat
    let e := (c.extractLsb' 0 8).toInt
    let at_ (lo n : Nat) : Nat := img / 2 ^ lo % 2 ^ n
    let go (fmt : PkFmt) : Nat × Flags × List Nat := unpackLane fmt env img c
    let is (fmt : PkFmt) (v : Nat) (fl : Flags) : Prop := (go fmt).1 = v ∧ (go fmt).2.1 = fl
    let code := img % 256
    let scale : Int := (at_ 8 8 : Int) - 127
    let off (lo : Nat) : Int := (BitVec.ofNat 3 (at_ lo 3)).toInt
    let rounds (fmt : PkFmt) (v : Fv) (k : Int) : Prop :=
      (∀ n m x, v = .fin n m x → let r := fF32.round env n m (x + k) false
        is fmt (if r.2.getLsbD 2 then fF32.infBits n else r.1) r.2) ∧ (∀ n, v = .inf n → is fmt (fF32.infBits n) 0)
    (∀ d ∈ elementCounts, d.2 ≤ p → is d.1 0 flFE) ∧
    (∀ d ∈ ([(.f16, fF16, 16), (.b16, fB16, 16), (.f8e4, fF8E4, 8), (.f8e5, fF8E5, 8)] : List (PkFmt × Fmt × Nat)), d.2.2 * p < 512 →
      rounds d.1 (d.2.1.decode (at_ (d.2.2 * p) d.2.2)) e) ∧
    (p < 32 → is .i16 ((BitVec.ofNat 16 (at_ (16 * p) 16)).signExtend 32).toNat 0) ∧
    (p < 64 → is .i8 ((BitVec.ofNat 8 (at_ (8 * p) 8)).signExtend 32).toNat 0) ∧
    (p < 512 → is .bin1 (if at_ p 1 = 0 then 0x3F800000 else 0xBF800000) 0) ∧
    (p < 128 → (∀ i < 24, 24 * (p / 24) + i < 128 → at_ (4 * (24 * (p / 24) + i)) 4 ≠ 8) →
      let i := (BitVec.ofNat 4 (at_ (4 * p) 4)).toInt
      rounds .q4x (.fin (decide (i < 0)) i.natAbs 0) e) ∧
    (code = 0 → go .blk = (0, 0, [0, 15])) ∧
    (code ≠ 0 → code ≠ 0x10 → code ≠ 0x11 → code ≠ 0x18 → go .blk = (0, flFE, [0, 15])) ∧
    (code = 0x10 ∨ code = 0x11 → 60 ≤ p → is .blk 0 flFE) ∧ (code = 0x18 → 120 ≤ p → is .blk 0 flFE) ∧
    (∀ d ∈ ([(0x10, fF8E4), (0x11, fF8E5)] : List (Nat × Fmt)), code = d.1 → p < 60 → at_ 502 10 = 0 →
      rounds .blk (d.2.decode (at_ (16 + 8 * p) 8)) (scale + (if p < 24 then 0 else if p < 48 then off 496 else off 499) + e))

/-- R268-R270, R204: the functions of F32 in both forms: the scalar form reads bits 31:0 and zero-extends, the vector form works lane by
lane; the division reads d as well. -/
def Parts.FunctionSlotResults : Prop :=
  ∀ (g : BitVec 4) (d a : BitVec 6) (q : BitVec 4) (s : State), rdP (me s) g = true →
    let x := me s
    let env := envOf x
    let flag (fl : Flags) : List LandW := if fl = 0 then [] else [.flags fl]
    (∀ e ∈ floatFnTable,
      (let r := e.2.2 env ((rdS x a).v.extractLsb' 0 32).toNat;
       exec (e.1 ⟨g, d, a, .scalar⟩) s = .next (result s e.2.1 (.s d.toNat (BitVec.ofNat 64 r.1) (rdS x a).p :: flag r.2))) ∧
      exec (e.1 ⟨g, d, a, .vector q⟩) s = .next (laneResult s e.2.1 d ((active (rdQ x q)).map fun l =>
        let r := e.2.2 env (rdV x a l).v.toNat
        (l, ⟨BitVec.ofNat 32 r.1, r.2, (rdV x a l).p⟩)))) ∧
    (let r := fDiv env ((rdS x d).v.extractLsb' 0 32).toNat ((rdS x a).v.extractLsb' 0 32).toNat;
     exec (.fdiv ⟨g, d, a, .scalar⟩) s =
      .next (result s 20 (.s d.toNat (BitVec.ofNat 64 r.1) ((rdS x a).p || (rdS x d).p) :: flag r.2))) ∧
    exec (.fdiv ⟨g, d, a, .vector q⟩) s = .next (laneResult s 20 d ((active (rdQ x q)).map fun l =>
        let r := fDiv env (rdV x d l).v.toNat (rdV x a l).v.toNat
        (l, ⟨BitVec.ofNat 32 r.1, r.2, (rdV x a l).p || (rdV x d l).p⟩)))

/-- R271: quotients toward zero and remainders of the dividend's sign; a zero divisor gives all ones, or the dividend, with DZ; the one
overflow wraps with OF. -/
def Parts.IntegerDivisionResults : Prop :=
  ∀ (g : BitVec 4) (d a : BitVec 6) (s : State), rdP (me s) g = true →
    let n := (rdS (me s) d).v
    let m := (rdS (me s) a).v
    let p := (rdS (me s) a).p || (rdS (me s) d).p
    let put (v : Word) (fl : List LandW) : Out := .next (result s 20 (.s d.toNat v p :: fl))
    let f : FOp := ⟨g, d, a, .scalar⟩
    (m = 0 → exec (.idiv f false) s = put (-1) [.flags flDZ] ∧ exec (.idiv f true) s = put n [.flags flDZ] ∧
      exec (.idivu f false) s = put (-1) [.flags flDZ] ∧ exec (.idivu f true) s = put n [.flags flDZ]) ∧
    (m ≠ 0 → exec (.idivu f false) s = put (BitVec.ofNat 64 (n.toNat / m.toNat)) [] ∧
      exec (.idivu f true) s = put (BitVec.ofNat 64 (n.toNat % m.toNat)) []) ∧
    (m ≠ 0 → ¬(n = BitVec.intMin 64 ∧ m = -1) →
      exec (.idiv f false) s = put (BitVec.ofInt 64 (n.toInt.tdiv m.toInt)) [] ∧
      exec (.idiv f true) s = put (BitVec.ofInt 64 (n.toInt.tmod m.toInt)) []) ∧
    (n = BitVec.intMin 64 → m = -1 → exec (.idiv f false) s = put (BitVec.intMin 64) [.flags flOF] ∧
      exec (.idiv f true) s = put 0 [.flags flOF])

/-- R272-R275: random numbers of the pair s_a, s_(a+1), the reflected CRC of 2^sz bytes, one hash step and byte products in GF(2^8), in
their scalar forms. -/
def Parts.RandomCrcHashAndFieldProducts : Prop :=
  ∀ (g : BitVec 4) (d a : BitVec 6) (poly : Bool) (sz : BitVec 2) (s : State), rdP (me s) g = true →
    let x := me s
    let f : FOp := ⟨g, d, a, .scalar⟩
    let n := rdS x d
    let m := rdS x a
    let put (lat : Nat) (v : Word) (p : Bool) : Out := .next (result s lat [.s d.toNat v p])
    let mix (k c i : Word) : Word :=
      let y := c + k + i * 0x9E3779B97F4A7C15
      let y := (y ^^^ (y >>> 30)) * 0xBF58476D1CE4E5B9
      let y := (y ^^^ (y >>> 27)) * 0x94D049BB133111EB
      y ^^^ (y >>> 31)
    exec (.rng f) s = put 6 (mix m.v (mix m.v (mix m.v (rdS x (a + 1)).v 0) 1) 2) (m.p || (rdS x (a + 1)).p) ∧
    exec (.crc f poly sz) s = put 4 ((crcBytes (if poly then 0x82F63B78 else 0xEDB88320) m.v (2 ^ sz.toNat) (n.v.extractLsb' 0 32)).zeroExtend 64)
      (m.p || n.p) ∧
    exec (.hash f) s = put 4 ((n.v ^^^ (m.v * 0x8E3B5A07C91D2F6B)).rotateLeft 29 * 0x6D4A93F10B7E25C9) (m.p || n.p) ∧
    ∃ v : Word, exec (.gfmul f) s = put 4 v (m.p || n.p) ∧
      ∀ i < 8, (v.extractLsb' (8 * i) 8).toNat = gfMul (n.v.extractLsb' (8 * i) 8).toNat (m.v.extractLsb' (8 * i) 8).toNat

/-- R123, R128: sums, products and fused products of finite numbers are formed exactly and rounded once. -/
def Obligations.FloatOperationsRoundTheExactResultOnce : Prop :=
  ∀ fm ∈ formats, ∀ (env : REnv) (a b c : Nat), env.ftz = false →
    finite (fm.decode a) = true → finite (fm.decode b) = true → finite (fm.decode c) = true →
    let x := floatValue (fm.decode a)
    let y := floatValue (fm.decode b)
    let z := floatValue (fm.decode c)
    (∃ n m e, fAdd fm env a b = fm.round env n m e false ∧ floatValue (.fin n m e) = x + y) ∧
    (∃ n m e, fMul fm env a b = fm.round env n m e false ∧ floatValue (.fin n m e) = x * y) ∧
    (∃ n m e, fFma fm env a b c = fm.round env n m e false ∧ floatValue (.fin n m e) = x * y + z)

/-- R123: a finite number of a format rounds to itself, without a flag, in every rounding mode. -/
def Parts.RepresentableNumbersRoundToThemselves : Prop :=
  ∀ fm ∈ formats, ∀ (env : REnv) (a : Nat), a < 2 ^ (fm.eb + fm.fb + 1) → env.ftz = false →
    ∀ n m e, fm.decode a = .fin n m e → fm.round env n m e false = (a, 0)

/-- R123: with RM 0 a rounded result that is finite lies no farther from the exact value than any other finite number of the format. -/
def Parts.RoundToNearestIsNearest : Prop :=
  ∀ fm ∈ formats, ∀ (n : Bool) (m : Nat) (e : Int) (z : Nat),
    let r := (fm.round {} n m e false).1
    let exact := floatValue (.fin n m e)
    (fm.round {} n m e false).2.getLsbD 2 = false → finite (fm.decode z) = true →
    finite (fm.decode r) = true ∧ |floatValue (fm.decode r) - exact| ≤ |floatValue (fm.decode z) - exact|

/-- R136: the product of GF(2^8) is commutative and distributes over the sum, 1 is neutral, and gfInv inverts every nonzero byte. -/
def Parts.FieldOfBytes : Prop :=
  ∀ a < 256, ∀ b < 256, gfMul a b < 256 ∧ gfMul a b = gfMul b a ∧ gfMul a 1 = a ∧ (a ≠ 0 → gfMul a (gfInv a) = 1) ∧
    ∀ c < 256, gfMul a (b ^^^ c) = gfMul a b ^^^ gfMul a c

/-- R272-R275, R271, R246: the vector forms of the integer functions: each active lane of d and a on its own with 32-bit operands; rng adds
the lane's number to the counter of its s pair; the CRC feeds its bytes one after another, eight bit steps each. -/
def Parts.VectorFormsOfTheIntegerFunctions : Prop :=
  ∀ (g : BitVec 4) (d a : BitVec 6) (q : BitVec 4) (poly : Bool) (sz : BitVec 2) (s : State), rdP (me s) g = true →
    let x := me s
    let f : FOp := ⟨g, d, a, .vector q⟩
    let put (lat : Nat) (z : Nat → W32 → W32 → W32 × Flags) (p : Nat → Bool) : Out :=
      .next (laneResult s lat d ((active (rdQ x q)).map fun l => let r := z l (rdV x d l).v (rdV x a l).v; (l, ⟨r.1, r.2, p l⟩)))
    let both (l : Nat) : Bool := (rdV x a l).p || (rdV x d l).p
    let pol : W32 := if poly then 0x82F63B78 else 0xEDB88320
    let bit (c : W32) : W32 := if c.getLsbD 0 then (c >>> 1) ^^^ pol else c >>> 1
    exec (.idivu f false) s = put 20 (fun _ n m => if m = 0 then (-1, flDZ) else (BitVec.ofNat 32 (n.toNat / m.toNat), 0)) both ∧
    exec (.idivu f true) s = put 20 (fun _ n m => if m = 0 then (n, flDZ) else (BitVec.ofNat 32 (n.toNat % m.toNat), 0)) both ∧
    exec (.idiv f false) s = put 20 (fun _ n m => if m = 0 then (-1, flDZ) else
      if n = BitVec.intMin 32 ∧ m = -1 then (n, flOF) else (BitVec.ofInt 32 (n.toInt.tdiv m.toInt), 0)) both ∧
    exec (.idiv f true) s = put 20 (fun _ n m => if m = 0 then (n, flDZ) else
      if n = BitVec.intMin 32 ∧ m = -1 then (0, flOF) else (BitVec.ofInt 32 (n.toInt.tmod m.toInt), 0)) both ∧
    exec (.rng f) s = put 6 (fun l _ _ => ((rngOf (rdS x a).v ((rdS x (a + 1)).v + BitVec.ofNat 64 l)).extractLsb' 0 32, 0))
      (fun _ => (rdS x a).p || (rdS x (a + 1)).p) ∧
    exec (.crc f poly sz) s = put 4 (fun _ n m => (crcBytes pol (m.zeroExtend 64) (2 ^ sz.toNat) n, 0)) both ∧
    (∀ (w : Word) (c : W32), crcBytes pol w 0 c = c ∧ ∀ i < 8,
      crcBytes pol w (i + 1) c = bit^[8] (crcBytes pol w i c ^^^ (w.extractLsb' (8 * i) 8).zeroExtend 32)) ∧
    exec (.hash f) s = put 4 (fun _ n m => ((n ^^^ (m * 0x9E5D3C27)).rotateLeft 13 * 0x4A7F61B3, 0)) both ∧
    ∃ z : W32 → W32 → W32, exec (.gfmul f) s = put 4 (fun _ n m => (z n m, 0)) both ∧
      ∀ n m, ∀ i < 4, ((z n m).extractLsb' (8 * i) 8).toNat = gfMul (n.extractLsb' (8 * i) 8).toNat (m.extractLsb' (8 * i) 8).toNat

/-- R268, R211: an F slot whose guard is false changes nothing. -/
def Parts.FalseGuardsOfFunctionSlots : Prop :=
  ∀ (f : FOp) (b : Bool) (sz : BitVec 2) (s : State), rdP (me s) f.g = false →
    ∀ i ∈ [.frcp f, .frsqrt f, .fsqrt f, .fexp2 f, .flog2 f, .fsin f b, .fcos f b, .fdiv f, .idiv f b, .idivu f b, .rng f,
      .crc f b sz, .hash f, .gfmul f], exec i s = .next s

/-- R270, R125: what the functions of F32 give for zeros, infinities, numbers below zero and NaNs. -/
def Parts.SpecialOperandsOfFunctions : Prop :=
  ∀ (env : REnv),
    let pz := 0
    let nz := 0x80000000
    let pi := 0x7F800000
    let ni := 0xFF800000
    let one := 0x3F800000
    let bad : Nat × Flags := (0x7FC00000, flNV)
    let rows (fn : REnv → Nat → Nat × Flags) (a b c d : Nat × Flags) : Prop := fn env ni = a ∧ fn env nz = b ∧ fn env pz = c ∧ fn env pi = d
    let quiet (x : Nat) : Nat := x ||| 0x400000
    let sig (x : Nat) : Bool := fF32.snan (fF32.decode x)
    let isNan (x : Nat) : Prop := x < 2 ^ 32 ∧ (fF32.decode x).isNan = true
    rows fRcp (nz, 0) (ni, flDZ) (pi, flDZ) (pz, 0) ∧
    rows fRsqrt bad (ni, flDZ) (pi, flDZ) (pz, 0) ∧
    rows fSqrt bad (nz, 0) (pz, 0) (pi, 0) ∧
    rows fExp2 (pz, 0) (one, 0) (one, 0) (pi, 0) ∧
    rows fLog2 bad (ni, flDZ) (ni, flDZ) (pi, 0) ∧
    (∀ fn ∈ [trigRad, trigTurn], rows (fn false) bad (nz, 0) (pz, 0) bad ∧ rows (fn true) bad (one, 0) (one, 0) bad) ∧
    (∀ fn ∈ [fRsqrt, fSqrt, fLog2], ∀ x, floatValue (inF32 env x) < 0 → fn env x = bad) ∧
    (∀ fn ∈ [fRcp, fRsqrt, fSqrt, fExp2, fLog2, trigRad false, trigRad true, trigTurn false, trigTurn true], ∀ x, isNan x →
      fn env x = (quiet x, if sig x then flNV else 0)) ∧
    (∀ x y, isNan x → fDiv env x y = (quiet x, if sig x || sig y then flNV else 0)) ∧
    (∀ x y, isNan y → (fF32.decode x).isNan = false → fDiv env x y = (quiet y, if sig y then flNV else 0)) ∧
    (∀ x y n m, inF32 env x = .inf n → inF32 env y = .inf m → fDiv env x y = bad) ∧
    (∀ x y n m k e, inF32 env x = .inf n → inF32 env y = .fin m k e → fDiv env x y = (if n = m then pi else ni, 0)) ∧
    (∀ x y n m k e, inF32 env x = .fin n k e → inF32 env y = .inf m → fDiv env x y = (if n = m then pz else nz, 0)) ∧
    (∀ x y n m e h, inF32 env x = .fin n 0 e → inF32 env y = .fin m 0 h → fDiv env x y = bad) ∧
    (∀ x y n m k e h, k ≠ 0 → inF32 env x = .fin n k e → inF32 env y = .fin m 0 h →
      fDiv env x y = (if n = m then pi else ni, flDZ)) ∧
    (∀ x y n m k e h, k ≠ 0 → inF32 env x = .fin n 0 e → inF32 env y = .fin m k h → fDiv env x y = (if n = m then pz else nz, 0))

/-- R123, R124, R127: in every rounding mode a nonzero number goes to the multiple of its last place that the mode names, with the flags of
the rule; what is tiny is flushed under FTZ, and what is too large becomes an infinity or the largest finite number. -/
def Parts.RoundingInEveryMode : Prop :=
  ∀ fm ∈ formats, ∀ (env : REnv) (n : Bool) (m : Nat) (e : Int), m ≠ 0 → (∀ u, env.mode = .stoch u → u < 2 ^ 16) →
    RoundsTo fm env n ((m : ℝ) * 2 ^ e) (fm.round env n m e false) ∧
    fm.round env n 0 e false = (fm.sign n, 0) ∧
    (fm.hasInf = true → fm.decode (fm.infBits n) = .inf n) ∧ (fm.hasInf = false → fm.infBits n = fm.maxBits n) ∧
    finite (fm.decode (fm.maxBits n)) = true ∧ (∀ z, |floatValue (fm.decode z)| ≤ floatValue (fm.decode (fm.maxBits false))) ∧
    floatValue (fm.decode (fm.maxBits true)) = -floatValue (fm.decode (fm.maxBits false))

/-- R124: with FTZ an operand whose magnitude lies below 2^-126 acts as the zero of its sign; an operand of another magnitude is left
as it is. -/
def Parts.SmallOperandsAreFlushed : Prop :=
  ∀ fm ∈ formats, ∀ (env : REnv) (a b c : Nat) (n : Bool) (m : Nat) (e : Int), env.ftz = true → fm.decode a = .fin n m e →
    let z := fm.sign n
    let ops := [fun x => fAdd fm env x b, fun x => fAdd fm env b x, fun x => fMul fm env x b, fun x => fMul fm env b x,
      fun x => fFma fm env x b c, fun x => fFma fm env b x c, fun x => fFma fm env b c x,
      fun x => fMinMax fm env false x b, fun x => fMinMax fm env true b x]
    (|floatValue (.fin n m e)| < 2 ^ (-126 : Int) → ∀ op ∈ ops, op a = op z) ∧
    (2 ^ (-126 : Int) ≤ |floatValue (.fin n m e)| → flushIn true (fm.decode a) = fm.decode a)

/-- R250, R125: the smaller and the larger of two floats: by value, -0 below +0; a lone NaN loses, two NaNs give the first one quietened;
NV when one of them signals. -/
def Parts.MinimaAndMaxima : Prop :=
  ∀ fm ∈ formats, ∀ (env : REnv) (a b : Nat), env.ftz = false → a < 2 ^ (fm.eb + fm.fb + 1) → b < 2 ^ (fm.eb + fm.fb + 1) →
    let u := fm.decode a
    let v := fm.decode b
    let lo := fMinMax fm env false a b
    let hi := fMinMax fm env true a b
    let nv : Flags := if fm.snan u || fm.snan v then flNV else 0
    (u.isNan = false → v.isNan = false →
      (floatRank u < floatRank v → lo = (a, 0) ∧ hi = (b, 0)) ∧ (floatRank v < floatRank u → lo = (b, 0) ∧ hi = (a, 0)) ∧
      (floatRank u = floatRank v → (lo = (a, 0) ∧ hi = (b, 0) ∨ lo = (b, 0) ∧ hi = (a, 0)) ∧
        (a = fm.sign true → b = fm.sign false → lo = (a, 0) ∧ hi = (b, 0)) ∧
        (a = fm.sign false → b = fm.sign true → lo = (b, 0) ∧ hi = (a, 0)))) ∧
    (u.isNan = true → v.isNan = false → lo = (b, nv) ∧ hi = (b, nv)) ∧
    (u.isNan = false → v.isNan = true → lo = (a, nv) ∧ hi = (a, nv)) ∧
    (∀ n f, u = .nan n f → v.isNan = true → lo = (fm.quietNan n f, nv) ∧ hi = (fm.quietNan n f, nv))

/-- R269: quotients and square roots of finite numbers are the exact value rounded once in the mode of RM; fexp2 of an integer and flog2 of
a power of two are exact, and so are the sine and cosine of multiples of a quarter turn (a zero of fcos.t is +0, the model's choice: log
entry 79). -/
def Parts.FunctionsRoundTheirValueOnce : Prop :=
  ∀ (env : REnv) (k : BitVec 2) (a d : Nat), env.mode = .rm k →
    let v := inF32 env a
    let x : ℝ := ((floatValue v : ℚ) : ℝ)
    let w := inF32 env d
    let y : ℝ := ((floatValue w : ℚ) : ℝ)
    let neg (f : Fv) : Bool := decide (floatValue f < 0)
    let exact (r : Nat × Flags) (i : Int) : Prop := finite (fF32.decode r.1) = true ∧ floatValue (fF32.decode r.1) = (i : ℚ) ∧ r.2 = 0
    let zero (r : Nat × Flags) (n : Bool) : Prop := r = (fF32.sign n, 0)
    (x ≠ 0 → RoundsTo fF32 env (neg v) (1 / |x|) (fRcp env a)) ∧
    (x ≠ 0 → y ≠ 0 → RoundsTo fF32 env (neg v != neg w) (|y| / |x|) (fDiv env d a)) ∧
    (0 < x → RoundsTo fF32 env false (√x) (fSqrt env a) ∧ RoundsTo fF32 env false (1 / √x) (fRsqrt env a)) ∧
    (∀ n m e, v = .fin n m e → ∀ i : Int, (floatValue v = (i : ℚ) → -149 ≤ i → i ≤ 127 → (env.ftz = true → -126 ≤ i) →
        finite (fF32.decode (fExp2 env a).1) = true ∧ floatValue (fF32.decode (fExp2 env a).1) = 2 ^ i ∧ (fExp2 env a).2 = 0) ∧
      (floatValue v = 2 ^ i → exact (fLog2 env a) i ∧ (i = 0 → zero (fLog2 env a) false)) ∧
      (4 * floatValue v = (i : ℚ) →
        (i % 2 = 0 → zero (trigTurn false env a) n) ∧ (i % 4 = 1 → exact (trigTurn false env a) 1) ∧
        (i % 4 = 3 → exact (trigTurn false env a) (-1)) ∧
        (i % 2 = 1 → zero (trigTurn true env a) false) ∧ (i % 4 = 0 → exact (trigTurn true env a) 1) ∧
        (i % 4 = 2 → exact (trigTurn true env a) (-1))))

/-- R269: fexp2, flog2, fsin and fcos of the other finite numbers round to nearest, with NX, a number that differs from the value of the
function by less than 2^-200 (of it, or of 1 for the sine and cosine). -/
def Obligations.ElementaryFunctionsRoundACloseValue : Prop :=
  ∀ (env : REnv) (a : Nat) (n : Bool) (m : Nat) (e : Int), inF32 env a = .fin n m e → m ≠ 0 →
    let x : ℝ := ((floatValue (.fin n m e) : ℚ) : ℝ)
    let near : REnv := { env with mode := .rm 0 }
    let close (r : Nat × Flags) (t bound : ℝ) : Prop := ∃ (k : Bool) (i : Nat) (h : Int), r = fF32.round near k i h true ∧ r.2.getLsbD 0 = true ∧
      |((floatValue (.fin k i h) : ℚ) : ℝ) - t| ≤ bound
    let tiny : ℝ := 2 ^ (-200 : Int)
    ((∀ i : Int, x ≠ i) → |x| < 1000 → close (fExp2 env a) ((2 : ℝ) ^ x) (tiny * (2 : ℝ) ^ x)) ∧
    (1000 ≤ x → env.sat = false → fExp2 env a = (0x7F800000, flOF ||| flNX)) ∧ (x ≤ -1000 → fExp2 env a = (0, flUF ||| flNX)) ∧
    (0 < x → (∀ i : Int, x ≠ 2 ^ i) → close (fLog2 env a) (Real.logb 2 x) (tiny * |Real.logb 2 x|)) ∧
    close (trigRad false env a) (Real.sin x) tiny ∧ close (trigRad true env a) (Real.cos x) tiny ∧
    ((∀ i : Int, 4 * x ≠ i) → close (trigTurn false env a) (Real.sin (2 * Real.pi * x)) tiny ∧
      close (trigTurn true env a) (Real.cos (2 * Real.pi * x)) tiny)

/-! ## Memory slots (R276-R285) -/

/-- R276, R28: the checks of an access pass for every element, with its VA, its alignment and its translation. Where they fail, a gather or
scatter reports its first failing lane; any other access reports the lowest misaligned address, else the lowest address with bits above
55, else the lowest that does not translate (that a strided access reports the lowest address too is the model's reading: log entry 70);
nothing else is raised but a stall. -/
def Parts.AccessChecksInLaneOrder : Prop :=
  ∀ (s : State) (kind : AccKind) (opt lanes : Bool) (size : Nat) (es : List Elem),
    es.Pairwise (fun x y => x.lane < y.lane) → (∀ e ∈ es, e.lane < 16) →
    let check (e : Elem) : Checked := checkElem s kind opt false size es e
    let all := checkAll s kind opt size lanes es
    let va (e : Elem) : Nat := e.addr.toNat
    (∀ ps, all = .ok ps → ps.length = es.length ∧
      ∀ (i : Nat) (e : Elem) (p : Place), es[i]? = some e → ps[i]? = some p →
        p.lane = e.lane ∧ p.va = va e ∧ e.pois = false ∧ p.va % size = 0 ∧ p.va < 2 ^ 56 ∧
        translate s s.cur.core p.va kind (me s).mode opt = .ok p.pa p.a) ∧
    (lanes = true → ∀ pre e post r, es = pre ++ e :: post → (∀ x ∈ pre, ∃ p, check x = .at_ p) → check e = .raise r → all = .error r) ∧
    (lanes = false → (∀ x ∈ es, x.pois = false) → ∀ e ∈ es,
      (va e % size ≠ 0 → (∀ x ∈ es, va x % size ≠ 0 → va e ≤ va x) → all = .error (.trap ⟨4, memVal s.cur.slot (va e)⟩)) ∧
      ((∀ x ∈ es, va x % size = 0) → 2 ^ 56 ≤ va e → (∀ x ∈ es, 2 ^ 56 ≤ va x → va e ≤ va x) → all = .error (.trap ⟨5, memVal 6 (va e)⟩)) ∧
      ((∀ x ∈ es, va x % size = 0 ∧ va x < 2 ^ 56) → ∀ r, check e = .raise r → (∀ x ∈ es, va x < va e → ∃ p, check x = .at_ p) →
        all = .error r)) ∧
    (∀ r, all = .error r → r = .stall ∨ ∃ e ∈ es, check e = .raise r)

/-- R278-R280, R182, R204, R212: a global load whose elements pass their checks begins: one late access at latency 32 for its destination;
a false scalar guard performs nothing; a poisoned address is consumed where the access has an element; what a check raises is raised and
nothing performs. -/
def Parts.GlobalLoadsBegin : Prop :=
  ∀ e ∈ loadTable, ∀ (f : MMem) (s : State),
    let es := e.2.2.1 (me s) f
    let size := sizeBytes f.size
    let clean := cleanAddr (me s) f e.2.2.2
    (e.2.1 = true → rdP (me s) f.g = false → exec (e.1 f) s = .next s) ∧
    ((e.2.1 = true → rdP (me s) f.g = true) →
      (clean ∨ es = [] → ∀ ps, checkAll s .load false size e.2.2.2 es = .ok ps →
        exec (e.1 f) s = .next (startLoad s 32 (loadDst e.2.1 f) size false (ps.map fun p => (p.lane, some p)) e.2.2.2)) ∧
      (clean → ∀ r, checkAll s .load false size e.2.2.2 es = .error r → exec (e.1 f) s = .next (raise s r)) ∧
      (¬clean → es ≠ [] → exec (e.1 f) s = .next (fault s 8 (poisonVal s 1))))

/-- R45, R50, R278: a word load that hits its own L1 has its value at once, from that L1's word, and no byte of memory changes. -/
def Parts.LoadHitTakesTheL1Word : Prop :=
  ∀ (s : State) (f : MMem) (p : Place) (x : L1Word), rdP (me s) f.g = true → cleanAddr (me s) f false → f.size = .n32 →
    checkAll s .load false 4 false (scalarElems (me s) f) = .ok [p] → plainPa s p.pa → p.pa % 4 = 0 → acquiring s = false →
    l1At s s.cur.core (p.pa / 4) = some x → (myCore s).l1err.contains (p.pa / 4) = false →
    (∀ l ∈ (me s).lates, l.tag ≠ s.nextTag) →
    ∃ t, exec (.ld f) s = .next t ∧ lateBegun s t 32 (.s f.data.toNat .n32) ∧
      (∀ l ∈ (seqOf t s.cur.core s.cur.seq).lates, l.tag = s.nextTag →
        l.full = true ∧ l.elems.map (·.write l.dst) = [.s f.data.toNat (x.v.zeroExtend 64) x.p]) ∧
      (∀ a, rdByte t a = rdByte s a) ∧ t.net = s.net

/-- R283: a speculative load begins whatever its address: an element whose checks fail, or whose walk has failed, takes poison, and so does
every element under a poisoned address; every other element is read; nothing is raised. Only an element whose walk has still to run, or
that stands behind late memory, makes it wait. -/
def Parts.SpeculativeLoadsNeverFault : Prop :=
  ∀ e ∈ specTable, ∀ (f : MMem) (s : State), (e.2.1 = true → rdP (me s) f.g = true) →
    let es := e.2.2 (me s) f
    let dst := loadDst e.2.1 f
    let size := sizeBytes f.size
    let failed (x : Elem) : Prop := (s.cur.seq, x.addr.toNat) ∈ (myCore s).specFail ∨ ∃ c, checkElem s .load false true size [x] x = .raise (.trap c)
    let read (x : Elem) (p : Place) : Prop := (s.cur.seq, x.addr.toNat) ∉ (myCore s).specFail ∧ checkElem s .load false true size [x] x = .at_ p ∧
      busyAt s .load p.pa = false ∧ (size = 8 → busyAt s .load (p.pa + 4) = false)
    let ready := modCore s s.cur.core fun c => { c with specFail := c.specFail.filter fun x => x.1 ≠ s.cur.seq }
    (¬cleanAddr (me s) f false → exec (e.1 f) s = .next (startLoad s 32 dst size true (es.map fun x => (x.lane, none)))) ∧
    (cleanAddr (me s) f false → ∀ ps : List (Option Place), ps.length = es.length →
      (∀ (i : Nat) (x : Elem), es[i]? = some x → (failed x ∧ ps[i]? = some none) ∨ ∃ p, read x p ∧ ps[i]? = some (some p)) →
      exec (e.1 f) s = .next (startLoad ready 32 dst size true (List.zip (es.map (·.lane)) ps))) ∧
    (cleanAddr (me s) f false → (∀ x ∈ es, failed x) → ∃ t, exec (e.1 f) s = .next t ∧ lateBegun s t 32 dst ∧ t.raised = s.raised ∧
        (seqOf t s.cur.core s.cur.seq).boundary = (me s).boundary)

/-- R278-R280, R73, R211, R212: a global store whose elements pass their checks performs them in lane order, each at the physical address
of its element with the data of its lane, at once unless loads of its bundle stand before it, and then each waits behind them; poison of
its address is consumed where the access has an element; what a check raises is raised and nothing performs. -/
def Parts.GlobalStoresPerform : Prop :=
  ∀ e ∈ storeTable, ∀ (f : MMem) (s : State),
    let es := e.2.2.1 (me s) f
    let data := e.2.2.2.2 (me s) f
    let size := sizeBytes f.size
    let clean := cleanAddr (me s) f e.2.2.2.1
    let buf (p : Place) : Nat := bufferOf (myCore s) p.va p.a
    (e.2.1 = true → rdP (me s) f.g = false → exec (e.1 f) s = .next s) ∧
    ((e.2.1 = true → rdP (me s) f.g = true) →
      (clean ∨ es = [] → ∀ ps, checkAll s .store false size e.2.2.2.1 es = .ok ps →
        (behind s = false → exec (e.1 f) s = .next (ps.foldl (fun t p =>
          performStore t s.cur.core s.cur.seq s.cur.slot size (data p.lane).v (data p.lane).p p.va p.pa p.a.region (buf p)) s)) ∧
        (behind s = true → exec (e.1 f) s = .next (ps.foldl (fun t p =>
          putBehind t (.store s.cur.slot size (data p.lane).v (data p.lane).p p.va p.pa p.a.region (buf p))) s))) ∧
      (clean → ∀ r, checkAll s .store false size e.2.2.2.1 es = .error r → exec (e.1 f) s = .next (raise s r)) ∧
      (¬clean → es ≠ [] → exec (e.1 f) s = .next (fault s 8 (poisonVal s 1))))

/-- R45, R46: one element of a store to plain memory stands in the core's L1, byte for byte, in words that are owned or being
registered; no byte of the home's memory and no other L1 word changes. -/
def Parts.StoredBytesStandInTheL1 : Prop :=
  ∀ (s : State) (k q slot size : Nat) (data : Word) (poison : Bool) (va pa region buf : Nat),
    accessSize size → pa % size = 0 → plainPa s pa →
    let t := performStore s k q slot size data poison va pa region buf
    (∀ a, rdByte t a = rdByte s a) ∧
    (∀ k' w, (k' ≠ k ∨ w < pa / 4 ∨ pa / 4 + elemWords pa size ≤ w) → l1At t k' w = l1At s k' w) ∧
    (∀ b < size, ∃ x, l1At t k ((pa + b) / 4) = some x ∧ x.st ≠ .v ∧
      x.v.toNat / 2 ^ (8 * ((pa + b) % 4)) % 256 = data.toNat / 2 ^ (8 * b) % 256) ∧
    (poison = true → ∀ b < size, ∃ x, l1At t k ((pa + b) / 4) = some x ∧ x.p = true)

/-- R14, R276, R281, R212: scratchpad loads read the bytes of their elements at latency 6 with the poison of their words; an unaligned
element raises the misaligned-access fault, one past the declared size the scratchpad fault: for a gather the first lane that fails, for
any other access the lowest misaligned address, else the lowest past the size; nothing performs then. -/
def Parts.ScratchpadLoadsReadTheirBytes : Prop :=
  ∀ e ∈ spmLoadTable, ∀ (f : MMem) (s : State), (e.2.1 = true → rdP (me s) f.g = true) →
    let es := e.2.2.1 (me s) f
    let n := sizeBytes f.size
    let c := myCore s
    let clean := cleanAddr (me s) f e.2.2.2
    let va (x : Elem) : Nat := x.addr.toNat
    let past (x : Elem) : Prop := c.spmSize < va x + n
    let fits (x : Elem) : Prop := x.pois = false ∧ va x % n = 0 ∧ va x + n ≤ c.spmSize
    let val (w : Nat) (x : Elem) : Nat :=
      if sizeSigned f.size then ((sext (8 * n) (spmLe c (va x) n)) % (2 ^ w : Nat)).toNat else spmLe c (va x) n
    let pois (x : Elem) : Bool := (spmWord c (va x / 4)).p || (n = 8 && (spmWord c (va x / 4 + 1)).p)
    let misaligned (x : Elem) : Out := .next (fault s 4 (memVal s.cur.slot (va x)))
    let outside (x : Elem) : Out := .next (fault s 7 (memVal s.cur.slot (va x)))
    (clean ∨ es = [] → (∀ x ∈ es, fits x) →
      exec (e.1 f) s = .next (result s 6 (es.map fun x =>
        if e.2.1 then LandW.s f.data.toNat (BitVec.ofNat 64 (val 64 x)) (pois x)
        else LandW.lane f.data.toNat x.lane (BitVec.ofNat 32 (val 32 x)) (pois x)))) ∧
    (¬clean → es ≠ [] → exec (e.1 f) s = .next (fault s 8 (poisonVal s 1))) ∧
    (clean → e.2.2.2 = true → ∀ pre x post, es = pre ++ x :: post → (∀ y ∈ pre, fits y) → x.pois = false →
      (va x % n ≠ 0 → exec (e.1 f) s = misaligned x) ∧ (va x % n = 0 → past x → exec (e.1 f) s = outside x)) ∧
    (clean → e.2.2.2 = false → ∀ x ∈ es,
      (va x % n ≠ 0 → (∀ y ∈ es, va y % n ≠ 0 → va x ≤ va y) → exec (e.1 f) s = misaligned x) ∧
      ((∀ y ∈ es, va y % n = 0) → past x → (∀ y ∈ es, past y → va x ≤ va y) → exec (e.1 f) s = outside x))

/-- R14, R73, R281: scratchpad stores write the bytes of their elements in lane order and no other scratchpad byte; memory, devices and
every other core keep their contents; behind loads of their bundle they wait. -/
def Parts.ScratchpadStoresWriteTheirBytes : Prop :=
  ∀ e ∈ spmStoreTable, ∀ (f : MMem) (s : State), (e.2.1 = true → rdP (me s) f.g = true) → cleanAddr (me s) f e.2.2.2.1 →
    let es := e.2.2.1 (me s) f
    let data := e.2.2.2.2 (me s) f
    let n := sizeBytes f.size
    (∀ x ∈ es, x.pois = false ∧ x.addr.toNat % n = 0 ∧ x.addr.toNat + n ≤ (myCore s).spmSize) →
    (behind s = false → ∃ t, exec (e.1 f) s = .next t ∧ sameOutside s t ∧ (∀ k, k ≠ s.cur.core → core t k = core s k) ∧
      (∀ q, seqOf t s.cur.core q = seqOf s s.cur.core q) ∧
      (∀ a, (∀ x ∈ es, a < x.addr.toNat ∨ x.addr.toNat + n ≤ a) → spmByte (core t s.cur.core) a = spmByte (myCore s) a) ∧
      (∀ x ∈ es, (∀ y ∈ es, y = x ∨ y.addr.toNat + n ≤ x.addr.toNat ∨ x.addr.toNat + n ≤ y.addr.toNat) →
        spmLe (core t s.cur.core) x.addr.toNat n = (data x.lane).v.toNat % 2 ^ (8 * n))) ∧
    (behind s = true → exec (e.1 f) s = .next (es.foldl (fun t x =>
      putBehind t (.spm x.addr.toNat n (data x.lane).v (data x.lane).p)) s))

/-- R56, R73, R81, R284: an atomic whose address passes its checks leaves a late value at latency 48 and sends its request to the place of
its scope, at once unless something of its bundle stands before it; with release it waits for the release first, with acquire it acquires
after; poison of its operands is consumed; what a check raises is raised and nothing performs. -/
def Parts.AtomicSlotsSendTheirRequest : Prop :=
  ∀ e ∈ atomTable, ∀ (f : MAtom) (s : State), rdP (me s) f.g = true →
    let pois := (rdS (me s) f.base).p || (rdS (me s) f.idx).p || (rdS (me s) f.data).p || (e.2 = .cas && (rdS (me s) (f.data + 1)).p)
    let all := checkAll s .atomic (f.scope = 6) (sizeBytes f.size) false
      [{ lane := 0, addr := (rdS (me s) f.base).v + (rdS (me s) f.idx).v + BitVec.ofInt 64 f.off.toInt }]
    let k := s.cur.core
    let q := s.cur.seq
    (pois = true → exec (e.1 f) s = .next (fault s 8 (poisonVal s 1))) ∧
    (pois = false → ∀ r, all = .error r → exec (e.1 f) s = .next (raise s r)) ∧
    (pois = false → ∀ p, all = .ok [p] → plainPa s p.pa →
      let a : AtomReq :=
        ⟨e.2, sizeBytes f.size = 8, sizeSigned f.size, (rdS (me s) f.data).v, (rdS (me s) (f.data + 1)).v, k, q, s.nextTag, p.a.region⟩
      ∃ t, exec (e.1 f) s = .next t ∧ lateBegun s t 48 (.s f.data.toNat f.size) ∧ (∀ b, rdByte t b = rdByte s b) ∧
        (f.ord.getLsbD 1 = false → behind s = false →
          t.net = s.net ++ [.atomicExecute (atomPlace k (p.pa / 4) f.scope.toNat) (p.pa / 4) a]) ∧
        (f.ord.getLsbD 1 = false → behind s = true → t.net = s.net ∧
          ∃ w, Wait.atom w ∈ (seqOf t k q).waits ∧ w.pa = p.pa ∧ w.tag = s.nextTag) ∧
        (f.ord.getLsbD 1 = true → t.net = s.net ∧
          ∃ w, Wait.rel f.scope.toNat (some w) ∈ (seqOf t k q).waits ∧ w.pa = p.pa ∧ w.tag = s.nextTag) ∧
        (f.ord.getLsbD 0 = true → Wait.acq f.scope.toNat (-1) ∈ (seqOf t k q).waits))

/-- R284: the new value of each atomic over 32 or 64 bits, signed or not; cas writes only on a match. -/
def Parts.AtomicNewValues : Prop :=
  ∀ (a : AtomReq) (old : Word),
    let w := if a.wide then 64 else 32
    let o := old.toNat % 2 ^ w
    let x := a.x.toNat % 2 ^ w
    let num (n : Nat) : Int := if a.signed && decide (2 ^ (w - 1) ≤ n) then (n : Int) - 2 ^ w else n
    (a.kind = .add → atomNew a old = some (BitVec.ofNat 64 ((o + x) % 2 ^ w))) ∧
    (a.kind = .min → ∃ n, atomNew a old = some (BitVec.ofNat 64 n) ∧ num n = min (num o) (num x) ∧ (n = o ∨ n = x)) ∧
    (a.kind = .max → ∃ n, atomNew a old = some (BitVec.ofNat 64 n) ∧ num n = max (num o) (num x) ∧ (n = o ∨ n = x)) ∧
    (a.kind = .and → atomNew a old = some (BitVec.ofNat 64 (o &&& x))) ∧
    (a.kind = .or → atomNew a old = some (BitVec.ofNat 64 (o ||| x))) ∧
    (a.kind = .xor → atomNew a old = some (BitVec.ofNat 64 (o ^^^ x))) ∧
    (a.kind = .swp → atomNew a old = some (BitVec.ofNat 64 x)) ∧
    (a.kind = .cas → o ≠ x → atomNew a old = none) ∧
    (a.kind = .cas → o = x → atomNew a old = some (BitVec.ofNat 64 (a.y.toNat % 2 ^ w)))

/-! ## Synchronisation slots (R77-R88, R286, R287) -/

/-- R77, R78, R85, R87, R286, R287: the waiting slots leave their wait to the end of the bundle, behind those of the M slots before them; a
poisoned region mask is consumed; inval invalidates at once; a marker enters each queue named, unless more than sixteen would be
outstanding. -/
def Parts.SynchronisationSlots : Prop :=
  ∀ (f : MReg) (g : BitVec 4) (sc : BitVec 3) (qm : BitVec 2) (s : State), rdP (me s) g = true → rdP (me s) f.g = true →
    let wait (w : Wait) : Out := .next (modMe s fun x =>
      { x with waits := x.waits.takeWhile isMWait ++ w :: x.waits.dropWhile isMWait })
    let mask : Word := if f.all then -1 else (rdS (me s) f.a).v
    exec (.rel g sc) s = wait (.rel sc.toNat none) ∧ exec (.drain g) s = wait (.drain false) ∧
    exec (.drainX g) s = wait (.drain true) ∧ exec (.join g) s = wait .join ∧
    (f.all = true ∨ (rdS (me s) f.a).p = false → exec (.acq f sc) s = wait (.acq sc.toNat mask) ∧ exec (.cln f) s = wait (.cln mask) ∧
      exec (.inval f sc) s = .next (invalidate s s.cur.core sc.toNat mask)) ∧
    (f.all = false → (rdS (me s) f.a).p = true → exec (.acq f sc) s = .next (fault s 8 (poisonVal s 1)) ∧
      exec (.inval f sc) s = .next (fault s 8 (poisonVal s 1)) ∧ exec (.cln f) s = .next (fault s 8 (poisonVal s 1))) ∧
    (let u := modCore s s.cur.core popMarkers;
     let n := (me u).marks.length;
     let more := qm.getLsbD 0 = true ∧ qm.getLsbD 1 = true;
     (n + (if more then 2 else if qm = 0 then 0 else 1) ≤ 16 → ∃ t, exec (.mark g qm) s = .next t ∧ (∀ a, rdByte t a = rdByte s a) ∧
       t = modCore u s.cur.core fun c =>
         let c := if qm.getLsbD 0 then pushMarker c s.cur.seq 0 else c
         if qm.getLsbD 1 then pushMarker c s.cur.seq 1 else c) ∧
     (16 < n + (if more then 2 else if qm = 0 then 0 else 1) → exec (.mark g qm) s = .next (raise u .stall)))

/-- R53, R78: an invalidation at a scope removes the copies that were reached under a masked region from the core's own caches below it,
keeps every other copy, of its own caches and of every other core's, and every word that is owned, held or being registered, and changes no
byte of memory. -/
def Parts.InvalidationRemovesOnlyCopies : Prop :=
  ∀ (s : State) (k scope : Nat) (mask : Word),
    let t := invalidate s k scope mask
    (∀ a, rdByte t a = rdByte s a) ∧ (scope ≤ 1 → t = s) ∧ (∀ k', k' ≠ k → core t k' = core s k') ∧
    (∀ k' w x, l1At s k' w = some x → (x.st ≠ .v ∨ mget 0 (core s k).l1reg (w / 32) &&& mask = 0) → l1At t k' w = some x) ∧
    (2 ≤ scope → ∀ w x, (w, x) ∈ (core t k).l1 → x.st = .v → mget 0 (core s k).l1reg (w / 32) &&& mask = 0) ∧
    (∀ key x, (key, x) ∈ t.lvl → (key, x) ∈ s.lvl) ∧
    (∀ key x, (key, x) ∈ s.lvl → (∀ v p, x ≠ .copy v p) → (key, x) ∈ t.lvl) ∧
    (∀ key x, (key, x) ∈ s.lvl →
      ((key / 2 ^ 50 = plLanding (layerOf k) → scope < 3) ∧ (key / 2 ^ 50 = plRdc (chipOf k) → scope < 4)) ∨
        mget 0 s.reg (lkey (key / 2 ^ 50) (key % 2 ^ 50 / 32)) &&& mask = 0 → (key, x) ∈ t.lvl) ∧
    (∀ p, (p = plLanding (layerOf k) ∧ 3 ≤ scope) ∨ (p = plRdc (chipOf k) ∧ 4 ≤ scope) → ∀ w v z, w < 2 ^ 50 →
      (lkey p w, Lvl.copy v z) ∈ t.lvl → mget 0 s.reg (lkey p (w / 32)) &&& mask = 0)

/-! ## Words between the levels (R45-R64, R107, R182) -/

/-- R182, R50, R74, R277, R283, R377: a value that arrives stands in its word of its late access, at every element of the access that still
waits for that word; an error marks those elements, which are then 0 and poisoned when they land; no other access, no other element, no
register and no byte of memory changes. -/
def Parts.ArrivingValuesFillTheirAccess : Prop :=
  (∀ (s : State) (k q tag e wi : Nat) (v : W32) (z : Bool) (err : LandErr),
    ∃ t, exec (.loadValueArrives k q tag e wi v z err) s = .next t ∧ (∀ a, rdByte t a = rdByte s a) ∧ t.dev = s.dev ∧ t.net = s.net ∧
      (∀ k' q', ¬(k' = k ∧ q' = q) → seqOf t k' q' = seqOf s k' q') ∧ sameRegisters (seqOf t k q) (seqOf s k q) ∧
      (seqOf t k q).lates.length = (seqOf s k q).lates.length ∧
      ∀ (i : Nat) (l l' : Late), (seqOf s k q).lates[i]? = some l → (seqOf t k q).lates[i]? = some l' →
        (l.tag ≠ tag → l' = l) ∧
        (l.tag = tag → ∀ x, l.elems[e]? = some x → ∀ (j : Nat) (y y' : LateElem), l.elems[j]? = some y → l'.elems[j]? = some y' →
          let mine := y.w ≤ x.w + wi ∧ y.words[x.w + wi - y.w]? = some none
          (¬mine → y' = y) ∧
          (mine → y'.words = y.words.set (x.w + wi - y.w) (some ⟨v, z⟩) ∧ y'.err = (if err = .none then y.err else err) ∧
            y'.lane = y.lane ∧ y'.off = y.off ∧ y'.va = y.va ∧ y'.w = y.w))) ∧
  (∀ (x : LateElem) (d : Nat) (size : MSize), x.err ≠ .none → x.write (.s d size) = .s d 0 true ∧ x.write (.v d size) = .lane d x.lane 0 true)

/-- R46, R47: a registration, of one word or of two, at a level that holds nothing, or a copy, names the level below it as the owner,
acknowledges itself to the L1 and climbs on; at the home, where no word of the line is registered, it is acknowledged for the last
time, and with fetch brings the value of memory to the L1. -/
def Parts.RegistrationsClimbAndAcknowledge : Prop :=
  ∀ (s : State) (org w p up k q : Nat), s.regNow = [] → locked s p w = false →
    (lvlAt s p w = none ∨ ∃ v z, lvlAt s p w = some (.copy v z)) →
    (isTop p w = false → nextUp k w p = some up → ∀ fetch, ∃ t, exec (.registration org w p ⟨fetch, false⟩ k q) s = .next t ∧
      lvlAt t p w = some (.owner org) ∧ (∀ p' w', lkey p' w' ≠ lkey p w → lvlAt t p' w' = lvlAt s p' w') ∧
      t.net = s.net ++ [.registrationAck k w p false, .registration p w up ⟨fetch, false⟩ k q] ∧ t.mem = s.mem ∧ t.cores = s.cores) ∧
    (isTop p w = false → nextUp k w p = some up → locked s p (w + 1) = false → lvlAt s p (w + 1) = none →
      nextUp k (w + 1) p = some up → ∀ fetch, ∃ t, exec (.registration org w p ⟨fetch, true⟩ k q) s = .next t ∧
      lvlAt t p w = some (.owner org) ∧ lvlAt t p (w + 1) = some (.owner org) ∧
      t.net = s.net ++ [.registrationAck k w p false, .registrationAck k (w + 1) p false, .registration p w up ⟨fetch, true⟩ k q]) ∧
    (isTop p w = true → isHostPa (4 * w) = false → dropsPa s (4 * w) = false → movingPa s (4 * w) = false → s.held = [] →
      (∀ x ∈ lineWords (w / 32), lvlAt s p x = none) →
      (∃ t, exec (.registration org w p ⟨false, false⟩ k q) s = .next t ∧ lvlAt t p w = some (.owner org) ∧
        Instr.registrationAck k w p true ∈ t.net ∧ t.mem = s.mem ∧ t.cores = s.cores) ∧
      (∀ m whole y py, hbmRead s (4 * w) = .served → badAt s 0x2000 w = false → l1At s k w = some ⟨.pend m whole, y, py⟩ →
        ∃ t, exec (.registration org w p ⟨true, false⟩ k q) s = .next t ∧ lvlAt t p w = some (.owner org) ∧
        Instr.registrationAck k w p true ∈ t.net ∧ t.mem = s.mem ∧
        l1At t k w = some ⟨.o, mergeW (memWord s w).v y m, py || (!whole && (memWord s w).p)⟩))

/-- R46, R47: an acknowledgement marks the oldest registration of its word at the L1, and the last one ends it; a displacement that finds the
old owner's L1 with the word takes it away, names the new owner at the level that sent it, acknowledges the registration there, and
brings the value only where it is asked for. -/
def Parts.AcknowledgementsAndDisplacements : Prop :=
  ∀ (s : State) (k c w at_ src q : Nat) (v : W32) (z : Bool),
    ((core s k).outst = [{ w := w, seq := q }] → climbing s w = true → ∃ t, exec (.registrationAck k w at_ true) s = .next t ∧
      (core t k).outst = [{ w := w, seq := q, acked := [at_, 0x2000] }] ∧ (∀ a, rdByte t a = rdByte s a) ∧
      (∀ k', k' ≠ k → core t k' = core s k')) ∧
    ((core s k).outst = [{ w := w, seq := q }] → climbing s w = false → ∃ t, exec (.registrationAck k w at_ true) s = .next t ∧
      (core t k).outst = []) ∧
    (k < 0x200 → c < 0x200 → c ≠ k → 0x200 ≤ src → s.locks = [(src, w)] → s.deadChips.contains (chipOf k) = false →
      l1At s k w = some ⟨.o, v, z⟩ → lvlAt s src w = some (.owner k) →
      (∃ t, exec (.displacement w k src (.own c)) s = .next t ∧ l1At t k w = none ∧
        (∀ k' w', ¬(k' = k ∧ w' = w) → l1At t k' w' = l1At s k' w') ∧ lvlAt t src w = some (.owner (childOf c w src)) ∧ t.locks = [] ∧
        t.net = s.net ++ [.registrationAck c w src true] ∧ ∀ a, rdByte t a = rdByte s a) ∧
      (∀ m whole y py, l1At s c w = some ⟨.pend m whole, y, py⟩ →
        ∃ t, exec (.displacement w k src (.l1 c)) s = .next t ∧ l1At t k w = none ∧
          l1At t c w = some ⟨.o, mergeW v y m, py || (!whole && z)⟩ ∧ lvlAt t src w = some (.owner (childOf c w src)) ∧ t.locks = [] ∧
          t.net = s.net ++ [.registrationAck c w src true] ∧ ∀ a, rdByte t a = rdByte s a))

/-- R50, R51: a read forwarded to the L1 that owns the word is answered with its value, which the requester's L1 keeps as a copy, and the owner
keeps owning it (that the reply passes in the same event is the model's choice: log entry 30); a reply unlocks what its read had locked and brings its value to its access; a level that answered that it does not
hold a word, whose value stands nowhere below the level that asked, makes its owner lost. -/
def Parts.ForwardedReadsAreAnswered : Prop :=
  ∀ (s : State) (k w src c q tag e wi r : Nat) (x : Lane) (locks : List Nat),
    (k < 0x200 → k ≠ src → dropsPa s (4 * w) = false → s.deadChips.contains (placeChip k) = false → l1At s k w = some ⟨.o, x.v, x.p⟩ →
      ∃ t, exec (.forwardedRead w k src (.load c q tag e wi r)) s = .next t ∧ l1At t k w = some ⟨.o, x.v, x.p⟩ ∧
      (l1At s c w = none → l1At t c w = some ⟨.v, x.v, x.p⟩) ∧
      t.net = s.net ++ [.loadValueArrives c q tag e wi x.v x.p .none] ∧ ∀ a, rdByte t a = rdByte s a) ∧
    (∃ t, exec (.readReply w src (.load c q tag e wi r) x.v x.p 7 locks) s = .next t ∧
      t.net = s.net ++ [.loadValueArrives c q tag e wi x.v x.p .none] ∧ t.locks = locks.foldl (fun l p => l.erase (p, w)) s.locks ∧
      (∀ k', l1At t k' w = l1At s k' w) ∧ ∀ a, rdByte t a = rdByte s a) ∧
    (∀ path id cause, follow (unlockAll s locks w) w 6 src [] = .lost path id cause → lvlAt s src w = some (.owner k) →
      protectedPa s (4 * w) = false →
      ∃ t, exec (.notHeldAnswer w k src (.load c q tag e wi r) locks) s = .next t ∧ (memWord t w).p = true ∧
        Instr.loadValueArrives c q tag e wi 0 true .ownerLost ∈ t.net)

/-- R49: a recall at a landing or a data cache moves the word it holds one level up, or to the home where that level is a reticle registry; a
word owned by an L1 below stays V there and becomes Held above; a copy goes; an entry that is not there changes nothing. -/
def Parts.RecallsMoveHeldWordsUp : Prop :=
  ∀ (s : State) (p w up h : Nat) (v : W32) (z : Bool),
    (lvlAt s p w = none → exec (.recallWord p w) s = .next s) ∧
    (0x200 ≤ p → p < 0x600 → s.locks = [] → s.deadChips = [] → climbing s w = false → isTop p w = false →
      nextUp (coreUnder p) w p = some up → up ≠ p →
      (lvlAt s p w = some (.copy v z) → ∃ t, exec (.recallWord p w) s = .next t ∧ lvlAt t p w = none ∧ t.mem = s.mem ∧ t.cores = s.cores) ∧
      (lvlAt s p w = some (.held v z) → ∃ t, exec (.recallWord p w) s = .next t ∧ lvlAt t p w = none ∧ t.mem = s.mem ∧ t.cores = s.cores ∧
        ((up < 0x600 ∨ 0x800 ≤ up) → lvlAt t up w = some (.held v z)) ∧
        (0x600 ≤ up → up < 0x800 → lvlAt t up w = none ∧ lvlAt t (plHome (homeChip (4 * w))) w = some (.held v z))) ∧
      (lvlAt s p w = some (.owner h) → h < 0x200 → l1At s h w = some ⟨.o, v, z⟩ →
        ∃ t, exec (.recallWord p w) s = .next t ∧ lvlAt t p w = none ∧ l1At t h w = some ⟨.v, v, z⟩ ∧ t.mem = s.mem ∧
        ((up < 0x600 ∨ 0x800 ≤ up) → lvlAt t up w = some (.held v z)) ∧
        (0x600 ≤ up → up < 0x800 → lvlAt t up w = none ∧ lvlAt t (plHome (homeChip (4 * w))) w = some (.held v z))))

/-- R52, R60, R84, R277: a write at a home that holds the value itself merges its bytes into memory and changes no other word; one of an engine
command counts down the writes that the command has left, and changes nothing else of it. -/
def Parts.HomeWritesMergeTheirBytes : Prop :=
  ∀ (s : State) (h : HomeWr), h.op = .write → isHbm (4 * h.w) = true → protectedPa s (4 * h.w) = false →
    movingPa s (4 * h.w) = false → hbmRes s (4 * h.w) = .served → s.held = [] →
    (∀ x ∈ lineWords (h.w / 32), lvlAt s (plHome (homeChip (4 * h.w))) x = none) → mget false s.bad h.w = false →
    let merged (t : State) : Prop :=
      memWord t h.w = ⟨mergeW (memWord s h.w).v h.data h.mask, h.poison || (h.mask ≠ 15 && (memWord s h.w).p)⟩ ∧
      (∀ a, a / 4 ≠ h.w → rdByte t a = rdByte s a) ∧ (∀ w, w ≠ h.w → (memWord t w).p = (memWord s w).p)
    (h.src = .none → ∃ t, exec (.homeWrite h) s = .next t ∧ merged t ∧ t.cores = s.cores) ∧
    (∀ k q id m, h.src = .cmd k q id → intakeOf s (4 * h.w) = none → mlook (core s k).cmds id = some m →
      ∃ t, exec (.homeWrite h) s = .next t ∧ merged t ∧
        mlook (core t k).cmds id = some { m with left := m.left - 1 } ∧
        (∀ j, j ≠ id → mlook (core t k).cmds j = mlook (core s k).cmds j) ∧ (∀ k', k' ≠ k → core t k' = core s k') ∧
        ∀ j, seqOf t k j = seqOf s k j)

/-- R56, R284, R285: an atomic that executes at an L1 that owns its words writes its new value there, and the old value goes back to its
sequencer; the new value is that of the operation over the old one, word by word; at a poisoned word all but the swap leave it as it is. -/
def Parts.AtomicsExecuteWhereTheWordIs : Prop :=
  (∀ (s : State) (k w : Nat) (a : AtomReq) (old : List Lane), k < 0x200 →
    let ws := if a.wide then [w, w + 1] else [w]
    (∀ x ∈ ws, x ∉ (core s a.core).l1err) → old.length = ws.length →
    (∀ (i x : Nat) (o : Lane), ws[i]? = some x → old[i]? = some o → l1At s k x = some ⟨.o, o.v, o.p⟩) →
    ∃ t, exec (.atomicExecute k w a) s = .next t ∧
      t.net = s.net ++ (List.range old.length).map (fun i =>
        .loadValueArrives a.core a.seq a.tag 0 i (old.getD i {}).v (old.getD i {}).p .none) ∧
      (∀ (i x : Nat) (n : Lane), ws[i]? = some x → (atomWords a old)[i]? = some n → l1At t k x = some ⟨.o, n.v, n.p⟩) ∧
      (∀ k' w', ¬(k' = k ∧ w' ∈ ws) → l1At t k' w' = l1At s k' w') ∧ t.lvl = s.lvl ∧ ∀ b, rdByte t b = rdByte s b) ∧
  (∀ (a : AtomReq) (old : List Lane), old.length = (if a.wide then 2 else 1) →
    let o := joinWords (old.map some)
    ((∀ x ∈ old, x.p = false) ∨ a.kind = .swp →
      (∀ n, atomNew a (BitVec.ofNat 64 o) = some n →
        atomWords a old = (List.range old.length).map fun i => ⟨BitVec.ofNat 32 (n.toNat / 2 ^ (32 * i)), false⟩) ∧
      (atomNew a (BitVec.ofNat 64 o) = none → atomWords a old = old)) ∧
    ((∃ x ∈ old, x.p = true) → a.kind ≠ .swp → atomWords a old = old))

/-- R58, R59, R61, R107, R45: an owner that has not answered within OWN_TMO is lost, and its requester takes the error; a core reset empties
its L1; an uncorrectable error removes the copies that its check covers, or loses an owned word; a corrected one only enters the error log.
The numbers of the kinds of error-log records are the model's choice (log entry 52). -/
def Parts.LostOwnersAndErrors : Prop :=
  ∀ (s : State) (k w src c q tag e wi r stage : Nat) (v : W32) (z : Bool),
    (Instr.forwardedRead w k src (.load c q tag e wi r) ∈ s.net → protectedPa s (4 * w) = false →
      (∃ asked, mlook s.ownReq w = some asked ∧ bits (rdReg s .ownTmo) 0 16 * 1024 ≤ s.clk - asked) →
      ∃ t, exec (.ownTmoExpiry w k src (.load c q tag e wi r) []) s = .next t ∧ (memWord t w).p = true ∧
        Instr.loadValueArrives c q tag e wi 0 true .ownerLost ∈ t.net) ∧
    (∃ t, exec (.coreReset k) s = .next t ∧ (core t k).l1 = [] ∧ (core t k).outst = [] ∧ (∀ k', k' ≠ k → core t k' = core s k') ∧
      t.lvl = s.lvl ∧ (core t k).spm = (core s k).spm ∧ (∀ j, seqOf t k j = seqOf s k j) ∧ ∀ a, rdByte t a = rdByte s a) ∧
    (k < 0x200 → manyErrors (logUnc s k [BitVec.ofNat 64 w]) = false →
      ((∀ x ∈ [w / 2 * 2, w / 2 * 2 + 1], l1At s k x = none ∨ ∃ v z, l1At s k x = some ⟨.v, v, z⟩) →
        ∃ t, exec (.uncorrectableError k w) s = .next t ∧ (∀ x ∈ [w / 2 * 2, w / 2 * 2 + 1], l1At t k x = none) ∧
        t.errLog = s.errLog ++ [⟨2, k, s.clk, [BitVec.ofNat 64 w]⟩] ∧ ∀ a, rdByte t a = rdByte s a) ∧
      ((∀ x ∈ [w / 2 * 2, w / 2 * 2 + 1], protectedPa s (4 * x) = false) → l1At s k w = some ⟨.o, v, z⟩ →
        ∃ t, exec (.uncorrectableError k w) s = .next t ∧ l1At t k w = none ∧ (memWord t w).p = true ∧ w ∈ (core t k).l1err)) ∧
    exec (.correctedError stage) s = .next { s with errLog := s.errLog ++ [⟨1, stage, s.clk, []⟩] }

/-- R11, R62, R99, R189, R290, R344, R347, R363: a read by system software gives the register's value and clears its counted fields only; every
other register, memory and every core stay. -/
def Obligations.RegisterReadsClearTheirCounts : Prop :=
  ∀ (s : State) (c st k p e : Nat), 7 ≤ s.bringup →
    ∀ x ∈ ([(.ownLogbRead c, .ownLogB c, [(0, 32)]), (.hbmStsRead st, .hbmSts st, [(16, 16)]), (.wdgStsRead k, .wdgSts k, [(32, 16)]),
      (.engErrRead k, .engErr k, [(0, 32)]), (.evqCfgRead, .evqCfg, [(16, 16)]), (.lnkStsRead p, .lnkSts p, [(16, 16), (32, 16)]),
      (.peStsRead e, .peSts e, [(16, 16), (32, 16), (48, 16)])] : List (Instr × Reg × List (Nat × Nat))),
      ∃ t, exec x.1 s = .next t ∧ t.sysRd = regValue s x.2.1 :: s.sysRd ∧
        (∀ i < 64, (rdReg t x.2.1).getLsbD i =
          ((rdReg s x.2.1).getLsbD i && !x.2.2.any fun f => decide (f.1 ≤ i ∧ i < f.1 + f.2))) ∧
        (∀ r, r.key ≠ x.2.1.key → rdReg t r = rdReg s r) ∧ t.mem = s.mem ∧ t.cores = s.cores ∧ t.lvl = s.lvl ∧ t.net = s.net

/-- R63, R64: the host invalidates a line shared with it, and a recalled line none of whose words is registered returns at once; while its
port is up, its read of a line changes no value, its writes become home writes, and its registration of a line that nobody owns makes
it the owner of all 32 words with the values it names. -/
def Parts.HostLinesReturn : Prop :=
  ∀ (s : State) (p line : Nat) (ws : List HomeWr) (data : List W32),
    (mlook s.gw (lkey p line) = some .shared → ∃ t, exec (.hostLineInvalidate p line) s = .next t ∧ mlook t.gw (lkey p line) = none ∧
      t.mem = s.mem ∧ t.lvl = s.lvl ∧ t.cores = s.cores) ∧
    (mlook s.gw (lkey p line) = some .owned → (∀ w ∈ lineWords line, lvlAt s (plGw p) w = none) →
      ∃ t, exec (.hostLineRecall p line) s = .next t ∧ mlook t.gw (lkey p line) = none ∧ t.mem = s.mem ∧ t.lvl = s.lvl) ∧
    (hostUp s p = true → (∃ t, exec (.hostRequest (.write p line ws)) s = .next t ∧
        t.net = s.net ++ ws.map (fun h => .homeWrite { h with src := .host }) ∧ t.mem = s.mem) ∧
      (∃ t, exec (.hostRequest (.read p line)) s = .next t ∧ t.mem = s.mem ∧ t.lvl = s.lvl ∧ t.cores = s.cores ∧ t.net = s.net) ∧
      (p < 2 → dropsPa s (128 * line) = false → movingPa s (128 * line) = false →
        (∀ w ∈ lineWords line, lvlAt s (plHome (homeChip (128 * line))) w = none) →
        ∃ t, exec (.hostRequest (.register p line data)) s = .next t ∧ t.mem = s.mem ∧ t.cores = s.cores ∧
          ∀ i < 32, lvlAt t (plHome (homeChip (128 * line))) (32 * line + i) = some (.owner (plGw p)) ∧
            lvlAt t (plGw p) (32 * line + i) = some (.held (data.getD i 0) false))) ∧
    (hostUp s p = false → exec (.hostRequest (.write p line ws)) s = .next s ∧ exec (.hostRequest (.read p line)) s = .next s ∧
      exec (.hostRequest (.register p line data)) s = .next s)

/-! ## Translation and pending faults (R18-R38, R378, R379) -/

/-- R20, R38: the walker supplies the two leaves of the fixed window whatever the context's table; the checks of an entry in their order: not
valid 0; of a leaf its reserved bits and home kind 1, its level and page size 2, the alignment of its page 3, its PA 4; of a pointer its
reserved bits 1, its level 2, a bad PA 4, a table outside HBM 5. -/
def Parts.WalksCheckEntriesInOrder : Prop :=
  ∀ (s : State) (chip ctx va l : Nat) (e : Word),
    let reserved := e.getLsbD 14 = true ∨ e.getLsbD 2 = true ∨ bits e 11 2 = 3
    let misfit := 3 ≤ l ∨ bits e 3 2 ≠ l
    let unaligned := bits e 16 36 * 65536 % pageSize l ≠ 0
    let must0 := bits e 52 12 ≠ 0 ∨ bits e 2 6 ≠ 0 ∨ (2 ≤ l ∧ bits e 8 4 ≠ 0)
    let table := bits e 8 44 * 256
    (0xFFFFFFFFFF0000 ≤ va → va < 2 ^ 56 →
      ∃ e es, pageWalk s chip ctx va = (.leaf e 0, es) ∧ (leafAttr e).r = true ∧ (leafAttr e).w = false ∧ (leafAttr e).x = false) ∧
    (0xFFFFFFFFE00000 ≤ va → va < 0xFFFFFFFFFE0000 → pageWalk s chip ctx va = (.fail 7, [])) ∧
    (va < 0xFFFFFFFFE00000 → (rdReg s (.xltRoot ctx)).getLsbD 0 = false → pageWalk s chip ctx va = (.fail 0, [])) ∧
    (e.getLsbD 0 = false → entryFault s l e = some 0) ∧
    (e.getLsbD 0 = true → e.getLsbD 1 = true →
      (reserved → entryFault s l e = some 1) ∧ (¬reserved → misfit → entryFault s l e = some 2) ∧
      (¬reserved → ¬misfit → unaligned → entryFault s l e = some 3) ∧
      (¬reserved → ¬misfit → ¬unaligned → leafPaOk s e (pageSize l) = false → entryFault s l e = some 4) ∧
      (¬reserved → ¬misfit → ¬unaligned → leafPaOk s e (pageSize l) = true → entryFault s l e = none)) ∧
    (e.getLsbD 0 = true → e.getLsbD 1 = false →
      (must0 → entryFault s l e = some 1) ∧ (¬must0 → l = 0 → entryFault s l e = some 2) ∧
      (¬must0 → l ≠ 0 → paBad s table = true → entryFault s l e = some 4) ∧
      (¬must0 → l ≠ 0 → paBad s table = false → isHbm table = false → entryFault s l e = some 5) ∧
      (¬must0 → l ≠ 0 → paBad s table = false → isHbm table = true → entryFault s l e = none))

/-- R27, R378, R379: a walk that finds an allowed leaf lets its access go on; one that fails makes a pending fault with its reason, kind, VA
and bundle, unless it was speculative; either way the walk is over; a walk whose entries are still on their way goes on and caches nothing. -/
def Parts.WalksCompleteOrPend : Prop :=
  ∀ (s : State) (w : Walk) (r : WalkRes) (es : List WEnt), (s.walks.find? fun x => x.core = w.core && x.idx = w.idx) = some w →
    pageWalk s (chipOf w.core) w.ctx w.va = (r, es) → w.idx < 32 →
    let found := ∀ x ∈ walkWords s (chipOf w.core) w.ctx w.va r es, ∀ path id cause, homeFind s x ≠ .lost path id cause
    (r = .wait → found → ∃ t, exec (.walkComplete w.core w.idx) s = .next t ∧ t.walks = s.walks ∧ t.wcache = s.wcache ∧ t.dev = s.dev ∧
      t.cores = s.cores ∧ t.mem = s.mem) ∧
    (∀ e l, r = .leaf e l → ((leafAttr e).s = false ∨ w.system = true) → (leafAttr e).allows w.kind w.opt = true →
      ∃ t, exec (.walkComplete w.core w.idx) s = .next t ∧ (seqOf t w.core w.idx).stalled = false ∧
        (∀ x ∈ t.walks, ¬(x.core = w.core ∧ x.idx = w.idx)) ∧ (∀ e ∈ es, e ∈ t.wcache) ∧
        isPending t w.core w.idx = isPending s w.core w.idx ∧ ∀ a, rdByte t a = rdByte s a) ∧
    (∀ n, r = .fail n → n < 16 →
      (w.spec = false → ∃ t, exec (.walkComplete w.core w.idx) s = .next t ∧ isPending t w.core w.idx = true ∧
        bits (rdReg t (.fltRecA w.core w.idx)) 60 4 = n ∧ bits (rdReg t (.fltRecA w.core w.idx)) 56 4 = kindCode w.kind ∧
        bits (rdReg t (.fltRecA w.core w.idx)) 0 56 = w.va % 2 ^ 56 ∧ (rdReg t (.fltRecB w.core w.idx)).getLsbD 63 = true ∧
        bits (rdReg t (.fltRecB w.core w.idx)) 0 56 = bits w.pc 0 56 ∧ (∀ x ∈ t.walks, ¬(x.core = w.core ∧ x.idx = w.idx))) ∧
      (w.spec = true → found → ∃ t, exec (.walkComplete w.core w.idx) s = .next t ∧ (seqOf t w.core w.idx).stalled = false ∧
        (w.idx, w.va) ∈ (core t w.core).specFail ∧ isPending t w.core w.idx = isPending s w.core w.idx ∧
        (∀ x ∈ t.walks, ¬(x.core = w.core ∧ x.idx = w.idx))))

/-- R23, R415: once bring-up is complete, writing INV drops every cached entry of the context and no other; its completion drops those cached since and ends the write. -/
def Parts.InvalidationDropsTranslations : Prop :=
  ∀ (s : State) (x : Nat) (v : Word),
    (7 ≤ s.bringup → v.getLsbD 0 = true → ∃ t, exec (.xltWinvWrite x v) s = .next t ∧ (∀ e, e ∈ t.wcache ↔ e ∈ s.wcache ∧ e.ctx ≠ x) ∧
      t.winv = s.winv ++ [x] ∧ t.mem = s.mem ∧ t.cores = s.cores ∧ t.dev = s.dev) ∧
    (v.getLsbD 0 = false ∨ s.bringup < 7 → exec (.xltWinvWrite x v) s = .next s) ∧
    (x ∈ s.winv → ∃ t, exec (.xltWinvComplete x) s = .next t ∧ (∀ e, e ∈ t.wcache ↔ e ∈ s.wcache ∧ e.ctx ≠ x) ∧
      t.winv = s.winv.erase x ∧ t.mem = s.mem ∧ t.cores = s.cores)

/-- R378, R373, R377, R382, R29: RESUME lets the sequencer check again, and forgets the speculative walks that have failed; DELIVER takes the fault
at the recorded bundle with its cause, detail and VA, or a landing fault that has come meanwhile, or gives an engine's command fault status; KILL ends the task with the pending cause; without a pending fault, or while the task is
pre-empted, nothing happens. -/
def Parts.PendingFaultCommands : Prop :=
  ∀ (s : State) (k i : Nat), i < 34 →
    let c := if bits (rdReg s (.fltRecA k i)) 60 4 = 15 then 6 else 5
    (isPending s k i = false ∨ corePreempted s k = true →
      exec (.fltCmdResume k i) s = .next s ∧ exec (.fltCmdDeliver k i) s = .next s ∧ exec (.fltCmdKill k i) s = .next s) ∧
    (isPending s k i = true → corePreempted s k = false →
      (i < 32 → ∃ t, exec (.fltCmdResume k i) s = .next t ∧ (seqOf t k i).stalled = false ∧ (seqOf t k i).pc = (seqOf s k i).pc ∧
        isPending t k i = false ∧ (∀ va, (i, va) ∉ (core t k).specFail) ∧ (∀ a, rdByte t a = rdByte s a) ∧ t.walks = s.walks) ∧
      (32 ≤ i → exec (.fltCmdResume k i) s = .next (modCore (clearPend s k i) k fun c => { c with specFail := c.specFail.filter fun x => x.1 ≠ i })) ∧
      exec (.fltCmdKill k i) s = .next (endCoreTask (clearPend s k i) k 4 c) ∧
      (i < 32 → exec (.fltCmdDeliver k i) s = .next
        (takeTrap (modSeq (clearPend s k i) k i fun x => { x with stalled := false, boundary := [] }) k i
          (rdReg s (.fltRecB k i) &&& 0x00FFFFFFFFFFFFFF)
          ((seqOf s k i).boundary.headD ⟨c, memVal (if c = 5 then bits (rdReg s (.fltRecA k i)) 60 4 else (seqOf s k i).pendSlot)
            (bits (rdReg s (.fltRecA k i)) 0 56)⟩))) ∧
      (32 ≤ i → ∀ m, mlook (core s k).cmds (mget 0 (core s k).pendCmd (i - 32)) = some m → m.status = 0 →
        ∃ t m', exec (.fltCmdDeliver k i) s = .next t ∧ mlook (core t k).cmds m.id = some m' ∧ m'.st = .done ∧ m'.status = 2 ∧
          m'.eva = bits (rdReg s (.fltRecA k i)) 0 56 ∧ isPending t k i = false))

/-! ## Engine slots and commands (R84, R178, R288-R304) -/

/-- R288, R292, R294-R297, R301, R122, R204: an engine slot whose registers are clean enters its queue as a command that has taken its
registers, scope, flags, wait, signal and rounding at issue; a poisoned register is consumed; a full queue holds the sequencer or
faults. -/
def Parts.EngineSlotsEnqueueTheirCommand : Prop :=
  ∀ (f : MEng) (s : State), rdP (me s) f.g = true →
    let x := me s
    let base (q opc v : Nat) : Cmd := {
      id := 0, q := q, opc := opc, variant := v, seq := s.cur.seq, scope := f.scope.toNat, acq := f.acq, rel := f.rel, w := f.w,
      rm := x.fcsr.extractLsb' 10 2, ftz := x.fcsr.getLsbD 12, fet := x.fcsr.getLsbD 9, system := x.mode, pc := s.cur.pc, tag0 := x.tag0,
      b := (rdS x f.b).v }
    (∀ e ∈ regCmdTable,
      let n := e.2.2.2 x f
      ((rdS x f.b).p = false → (∀ i < n, (rdS x (f.a + BitVec.ofNat 6 i)).p = false) →
        exec (e.1 f) s = .next (issued s 1 { base 1 e.2.1 e.2.2.1 with
          regs := (List.range n).map fun i => (rdS x (f.a + BitVec.ofNat 6 i)).v })) ∧
      ((rdS x f.b).p = true → exec (e.1 f) s = .next (fault s 8 (poisonVal s 1))) ∧
      ((rdS x f.b).p = false → (∃ i < n, (rdS x (f.a + BitVec.ofNat 6 i)).p = true) →
        exec (e.1 f) s = .next (fault s 8 (poisonVal s 1)))) ∧
    (∀ e ∈ tileCmdTable,
      ((rdS x f.b).p = false → (∀ l < 6, (rdV x f.a l).p = false) →
        exec (e.1 f) s = .next (issued s e.2.1 { base e.2.1 e.2.2.1 e.2.2.2 with lanes := (List.range 6).map fun l => (rdV x f.a l).v })) ∧
      ((rdS x f.b).p = true → exec (e.1 f) s = .next (fault s 8 (poisonVal s 1))) ∧
      ((rdS x f.b).p = false → (∃ l < 6, (rdV x f.a l).p = true) →
        ∃ lanes, (∀ l < 16, lanes.testBit l = (decide (l < 6) && (rdV x f.a l).p)) ∧ exec (e.1 f) s = .next (fault s 8 (poisonVal s lanes))))

/-- R298, R300, R302, R312: trig takes the registers its stored transfer uses; the shape slot and the verb call enter the matrix queue; the m
registers are written at latency 1; a verb call's operand and mode word are checked first. -/
def Parts.TriggerShapeAndCallSlots : Prop :=
  ∀ (f : MEng) (v : BitVec 4) (g : BitVec 4) (a : BitVec 6) (n : BitVec 3) (w : WaitSig) (s : State),
    rdP (me s) f.g = true → rdP (me s) g = true →
    let x := me s
    let r := rdS x a
    let m0 := mget 0 x.m 0
    let base (q opc v : Nat) (w : WaitSig) : Cmd := {
      id := 0, q := q, opc := opc, variant := v, seq := s.cur.seq, w := w,
      rm := x.fcsr.extractLsb' 10 2, ftz := x.fcsr.getLsbD 12, fet := x.fcsr.getLsbD 9, system := x.mode, pc := s.cur.pc, tag0 := x.tag0 }
    let t := rdS x (f.a + 4)
    let k := if t.v.getLsbD 9 then 3 else if v.toNat < 4 ∧ (rdS x f.b).v.getLsbD 63 = true then 4 else 2
    (t.p = false → (rdS x f.b).p = false → (∀ i < k, (rdS x (f.a + BitVec.ofNat 6 i)).p = false) →
      exec (.trig f v) s = .next (issued s 1 { base 1 0x23 v.toNat f.w with
        scope := f.scope.toNat, acq := f.acq, rel := f.rel, b := (rdS x f.b).v,
        regs := (List.range 4).map (fun i => if i < k then (rdS x (f.a + BitVec.ofNat 6 i)).v else 0) ++ [t.v] })) ∧
    (t.p = true ∨ (rdS x f.b).p = true ∨ (∃ i < k, (rdS x (f.a + BitVec.ofNat 6 i)).p = true) →
      exec (.trig f v) s = .next (fault s 8 (poisonVal s 1))) ∧
    (r.p = false →
      exec (.tcfgShp g a n w) s = .next (issued s 0 { base 0 0x26 0 w with regs := [r.v, BitVec.ofNat 64 n.toNat] }) ∧
      exec (.tcfgM g a n) s = .next (result s 1 [.m n.toNat (r.v.extractLsb' 0 32)]) ∧
      exec (.tcfgM2 g a n) s = .next (result s 1 [.m n.toNat (r.v.extractLsb' 0 32), .m (n.toNat + 1) (r.v.extractLsb' 32 32)])) ∧
    (r.p = true → exec (.tcfgShp g a n w) s = .next (fault s 8 (poisonVal s 1)) ∧
      exec (.tcfgM g a n) s = .next (fault s 8 (poisonVal s 1)) ∧ exec (.mcall g a w) s = .next (fault s 8 (poisonVal s 1))) ∧
    (r.p = false → r.v.toNat < 8192 → m0.toNat < 2 ^ 26 → (arrayMode m0).isSome = true →
      exec (.mcall g a w) s = .next (issued s 0 { base 0 0x20 0 w with regs := [r.v], m := (List.range 8).map fun i => mget 0 x.m i })) ∧
    (r.p = false → 8192 ≤ r.v.toNat → exec (.mcall g a w) s = .next (fault s 13 r.v)) ∧
    (r.p = false → r.v.toNat < 8192 → 2 ^ 26 ≤ m0.toNat → exec (.mcall g a w) s = .next (fault s 12 (m0.zeroExtend 64))) ∧
    (r.p = false → r.v.toNat < 8192 → m0.toNat < 2 ^ 26 → arrayMode m0 = none → exec (.mcall g a w) s = .next (fault s 11 (m0.zeroExtend 64)))

/-- R180, R288, R303: a command that enters its queue stands last in it under a fresh number, and passes step 1 at once where all before it
have and its semaphore has reached its threshold; a trig, or a command whose semaphore has not, does not; every other command keeps all but
that mark, and the other queue and the core's sequencers, memory and tiles stay. -/
def Parts.EnqueuedCommandsStandLast : Prop :=
  ∀ (c : Core) (m : Cmd),
    let d := enqueue c m
    let met := m.fired = true ∨ m.w.wthr.toNat ≤ semVal c m.w.wsem.toNat
    d.queue m.q = c.queue m.q ++ [.cmd c.nextId] ∧
    (∃ b, mlook d.cmds c.nextId = some { m with id := c.nextId, passed := m.passed || b }) ∧
    (m.opc ≠ 0x23 → met → (∀ i y, QEnt.cmd i ∈ c.queue m.q → mlook c.cmds i = some y → y.passed = true) →
      mlook d.cmds c.nextId = some { m with id := c.nextId, passed := true }) ∧
    (m.opc = 0x23 ∨ ¬met → mlook d.cmds c.nextId = some { m with id := c.nextId }) ∧
    (∀ i, i ≠ c.nextId → ∃ b, mlook d.cmds i = (mlook c.cmds i).map fun y => { y with passed := y.passed || b }) ∧
    d.nextId = c.nextId + 1 ∧
    (∀ q, (q = 0 ∧ m.q ≠ 0 ∨ q ≠ 0 ∧ m.q = 0) → d.queue q = c.queue q) ∧ d.seqs = c.seqs ∧ d.spm = c.spm ∧ d.tile = c.tile ∧ d.l1 = c.l1 ∧
    d.places m.q = c.places m.q + 1

/-- R303, R304: qcut cancels exactly the commands of its own sequencer that have not passed step 1 and wait on its semaphore above its
threshold, in the queues it names, a trig also until it arms, and performs its increment; commands past step 1 and those of others stay;
where it names the triggered entries, each of its own on that semaphore above that threshold is freed, and its stored command has only its
signal left; a value past 65,535 is a fault. -/
def Parts.QcutCancelsItsOwnWaitingCommands : Prop :=
  ∀ (g : BitVec 4) (which : BitVec 3) (w : WaitSig) (s : State), rdP (me s) g = true →
    let v := semVal (myCore s) w.ssem.toNat + w.sinc.toNat
    let ours (y : Trig) : Prop := y.fired = false ∧ y.cmd.seq = s.cur.seq ∧ y.sem = w.wsem.toNat ∧ w.wthr.toNat < y.thr
    (which.getLsbD 2 = false → v ≤ 0xFFFF →
      ∃ t, exec (.qcut g which w) s = .next t ∧ (∀ a, rdByte t a = rdByte s a) ∧ (∀ k, k ≠ s.cur.core → core t k = core s k) ∧
      semVal (core t s.cur.core) w.ssem.toNat = v ∧
      (core t s.cur.core).cmds.map (·.1) = (myCore s).cmds.map (·.1) ∧
      ∀ (i : Nat) (m : Nat × Cmd), (myCore s).cmds[i]? = some m → ∃ b, (core t s.cur.core).cmds[i]? = some (m.1,
        if m.2.seq = s.cur.seq ∧ m.2.passed = false ∧ m.2.fired = false ∧ m.2.w.wsem = w.wsem ∧
          w.wthr.toNat < m.2.w.wthr.toNat ∧ (if m.2.q = 0 then which.getLsbD 0 else which.getLsbD 1) = true
        then { m.2 with st := .done, status := 1, passed := true } else { m.2 with passed := m.2.passed || b })) ∧
    (which.getLsbD 2 = true → v ≤ 0xFFFF → ∃ t, exec (.qcut g which w) s = .next t ∧ (∀ a, rdByte t a = rdByte s a) ∧
      (∀ (n : Nat) (y : Trig), (n, y) ∈ (core t s.cur.core).trig → ¬ours y) ∧
      (∀ (n : Nat) (y : Trig), (n, y) ∈ (myCore s).trig → ours y → mlook (core t s.cur.core).trig n = none ∧
        ∃ i z, mlook (core t s.cur.core).cmds i = some z ∧ z.st = .done ∧ z.status = 1 ∧ z.entry = true ∧ z.w = y.cmd.w ∧ z.seq = s.cur.seq)) ∧
    (0xFFFF < v → exec (.qcut g which w) s = .next (fault s 14 (BitVec.ofNat 64 w.ssem.toNat)))

/-- R84 steps 1 to 3, R298, R299, R300: a command whose turn it is starts once it has passed step 1, and not before; a tile command takes its
move as it starts; once started, a shape command writes its shape and is done. A trig arms at its turn, without waiting: one that is
malformed is refused, one whose slot is taken ends with slot status; one whose trigger does not hold yet stays armed, one whose trigger
holds fires at once and its transfer enters the queue. -/
def Parts.EngineCommandsStartInTurn : Prop :=
  ∀ (s : State) (k q : Nat) (m : Cmd), turnCmd (core s k) q = some m → engineRuns s k = true → isPending s k (32 + q) = false →
    (∀ w ∈ s.walks, ¬(w.core = k ∧ w.idx = 32 + q)) → startHeld s k q = false → mlook (core s k).cmds m.id = some m →
    let tile := m.opc = 0x24 ∨ m.opc = 0x25 ∨ (m.opc = 0x21 ∧ 4 ≤ m.variant ∧ m.variant < 12)
    let ended (t : State) : Option (CmdSt × Nat) := (mlook (core t k).cmds m.id).map fun x => (x.st, x.status)
    let t4 := m.regs.getD 4 0
    let slot := bits t4 0 9
    let wellFormed := bits t4 10 54 = 0 ∧ (if bits t4 9 1 = 1 then m.variant < 8 else m.variant < 4 ∨ m.variant = 12 ∨ m.variant = 13)
    let stored : Cmd := { m with opc := if bits t4 9 1 = 1 then 0x22 else 0x21, st := .waiting }
    (m.opc ≠ 0x23 → m.st = .waiting →
      (m.passed = true → ∃ t x, exec (.engineCommandStart k q m.id) s = .next t ∧
        mlook (core t k).cmds m.id = some { m with st := .started, tile := x } ∧ (¬tile → x = none) ∧
        (tile → ∀ y, tileMove (core s k) m (imgEnd m) = .ok y → x = some y) ∧
        (∀ i, i ≠ m.id → mlook (core t k).cmds i = mlook (core s k).cmds i) ∧ ∀ a, rdByte t a = rdByte s a) ∧
      (m.passed = false → exec (.engineCommandStart k q m.id) s = .next s)) ∧
    (m.st = .started → m.acq = false → m.opc = 0x26 → m.status = 0 → ∀ n v, m.regs = [v, n] → n.toNat < 8 →
      ∃ t, exec (.engineCommandStart k q m.id) s = .next t ∧ mget 0 (core t k).shape n.toNat = v.extractLsb' 0 32 ∧
        (∀ j, j ≠ n.toNat → mget 0 (core t k).shape j = mget 0 (core s k).shape j) ∧ ended t = some (.done, 0)) ∧
    (m.opc = 0x23 → m.status = 0 → (core s k).fireQ = [] → m.id < (core s k).nextId →
      (¬wellFormed → ∃ t, exec (.engineCommandStart k q m.id) s = .next t ∧ ended t = some (.done, 11) ∧ (core t k).trig = (core s k).trig) ∧
      (wellFormed → (mlook (core s k).trig slot).isSome = true →
        ∃ t, exec (.engineCommandStart k q m.id) s = .next t ∧ ended t = some (.done, 7) ∧ (core t k).trig = (core s k).trig) ∧
      (wellFormed → mlook (core s k).trig slot = none → semVal (core s k) m.w.wsem.toNat < m.w.wthr.toNat →
        ∃ t, exec (.engineCommandStart k q m.id) s = .next t ∧ ended t = some (.done, 0) ∧
          mlook (core t k).trig slot = some ⟨stored, m.w.wsem.toNat, m.w.wthr.toNat, false⟩) ∧
      (wellFormed → (core s k).trig = [] → m.w.wthr.toNat ≤ semVal (core s k) m.w.wsem.toNat → (core s k).places 1 < 128 →
        ∃ t z, exec (.engineCommandStart k q m.id) s = .next t ∧ ended t = some (.done, 0) ∧ mlook (core t k).trig slot = none ∧
          mlook (core t k).cmds (core s k).nextId = some z ∧ z.fired = true ∧ z.st = .waiting ∧ z.opc = stored.opc ∧ z.regs = m.regs))

/-- R299: the first fired transfer enters the transfer queue as soon as a place is free there, past step 1, and its slot is free again; with
the queue full it waits. -/
def Parts.FiredTransfersEnterTheirQueue : Prop :=
  ∀ (s : State) (k n : Nat) (y : Trig) (r : List Nat), (core s k).fireQ = n :: r → mlook (core s k).trig n = some y →
    ((core s k).places 1 < 128 → ∃ t, exec (.firedTransferEnqueue k n) s = .next t ∧ (core t k).fireQ = r ∧ mlook (core t k).trig n = none ∧
      (∃ z, mlook (core t k).cmds (core s k).nextId = some z ∧ z.fired = true ∧ z.st = .waiting ∧ z.regs = y.cmd.regs) ∧
      (∀ j, seqOf t k j = seqOf s k j) ∧ ∀ a, rdByte t a = rdByte s a) ∧
    (128 ≤ (core s k).places 1 → ∃ t, exec (.firedTransferEnqueue k n) s = .next t ∧ core t k = core s k)

/-- R84 step 6, R122, R239, R289, R291, R293: a command that is done first sends its remote parts; with its writes performed and no remote part
left it leaves its queue, gives its flags to its issuer, sets its pending bit and performs its signal; without success it is also
recorded in ENG_ERR. -/
def Parts.EngineCommandsCompleteWithTheirSignal : Prop :=
  ∀ (s : State) (k : Nat) (m : Cmd), mlook (core s k).cmds m.id = some m → m.id < (core s k).nextId → m.st = .done → m.left = 0 →
    m.opc ≠ 0x23 → engineRuns s k = true → aheadPassed (core s k) m = true →
    let v := semVal (core s k) m.w.ssem.toNat + m.w.sinc.toNat
    (wantsRemote m = false → step5Met s k m = true → v ≤ 0xFFFF →
      ∃ t, exec (.engineCommandComplete k m.q m.id) s = .next t ∧ semVal (core t k) m.w.ssem.toNat = v ∧
      (∀ j, j ≠ m.w.ssem.toNat → semVal (core t k) j = semVal (core s k) j) ∧ (seqOf t k m.seq).evp = true ∧
      (seqOf t k m.seq).fcsr = (seqOf s k m.seq).fcsr ||| m.flags.zeroExtend 32 ∧
      QEnt.cmd m.id ∉ (core t k).queue m.q ∧ (∀ a, rdByte t a = rdByte s a) ∧
      (m.status = 0 → t.dev = s.dev) ∧
      (m.status ≠ 0 → m.status < 16 → m.opc < 64 → m.seq < 32 → (rdReg s (.engErr k)).getLsbD 63 = false →
        let e := rdReg t (.engErr k)
        e.getLsbD 63 = true ∧ bits e 59 4 = m.status ∧ bits e 53 6 = m.opc ∧ bits e 48 5 = m.seq ∧ bits e 40 8 = m.w.ssem.toNat ∧
        bits e 0 32 = min (2 ^ 32 - 1) (bits (rdReg s (.engErr k)) 0 32 + 1))) ∧
    (wantsRemote m = true → destOf s k m = some 64 → ∃ t r, exec (.engineCommandComplete k m.q m.id) s = .next t ∧
      t.net = s.net ++ [.remoteSignal r] ∧ r.core = bits m.b 50 7 ∧ r.ttag = BitVec.ofNat 16 (bits m.b 22 16) ∧ r.src = .cmd k m.q m.id ∧
      (r.sig.isSome = true ↔ m.b.getLsbD 57 = true) ∧ (r.start.isSome = true ↔ m.b.getLsbD 63 = true))

/-- R292, R294, R297: an address-kind xfer on its turn. Nothing moves for LEN 0; ranges that overlap, and scratchpad ends past SPMSIZE, end it
with their status; otherwise the bytes of its source, from the scratchpad or at their homes, land at its scratchpad destination, or leave
as home writes that carry exactly them. -/
def Parts.TransfersMoveTheirBytes : Prop :=
  ∀ (s : State) (k : Nat) (m : Cmd), turnCmd (core s k) 1 = some m → engineRuns s k = true → isPending s k 33 = false →
    (∀ w ∈ s.walks, ¬(w.core = k ∧ w.idx = 33)) → startHeld s k 1 = false → mlook (core s k).cmds m.id = some m → m.opc = 0x21 →
    m.variant < 4 → m.st = .started → m.acq = false → m.status = 0 → m.pos = 0 →
    let len := bits m.b 0 22
    let d := (m.regs.getD 0 0).toNat
    let r := (m.regs.getD 1 0).toNat
    let overlap := (m.variant = 0 ∨ m.variant = 3) ∧ r < d + len ∧ d < r + len
    let size := (core s k).spmSize
    let out := (m.variant % 2 = 1 ∧ size < r + len) ∨ (2 ≤ m.variant ∧ size < d + len)
    let ends (st : Nat) : Prop := ∃ t, exec (.engineCommandStart k 1 m.id) s = .next t ∧
      (mlook (core t k).cmds m.id).map (fun x => (x.st, x.status)) = some (.done, st) ∧ (core t k).spm = (core s k).spm ∧ t.net = s.net ∧
      ∀ a, rdByte t a = rdByte s a
    -- the words of the source: in the scratchpad, or at their homes on one page in HBM
    let source (x : Nat → Lane) (p : Nat) : Prop := if m.variant % 2 = 1 then p = r ∧ ∀ i, x i = spmWord (core s k) i
      else r % 65536 + len ≤ 65536 ∧ someFlash s k (pageCuts r len) = false ∧ (∃ a, engTr s k m r false true = .at_ p a) ∧
        queueWrites s k 1 (p / 4) ((p + len) / 4) = false ∧
        ∀ w, p / 4 ≤ w → 4 * w < p + len → isHbm (4 * w) = true ∧ homeRead s w (retOf k) = .value (x w)
    (len = 0 → ends 0) ∧
    (len ≠ 0 → overlap → ends 11) ∧
    (len ≠ 0 → ¬overlap → out → ends 2) ∧
    (len ≠ 0 → ¬overlap → ¬out → ∀ x p, source x p →
      let byte (i : Nat) : Nat := (x ((p + i) / 4)).v.toNat / 2 ^ (8 * ((p + i) % 4)) % 256
      (2 ≤ m.variant → ∃ t z, exec (.engineCommandStart k 1 m.id) s = .next t ∧ mlook (core t k).cmds m.id = some z ∧ z.pos = len ∧
        (∀ i < len, spmByte (core t k) (d + i) = byte i ∧
          ((x ((p + i) / 4)).p = true → (spmWord (core t k) ((d + i) / 4)).p = true)) ∧
        ∀ a, (a < d ∨ d + len ≤ a) → spmByte (core t k) a = spmByte (core s k) a) ∧
      (∀ q a, m.variant < 2 → d % 65536 + len ≤ 65536 → engTr s k m d true false = .at_ q a → isHbm q = true →
        ∃ t z pre, ∃ hs : List HomeWr, exec (.engineCommandStart k 1 m.id) s = .next t ∧ mlook (core t k).cmds m.id = some z ∧ z.pos = len ∧
          z.left = m.left + hs.length ∧ t.net = pre ++ hs.map Instr.homeWrite ∧
          (∀ h ∈ hs, h.op = .write ∧ h.src = .cmd k m.q m.id ∧
            ∀ b < 4, h.mask.getLsbD b = true → q ≤ 4 * h.w + b ∧ 4 * h.w + b < q + len) ∧
          ∀ i < len, ∃ h ∈ hs, h.w = (q + i) / 4 ∧ h.mask.getLsbD ((q + i) % 4) = true ∧
            h.data.toNat / 2 ^ (8 * ((q + i) % 4)) % 256 = byte i ∧ ((x ((p + i) / 4)).p = true → h.poison = true)))

/-- R297, R352, R366: an xred whose registers break its rules ends with invalid-argument status; one whose source lies in its scratchpad and
whose destination on one page in HBM sends one combining home write for every word; at its home each operation combines old value and
datum by its table, and poison of either poisons the word. -/
def Parts.ReductionsCombineTheirWords : Prop :=
  (∀ (s : State) (k : Nat) (m : Cmd), turnCmd (core s k) 1 = some m → engineRuns s k = true → isPending s k 33 = false →
    (∀ w ∈ s.walks, ¬(w.core = k ∧ w.idx = 33)) → startHeld s k 1 = false → mlook (core s k).cmds m.id = some m → m.opc = 0x22 →
    m.st = .started → m.acq = false → m.status = 0 → m.pos = 0 → m.data = none →
    let len := bits m.b 0 22
    let d := (m.regs.getD 0 0).toNat
    let r := (m.regs.getD 1 0).toNat
    let rctl := m.regs.getD 2 0
    let bad := bits rctl 48 14 ≠ 0 ∨ m.b.getLsbD 63 = true ∨ d % 4 ≠ 0 ∨ r % 4 ≠ 0 ∨ len % 4 ≠ 0
    (bad → ∃ t, exec (.engineCommandStart k 1 m.id) s = .next t ∧ t.net = s.net ∧ (∀ a, rdByte t a = rdByte s a) ∧
      (mlook (core t k).cmds m.id).map (fun x => (x.st, x.status)) = some (.done, 11)) ∧
    (∀ q a, ¬bad → len ≠ 0 → m.variant ≠ 1 → rctl.getLsbD 63 = false → rctl.getLsbD 62 = true → r + len ≤ (core s k).spmSize →
      d % 65536 + len ≤ 65536 → engTr s k m d true false = .at_ q a → q % 4 = 0 → isHbm q = true → intakeOf s q = none →
      ∃ t z pre, exec (.engineCommandStart k 1 m.id) s = .next t ∧ mlook (core t k).cmds m.id = some z ∧ z.pos = len / 4 ∧
        z.left = m.left + len / 4 ∧ t.net = pre ++ (List.range (len / 4)).map fun i => .homeWrite {
          w := q / 4 + i, mask := 15, data := (spmWord (core s k) (r / 4 + i)).v, poison := (spmWord (core s k) (r / 4 + i)).p,
          op := .combine m.variant m.rm m.ftz, src := .cmd k m.q m.id })) ∧
  (∀ (s : State) (h : HomeWr) (v : Nat) (rm : BitVec 2) (ftz : Bool), h.op = .combine v rm ftz → h.src = .none → isHbm (4 * h.w) = true →
    protectedPa s (4 * h.w) = false → movingPa s (4 * h.w) = false → hbmRes s (4 * h.w) = .served → s.held = [] →
    (∀ x ∈ lineWords (h.w / 32), lvlAt s (plHome (homeChip (4 * h.w))) x = none) → mget false s.bad h.w = false →
    ∃ t, exec (.homeWrite h) s = .next t ∧ memWord t h.w = (combineWord v rm ftz (memWord s h.w) ⟨h.data, h.poison⟩).1 ∧
      (∀ a, a / 4 ≠ h.w → rdByte t a = rdByte s a)) ∧
  (∀ (v : Nat) (rm : BitVec 2) (ftz : Bool) (dst src : Lane),
    let env : REnv := { mode := .rm rm, ftz := ftz }
    let a := dst.v.toNat
    let b := src.v.toNat
    let out := combineWord v rm ftz dst src
    (dst.p = true ∨ src.p = true → out.1.p = true) ∧
    (dst.p = false → src.p = false → out.1.p = false ∧
      (v = 0 ∨ v = 1 → out.1.v = BitVec.ofNat 32 (fAdd fF32 env a b).1) ∧
      (v = 2 → out.1.v = BitVec.ofNat 32 ((fAdd fB16 env (a / 65536) (b / 65536)).1 * 65536 + (fAdd fB16 env (a % 65536) (b % 65536)).1)) ∧
      (v = 3 → out.1.v = BitVec.ofNat 32 (a + b)) ∧
      (v = 4 → out.1.v = BitVec.ofNat 32 (fMinMax fF32 env false a b).1) ∧ (v = 5 → out.1.v = BitVec.ofNat 32 (fMinMax fF32 env true a b).1) ∧
      (v = 6 → out.1.v.toInt = min dst.v.toInt src.v.toInt) ∧ (v = 7 → out.1.v.toInt = max dst.v.toInt src.v.toInt)))

/-- R35, R36, R37, R295, R301: the run of a tile row holds exactly its columns inside the tensor, at the address of the first of them; an image
row takes the run's bits at their columns, the pad element at the columns outside, and zero to the end of its pitch; unit u of row r stands
at unit u XOR (r mod 2^SWZ); a move into a tile or the scratchpad writes the image, and the run of a row that lies on one page in HBM is
read word by word at its home. -/
def Obligations.TilesMoveTheirElements : Prop :=
  (∀ (x : TileMove) (r : Nat),
    let inside (c : Nat) : Prop := (∀ i < 4, 0 ≤ x.idx r (i + 1) ∧ x.idx r (i + 1) < x.size (i + 1)) ∧
      0 ≤ x.org.getD 0 0 + c ∧ x.org.getD 0 0 + c < x.size 0
    (x.run r = none → ∀ c < x.cols, ¬inside c) ∧
    ∀ c0 n va b, x.run r = some (c0, n, va, b) → 0 < n ∧ b < 8 ∧ (∀ c < x.cols, inside c ↔ c0 ≤ c ∧ c < c0 + n) ∧
      (8 * (va : ℤ) + b - 8 * ((x.t.base : ℤ) + x.idx r 1 * x.stride 1 + x.idx r 2 * x.stride 2 + x.idx r 3 * x.stride 3 +
        x.idx r 4 * x.stride 4) - (x.org.getD 0 0 + c0) * (fmtWidth x.t.fmt : ℤ)) % (2 ^ 67 : ℤ) = 0) ∧
  (∀ (x : TileMove) (r : Nat) (bs : List (Byte × Bool)),
    let w := fmtWidth x.t.fmt
    let bit (l : List (Byte × Bool)) (q : Nat) : Bool := (l.getD (q / 8) (0, false)).1.getLsbD (q % 8)
    (x.rowImage r bs).length = x.pitch ∧
    ∀ q < 8 * x.pitch, bit (x.rowImage r bs) q =
      if q / w < x.cols then
        match x.run r with
        | some (c0, n, _, b) => if c0 ≤ q / w ∧ q / w < c0 + n then bit bs (b + (q - c0 * w)) else (padElem x.t).testBit (q % w)
        | none => (padElem x.t).testBit (q % w)
      else false) ∧
  (∀ (t : TDesc), (fmtWidth t.fmt ≤ 32 → padElem t = t.pad.toNat % 2 ^ fmtWidth t.fmt) ∧
    (t.fmt = 4 → padElem t = (t.pad.signExtend 64).toNat) ∧ (t.fmt = 8 ∨ t.fmt = 0x15 → padElem t = t.pad.toNat) ∧
    (t.fmt = 0 → padElem t = t.pad.toNat % 2 ^ 16)) ∧
  (∀ (k r u b : Nat) (row : List (Byte × Bool)), b < 64 → 64 * Nat.xor u (r % 2 ^ k) + b < row.length →
    (swizzle k r row).getD (64 * Nat.xor u (r % 2 ^ k) + b) (0, false) = row.getD (64 * u + b) (0, false)) ∧
  (∀ (s s' : State) (k q : Nat) (m : Cmd) (x : TileMove) (rows : List (Nat × List (Byte × Bool))), turnCmd (core s k) q = some m →
    engineRuns s k = true → isPending s k (32 + q) = false → (∀ w ∈ s.walks, ¬(w.core = k ∧ w.idx = 32 + q)) → startHeld s k q = false →
    mlook (core s k).cmds m.id = some m → m.st = .started → m.acq = false → m.status = 0 → m.tile = some x →
    (core s' k).cmds = (core s k).cmds →
    readRuns (afterSeqs s k) k m x.runs = .ok (s', rows) →
    let image (r : Nat) : List (Byte × Bool) := swizzle x.t.swz r (x.rowImage r (((rows.find? fun y => y.1 = r).map (·.2)).getD []))
    let ended (t : State) : Prop := (mlook (core t k).cmds m.id).map (fun x => (x.st, x.status)) = some (.done, 0)
    (m.opc = 0x24 → m.variant = 0 → m.b.toNat < 64 → x.rows * x.pitch ≤ 4096 → ∃ t, exec (.engineCommandStart k q m.id) s = .next t ∧ ended t ∧
      ∀ r < x.rows, ∀ i < x.pitch, (tileWord (core t k) m.b.toNat ((r * x.pitch + i) / 4)).v.toNat / 2 ^ (8 * ((r * x.pitch + i) % 4)) % 256 =
        ((image r).getD i (0, false)).1.toNat) ∧
    ((m.opc = 0x24 ∧ m.variant = 1) ∨ (m.opc = 0x21 ∧ m.variant = 6) → ∃ t, exec (.engineCommandStart k q m.id) s = .next t ∧ ended t ∧
      ∀ r < x.rows, ∀ i < x.pitch, spmByte (core t k) (m.b.toNat + r * x.pitch + i) = ((image r).getD i (0, false)).1.toNat)) ∧
  (∀ (s : State) (k : Nat) (m : Cmd) (r va n p : Nat) (a : Attr) (y : Nat → Lane), va % 65536 + n ≤ 65536 → 0 < n →
    engTr s k m va false (m.opc = 0x21) = .at_ p a → queueWrites s k m.q (p / 4) ((p + n) / 4) = false →
    (∀ w, p / 4 ≤ w → 4 * w < p + n → isHbm (4 * w) = true ∧ homeRead s w (retOf k) = .value (y w)) →
    ∃ s' bs, readRuns s k m [(r, va, n)] = .ok (s', [(r, bs)]) ∧ bs.length = n ∧
      ∀ j < n, bs[j]? = some (BitVec.ofNat 8 ((y ((p + j) / 4)).v.toNat / 2 ^ (8 * ((p + j) % 4))), (y ((p + j) / 4)).p))

/-- R178, R293, R86: a remote signal for a core whose task carries its tag increases the semaphore it names, a start enters the start queue
of a dormant sequencer, or waits for room there; any other is discarded and refused; a dormant sequencer takes its oldest start with
its argument in s1. -/
def Parts.RemoteSignalsAndHandlerStarts : Prop :=
  ∀ (s : State) (k j scope : Nat) (tag : BitVec 16) (i : BitVec 8) (n : BitVec 4) (z : BitVec 5) (pc arg : Word)
    (rest : List (Word × Word × Nat)) (id : W32), (∀ x ∈ s.net, peerIdOf x = none) →
    (taskidOf s k = some id → id.extractLsb' 0 16 = tag → semVal (core s k) i.toNat + n.toNat ≤ 0xFFFF →
      ∃ t, exec (.remoteSignal ⟨k, tag, some (i, n), none, .none⟩) s = .next t ∧
        semVal (core t k) i.toNat = semVal (core s k) i.toNat + n.toNat ∧ (∀ a, rdByte t a = rdByte s a) ∧ (∀ c, c ≠ k → core t c = core s c)) ∧
    (taskidOf s k = some id → id.extractLsb' 0 16 = tag → (seqOf s k z.toNat).kind = .dormant →
      ((seqOf s k z.toNat).starts.length < 8 →
        ∃ t, exec (.remoteSignal ⟨k, tag, none, some (z, pc, arg, scope), .none⟩) s = .next t ∧
        (seqOf t k z.toNat).starts = (seqOf s k z.toNat).starts ++ [(pc, arg, scope)] ∧ t.net = s.net ∧ t.outbox = s.outbox) ∧
      (8 ≤ (seqOf s k z.toNat).starts.length → exec (.remoteSignal ⟨k, tag, none, some (z, pc, arg, scope), .none⟩) s =
        .next { s with net := .remoteSignal ⟨k, tag, none, some (z, pc, arg, scope), .none⟩ :: s.net })) ∧
    (taskidOf s k = none ∨ (∃ id, taskidOf s k = some id ∧ id.extractLsb' 0 16 ≠ tag) → ∀ pod w,
      exec (.remoteSignal ⟨k, tag, some (i, n), none, .peer pod w⟩) s = .next { s with outbox := s.outbox ++ [(pod, .peerWriteAck w 0 false true)] }) ∧
    ((seqOf s k j).kind = .dormant → (seqOf s k j).st = .dormant → (seqOf s k j).starts = (pc, arg, scope) :: rest → engineRuns s k = true →
      ∃ t, exec (.handlerStart k j) s = .next t ∧ (seqOf t k j).st = .running ∧ (seqOf t k j).pc = pc ∧ (seqOf t k j).starts = rest ∧
        rdS (seqOf t k j) 1 = ⟨arg, false⟩ ∧ (∀ r, r ≠ 1 → rdS (seqOf t k j) r = rdS (seqOf s k j) r) ∧ ∀ a, rdByte t a = rdByte s a)

/-- R87-R89, R351, R352: an acknowledged write is no longer outstanding; one that is refused, or whose route is down when recording comes, is
counted in its sequencer's dstat; the words of a write that arrives from a peer perform at their homes in order, those that have to wait later,
and it is then acknowledged, as an atomic is with the old value. -/
def Parts.PeerWritesAreAcknowledgedOrRecorded : Prop :=
  ∀ (s : State) (k q pod id w : Nat) (ws : List HomeWr) (m : PeerMsg),
    (s.peerOut = [{ id := id, pod := pod, body := .words ws, src := .seq k q, queue := w }] →
      (∃ t, exec (.peerWriteAck id 0 false false) s = .next t ∧ t.peerOut = [] ∧ t.cores = s.cores ∧ t.mem = s.mem) ∧
      ((seqOf s k q).dCount < 2 ^ 31 - 1 →
        (ws ≠ [] → ∃ t, exec (.peerWriteAck id 0 false true) s = .next t ∧ t.peerOut = [] ∧ (seqOf t k q).dCount = (seqOf s k q).dCount + 1 ∧
          (seqOf t k q).dSince = (seqOf s k q).dSince + 1 ∧ ((seqOf s k q).dCount = 0 → (seqOf t k q).dPeer = pod) ∧ t.mem = s.mem) ∧
        (routeOf s pod = .down →
          ∃ t, exec (.undeliverableRecording pod) s = .next t ∧ t.peerOut = [] ∧ (seqOf t k q).dCount = (seqOf s k q).dCount + 1 ∧
          (∀ x, (pod, x) ∈ t.outbox → writeIdOf x ≠ some id) ∧ t.mem = s.mem))) ∧
    (routeOf s pod = .up → exec (.undeliverableRecording pod) s = .next s) ∧
    (peerBehind s (.peerWriteArrival m) = false →
      (m.body = .words [] →
        exec (.peerWriteArrival m) s = .next { s with outbox := s.outbox ++ [(m.pod, .peerWriteAck m.id 0 false m.dropped)] }) ∧
      (mustHold s (.peerWriteArrival m) = false → heldBefore s (.peerWriteArrival m) = false →
        (∀ hs u d, m.body = .words hs → performedInOrder (hs.map fun h => { h with src := .peer m.pod m.id }) m.dropped s u d →
          exec (.peerWriteArrival m) s = .next { u with outbox := u.outbox ++ [(m.pod, .peerWriteAck m.id 0 false d)] }) ∧
        (∀ hs h r u d t, m.body = .words (hs ++ h :: r) →
          performedInOrder (hs.map fun h => { h with src := .peer m.pod m.id }) m.dropped s u d →
          homePerform u { h with src := .peer m.pod m.id } = .wait t → exec (.peerWriteArrival m) s = .next { t with
            net := .peerWriteArrival { m with body := .words ((h :: r).map fun h => { h with src := .peer m.pod m.id }), dropped := d } :: t.net }) ∧
        (∀ x a u old, m.body = .atomic x a → peerAtomic s x a = .done u old →
          exec (.peerWriteArrival m) s = .next { u with
            outbox := u.outbox ++ [(m.pod, .peerWriteAck m.id (BitVec.ofNat 64 (joinWords (old.map some))) (old.any Lane.p) false)] })))

/-! ## The matrix engine (R305-R325) -/

/-- R309, R313, R315: a call whose turn has come starts with its µ-PC and its copy of the m registers, cleared latches and its accumulator's
mode, which it clears where it is asked to and which otherwise has to fit; an invalid micro-word ends the call with lexicon status;
lx.end ends it with its status and flags. -/
def Parts.VerbCallsStartAndEnd : Prop :=
  ∀ (s : State) (k : Nat) (m : Cmd),
    let c := core s k
    let m0 := m.m.getD 0 0
    let a := m0.toNat / 2 ^ 8 % 8
    let mode := (arrayMode m0).getD 0
    (turnCmd c 0 = some m → m.opc = 0x20 → m.st = .started → c.mx.call = none → engineRuns s k = true →
      (mget 0 c.am a = 0 ∨ mget 0 c.am a = mode → m0.getLsbD 11 = false → ∃ t, exec (.verbCallStart k) s = .next t ∧
        (core t k).mx = { call := some m.id, upc := (m.regs.getD 0 0).toNat, m := m.m } ∧ mget 0 (core t k).am a = mode ∧
        (core t k).acc = c.acc ∧ (core t k).tile = c.tile ∧ ∀ b, rdByte t b = rdByte s b) ∧
      (m0.getLsbD 11 = true → ∃ t, exec (.verbCallStart k) s = .next t ∧ mget 0 (core t k).am a = mode ∧
        (∀ i j, i < 32 → j < 32 → accEnt (core t k) a i j = {}) ∧
        (core t k).mx = { call := some m.id, upc := (m.regs.getD 0 0).toNat, m := m.m }) ∧
      (mget 0 c.am a ≠ 0 → mget 0 c.am a ≠ mode → m0.getLsbD 11 = false → ∃ t, exec (.verbCallStart k) s = .next t ∧
        (core t k).mx = c.mx ∧ mlook (core t k).cmds m.id = some { m with st := .done, status := 11 })) ∧
    (c.mx.call = some m.id → mlook c.cmds m.id = some m → engineRuns s k = true → nextMicro c = none → ∃ t, exec (.invalidMicroWord k) s = .next t ∧
      (core t k).mx.call = none ∧ (mlook (core t k).cmds m.id).map (fun x => (x.st, x.status)) = some (.done, 12)) ∧
    (k = s.cur.core → c.mx.call = some m.id → mlook c.cmds m.id = some m → ∃ t, exec .lxEnd s = .next t ∧
      (core t k).mx.call = none ∧ mlook (core t k).cmds m.id = some { m with
        st := .done, status := if c.mx.flags.getLsbD 5 && m.fet then 10 else 0, eva := 0, flags := m.flags ||| c.mx.flags })

/-- R316: the control micro-operations move the µ-PC and the counters, modulo 2^16, and change nothing else; lx.sig goes on and performs its
increment. -/
def Parts.MicroControl : Prop :=
  ∀ (s : State) (m : Cmd) (k : BitVec 2) (imm z : BitVec 16) (i : BitVec 3) (h : Bool) (tgt : BitVec 13) (cond : LxCond)
    (sem : BitVec 8) (inc : BitVec 4), callCmd (myCore s) = some m →
    let c := myCore s
    let x := c.mx
    let at_ (n : Nat) (x : Mx) : Out := .next (setCore s s.cur.core { c with mx := { x with upc := n } })
    exec .lxNop s = at_ (x.upc + 1) x ∧
    exec (.lxSetk k (.imm imm)) s = at_ (x.upc + 1) { x with k := mset 0 x.k k.toNat imm } ∧
    exec (.lxSetk k (.m i h z)) s = at_ (x.upc + 1)
      { x with k := mset 0 x.k k.toNat ((x.m.getD i.toNat 0).extractLsb' (if h then 16 else 0) 16) } ∧
    exec (.lxAddk k imm) s = at_ (x.upc + 1) { x with k := mset 0 x.k k.toNat (BitVec.ofNat 16 ((x.ctr k).toNat + imm.toNat)) } ∧
    exec (.lxLoop k tgt) s = at_ (if (x.ctr k).toNat = 1 then x.upc + 1 else tgt.toNat) { x with k := mset 0 x.k k.toNat (x.ctr k - 1) } ∧
    exec (.lxBr k cond tgt) s = at_ (if (match cond with
      | .always => true
      | .zero => decide ((x.ctr k).toNat = 0)
      | .nonzero => decide ((x.ctr k).toNat ≠ 0)
      | .bmrZero => decide (x.bmr.toNat = 0)) then tgt.toNat else x.upc + 1) x ∧
    (semVal c sem.toNat + inc.toNat ≤ 0xFFFF → ∃ t, exec (.lxSig sem inc) s = .next t ∧
      semVal (core t s.cur.core) sem.toNat = semVal c sem.toNat + inc.toNat ∧
      (∀ j, j ≠ sem.toNat → semVal (core t s.cur.core) j = semVal c j) ∧
      (core t s.cur.core).mx = { x with upc := x.upc + 1 } ∧ (∀ k, k ≠ s.cur.core → core t k = core s k) ∧ ∀ a, rdByte t a = rdByte s a)

/-- R317-R319: fetch fills one latch with the elements of its tile rows and keeps the other, sel the selector, skip the live-column bitmap,
branching when it is zero; a tile number above 63 ends the call with invalid-argument, as does a selector without 2:4 sparsity. -/
def Parts.MicroLatches : Prop :=
  ∀ (s : State) (m : Cmd) (t6 : BitVec 6) (ti : TileIx) (b hi : Bool) (u : LxUnit) (ms : BitVec 3) (mb : BitVec 2) (wd : BitVec 10)
    (tgt : BitVec 13), callCmd (myCore s) = some m →
    let x := (myCore s).mx
    let now (t : State) : Mx := (core t s.cur.core).mx
    let ended (i : Instr) : Prop := ∃ t, exec i s = .next t ∧ (now t).call = none ∧
      (mlook (core t s.cur.core).cmds m.id).map (fun y => (y.st, y.status)) = some (.done, 11)
    (∀ n, x.tileNo t6 ti = some n →
      (let unit (r : Nat) (h : Bool) := unitEls (myCore s) m.ftz (x.f0 (if b then 4 else 0) 4)
         (sext 8 ((x.mreg ms.toNat).toNat / 2 ^ (8 * mb.toNat))) n r h
       let row (r : Nat) : List LatEl := match u with
         | .lo => (unit r false).1
         | .hi => (unit r true).1
         | .both => (unit r false).1 ++ (unit r true).1
       ∃ t, exec (.lxFetch t6 ti b u ms mb) s = .next t ∧ wentOn s t ∧ microFrame s t ∧
        (if b then (now t).la = x.la ∧ (now t).laN = x.laN else (now t).lb = x.lb ∧ (now t).lbN = x.lbN) ∧
        (if b then (now t).lbN else (now t).laN) = (row 0).length ∧
        ∀ r < (if b then x.cols else x.rows), ∀ i e, (row r)[i]? = some e →
          mlook (if b then (now t).lb else (now t).la) (1024 * r + i) = some e) ∧
      (x.f0 14 1 = 1 → ∃ t, exec (.lxSel t6 ti hi) s = .next t ∧ wentOn s t ∧ microFrame s t ∧
        ∀ r < x.rows, ∀ w < 16, mlook (now t).sr (16 * r + w) = some (rowWord (myCore s) n r ((if hi then 16 else 0) + w))) ∧
      (x.f0 14 1 = 0 → ended (.lxSel t6 ti hi)) ∧
      (let y := tileWord (myCore s) n wd.toNat;
       ∃ t, exec (.lxSkip (.tile t6 ti wd) tgt) s = .next t ∧ microFrame s t ∧ (now t).bmr = (if y.p then 0xFFFFFFFF else y.v) ∧
        (now t).bmrPois = y.p ∧ (now t).upc = if y.p = false ∧ y.v = 0 then tgt.toNat else x.upc + 1)) ∧
    (∃ t, exec (.lxSkip (.m ms) tgt) s = .next t ∧ microFrame s t ∧ (now t).bmr = x.mreg ms.toNat ∧ (now t).bmrPois = false ∧
      (now t).upc = if x.mreg ms.toNat = 0 then tgt.toNat else x.upc + 1) ∧
    (x.tileNo t6 ti = none → ended (.lxFetch t6 ti b u ms mb) ∧ ended (.lxSel t6 ti hi) ∧ ended (.lxSkip (.tile t6 ti wd) tgt))

/-- R320-R324: scan, mac, acc and cvt compute their result for every entry of the call's rows and columns, change no other accumulator, and go
on; wout changes no byte of the scratchpad or of a tile outside the rows that it writes; a length, a mode, a format, a product or a
range that does not suit ends the call with its status. -/
def Parts.MicroProductsAndReadOut : Prop :=
  ∀ (s : State) (m : Cmd) (kn1 : BitVec 10) (ei : BitVec 8) (mu clr : Bool) (ms : BitVec 3) (fmt : WoutFmt) (sat : Bool) (rp : BitVec 6)
    (t6 : BitVec 6) (ti : TileIx), callCmd (myCore s) = some m →
    let x := (myCore s).mx
    let c := myCore s
    let kn := kn1.toNat + 1
    let now (t : State) : Mx := (core t s.cur.core).mx
    let span := 64 * (rp.toNat + 1) * (x.rows - 1) + x.cols * woutBytes fmt
    let base := (x.mreg ms.toNat).toNat
    let ended (i : Instr) (st : Nat) : Prop := ∃ t, exec i s = .next t ∧ (now t).call = none ∧
      (mlook (core t s.cur.core).cmds m.id).map (fun y => (y.st, y.status)) = some (.done, st)
    let fits := ∀ i < x.rows, ∀ j < x.cols, admitted x i j (x.aRow kn i) (accEnt c x.accNo i j) = true
    let othersStay (t : State) : Prop := ∀ a i j, i < 32 → j < 32 → (a ≠ x.accNo ∨ x.rows ≤ i ∨ x.cols ≤ j) →
      accEnt (core t s.cur.core) a i j = accEnt c a i j
    (x.mode = modeBlock → x.knOk kn = true → ∃ t, exec (.lxScan kn1) s = .next t ∧ wentOn s t ∧ microFrame s t ∧
      (now t).sum = x.sum ∧ (now t).la = x.la ∧ (now t).ol = x.ol ∧ (core t s.cur.core).acc = c.acc ∧
      ∀ i < x.rows, ∀ j < x.cols, mlook (now t).xe (32 * i + j) = (x.aRow kn i).els.foldl (fun o p =>
        if plainPair p.2 (x.lbAt j p.1) then some (match o with
          | some e => max e (p.2.x + (x.lbAt j p.1).x)
          | none => p.2.x + (x.lbAt j p.1).x) else o) (mlook x.xe (32 * i + j))) ∧
    (x.mode ≠ modeBlock ∨ x.knOk kn = false → ended (.lxScan kn1) 11) ∧
    (x.knOk kn = true → (x.mode = modeBlock → fits) → ∃ t, exec (.lxMac kn1) s = .next t ∧ wentOn s t ∧ microFrame s t ∧
      (now t).xe = x.xe ∧ (now t).la = x.la ∧ (core t s.cur.core).tile = c.tile ∧ othersStay t ∧
      ∀ i < x.rows, ∀ j < x.cols,
        accEnt (core t s.cur.core) x.accNo i j = (macEntry x m.ftz i j (x.aRow kn i) (accEnt c x.accNo i j)).1 ∧
        mget 0 (now t).sum (32 * i + j) = (macEntry x m.ftz i j (x.aRow kn i) (accEnt c x.accNo i j)).2.2) ∧
    (x.knOk kn = false ∨ (x.mode = modeBlock ∧ ¬fits) → ended (.lxMac kn1) 11) ∧
    (x.mode = modeBlock → ∃ t, exec .lxAcc s = .next t ∧ wentOn s t ∧ microFrame s t ∧ (now t).sum = [] ∧ (now t).xe = [] ∧ othersStay t ∧
      ∀ i < x.rows, ∀ j < x.cols, accEnt (core t s.cur.core) x.accNo i j =
        (closeEntry (accEnt c x.accNo i j) (mlook x.xe (32 * i + j)) (mget 0 x.sum (32 * i + j))).1) ∧
    (x.mode ≠ modeBlock → ∃ t, exec .lxAcc s = .next t ∧ wentOn s t ∧ microFrame s t ∧ (core t s.cur.core).acc = c.acc) ∧
    (∃ t, exec (.lxCvt ei mu ms clr) s = .next t ∧ wentOn s t ∧ microFrame s t ∧ (core t s.cur.core).tile = c.tile ∧
      (clr = false → (core t s.cur.core).acc = c.acc) ∧
      (clr = true → othersStay t ∧ ∀ i < x.rows, ∀ j < x.cols, accEnt (core t s.cur.core) x.accNo i j = {}) ∧
      ∀ i < x.rows, ∀ j < x.cols, (mget (0, false) (now t).ol (32 * i + j)).2 = (accEnt c x.accNo i j).poison ∧
        (mget (0, false) (now t).ol (32 * i + j)).1 =
          BitVec.ofNat 64 (readEntry x.mode m.ftz (accEnt c x.accNo i j) (ei.toInt + if mu then sext 8 (x.mreg ms.toNat).toNat else 0)).1) ∧
    (woutOk x.mode fmt = true → base + span ≤ c.spmSize → ∃ t, exec (.lxWout (.spm ms) fmt sat rp) s = .next t ∧
      wentOn s t ∧ microFrame s t ∧ (core t s.cur.core).tile = c.tile ∧ (core t s.cur.core).acc = c.acc ∧
      ∀ a, (a < base ∨ base + span ≤ a) → spmByte (core t s.cur.core) a = spmByte c a) ∧
    (woutOk x.mode fmt = true → c.spmSize < base + span → ended (.lxWout (.spm ms) fmt sat rp) 2) ∧
    (∀ n, woutOk x.mode fmt = true → x.tileNo t6 ti = some n → span ≤ 4096 → ∃ t, exec (.lxWout (.tile t6 ti) fmt sat rp) s = .next t ∧
      wentOn s t ∧ microFrame s t ∧ (core t s.cur.core).spm = c.spm ∧ (core t s.cur.core).acc = c.acc ∧
      ∀ k w, w < 1024 → (k ≠ n ∨ span ≤ 4 * w) → tileWord (core t s.cur.core) k w = tileWord c k w) ∧
    (woutOk x.mode fmt = true → x.tileNo t6 ti = none ∨ 4096 < span → ended (.lxWout (.tile t6 ti) fmt sat rp) 11) ∧
    (woutOk x.mode fmt = false → ended (.lxWout (.spm ms) fmt sat rp) 11 ∧ ended (.lxWout (.tile t6 ti) fmt sat rp) 11)

/-- R129, R130, R132, R134, R321: what lx.mac does to one entry. In block mode S gains the floor of each finite product at the common exponent,
and products with an infinity or a NaN only set special bits; in the F32 modes the products are fused into the entry one by one, in C32
mode by its four steps; in INT mode the entry counts the positions whose bits differ, or are both 1; poison of any element of the row
poisons the entry. -/
def Parts.ProductsOfOneEntry : Prop :=
  ∀ (m : Mx) (ftz : Bool) (i j : Nat) (r : ARow) (e : AccEnt),
    let ps := r.els.map fun p => (p.2, m.lbAt j p.1)
    let out := macEntry m ftz i j r e
    let nan (p : LatEl × LatEl) : Bool := p.1.nan || p.2.nan
    let inf (p : LatEl × LatEl) : Bool := !nan p && (p.1.inf || p.2.inf)
    let zero (y : LatEl) : Bool := !y.inf && (y.dead || y.s == 0)
    let both (p : LatEl × LatEl) : Bool := inf p && (zero p.1 || zero p.2)
    let neg (p : LatEl × LatEl) : Bool := decide (p.1.s < 0) != decide (p.2.s < 0)
    let fma (a b : Nat) (x : Nat) : Nat := (fFma fF32 { ftz := ftz } a b x).1
    out.1.poison = (e.poison || r.pois || ps.any fun p => p.1.poison || p.2.poison) ∧
    (m.mode = modeBlock → ∀ ea, (if e.empty then mlook m.xe (32 * i + j) = some ea else
        ea = (match mlook m.xe (32 * i + j) with | some x => max e.e x | none => e.e)) →
      out.2.2 = mget 0 m.sum (32 * i + j) + ((ps.filter fun p => plainPair p.1 p.2).map fun p =>
        ⌊((p.1.s * p.2.s : ℤ) : ℚ) * (2 : ℚ) ^ (p.1.x + p.2.x - ea + 96)⌋).sum ∧
      out.1.v = e.v ∧ out.1.e = e.e ∧ out.1.empty = e.empty ∧
      out.1.nan = (e.nan || ps.any fun p => nan p || both p) ∧
      out.1.pinf = (e.pinf || ps.any fun p => inf p && !both p && !neg p) ∧
      out.1.ninf = (e.ninf || ps.any fun p => inf p && !both p && neg p) ∧
      out.2.1 = flIf (ps.any fun p => both p || (p.1.nan && p.1.bits != 0) || (p.2.nan && p.2.bits != 0)) flNV) ∧
    (m.mode ≠ modeBlock → out.2.2 = mget 0 m.sum (32 * i + j) ∧ (ps = [] → out.1 = { e with poison := out.1.poison }) ∧
      (ps ≠ [] → out.1.empty = false ∧ out.1.e = e.e ∧
        let v0 := if e.empty then 0 else e.v.toNat
        (m.mode = modeF32 → out.1.v = BitVec.ofNat 128 (ps.foldl (fun v p => fma p.1.bits.toNat p.2.bits.toNat v) v0)) ∧
        (m.mode = modeC32 → out.1.v = BitVec.ofNat 128 (ps.foldl (fun v p =>
          let ar := p.1.bits.toNat % 2 ^ 32
          let ai := p.1.bits.toNat / 2 ^ 32
          let br := p.2.bits.toNat % 2 ^ 32
          let bi := p.2.bits.toNat / 2 ^ 32
          fma (fF32.neg ai) bi (fma ar br (v % 2 ^ 32)) + 2 ^ 32 * fma ai br (fma ar bi (v / 2 ^ 32))) v0)) ∧
        (m.mode = modeInt → out.1.v = BitVec.ofNat 128 (v0 + ps.countP fun p =>
          if m.f0 12 2 = 0 then p.1.bits.getLsbD 0 != p.2.bits.getLsbD 0 else p.1.bits.getLsbD 0 && p.2.bits.getLsbD 0))))

/-- R130, R131, R133, R322, R323: lx.acc closes a sum into an entry at the larger exponent, the old value floored, saturated to 128 bits with
OF; lx.cvt reads an entry by the table of special bits, and else as its value rounded to nearest; an F8 element stands for its decoded
value at its group's exponent. -/
def Parts.EntriesCloseAndReadOut : Prop :=
  (∀ (e : AccEnt) (xe : Option Int) (sum : Int),
    (xe = none → e.empty = true ∨ sum = 0 → closeEntry e xe sum = (e, 0)) ∧
    (∀ ea, (match xe with
        | none => e.empty = false ∧ sum ≠ 0 ∧ ea = e.e
        | some x => ea = if e.empty then x else max e.e x) →
      let v := (if e.empty then 0 else ⌊((e.v.toInt : ℤ) : ℚ) * (2 : ℚ) ^ (e.e - ea)⌋) + sum
      closeEntry e xe sum = ({ e with v := BitVec.ofInt 128 (max (-2 ^ 127) (min (2 ^ 127 - 1) v)), e := ea, empty := false },
        flIf (decide (v < -2 ^ 127 ∨ 2 ^ 127 - 1 < v)) flOF))) ∧
  (∀ (ftz : Bool) (e : AccEnt) (k : Int),
    (e.nan = true ∨ (e.pinf = true ∧ e.ninf = true) →
      readEntry modeBlock ftz e k = (0x7FC00000, flIf (e.pinf && e.ninf) flNV)) ∧
    (e.nan = false → e.pinf = true → e.ninf = false → readEntry modeBlock ftz e k = (0x7F800000, 0)) ∧
    (e.nan = false → e.pinf = false → e.ninf = true → readEntry modeBlock ftz e k = (0xFF800000, 0)) ∧
    (e.nan = false → e.pinf = false → e.ninf = false →
      (e.empty = true ∨ e.v = 0 → readEntry modeBlock ftz e k = (0, 0)) ∧
      (e.empty = false → e.v ≠ 0 → readEntry modeBlock ftz e k =
        fF32.round { ftz := ftz } (decide (e.v.toInt < 0)) e.v.toInt.natAbs (e.e - 96 + k) false)) ∧
    (∀ mode, mode = modeF32 ∨ mode = modeC32 → e.empty = true → (readEntry mode ftz e k).1 = 0) ∧
    (∀ n x y, e.empty = false → fF32.decode (e.v.toNat % 2 ^ 32) = .fin n x y → ftz = false →
      readEntry modeF32 ftz e k = fF32.round {} n x (y + k) false) ∧
    readEntry modeInt ftz e k = (e.v.toNat, 0)) ∧
  (∀ (code : Nat) (g : Int), code < 256 →
    (∀ n x y, fF8E4.decode code = .fin n x y → (f8El false code g).inf = false ∧ (f8El false code g).nan = false ∧
      ((f8El false code g).s : ℚ) * (2 : ℚ) ^ (f8El false code g).x = floatValue (.fin n x y) * (2 : ℚ) ^ g) ∧
    (∀ n x y, fF8E5.decode code = .fin n x y → (f8El true code g).inf = false ∧ (f8El true code g).nan = false ∧
      ((f8El true code g).s : ℚ) * (2 : ℚ) ^ (f8El true code g).x = floatValue (.fin n x y) * (2 : ℚ) ^ g)) ∧
  (∀ (c : Core) (ftz : Bool) (g : Int) (t r : Nat) (hi : Bool) (p : Nat),
    let w (i : Nat) : Lane := rowWord c t r ((if hi then 16 else 0) + i)
    let el (ty : Nat) : Option LatEl := (unitEls c ftz ty g t r hi).1[p]?
    (p < 16 → el 0 = some { bits := (w p).v.zeroExtend 64, poison := (w p).p }) ∧
    (p < 32 → el 1 = some { bits := ((w (p / 2)).v.extractLsb' (16 * (p % 2)) 16).zeroExtend 64 <<< 16, poison := (w (p / 2)).p }) ∧
    (p < 8 → el 3 = some { bits := ((w (2 * p + 1)).v ++ (w (2 * p)).v : BitVec (32 + 32)), poison := (w (2 * p)).p || (w (2 * p + 1)).p }) ∧
    (p < 64 → ∀ e5 : Bool, el (if e5 then 5 else 4) =
      some { (f8El e5 ((w (p / 4)).v.toNat / 2 ^ (8 * (p % 4)) % 256) g).flush ftz with poison := (w (p / 4)).p }) ∧
    (p < 512 → el 9 = some { bits := if (w (p / 32)).v.getLsbD (p % 32) then 1 else 0, poison := (w (p / 32)).p }))

/-- R306, R324, R277: lx.wout writes every element of the read-out latch, converted to its format, at its row and column; a word with a
poisoned element is poisoned; in a tile the plane entries of the units that it meets become zero. Rows that overlap are left out: the later
row stands there, which is the model's choice (log entry 73). -/
def Parts.ReadOutWritesItsBytes : Prop :=
  ∀ (s : State) (m : Cmd) (ms : BitVec 3) (fmt : WoutFmt) (sat : Bool) (rp : BitVec 6) (t6 : BitVec 6) (ti : TileIx),
    callCmd (myCore s) = some m →
    let x := (myCore s).mx
    let c := myCore s
    let pitch := 64 * (rp.toNat + 1)
    let w := woutBytes fmt
    let span := pitch * (x.rows - 1) + x.cols * w
    let base := (x.mreg ms.toNat).toNat
    let env : REnv := { mode := .rm m.rm, ftz := m.ftz, sat := sat }
    let ol (i j : Nat) : Word × Bool := mget (0, false) x.ol (32 * i + j)
    let value (v : Nat) : Nat := match fmt with
      | .f32 => if x.mode = modeInt then (cvtFromInt fF32 { env with mode := .rm 0 } v).1 else v % 2 ^ 32
      | .b16 => (cvtFloat fF32 fB16 env v).1
      | .f16 => (cvtFloat fF32 fF16 env v).1
      | .f8e4 => (cvtFloat fF32 fF8E4 env v).1
      | .f8e5 => (cvtFloat fF32 fF8E5 env v).1
      | .i32 => min v (2 ^ 31 - 1)
      | .c32 => v
    woutOk x.mode fmt = true → (x.cols * w ≤ pitch ∨ x.rows = 1) →
    (base + span ≤ c.spmSize → ∃ t, exec (.lxWout (.spm ms) fmt sat rp) s = .next t ∧
      ∀ i < x.rows, ∀ j < x.cols, ∀ b < w,
        let a := base + pitch * i + w * j + b
        spmByte (core t s.cur.core) a = value (ol i j).1.toNat / 2 ^ (8 * b) % 256 ∧
        ((ol i j).2 = true → (spmWord (core t s.cur.core) (a / 4)).p = true)) ∧
    (∀ n, x.tileNo t6 ti = some n → span ≤ 4096 → ∃ t, exec (.lxWout (.tile t6 ti) fmt sat rp) s = .next t ∧
      (∀ i < x.rows, ∀ j < x.cols, ∀ b < w,
        let a := pitch * i + w * j + b
        (tileWord (core t s.cur.core) n (a / 4)).v.toNat / 2 ^ (8 * (a % 4)) % 256 = value (ol i j).1.toNat / 2 ^ (8 * b) % 256 ∧
        ((ol i j).2 = true → (tileWord (core t s.cur.core) n (a / 4)).p = true) ∧
        planeEnt (core t s.cur.core) n (a / 64) = (0, false)) ∧
      ∀ u < 64, (∀ i < x.rows, u < pitch * i / 64 ∨ pitch * i + x.cols * w ≤ 64 * u) →
        planeEnt (core t s.cur.core) n u = planeEnt c n u)

/-! ## Stacked memory and flash (R95-R104) -/

/-- R96, R97, R99: a bad burst is counted and recorded; the first bad CRC of a burst begins its replay, each further one is a failed replay;
the sixteenth error of a lane within 2^20 bursts makes a repair wanted, or a retrain where the tracking lane is in use; the eighth failed
replay of one burst during Pending forces the retrain; the repair waits until no replay is outstanding (a replay that does not fail in the
clk after the bad CRC has ended: the model's choice, log entry 83), switches and ends with the tracking lane in its place, its phase the
neighbour's and one spare fewer; a phase move touches only its group and a neighbour whose tracking lane carries data. How bursts are
counted and the numbers of error-log kinds are the model's choices too (log entries 18, 52). -/
def Parts.LaneRepairSteps : Prop :=
  ∀ (s : State) (st ch g lane burst : Nat) (x y : LaneGrp), st < 16 → ch < 32 → g < 2 → grpOf s st ch g = x → grpOf s st ch (1 - g) = y →
    let n := match mlook x.replays burst with
      | some n => n + 1
      | none => 0
    let u : LaneGrp := { x with errs := x.errs ++ [(lane, x.bursts)], replays := mput x.replays burst n, lastBad := s.clk }
    let told : LogRec := ⟨1, st, s.clk, [BitVec.ofNat 64 ch, BitVec.ofNat 64 g, BitVec.ofNat 64 lane, BitVec.ofNat 64 burst]⟩
    (s.chFail.contains (32 * st + ch) = false →
      (x.st = .normal → laneErrs x lane < 15 → ∃ t, exec (.burstCrcError st ch g ⟨lane, burst⟩) s = .next t ∧
        grpOf t st ch g = u ∧ t.errLog = s.errLog ++ [told] ∧ ∀ a, rdByte t a = rdByte s a) ∧
      (x.st = .normal → 15 ≤ laneErrs x lane → x.spare = none → ∃ t, exec (.burstCrcError st ch g ⟨lane, burst⟩) s = .next t ∧
        (grpOf t st ch g).st = .pending ∧ (grpOf t st ch g).want = some lane) ∧
      (x.st = .normal → 15 ≤ laneErrs x lane → x.spare.isSome = true → ∃ t, exec (.burstCrcError st ch g ⟨lane, burst⟩) s = .next t ∧
        (grpOf t st ch g).st = .retrain) ∧
      (x.st = .pending → ∃ t, exec (.burstCrcError st ch g ⟨lane, burst⟩) s = .next t ∧
        (if n < 8 then grpOf t st ch g = u else (grpOf t st ch g).st = .retrain))) ∧
    (x.spare = none → ∃ t, exec (.trackingPhaseMove st ch g) s = .next t ∧ grpOf t st ch g = { x with phase := x.phase + 1 } ∧
      grpOf t st ch (1 - g) = (if y.spare.isSome then { y with phase := x.phase + 1 } else y) ∧ t.dev = s.dev ∧ t.mem = s.mem ∧
      ∀ key, key ≠ grpKey st ch g → key ≠ grpKey st ch (1 - g) → mget {} t.grps key = mget {} s.grps key) ∧
    (x.spare.isSome = true → exec (.trackingPhaseMove st ch g) s = .next s) ∧
    (x.st = .pending → x.replays ≠ [] → s.clk ≤ x.lastBad → exec (.repairSwitch st ch g) s = .next s) ∧
    (x.st = .pending → x.replays = [] ∨ x.lastBad < s.clk → ∃ t, exec (.repairSwitch st ch g) s = .next t ∧ (grpOf t st ch g).st = .switch ∧ (grpOf t st ch g).want = x.want ∧
      t.dev = s.dev ∧ t.mem = s.mem) ∧
    (x.st = .switch → ∃ t, exec (.repairSwitchDone st ch g) s = .next t ∧ (grpOf t st ch g).st = .normal ∧
      (grpOf t st ch g).spare = x.want ∧ (grpOf t st ch g).phase = y.phase ∧
      bits (rdReg t (.hbmSts st)) 48 8 = bits (rdReg s (.hbmSts st)) 48 8 - 1 ∧
      (bits (rdReg s (.hbmSts st)) 48 8 = 1 → (rdReg t .replSts).getLsbD 63 = true)) ∧
    (x.st = .retrain → ∃ t, exec (.retrainDone st ch g) s = .next t ∧
      (grpOf t st ch g).st = (if x.want.isSome then .pending else .normal) ∧ (grpOf t st ch g).replays = [] ∧ t.dev = s.dev ∧ t.mem = s.mem) ∧
    (x.st = .retrain → x.since + 48000 ≤ s.clk → ∃ t, exec (.retrainTimeout st ch g) s = .next t ∧ (grpOf t st ch g).st = .failed ∧
      t.chFail.contains (32 * st + ch) = true ∧ (rdReg t .replSts).getLsbD 63 = true)

/-- R98, R99: a stack unused for 4,096 clk powers down; a write of HBM_STS sets its power state to 0, 2 or 3; a failed stack ignores it.
That a Failed stack ignores writes of PSTATE is the model's reading (log entry 59). -/
def Parts.StackPowerStates : Prop :=
  ∀ (s : State) (st : Nat) (v : Word),
    (bits (rdReg s (.hbmSts st)) 0 3 = 0 → mget 0 s.stackUse st + 4096 ≤ s.clk → ∃ t, exec (.hbmPowerDown st) s = .next t ∧
      bits (rdReg t (.hbmSts st)) 0 3 = 1 ∧ (∀ r, r.key ≠ (Reg.hbmSts st).key → rdReg t r = rdReg s r) ∧ t.mem = s.mem ∧ t.cores = s.cores) ∧
    (s.clk < mget 0 s.stackUse st + 4096 → exec (.hbmPowerDown st) s = .next s) ∧
    (7 ≤ s.bringup → bits (rdReg s (.hbmSts st)) 0 3 ≠ 4 → bits v 0 3 = 0 ∨ bits v 0 3 = 2 ∨ bits v 0 3 = 3 →
      ∃ t, exec (.hbmStsWrite st v) s = .next t ∧ bits (rdReg t (.hbmSts st)) 0 3 = bits v 0 3 ∧
        bits (rdReg t (.hbmSts st)) 3 61 = bits (rdReg s (.hbmSts st)) 3 61 ∧ t.mem = s.mem) ∧
    (bits (rdReg s (.hbmSts st)) 0 3 = 4 → exec (.hbmStsWrite st v) s = .next s)

/-- R102-R104: a handle is opened over its range with both pointers at its base, sealed, trimmed to its empty range, each only from its
state; a refused command sets ERR and keeps the state; durable pages advance the durable pointer, and a handle whose pages are all durable
is Sealed. That command 0 sets ERR is the model's reading (log entry 59). -/
def Parts.AppendLogHandles : Prop :=
  ∀ (s : State) (tier h : Nat) (v : Word), 7 ≤ s.bringup →
    let c := rdReg s (.fahCtl tier h)
    let p := rdReg s (.fahPtr tier h)
    let st := bits c 62 2
    (bits v 58 3 = 1 → st = 0 → bits v 0 29 ≤ bits v 29 29 → ∃ t, exec (.fahOpen tier h v) s = .next t ∧
      bits (rdReg t (.fahCtl tier h)) 62 2 = 1 ∧ bits (rdReg t (.fahPtr tier h)) 0 30 = bits v 0 29 ∧
      bits (rdReg t (.fahPtr tier h)) 30 30 = bits v 0 29 ∧ t.flashW = s.flashW ∧ t.mem = s.mem) ∧
    (bits v 58 3 = 2 → st = 1 → ∃ t, exec (.fahSeal tier h v) s = .next t ∧ bits (rdReg t (.fahCtl tier h)) 62 2 = 3 ∧
      rdReg t (.fahPtr tier h) = p ∧ t.mem = s.mem) ∧
    (∀ i, (i = .fahOpen tier h v ∧ bits v 58 3 = 1 ∧ (st ≠ 0 ∨ bits v 29 29 < bits v 0 29)) ∨
        (i = .fahSeal tier h v ∧ bits v 58 3 = 2 ∧ st ≠ 1) ∨ (i = .fahTrim tier h v ∧ bits v 58 3 = 3 ∧ st ≠ 2) →
      ∃ t, exec i s = .next t ∧ bits (rdReg t (.fahCtl tier h)) 62 2 = st ∧ (rdReg t (.fahCtl tier h)).getLsbD 61 = true ∧
        rdReg t (.fahPtr tier h) = p ∧ t.flashW = s.flashW ∧ t.mem = s.mem) ∧
    (bits v 58 3 = 3 → st = 2 → ∃ t, exec (.fahTrim tier h v) s = .next t ∧ bits (rdReg t (.fahCtl tier h)) 62 2 = 0 ∧
      ∀ e, e ∈ t.flashW ↔ e ∈ s.flashW ∧ ¬(tier * 2 ^ 29 + bits c 0 29 ≤ e.1 ∧ e.1 ≤ tier * 2 ^ 29 + bits c 29 29)) ∧
    (st = 1 ∨ st = 3 → bits p 30 30 < bits p 0 30 → ∃ t, exec (.flashPageDurable tier h) s = .next t ∧
      bits (rdReg t (.fahPtr tier h)) 30 30 = bits p 30 30 + 1 ∧ bits (rdReg t (.fahPtr tier h)) 0 30 = bits p 0 30 ∧ t.mem = s.mem) ∧
    (st = 3 → bits p 30 30 = bits p 0 30 → ∃ t, exec (.fahSealDone tier h) s = .next t ∧ bits (rdReg t (.fahCtl tier h)) 62 2 = 2 ∧
      rdReg t (.fahPtr tier h) = p)

/-! ## The coding group (R135-R166) -/

/-- R139, R140, R149: EN = 1 with settings that meet the member's own conditions asks every other member for its settings, else ERR and
the CFG event; a preset stores M and the timeouts first. -/
def Parts.GroupEnable : Prop :=
  ∀ (s : State) (v : Word), 7 ≤ s.bringup → pgOn s = false → pgState s = 0 → bit (rdReg s .pgCfg) 32 = false →
    let asked (t : State) (u : State) : Prop :=
      t.group.asking = true ∧ t.group.confs = 1#32 <<< pgSelf u ∧ sentToMembers u t (.configExchange (pgSelf u) { ownCfg u with phase := .ask }) ∧
      pgOn t = false ∧ pgState t = 0 ∧ bytesStay s t
    let refused (t : State) : Prop :=
      bit (rdReg t .pgCfg) 30 = true ∧ bit (rdReg t .pgEvt) 8 = true ∧ pgOn t = false ∧ t.outbox = s.outbox
    (bit v 31 = true → bit v 30 = false → bit v 32 = false → bits v 16 6 = pgN s → bits v 8 3 = pgM s → bits v 0 5 = pgSelf s →
      (pgLocalOk s = true → ∃ t, exec (.pgCfgEnSet v) s = .next t ∧ asked t s) ∧
      (pgLocalOk s = false → ∃ t, exec (.pgCfgEnSet v) s = .next t ∧ refused t)) ∧
    (bits v 0 3 = 1 ∨ bits v 0 3 = 2 ∨ bits v 0 3 = 3 →
      ∃ t, exec (.pgPreset v) s = .next t ∧ rdReg t .pgTmo = 0x0000004000800100 ∧ pgM t = (if bits v 0 3 = 3 then 4 else bits v 0 3) ∧
        pgN t = pgN s ∧ pgSelf t = pgSelf s ∧ (if pgLocalOk t = true then t.group.asking = true else refused t)) ∧
    (bits v 0 3 = 0 ∨ 3 < bits v 0 3 → ∃ t, exec (.pgPreset v) s = .next t ∧ bit (rdReg t .pgCfg) 30 = true ∧
      otherRegsStay s t [.pgCfg] ∧ bytesStay s t)

/-- R140, R160: EN = 0 in Running, Isolated or Lost with no protected task and an empty journal gives Disabled, and all members are present (that
MISSING and MST clear with it is the model's choice: log entry 84); in any other case it is refused with ERR. A spare that was turned away
while it received, so with EN = 0, leaves Isolated and Lost in the same way. SPARE moves between Disabled and Spare. -/
def Parts.GroupDisableAndSpare : Prop :=
  ∀ (s : State) (v : Word), 7 ≤ s.bringup → bit v 31 = false →
    (pgOn s = true →
      (pgState s = 2 ∨ pgState s = 8 ∨ pgState s = 9 → protectedTask s = false → jUsed s = 0 →
        ∃ t, exec (.pgCfgEnClear v) s = .next t ∧ pgOn t = false ∧ pgState t = (if bit (rdReg s .pgCfg) 32 then 10 else 0) ∧
          pgMissing t = 0 ∧ (∀ i < 32, memberSt t i = 0) ∧
          t.group.journal = [] ∧ t.group.deltas = [] ∧ bytesStay s t ∧ (pgState s ≠ 9 → t.cores = s.cores)) ∧
      ((pgState s ≠ 2 ∧ pgState s ≠ 8 ∧ pgState s ≠ 9) ∨ protectedTask s = true ∨ jUsed s ≠ 0 →
        ∃ t, exec (.pgCfgEnClear v) s = .next t ∧ pgOn t = true ∧ pgState t = pgState s ∧ bit (rdReg t .pgCfg) 30 = true ∧
          t.group = s.group ∧ bytesStay s t)) ∧
    (pgOn s = false → pgState s = 8 ∨ pgState s = 9 → protectedTask s = false → jUsed s = 0 →
      ∃ t, exec (.pgCfgEnClear v) s = .next t ∧ pgOn t = false ∧ pgState t = (if bit v 32 then 10 else 0) ∧ bytesStay s t) ∧
    (pgOn s = false → pgState s = 0 → bit (rdReg s .pgCfg) 32 = false → bit v 32 = true →
      ∃ t, exec (.pgCfgSpare v) s = .next t ∧ pgState t = 10 ∧ bit (rdReg t .pgCfg) 32 = true ∧ bytesStay s t) ∧
    (pgOn s = false → pgState s = 10 → bit (rdReg s .pgCfg) 32 = true → bit v 32 = false →
      ∃ t, exec (.pgCfgSpare v) s = .next t ∧ pgState t = 0 ∧ bit (rdReg t .pgCfg) 32 = false ∧ bytesStay s t)

/-- R139: a member answers with its settings; equal settings of all members begin encoding with an empty parity area; different ones give
ERR and the CFG event; once all have encoded round 1 is open in Running. -/
def Parts.GroupConfiguration : Prop :=
  ∀ (s : State) (src : Nat) (cfg : GroupCfg),
    let b : W32 := 1#32 <<< src
    (cfg.phase = .ask → pgState s ≠ 8 → s.group.asking = false ∨ cfg.index ≠ 32 → exec (.configExchange src cfg) s = .next { s with
      outbox := s.outbox ++ [(memberPod s src, .configExchange (pgSelf s) { ownCfg s with phase := .report, index := cfg.index })] }) ∧
    (cfg.phase = .report → cfg.index = 32 → s.group.asking = true → pgState s = 0 →
      ({ cfg with phase := .ask } = ownCfg s → s.group.confs ||| b ≠ allMembers s →
        exec (.configExchange src cfg) s = .next { s with group := { s.group with confs := s.group.confs ||| b } }) ∧
      ({ cfg with phase := .ask } = ownCfg s → s.group.confs ||| b = allMembers s →
        ∃ t, exec (.configExchange src cfg) s = .next t ∧ pgState t = 1 ∧ pgOn t = true ∧ rdReg t .pgJfill = 0 ∧ t.group.asking = false ∧
          ∀ a, rdByte t a = if isHbm a = true ∧ (areaOf s .pgAreaP).1 ≤ stackOff a ∧ stackOff a < (areaOf s .pgAreaP).1 + (areaOf s .pgAreaP).2
            then 0 else rdByte s a) ∧
      ({ cfg with phase := .ask } ≠ ownCfg s → ∃ t, exec (.configExchange src cfg) s = .next t ∧ t.group.asking = false ∧ pgState t = 0 ∧
        bit (rdReg t .pgCfg) 30 = true ∧ bit (rdReg t .pgEvt) 8 = true)) ∧
    (cfg.phase = .encoding → pgState s = 0 → exec (.configExchange src cfg) s = .next { s with group := { s.group with ready := s.group.ready ||| b } }) ∧
    (cfg.phase = .shared → pgState s = 1 → ∃ t, exec (.configExchange src cfg) s = .next t ∧ t.group.shared = s.group.shared ||| b ∧
      (t.group.shared = allMembers s → t.group.encoded.getLsbD (pgSelf s) = true ∨ 32 ≤ pgSelf s) ∧ bytesStay s t) ∧
    (cfg.phase = .encoded → pgState s = 1 → exec (.configExchange src cfg) s = .next { s with group := { s.group with encoded := s.group.encoded ||| b } }) ∧
    (pgState s = 1 → s.group.encoded = allMembers s → ∃ t, exec .encodingDone s = .next t ∧ pgState t = 2 ∧ pgOrn t = 1 ∧ pgCrn t = 0 ∧
      t.net = s.net ++ s.group.held ∧ t.group.held = [] ∧ bytesStay s t) ∧
    (pgState s ≠ 1 ∨ s.group.encoded ≠ allMembers s → exec .encodingDone s = .next s)

/-- R152, R156: a delta of the open round is applied to its parity line, whose pre-image stands in the journal, and acknowledged; without
room for the record the round aborts with reason 2, with a line that cannot be read with reason 5; an acknowledgement counts once, and
the last one of a prepare sends the vote. -/
def Parts.GroupDeltas : Prop :=
  ∀ (s : State) (src rnd unit off l : Nat) (bytes : List Byte), fromMember s src →
    let line := (parityPa s unit + off) / 128
    (rnd = pgOrn s → pgState s = 2 ∨ pgState s = 3 ∨ pgState s = 4 → hbmRes s (128 * line) = .served →
      (∀ i < 32, mget false s.bad (32 * line + i) = false) →
      (canRecord s line → bytes.length = 128 → ∃ t, exec (.delta src rnd unit off bytes) s = .next t ∧
        t.outbox = s.outbox ++ [(memberPod s src, .dack (pgSelf s) rnd (32 * unit + off / 128))] ∧
        (∀ i < 128, rdByte t (128 * line + i) = rdByte s (128 * line + i) ^^^ bytes.getD i 0) ∧
        (∀ a, a < 128 * line ∨ 128 * line + 128 ≤ a → rdByte t a = rdByte s a) ∧
        mlook t.group.journal line = (match mlook s.group.journal line with
          | some r => some r
          | none => some ⟨true, memLine s line⟩)) ∧
      (mlook s.group.journal line = none → jCap s ≤ jUsed s → pgState s ≠ 4 → ∃ t, exec (.delta src rnd unit off bytes) s = .next t ∧
        pgState t = 6 ∧ bits (rdReg t .pgSts) 56 4 = 2 ∧ bit (rdReg t .pgEvt) 3 = true) ∧
      (mlook s.group.journal line = none → jCap s ≤ jUsed s → pgState s = 4 → exec (.delta src rnd unit off bytes) s = .next s)) ∧
    (rnd = pgOrn s → pgState s = 2 ∨ pgState s = 3 → hbmRes s (128 * line) ≠ .held →
      hbmRes s (128 * line) = .failed ∨ (∃ i < 32, mget false s.bad (32 * line + i) = true) →
      ∃ t, exec (.delta src rnd unit off bytes) s = .next t ∧ pgState t = 6 ∧ bits (rdReg t .pgSts) 56 4 = 5 ∧ bytesStay s t) ∧
    (rnd = (pgOrn s + 1) % 2 ^ 32 → exec (.delta src rnd unit off bytes) s = .next
      { s with group := { s.group with held := s.group.held ++ [.delta src rnd unit off bytes] } }) ∧
    (let left := s.group.deltas.eraseP fun x => x.member = src && x.round = rnd && x.line = l;
     rnd = pgOrn s →
      (pgState s ≠ 3 ∨ s.group.wrote = false ∨ left ≠ [] →
        exec (.dack src rnd l) s = .next { s with group := { s.group with deltas := left } }) ∧
      (pgState s = 3 → s.group.wrote = true → left = [] → maskCount (s.group.votes ||| (1#32 <<< pgSelf s)).toNat ≠ pgN s →
        ∃ t, exec (.dack src rnd l) s = .next t ∧ pgState t = 4 ∧ sentToMembers s t (.prepared (pgSelf s) (pgOrn s)) ∧
          t.group.votes = s.group.votes ||| (1#32 <<< pgSelf s) ∧ bytesStay s t))

/-- R154, R156-R158: a round packet for the open round begins prepare in Running; one for another round, or without a group, completes with
bit 59; a vote is counted, and with all of them the round is committed; ABORT gives Restoring, and one whose reason says that its sender has
gone to Exchange makes the member await the DECIDE there (R399; log entry 88). -/
def Parts.GroupRounds : Prop :=
  ∀ (s : State) (q pk src rnd reason : Nat) (p : Pkt),
    (onTurn s q pk 3 = some p → p.done = false →
      (pgState s = 2 → bits (p.word 1) 0 32 = pgOrn s → (q, pk) ∉ s.group.rounds → protectedTask (startPkt s q pk) = false → peBusy s = false →
        ∃ t, exec (.round q pk) s = .next t ∧ pgState t = 3 ∧ t.group.rounds = s.group.rounds ++ [(q, pk)] ∧ bytesStay s t ∧ t.net = s.net) ∧
      (pgState s = 0 ∨ pgState s = 8 ∨ pgState s = 9 ∨ pgState s = 10 →
        exec (.round q pk) s = .next (donePkt (startPkt s q pk) q pk 8)) ∧
      (pgState s = 2 ∨ pgState s = 3 ∨ pgState s = 4 ∨ pgState s = 5 ∨ pgState s = 6 → bits (p.word 1) 0 32 ≠ pgOrn s →
        (q, pk) ∉ s.group.rounds → exec (.round q pk) s = .next (donePkt (startPkt s q pk) q pk 8))) ∧
    (fromMember s src →
      let all := s.group.votes ||| (1#32 <<< src)
      (rnd = pgOrn s → pgState s ≠ 4 ∨ maskCount all.toNat ≠ pgN s →
        exec (.prepared src rnd) s = .next { s with group := { s.group with votes := all } }) ∧
      (rnd = pgOrn s → pgState s = 4 → maskCount all.toNat = pgN s → ∃ t, exec (.prepared src rnd) s = .next t ∧
        pgOrn t = (pgOrn s + 1) % 2 ^ 32 ∧ pgCrn t = pgOrn s ∧ t.group.journal = [] ∧ rdReg t .pgJfill = 0 ∧ t.group.rounds = [] ∧
        bit (rdReg t .pgEvt) 0 = true ∧ pgState t = if pgMissing s = 0 then 2 else 7) ∧
      (rnd = (pgOrn s + 1) % 2 ^ 32 → exec (.prepared src rnd) s = .next
        { s with group := { s.group with heldVotes := s.group.heldVotes ||| (1#32 <<< src) } }) ∧
      (rnd = pgOrn s → pgState s = 2 ∨ pgState s = 3 → ∃ t, exec (.abort src rnd reason) s = .next t ∧ pgState t = 6 ∧
        bits (rdReg t .pgSts) 56 4 = 6 ∧ bytesStay s t ∧ ∀ i ∈ others s, (memberPod s i, .abort (pgSelf s) (pgOrn s) 6) ∈ t.outbox) ∧
      (rnd = pgOrn s → pgState s = 4 → ∃ t, exec (.abort src rnd reason) s = .next t ∧ pgState t = 6 ∧ bytesStay s t ∧ t.outbox = s.outbox) ∧
      (rnd = pgOrn s → pgState s = 2 ∨ pgState s = 3 ∨ pgState s = 4 → ∃ t, exec (.abort src rnd reason) s = .next t ∧
        t.group.await = (s.group.await || decide (reason = 1 ∨ reason = 4))) ∧
      (rnd ≠ pgOrn s → exec (.abort src rnd reason) s = .next s)) ∧
    (exec (.isolated src) s = .next s)

/-- R159, R160, R166: a query for the open round brings a member into Exchange, which answers with its votes, one for the next round is
answered with the votes held for it, one for an older round with CRN only, also in Encoding; in Restoring the member answers and awaits the
DECIDE (log entry 88); the coordinator counts answers and, with all of them, decides commit exactly when some member has committed or every
vote is held. What repeated and late messages do is the model's reading (log entry 81). -/
def Parts.GroupExchange : Prop :=
  ∀ (s : State) (src crn : Nat) (votes : W32) (committed restored : Bool) (e : Exch), fromMember s src →
    let orn := pgOrn s
    let e' : Exch := { e with answers := (e.answers.filter fun a => a.member ≠ src) ++ [⟨src, crn, votes, committed, restored, none⟩] }
    (pgState s = 2 ∨ pgState s = 3 ∨ pgState s = 4 ∨ pgState s = 7 ∨ pgState s = 11 → ∃ t c r d, exec (.vquery src orn) s = .next t ∧
      pgState t = 5 ∧ t.outbox.getLast? = some (memberPod s src, .vset (pgSelf s) orn (pgCrn s) s.group.votes c r d) ∧ bytesStay s t) ∧
    (pgState s = 6 → ∃ t c r d, exec (.vquery src orn) s = .next t ∧ pgState t = 6 ∧ t.group.await = true ∧ bytesStay s t ∧
      t.outbox = s.outbox ++ [(memberPod s src, .vset (pgSelf s) orn (pgCrn s) s.group.votes c r d)]) ∧
    (∀ rnd, pgState s = 1 → isOlder s rnd = false → exec (.vquery src rnd) s = .next s) ∧
    (∀ rnd, rnd ≠ orn → receiving s = false →
      (pgState s ≠ 1 → rnd = (orn + 1) % 2 ^ 32 → ∃ c r d, exec (.vquery src rnd) s = .next { s with
        outbox := s.outbox ++ [(memberPod s src, .vset (pgSelf s) rnd (pgCrn s) s.group.heldVotes c r d)] }) ∧
      (isOlder s rnd = true → exec (.vquery src rnd) s = .next { s with
        outbox := s.outbox ++ [(memberPod s src, .vset (pgSelf s) rnd (pgCrn s) 0 false false none)] })) ∧
    (pgState s = 5 → s.group.exch = some e → e.coord = pgSelf s →
      ((∃ i < pgN s, i ≠ pgSelf s ∧ memberSt s i ≠ 1 ∧ ∀ a ∈ e'.answers, a.member ≠ i) →
        exec (.vset src orn crn votes committed restored none) s = .next { s with group := { s.group with exch := some e' } }) ∧
      ((∀ i < pgN s, memberSt s i = 0 ∧ (i = pgSelf s ∨ ∃ a ∈ e'.answers, a.member = i)) → pgMissing s = 0 → s.group.dec = none →
        (∀ a ∈ e'.answers, a.dec = none) → (e.from_ = 2 ∨ e.from_ = 3 ∨ e.from_ = 4) →
        let commit : Bool := decide (pgCrn s = orn) || e'.answers.any (fun a => a.committed || a.crn = orn) ||
          decide (maskCount (e'.answers.foldl (fun m a => m ||| a.votes) s.group.votes).toNat = pgN s)
        ∃ t, exec (.vset src orn crn votes committed restored none) s = .next t ∧
          (∀ a ∈ e'.answers, (memberPod s a.member, .decide (pgSelf s) orn ⟨commit, 0⟩) ∈ t.outbox) ∧
          (commit = true → pgState t = 2 ∧ pgCrn t = orn) ∧ (commit = false → pgState t = 6 ∧ pgOrn t = orn)))

/-- R160, R162, R165, R399: a decision for the open round commits or restores, marks the failed members, and isolates or loses the member
itself; in Degraded it leads back there; in Restoring it marks the failed members, and the restore goes on. What repeated and late messages
do is the model's reading (log entry 81). -/
def Parts.GroupDecision : Prop :=
  ∀ (s : State) (src : Nat) (d : Decision), fromMember s src →
    let missing := Nat.lor (pgMissing s) d.failed.toNat
    (pgState s = 6 →
      (d.failed.getLsbD (pgSelf s) = true → ∃ t, exec (.decide src (pgOrn s) d) s = .next t ∧ pgState t = 8 ∧ bit (rdReg t .pgEvt) 6 = true) ∧
      (d.failed.getLsbD (pgSelf s) = false → pgM s < maskCount missing → ∃ t, exec (.decide src (pgOrn s) d) s = .next t ∧ pgState t = 9) ∧
      (d.failed.getLsbD (pgSelf s) = false → maskCount missing ≤ pgM s → ∃ t, exec (.decide src (pgOrn s) d) s = .next t ∧ pgState t = 6 ∧
        pgMissing t = missing ∧ (∀ i < pgN s, d.failed.getLsbD i = true → memberSt t i = 1) ∧ t.group.await = false)) ∧
    (∀ e, pgState s = 5 → s.group.exch = some e →
    (d.failed.getLsbD (pgSelf s) = true → ∃ t, exec (.decide src (pgOrn s) d) s = .next t ∧ pgState t = 8 ∧ t.group.journal = [] ∧
      bit (rdReg t .pgEvt) 6 = true) ∧
    (d.failed.getLsbD (pgSelf s) = false → pgM s < maskCount missing → ∃ t, exec (.decide src (pgOrn s) d) s = .next t ∧ pgState t = 9 ∧
      bit (rdReg t .pgEvt) 7 = true) ∧
    (d.failed.getLsbD (pgSelf s) = false → maskCount missing ≤ pgM s → ∃ t, exec (.decide src (pgOrn s) d) s = .next t ∧
      pgMissing t = missing ∧ (∀ i < pgN s, d.failed.getLsbD i = true → memberSt t i = 1) ∧
      (e.from_ = 7 ∨ e.from_ = 11 → pgState t = (if e.from_ = 11 then 11 else if missing = 0 then 2 else 7) ∧ pgOrn t = pgOrn s) ∧
      (e.from_ ≠ 7 → e.from_ ≠ 11 → d.commit = true → pgState t = (if missing = 0 then 2 else 7) ∧ pgCrn t = pgOrn s ∧
        pgOrn t = (pgOrn s + 1) % 2 ^ 32 ∧ t.group.journal = []) ∧
      (e.from_ ≠ 7 → e.from_ ≠ 11 → d.commit = false → pgState t = 6 ∧ pgOrn t = pgOrn s)) ∧
    (∀ rnd, rnd ≠ pgOrn s → e.from_ ≠ 11 →
      (rnd = (pgOrn s + 1) % 2 ^ 32 → ∃ c r y, exec (.decide src rnd d) s = .next { s with
        outbox := s.outbox ++ [(memberPod s src, .vset (pgSelf s) rnd (pgCrn s) s.group.heldVotes c r y)] }) ∧
      (isOlder s rnd = true → exec (.decide src rnd d) s = .next { s with
        outbox := s.outbox ++ [(memberPod s src, .vset (pgSelf s) rnd (pgCrn s) 0 false false none)] })))

/-- R159: a delta unacknowledged for too long, votes or a decision that do not come, and a report of a dead member bring the member into
Exchange; a coordinator left without enough answers is Isolated. That a missing DACK is suspected in Exchange is the model's reading (log
entry 75). -/
def Parts.GroupTimeouts : Prop :=
  ∀ (s : State) (f : Nat) (e : Exch),
    let tmo (lo : Nat) : Nat := bits (rdReg s .pgTmo) lo 16 * 65536
    let suspectable : Prop := f < pgN s ∧ f ≠ pgSelf s ∧ memberSt s f ≠ 1 ∧ pgN s ≤ 32
    let inExchange (t : State) (m : W32) : Prop := pgState t = 5 ∧ t.group.exch.map (·.suspects) = some m ∧ bytesStay s t
    let active : Prop := pgState s = 2 ∨ pgState s = 3 ∨ pgState s = 4 ∨ pgState s = 7 ∨ pgState s = 11
    (suspectable → active → (∃ x ∈ s.group.deltas, x.member = f ∧ x.clk + tmo 32 ≤ s.clk) →
      ∃ t, exec (.dackTimeout f) s = .next t ∧ inExchange t (1#32 <<< f)) ∧
    ((∀ x ∈ s.group.deltas, x.member = f → s.clk < x.clk + tmo 32) → exec (.dackTimeout f) s = .next s) ∧
    (suspectable → active → ∃ t, exec (.memberDeadReport f) s = .next t ∧ inExchange t (1#32 <<< f)) ∧
    (pgState s = 4 → s.group.since + tmo 0 ≤ s.clk → ∃ t, exec .voteTimeout s = .next t ∧ pgState t = 5 ∧ bytesStay s t) ∧
    (pgState s ≠ 4 ∨ s.clk < s.group.since + tmo 0 → exec .voteTimeout s = .next s) ∧
    (pgState s = 5 → s.group.exch = some e → e.coord = pgSelf s → s.group.since + tmo 16 ≤ s.clk →
      (e.answers.length + 1 < pgN s - pgM s ∨ (e.answers.length + 1) * 2 ≤ pgN s →
        ∃ t, exec .vsetTimeout s = .next t ∧ pgState t = 8 ∧ t.group.journal = []) ∧
      (∃ t, exec .vsetTimeout s = .next t ∧ pgState t ≠ 5)) ∧
    (pgState s = 5 → s.group.exch = some e → e.coord ≠ pgSelf s → s.group.since + 2 * tmo 16 ≤ s.clk →
      ∃ t, exec .decideTimeout s = .next t ∧ inExchange t (e.suspects ||| (1#32 <<< e.coord))) ∧
    (s.group.exch = none → exec .vsetTimeout s = .next s ∧ exec .decideTimeout s = .next s)

/-- R161, R163, R399: a restore writes every journal record back, empties the journal and opens the next round with the same committed one; after
an abort for a line that cannot be read it first asks for the units that are still damaged, and stays in Restoring; it stays there too while
the DECIDE of an exchange is to be awaited, for at most 2 × PG_TMO.VS (log entry 88); a member suspected meanwhile is suspected when the restore
has ended. -/
def Parts.GroupRestore : Prop :=
  ∀ (s : State), pgState s = 6 →
    (s.group.await = true → s.clk < s.group.since + 2 * (bits (rdReg s .pgTmo) 16 16 * 65536) → s.group.mend = true →
      exec .restoreDone s = .next s) ∧
    (∀ f, s.group.await = false → s.group.mend = true → bits (rdReg s .pgSts) 56 4 ≠ 5 → s.group.suspects = 1#32 <<< f → f < 32 → f < pgN s →
      f ≠ pgSelf s → memberSt s f ≠ 1 → ∃ t, exec .restoreDone s = .next t ∧ pgState t = 5 ∧ t.group.exch.map (·.suspects) = some (1#32 <<< f)) ∧
    (s.group.await = false → s.group.suspects = 0 →
    let hurt (u : State) : List Nat := if bits (rdReg s .pgSts) 56 4 = 5 then damagedStripes u else []
    (s.group.mend = false → hurt (restoreRound s) = [] →
      ∃ t, exec .restoreDone s = .next t ∧ pgOrn t = (pgOrn s + 1) % 2 ^ 32 ∧ pgCrn t = pgCrn s ∧ t.group.journal = [] ∧
      rdReg t .pgJfill = 0 ∧ t.group.restored = some (pgOrn s) ∧ bit (rdReg t .pgEvt) 1 = true ∧ t.group.rounds = [] ∧
      pgState t = (if pgMissing s = 0 then 2 else 7)) ∧
    (s.group.mend = false → hurt (restoreRound s) ≠ [] → ∃ t, exec .restoreDone s = .next t ∧ pgState t = 6 ∧ t.group.mend = true ∧
      ∀ st ∈ hurt (restoreRound s), ∀ i ∈ others s, (memberPod s i, .rebuild (pgSelf s) st (pgSelf s) []) ∈ t.outbox) ∧
    (s.group.mend = true → hurt s = [] → ∃ t, exec .restoreDone s = .next t ∧ pgOrn t = (pgOrn s + 1) % 2 ^ 32 ∧ t.group.mend = false ∧
      pgState t = (if pgMissing s = 0 then 2 else 7) ∧ bytesStay s t) ∧
    (s.group.mend = true → hurt s ≠ [] → exec .restoreDone s = .next s) ∧
    (∀ line par pre, s.group.mend = false → bits (rdReg s .pgSts) 56 4 ≠ 5 → s.group.journal = [(line, ⟨par, pre⟩)] → pre.length = 32 →
      s.pes = [] → s.group.rounds = [] → noRing s →
      ∃ t, exec .restoreDone s = .next t ∧ (∀ i < 32, memWord t (32 * line + i) = pre.getD i {}) ∧
        ∀ a, a < 128 * line ∨ 128 * line + 128 ≤ a → rdByte t a = rdByte s a))

/-- R163, R164, R161: GO asks the spare for its settings, which have to be the group's; survivors pass sums along, stripe after stripe, and begin
again until the module says that it has every stripe (log entry 74); a spare, and a member in Encoding, take what they receive; when the last
stripe is written the module joins with the survivors' rounds and missing members, but for those that have joined meanwhile, and every
member marks it present; an index that was declared failed meanwhile stays missing. -/
def Parts.GroupRebuild : Prop :=
  ∀ (s : State) (v : Word) (src stripe unit crn orn missing doing : Nat) (bytes : List Byte), 7 ≤ s.bringup →
    let i := bits v 0 5
    let row := wrReg s (.pgMemb i) (rbldRow v)
    let member := src < pgN s ∧ src ≠ pgSelf s ∧ memberSt s src = 0
    let chain := rebuildChain s stripe unit
    (bit v 63 = true → i < pgN s → memberSt s i = 1 → domainsOk row (pgN s) (pgM s) 24 = true → domainsOk row (pgN s) (pgM s) 32 = true →
      ∃ cfg t, exec (.pgRbldGo v) s = .next t ∧ mlook t.group.rblds i = some v ∧ cfg.phase = .ask ∧ cfg.index = i ∧ cfg.n = pgN s ∧
        t.outbox = s.outbox ++ [(bits v 16 6, .configExchange (pgSelf s) cfg)] ∧ t.dev = s.dev ∧ t.mem = s.mem) ∧
    (bit v 63 = true → pgN s ≤ i ∨ memberSt s i ≠ 1 → ∃ t, exec (.pgRbldGo v) s = .next t ∧ bit (rdReg t .pgCfg) 30 = true ∧
      t.group.rblds = s.group.rblds) ∧
    (∀ cfg x, cfg.phase = .report → cfg.index < 32 → pgState s ≠ 8 → mlook s.group.rblds cfg.index = some x →
      let same := { cfg with phase := CfgPhase.ask, index := 32 } =
        { ownCfg s with memb := (ownCfg s).memb.set cfg.index (rbldRow x), spare := true }
      (same → ∃ t, exec (.configExchange src cfg) s = .next t ∧ memberSt t cfg.index = 2 ∧ cfg.index ∈ t.group.rebuilds ∧
        mlook t.group.rblds cfg.index = none ∧ t.net = s.net ++ [.rebuild (pgSelf s) 0 cfg.index []] ∧ bytesStay s t) ∧
      (¬same → ∃ t, exec (.configExchange src cfg) s = .next t ∧ mlook t.group.rblds cfg.index = none ∧ t.group.rebuilds = s.group.rebuilds ∧
        bit (rdReg t .pgCfg) 30 = true ∧ bit (rdReg t .pgEvt) 8 = true)) ∧
    (pgState s = 10 → unit < 32 → src < pgN s → memberSt s src = 0 → bytes ≠ [] → ∃ t, exec (.rebuild src stripe unit bytes) s = .next t ∧
      pgState t = 11 ∧ pgSelf t = unit ∧ t.group.got = [stripe] ∧ ∀ j < 4096, rdByte t (unitAt t unit stripe + j) = bytes.getD j 0) ∧
    (pgState s = 11 → unit = pgSelf s → member → bytes ≠ [] → s.group.gotRnd = none →
      ∃ t, exec (.rebuild src stripe unit bytes) s = .next t ∧ pgState t = 11 ∧
        t.group.got = (if s.group.got.contains stripe then s.group.got else stripe :: s.group.got) ∧
        ∀ j < 4096, rdByte t (unitAt s unit stripe + j) = bytes.getD j 0) ∧
    (pgState s = 1 → unit = pgSelf s → member → bytes.length = 4096 → ∃ t, exec (.rebuild src stripe unit bytes) s = .next t ∧
      ∀ j < 4096, rdByte t (unitAt s unit stripe + j) = rdByte s (unitAt s unit stripe + j) ^^^ bytes.getD j 0) ∧
    (unit ∈ s.group.rebuilds →
      (pgState s = 7 → stripe < stripeCount s → ∃ t, exec (.rebuild (pgSelf s) stripe unit []) s = .next t ∧
        t.net = s.net ++ [.rebuild (pgSelf s) (stripe + 1) unit []] ∧ bytesStay s t ∧
        t.outbox.length = s.outbox.length + (if chain.head? = some (pgSelf s) then 1 else 0)) ∧
      (pgState s = 7 → stripeCount s ≤ stripe → ∃ z, exec (.rebuild (pgSelf s) stripe unit []) s = .next { s with
        outbox := s.outbox ++ [(memberPod s unit, .rebuildComplete ⟨pgSelf s, unit, pgMissing s, z⟩ (pgCrn s) (pgOrn s))],
        net := s.net ++ [.rebuild (pgSelf s) 0 unit []] } ∧ (s.group.rebuilds = [unit] → z = 0)) ∧
      (pgState s = 5 ∨ pgState s = 6 → exec (.rebuild (pgSelf s) stripe unit []) s = .next { s with
        net := s.net ++ [.rebuild (pgSelf s) stripe unit []] })) ∧
    (pgState s = 7 → unit ≠ pgSelf s → member → bytes ≠ [] → chain.contains (pgSelf s) = true →
      (chain.takeWhile fun j => j ≠ pgSelf s).getLast? = some src →
      ∃ j out t, exec (.rebuild src stripe unit bytes) s = .next t ∧ t.outbox = s.outbox ++ [(memberPod s j, .rebuild (pgSelf s) stripe unit out)] ∧
        bytesStay s t) ∧
    (member →
      (pgState s = 7 → src ≠ unit ∨ memberSt s unit ≠ 2 → exec (.rebuildComplete ⟨src, unit, missing, doing⟩ crn orn) s = .next s) ∧
      (pgState s = 11 → unit = src → exec (.rebuildComplete ⟨src, unit, missing, doing⟩ crn orn) s =
        .next { s with group := { s.group with joined := src :: s.group.joined } }) ∧
      (pgState s = 11 → unit = pgSelf s → s.group.got.length < stripeCount s → exec (.rebuildComplete ⟨src, unit, missing, doing⟩ crn orn) s =
        .next { s with group := { s.group with gotRnd := some (crn, orn, ⟨src, unit, missing, doing⟩) } }) ∧
      (pgState s = 11 → unit = pgSelf s → stripeCount s ≤ s.group.got.length → crn < 2 ^ 32 → orn < 2 ^ 32 → missing < 2 ^ 32 →
        ∃ t mask, exec (.rebuildComplete ⟨src, unit, missing, doing⟩ crn orn) s = .next t ∧ pgOn t = true ∧ bit (rdReg t .pgCfg) 32 = false ∧
        pgCrn t = crn ∧ pgOrn t = orn ∧ pgMissing t = mask ∧
        (∀ i, mask.testBit i = (decide (i < pgN s) && decide (i ≠ pgSelf s) && missing.testBit i && !s.group.joined.contains i)) ∧
        (∀ i < min 32 (pgN s), memberSt t i = if mask.testBit i then (if doing.testBit i then 2 else 1) else 0) ∧
        pgState t = (if mask = 0 then 2 else 7) ∧
        ∀ k ∈ others s, (memberPod s k, .rebuildComplete ⟨pgSelf s, pgSelf s, mask, 0⟩ crn orn) ∈ t.outbox)) ∧
    (pgState s = 7 → unit < pgN s → unit ≠ pgSelf s → unit < 32 →
      (memberSt s unit = 2 → ∃ t, exec (.rebuildComplete ⟨unit, unit, missing, doing⟩ crn orn) s = .next t ∧ memberSt t unit = 0 ∧
        (pgMissing t).testBit unit = false ∧ unit ∉ t.group.rebuilds ∧ bit (rdReg t .pgEvt) 5 = true ∧
        (pgMissing t = 0 → pgState t = 2) ∧ (pgMissing t ≠ 0 → pgState t = 7)) ∧
      (memberSt s unit ≠ 2 → exec (.rebuildComplete ⟨unit, unit, missing, doing⟩ crn orn) s = .next s))

/-! ## Device registers, fetch, tasks (R11, R12, R168-R189, R192, R245, R330-R345, R380-R384, R415, R416) -/

/-- R11, R12, R16, R415, R416: a write stores the fields that a register has, a field that must not be 0 stores 1, ones clear; read-only
registers, absent registers and those of a module in bring-up ignore it; a field fixed while its unit is enabled keeps its value. A write of
some bits keeps the others, and clears none that it does not write. Which register answers at a PA that two rules give (log entry 40) and what
the other bits stand for (log entry 14) are the model's choices. -/
def Parts.RegisterWrites : Prop :=
  ∀ (s : State) (pa : Nat) (v : Word) (r : Reg),
    (writeAt s pa v = none → exec (.registerWrite pa { v := v }) s = .next s) ∧
    (writeAt s pa v = some r → s.bringup < 7 → r.early = false → exec (.registerWrite pa { v := v }) s = .next s) ∧
    (writeAt s pa v = some r → 7 ≤ s.bringup →
      let one (n : Nat) : Nat := if n = 0 then 1 else n
      let n := v.toNat
      let stores (x : Nat) : Prop := ∃ t, exec (.registerWrite pa { v := v }) s = .next t ∧ rdReg t r = BitVec.ofNat 64 x ∧ otherRegsStay s t [r] ∧ bytesStay s t
      (r = .ownTmo → stores (one (n % 2 ^ 16))) ∧
      (∀ k, r = .wdgCfg k → stores (n / 2 ^ 32 % 2 * 2 ^ 32 + one (n % 2 ^ 32))) ∧
      (∀ x, r = .xltRoot x → stores (n / 2 ^ 11 % 2 ^ 41 * 2 ^ 11 + n % 2)) ∧
      (∀ x, r = .ctxXvec x → stores (n / 2 ^ 63 * 2 ^ 63 + n / 2 % 2 ^ 55 * 2)) ∧
      (∀ x, r = .tdtBase x → stores (n / 2 ^ 16 % 2 ^ 40 * 2 ^ 16 + min 4096 (n % 2 ^ 13))) ∧
      (r = .schCfg → stores (n / 2 ^ 16 % 2 ^ 16 * 2 ^ 16 + one (n / 4 % 8) * 4 + n / 2 % 2 * 2)) ∧
      (r = .fabCfg → stores (n / 2 ^ 40 % 2 ^ 8 * 2 ^ 40 + one (n % 2 ^ 32))) ∧
      (∀ e, r = .peKey e → stores n) ∧
      (r = .pgEvt ∨ r = .replSts → ∃ t, exec (.registerWrite pa { v := v }) s = .next t ∧
        rdReg t r = rdReg s r &&& ~~~(v &&& if r = .pgEvt then 0x1FF else 0xFFFF) ∧ otherRegsStay s t [r] ∧ bytesStay s t) ∧
      (r = .pgSts ∨ r = .pgRnd ∨ r = .pgJfill ∨ r = .actFcst ∨ r = .evqWr ∨ (∃ q, r = .qSts q) ∨ (∃ k, r = .fltPend k ∨ r = .engEva k) →
        exec (.registerWrite pa { v := v }) s = .next s) ∧
      (r = .pgAreaD → pgOn s = true →
        let x : Word := BitVec.ofNat 64 (n % 2 ^ 40);
        (x = rdReg s r → exec (.registerWrite pa { v := v }) s = .next s) ∧
        (x ≠ rdReg s r → ∃ t, exec (.registerWrite pa { v := v }) s = .next t ∧ rdReg t r = rdReg s r ∧ bit (rdReg t .pgCfg) 30 = true ∧
          otherRegsStay s t [.pgCfg]))) ∧
    (∀ x : RegPut, x.src = .none → writeAt s pa (x.v &&& x.mask) = some r → 7 ≤ s.bringup →
      ((∃ e, r = .peKey e) → ∃ t, exec (.registerWrite pa x) s = .next t ∧ rdReg t r = (rdReg s r &&& ~~~x.mask) ||| (x.v &&& x.mask) ∧
        otherRegsStay s t [r] ∧ bytesStay s t) ∧
      (r = .pgEvt → ∃ t, exec (.registerWrite pa x) s = .next t ∧ rdReg t r = rdReg s r &&& ~~~(x.v &&& x.mask &&& 0x1FF) ∧
        otherRegsStay s t [r] ∧ bytesStay s t))

/-- R182, R192, R193: a sequencer that may issue, waits for nothing and has its values lets the results due land and reads its next bundle:
the pc passes the pads, and the words read and their lines are copied below the levels that gave them; what cannot be read or decoded takes
its fault at that head. Code that stands in HBM or flash changes no register but the power state of its stacks. When a fetch reads and what
it installs is the model's choice (log entry 32). -/
def Parts.BundleFetchReads : Prop :=
  ∀ (s sp : State) (pc : Word) (k q head region : Nat) (b : RawBundle) (ws : List (Nat × Lane × Option Nat)) (c : Nat) (xv : Word),
    mayIssue s k q = true → (seqOf s k q).waits = [] → dueReady (seqOf s k q) = true →
    let s0 := modSeq s k q landDue
    skipPads k q allLines s0 (seqOf s0 k q).pc = (sp, pc) →
    let s1 := modSeq sp k q fun x => { x with pc := pc }
    let inPod : Prop := ∀ x ∈ ws, isHostPa (4 * x.1) = false
    (seqOf s0 k q).boundary = [] → (seqOf s0 k q).ending = none → (seqOf s0 k q).xfer = none → (seqOf s0 k q).infl = [] →
    (fetchAt s1 k q pc = .bundle b head region ws → inPod → (∃ l, decodeSlots b.slots = .ok l) → ∃ t, exec (.bundleFetch k q) s = .next t ∧
      t = modSeq (installCode s1 k region ws) k q (fun x => { x with relink := none }) ∧
      seqOf t k q = { seqOf s0 k q with pc := pc, relink := none } ∧
      (sp = s0 → bytesStay s t ∧ ((∀ x ∈ ws, spaceOf (4 * x.1) ≠ 2) → otherRegsStay s t ((List.range 16).map .hbmSts)))) ∧
    (fetchAt s1 k q pc = .raise (.trap ⟨c, xv⟩) →
      (c ≠ 9 → c ≠ 18 → exec (.bundleFetch k q) s =
        .next (takeTrap (modSeq s1 k q fun x => { x with stalled := false }) k q pc ⟨c, xv⟩)) ∧
      ∃ u, exec (.bundleFetch k q) s = .next (takeTrap u k q pc ⟨c, xv⟩)) ∧
    (fetchAt s1 k q pc = .bundle b head region ws → inPod → ∀ e, decodeSlots b.slots = .error e → ∃ u, exec (.bundleFetch k q) s =
      .next (takeTrap u k q pc ⟨2, BitVec.ofNat 64 (rejectSlot e)⟩)) ∧
    (bit pc 0 = true → ∃ u, exec (.bundleFetch k q) s = .next (takeTrap u k q pc ⟨4, memVal 8 pc.toNat⟩))

/-- R106, R187: the layout of a report slot. -/
def Parts.ReportSlotLayout : Prop :=
  ∀ (s : State) (slot status taskid beg fin xover b : Nat) (hot : FMap Hot), b < 64 →
    let t := writeReport s slot (reportBytes status taskid beg fin xover hot)
    let at_ := fixedPa + 0x10000 + 1024 * (slot % 64)
    let h := mget {} hot b
    rdLe t at_ 4 = status % 2 ^ 32 ∧ rdLe t (at_ + 4) 4 = taskid % 2 ^ 32 ∧ rdLe t (at_ + 8) 8 = beg % 2 ^ 64 ∧ rdLe t (at_ + 16) 8 = fin % 2 ^ 64 ∧
    rdLe t (at_ + 24) 2 = min 65535 xover ∧ rdLe t (at_ + 64 + 12 * b) 6 = h.bytes % 2 ^ 48 ∧ rdLe t (at_ + 64 + 12 * b + 6) 4 = h.stall % 2 ^ 32 ∧
    rdLe t (at_ + 64 + 12 * b + 10) 2 = h.casc % 2 ^ 16 ∧ (∀ a, a < at_ ∨ at_ + 1024 ≤ a → rdByte t a = rdByte s a)

/-- R171, R338, R341, R342, R172-R175: a dispatch whose turn has come becomes a task that waits for its cores, or is refused with its reason;
a ready dispatch that comes first on free cores, with no pre-empted task of its rank or a higher one that could have them, is set up on all of
them; then its sequencers run. -/
def Parts.TasksStart : Prop :=
  ∀ (s : State) (q pk i r ov : Nat) (p : Pkt) (img : TaskImg) (spans : List (Nat × Nat)) (t : Task) (ex : List Extent)
    (ds : FMap (Option TDesc)),
    let x := queueCtx s q
    let base := bits (p.word 3) 32 16
    let slot := bits (p.word 3) 48 6
    let id := bits (p.word 3) 0 32
    (onTurn s q pk 1 = some p → p.done = false → p.started = false → (∀ e ∈ s.tasks, ¬(e.2.q = q ∧ e.2.pk = pk)) →
      (readImage s x base (p.word 1).toNat = .error (some r) → exec (.dispatch q pk) s = .next (donePkt
        (writeReport (cpTouch s x (imageVas s x (p.word 1).toNat)) slot (reportBytes (1 + 256 * r) id s.clk s.clk 0 [])) q pk 1)) ∧
      (readImage s x base (p.word 1).toNat = .ok (img, spans) →
        let cores := (List.range img.ncores).map fun j => bits (rdReg s (.pmap x ((base + j) / 8))) (8 * ((base + j) % 8)) 8;
        let s1 := cpTouch s x (spans.flatMap fun (va, n) => wordVas va n);
        ((∀ k ∈ cores, k ∉ s.retired) → exec (.dispatch q pk) s = .next { s1 with nextTask := s.nextTask + 1, tasks := mput s.tasks s.nextTask {
            q := q, pk := pk, ctx := x, img := img, arg := p.word 2, taskid := BitVec.ofNat 32 id, slot := slot, cores := cores,
            prio := bits (rdReg s (.qCfg q)) 16 3, readyClk := s.clk } }) ∧
        ((∃ k ∈ cores, k ∈ s.retired) → exec (.dispatch q pk) s =
          .next (donePkt (writeReport s1 slot (reportBytes (1 + 256 * 6) id s.clk s.clk 0 [])) q pk 1)))) ∧
    (mlook s.tasks i = some t → t.st = .ready → t.ended = none → heldCtx s t.ctx = false → barred s t.ctx = false → coresFree s t = true →
      leads s i t = true → (∀ e ∈ waiting s, share e.2 t = true → rankOf s t ≤ e.2.prio → coresIdle s e.2 = false) → t.ctx < 16 →
      ((∃ k ∈ t.cores, k ∈ s.retired) → exec (.dispatchGrant i) s = .next (donePkt
        (writeReport { s with tasks := mdel s.tasks i } t.slot (reportBytes (1 + 256 * 6) t.taskid.toNat s.clk s.clk 0 [])) t.q t.pk 1)) ∧
      ((∀ k ∈ t.cores, k ∉ s.retired) → t.cores.Nodup →
        buildExtents s t.ctx t.img.ranges ([], 0) = .ok (ex, ov) → readDescs s t.ctx t.img.tensors = .ok ds →
        ∃ u, exec (.dispatchGrant i) s = .next u ∧ u.lastQ = t.q ∧ (noLoss s → bytesStay s u ∧ ∀ k, (core u k).l1 = (core s k).l1) ∧
          mlook u.tasks i = some { t with
            st := .setup, prio := bits (rdReg s (.qCfg t.q)) 16 3, clkbeg := s.clk, xover := ov * t.img.ncores } ∧
          ∀ (j k n : Nat), t.cores[j]? = some k → n < 32 →
            let y := seqOf u k n
            (core u k).task = some i ∧ (core u k).logical = j ∧ (core u k).spmSize = t.img.spm ∧ (core u k).spm = [] ∧ (core u k).extents = ex ∧
            (core u k).descs = ds ∧
            rdS y 1 = ⟨t.arg, false⟩ ∧ rdS y 2 = ⟨BitVec.ofNat 64 j, false⟩ ∧ rdS y 3 = ⟨BitVec.ofNat 64 t.img.ncores, false⟩ ∧
            (∀ m : BitVec 6, 3 < m.toNat → rdS y m = {}) ∧ y.taskid = t.taskid ∧ y.mode = false ∧ y.p = 1 ∧
            y.xvec = rdReg s (.ctxXvec t.ctx) &&& 0x00FFFFFFFFFFFFFE ∧
            (t.img.entry.testBit n = true → y.st = .running ∧ y.pc = t.img.pcs.getD n 0) ∧
            (t.img.entry.testBit n = false → y.st = if t.img.dormant.testBit n then .dormant else .absent))) ∧
    (mlook s.tasks i = some t → t.st = .ready →
      (coresFree s t = false ∨ leads s i t = false ∨ ∃ e ∈ waiting s, share e.2 t = true ∧ rankOf s t ≤ e.2.prio ∧ coresIdle s e.2 = true) →
      exec (.dispatchGrant i) s = .next s) ∧
    (mlook s.tasks i = some t → t.st = .setup → ∃ u, exec (.taskStart i) s = .next u ∧
      mlook u.tasks i = some { t with st := .running, runClk := s.clk } ∧ bytesStay s u)

/-- R168, R169, R170, R171: the checks of an image: a header that breaks a rule is refused with the reason of one that it breaks, a record that
breaks one with reason 4, what cannot be read or is poisoned with reason 5; an image that breaks none is taken as it stands. -/
def Parts.ImagesAreChecked : Prop :=
  ∀ (s : State) (x base img ver nc fl spm nr nt nv ns ent dor z : Nat) (offs zs : List Nat),
    let f (o n : Nat) := cpNum s x (img + o) n
    (∀ r, f 0 4 = .error (some r) → readImage s x base img = .error (some 5)) ∧
    (f 0 4 = .ok ver → f 4 2 = .ok nc → f 6 2 = .ok fl → f 8 4 = .ok spm → f 0x0C 2 = .ok nr → f 0x0E 2 = .ok nt → f 0x10 2 = .ok nv →
      f 0x12 2 = .ok ns → f 0x14 4 = .ok ent → f 0x18 4 = .ok dor → f 0x1C 4 = .ok z → cpRun s x (img + 0x20) 8 5 = .ok offs →
      cpRun s x (img + 0x48) 8 7 = .ok zs →
      let one : Prop := ver ≠ 1 ∨ 16 ≤ fl ∨ Nat.land ent dor ≠ 0 ∨ z ≠ 0 ∨ (∃ o ∈ offs, o % 8 ≠ 0) ∨ ∃ y ∈ zs, y ≠ 0
      let two : Prop := nc = 0 ∨ bits (rdReg s (.ctxCfg x)) 0 8 < base + nc
      let three : Prop := spm % 64 ≠ 0 ∨ 0x400000 < spm
      let four : Prop := 256 < nr ∨ 256 < nt ∨ 64 < nv ∨ 256 < ns
      let tab (i : Nat) : Nat := img + offs.getD i 0
      (one ∨ two ∨ three ∨ four → ∃ r, readImage s x base img = .error (some r) ∧
        ((r = 1 ∧ one) ∨ (r = 2 ∧ two) ∨ (r = 3 ∧ three) ∨ (r = 4 ∧ four))) ∧
      (¬(one ∨ two ∨ three ∨ four) →
        (∀ r, cpRun s x (tab 0) 8 32 = .error (some r) → readImage s x base img = .error (some 5)) ∧
        (∀ pcs rg ts vb sm : List Nat, cpRun s x (tab 0) 8 32 = .ok pcs → cpRun s x (tab 1) 8 (3 * nr) = .ok rg → cpRun s x (tab 2) 2 nt = .ok ts →
          cpRun s x (tab 3) 8 (2 * nv) = .ok vb → cpRun s x (tab 4) 4 ns = .ok sm →
          let load (i : Nat) := vb.getD (2 * i + 1) 0 % 2 ^ 16
          let count (i : Nat) := vb.getD (2 * i + 1) 0 / 2 ^ 16 % 2 ^ 16
          let verbs := (List.range nv).map fun i => (vb.getD (2 * i) 0, load i, count i)
          let bad : Prop :=
            (∃ i < nr, let b := rg.getD (3 * i) 0; let n := rg.getD (3 * i + 1) 0; let a := rg.getD (3 * i + 2) 0;
              n = 0 ∨ 2 ^ 56 < b + n ∨ a % 4 = 0 ∨ a / 8 % 32 ≠ 0 ∨ 2 ^ 14 ≤ a) ∨
            (∃ h ∈ ts, 4096 ≤ h) ∨
            (∃ i < nv, vb.getD (2 * i) 0 % 8 ≠ 0 ∨ count i = 0 ∨ 8192 < load i + count i) ∨
            (∃ i j, i < j ∧ j < nv ∧ load i < load j + count j ∧ load j < load i + count i) ∨
            (∃ i < ns, sm.getD i 0 / 256 % 256 ≠ 0) ∨ (∃ i j, i < j ∧ j < ns ∧ sm.getD i 0 % 256 = sm.getD j 0 % 256)
          (bad → readImage s x base img = .error (some 4)) ∧
          (¬bad → (∀ r, readVerbs s x verbs = .error (some r) → readImage s x base img = .error (some 5)) ∧
            ∀ vs, readVerbs s x verbs = .ok vs → ∃ spans, readImage s x base img = .ok ({
              ncores := nc, flags := fl, spm := spm, entry := ent, dormant := dor, pcs := pcs.map (BitVec.ofNat 64),
              ranges := (List.range nr).map fun i => (rg.getD (3 * i) 0, rg.getD (3 * i + 1) 0, rg.getD (3 * i + 2) 0),
              tensors := ts, verbs := vs, sems := sm.map fun y => (y % 256, y / 2 ^ 16) }, spans)))))

/-- R186, R187, R335, R384, R341, R342: a running task whose cores are quiet retires: its report is written and its packet completes; once
the packet has left its queue, and not before, its cores are free and it is no more. One that ended early is reported once its owned words are
cleaned and its writes have performed. Ageing and the minimum run time are marked, and an aged dispatch ranks 7 while its queue's AGE still says so. -/
def Parts.TasksRetireAndAge : Prop :=
  ∀ (s : State) (i : Nat) (t : Task), mlook s.tasks i = some t →
    let retires : Prop := ∃ u, exec (.taskRetire i) s = .next u ∧ u.clk = s.clk ∧
      ((pktOf u t.q t.pk = none ∧ mlook u.tasks i = none ∧ ∀ k ∈ t.cores, (core u k).task ≠ some i) ∨
       ((pktOf u t.q t.pk).isSome ∧ mlook u.tasks i = some { t with reported := true } ∧ ∀ k, (core u k).task = (core s k).task))
    (t.reported = true → retires) ∧
    (t.reported = false → t.ended = none → t.st = .running → (∀ k ∈ t.cores, coreQuiet s k = true) → retires) ∧
    (t.reported = false → t.ended = none → (t.st ≠ .running ∨ ∃ k ∈ t.cores, coreQuiet s k = false) → exec (.taskRetire i) s = .next s) ∧
    (∀ code detail, t.reported = false → t.ended = some (code, detail) →
      (∀ k ∈ t.cores, (core s k).task = some i →
        (∀ o ∈ (core s k).outst, o.performed s k 5 = true) ∧ ownedIn (core s k) (-1) = []) → retires) ∧
    (∀ code detail, t.reported = false → t.ended = some (code, detail) → (∀ k ∈ t.cores, ownedIn (core s k) (-1) = []) →
      (∃ k ∈ t.cores, (core s k).task = some i ∧ ∃ o ∈ (core s k).outst, o.performed s k 5 = false) → exec (.taskRetire i) s = .next s) ∧
    (let age := bits (rdReg s (.qCfg t.q)) 0 16
     let due : Prop := age ≠ 0 ∧ t.readyClk + age * 65536 ≤ s.clk
     (t.st = .ready → due → exec (.ageExpiry i) s = .next { s with tasks := mput s.tasks i { t with aged := true } }) ∧
     (t.st ≠ .ready ∨ ¬due → exec (.ageExpiry i) s = .next s) ∧
     (t.aged = true → due → rankOf s t = 7) ∧
     (t.aged = false ∨ ¬due → rankOf s t = bits (rdReg s (.qCfg t.q)) 16 3)) ∧
    (let least := bits (rdReg s .schCfg) 16 16 * 65536
     (t.st = .running → t.runClk + least ≤ s.clk →
       exec (.minrunExpiry i) s = .next { s with tasks := mput s.tasks i { t with minrun := true } }) ∧
     (t.st ≠ .running ∨ s.clk < t.runClk + least → exec (.minrunExpiry i) s = .next s))

/-- R331, R342, R380-R383: a running task stops for its context or, with all the other holders, for a dispatch that may pre-empt them, and
never while a round prepares, but for a thermal emergency; its images are saved once its accesses have completed; it resumes on free cores
with the registers, scratchpads and counts it was saved with, and with CTX_XVEC as it is now where that was written since; accesses that had
not performed are checked again first. How a write of CTX_XVEC is told from none is the model's choice (log entry 76). -/
def Parts.PreemptionSavesAndRestores : Prop :=
  ∀ (s : State) (i ov : Nat) (t : Task) (ex : List Extent) (ds : FMap (Option TDesc)), t.ended = none → t.reported = false →
    (mlook s.tasks i = some t → t.st = .running → (s.emergClk = 0 → preparing s = false) → (∀ k ∈ t.cores, savedOn s k < 4) → emergencyTurn s t = true →
      s.ctxStop.contains t.ctx = true ∨ (∃ e ∈ readyTasks s, share e.2 t = true ∧ mayPreempt s e.2 = true) →
      ∃ u, exec (.preempt i) s = .next u ∧ mlook u.tasks i = some { t with st := .saving, runClk := s.clk - t.runClk } ∧ bytesStay s u ∧
        (∀ w ∈ u.walks, w.core ∉ t.cores) ∧
        (s.ctxStop.contains t.ctx = false → ∀ j ∈ stopsWith s i t, (mlook s.tasks j).isSome → (mlook u.tasks j).map (·.st) = some .saving)) ∧
    (mlook s.tasks i = some t →
      t.st ≠ .running ∨ (s.emergClk = 0 ∧ preparing s = true) ∨ (∃ k ∈ t.cores, 4 ≤ savedOn s k) ∨
        (s.ctxStop.contains t.ctx = false ∧ ∀ e ∈ readyTasks s, share e.2 t = false ∨ mayPreempt s e.2 = false) →
      exec (.preempt i) s = .next s) ∧
    (mlook s.tasks i = some t → t.st = .saving → s.held = [] → (∀ k ∈ t.cores, ownedIn (core s k) (-1) = []) →
      (∀ k ∈ t.cores, ∀ x ∈ (core s k).seqs, accessWaits x.2 = [] ∧ ∀ c v n, x.2.ending ≠ some (.trap c v n)) →
      (s.emergClk = 0 → (∀ k ∈ t.cores, coreSettled s k = true) → ∃ u, exec (.preemptSaveDone i) s = .next u ∧
        mlook u.tasks i = some { t with st := .preempted } ∧ (∀ k ∈ t.cores, (core u k).task = none ∧ (core u k).seqs = [] ∧ (core u k).cmds = []) ∧
        u.saves = s.saves ++ t.cores.map fun k => ⟨i, k, { core s k with sink := s.clk - (core s k).sink }⟩) ∧
      ((∃ k ∈ t.cores, coreSettled s k = false) → exec (.preemptSaveDone i) s = .next s)) ∧
    (mlook (waiting s) i = some t → t.ctx < 16 → coresIdle s t = true → (∀ e ∈ readyTasks s, ¬(share e.2 t = true ∧ t.prio < rankOf s e.2)) → t.cores.Nodup →
      buildExtents s t.ctx t.img.ranges ([], 0) = .ok (ex, ov) → readDescs s t.ctx t.img.tensors = .ok ds →
      ∃ u, exec (.resume i) s = .next u ∧ u.saves = s.saves.filter (·.task ≠ i) ∧
        mlook u.tasks i = some { t with st := .running, runClk := s.clk - t.runClk, xover := ov * t.img.ncores } ∧
        ∀ k ∈ t.cores, ∃ v, (s.saves.find? fun v => v.task = i && v.core = k) = some v ∧ (core u k).task = some i ∧
          (core u k).spm = v.img.spm ∧ (core u k).sems = v.img.sems ∧ (core u k).cmds = v.img.cmds ∧ (core u k).tile = v.img.tile ∧
          (core u k).acc = v.img.acc ∧ (core u k).extents = ex ∧ (core u k).descs = ds ∧ (core u k).sink = s.clk - v.img.sink ∧
          let xv := rdReg s (.ctxXvec t.ctx)
          (core u k).xvIn = (if mget 0 s.xvN t.ctx = v.img.xvN then v.img.xvIn else xv) ∧
          ∀ n y, mlook v.img.seqs n = some y → ∃ ws, ws.filter (· ≠ .check) = y.waits.filter (· ≠ .check) ∧ seqOf u k n = { y with
            evp := true, waits := ws, xvec := if mget 0 s.xvN t.ctx = v.img.xvN then y.xvec else xv &&& 0x00FFFFFFFFFFFFFE })

/-- R188, R189, R245: an interval without a sink is counted, and the first one is recorded with the task and an event; SEQ_RESUME lets the
named halted sequencers run again, and those in the images of a core that has no task (log entry 59, the model's choice). The numbers of
error-log kinds are the model's choice (log entry 52). -/
def Parts.WatchdogAndResume : Prop :=
  ∀ (s : State) (k : Nat) (v : Word),
    let interval := bits (rdReg s (.wdgCfg k)) 0 32 * 65536
    (countRuns s k = true → (core s k).sink + interval ≤ s.clk → k < 128 → ∃ t, exec (.watchdogExpiry k) s = .next t ∧
      bits (rdReg t (.wdgSts k)) 32 16 = min 65535 (bits (rdReg s (.wdgSts k)) 32 16 + 1) ∧ (core t k).sink = s.clk ∧ bit (rdReg t (.wdgSts k)) 63 = true ∧
      (bit (rdReg s (.wdgSts k)) 63 = true → bits (rdReg t (.wdgSts k)) 0 32 = bits (rdReg s (.wdgSts k)) 0 32 ∧ t.errLog = s.errLog) ∧
      (bit (rdReg s (.wdgSts k)) 63 = false → bits (rdReg t (.wdgSts k)) 0 32 = ((taskidOf s k).getD 0).toNat ∧
        t.errLog = s.errLog ++ [⟨105, k, s.clk, [rdReg t (.wdgSts k)]⟩])) ∧
    ((∀ x ∈ (core s k).seqs, x.2.st = .running → standsStill s k x.1 = true) → exec (.watchdogExpiry k) s = .next s) ∧
    (countRuns s k = false ∨ s.clk < (core s k).sink + interval → exec (.watchdogExpiry k) s = .next s) ∧
    (7 ≤ s.bringup →
      let go (l : FMap Seq) : FMap Seq := l.map fun (n, x) => (n, if bit v n = true ∧ x.st = .halted then { x with st := .running } else x)
      ∃ t, exec (.seqResumeWrite k v) s = .next t ∧ bytesStay s t ∧ t.dev = s.dev ∧ (∀ j, j ≠ k → core t j = core s j) ∧
      (core t k).seqs = go (core s k).seqs ∧
      t.saves = if (core s k).task.isSome then s.saves else s.saves.map fun x =>
        if x.core = k then { x with img := { x.img with seqs := go x.img.seqs } } else x)

/-- R330, R331: EN of a context needs a placement map that names distinct cores in service; it goes only once no task or enabled queue of
the context stands; STOP stops its queues with cause 6, GO starts those again. What STOP does to each queue is the model's reading (log
entry 27). -/
def Parts.ContextControl : Prop :=
  ∀ (s : State) (x : Nat) (v : Word), 7 ≤ s.bringup → x < 16 →
    let c := rdReg s (.ctxCfg x)
    (bit c 63 = false → bit v 63 = true → bit v 60 = false → bit v 61 = false → ∃ t, exec (.ctxCfgEnSet x v) s = .next t ∧
      bits (rdReg t (.ctxCfg x)) 0 8 = bits v 0 8 ∧ bit (rdReg t (.ctxCfg x)) 63 = pmapOk s x (bits v 0 8) ∧
      (pmapOk s x (bits v 0 8) = false → bit (rdReg t (.ctxCfg x)) 62 = true) ∧ otherRegsStay s t [.ctxCfg x] ∧ bytesStay s t) ∧
    (bit c 63 = true → bit v 63 = false → bit v 60 = false → bit v 61 = false → ∃ t, exec (.ctxCfgEnClear x v) s = .next t ∧
      bit (rdReg t (.ctxCfg x)) 63 = ctxBusy s x ∧ (ctxBusy s x = true → bit (rdReg t (.ctxCfg x)) 62 = true) ∧
      otherRegsStay s t [.ctxCfg x] ∧ bytesStay s t) ∧
    (bit v 61 = true → bit v 60 = false → bit c 63 = bit v 63 → bits v 0 8 = bits c 0 8 → ∃ t, exec (.ctxCfgStop x v) s = .next t ∧ x ∈ t.ctxStop ∧
      ∀ q < 64, queueCtx s q = x → bit (rdReg s (.qCfg q)) 63 = true → stopped t q = true ∧
        (stopped s q = false → bits (rdReg t (.qSts q)) 56 4 = 6)) ∧
    (bit v 60 = true → bit v 61 = false → bit c 63 = bit v 63 → bits v 0 8 = bits c 0 8 → thmState s = 0 → emergOf s x = [] →
      ∃ t, exec (.ctxCfgGo x v) s = .next t ∧ x ∉ t.ctxStop ∧ bytesStay s t ∧
      ∀ q < 64, queueCtx s q = x → bits (rdReg s (.qSts q)) 56 4 = 6 → stopped t q = false) ∧
    (bit v 60 = true → bit v 61 = false → bit c 63 = bit v 63 → bits v 0 8 = bits c 0 8 → thmState s ≠ 0 → ∃ t, exec (.ctxCfgGo x v) s = .next t ∧
      t.ctxStop = s.ctxStop ∧ bit (rdReg t (.ctxCfg x)) 62 = true)

/-! ## Queues, packets, nodes, events (R65, R66, R332-R345) -/

/-- R335: a packet without a completion signal leaves its queue when it is done, its queue looks for the next one, and its completion event is
logged where it asked for one; other packets stay. -/
def Parts.PacketsComplete : Prop :=
  ∀ (s : State) (q pk : Nat) (out : BitVec 7) (p : Pkt), pktOf s q pk = some p → p.word 7 = 0 →
    let t := donePkt s q pk out
    pktOf t q pk = none ∧ (∀ j, j ≠ pk → pktOf t q j = pktOf s q j) ∧ (∀ r, r ≠ q → mget {} t.queues r = mget {} s.queues r) ∧
    t.net.getLast? = some (.queueNotify q) ∧ t.errLog = s.errLog ++ (if bit (p.word 0) 3 then
      [⟨103, q, s.clk, [setBits (setBits (p.word 0) 0 1 0) 56 8 (p.out ||| out).toNat]⟩] else [])

/-- R332: EN needs a ring of at least 16 slots aligned to its size, an enabled context and a notify word in HBM, and starts at slot 0; EN =
0 ends a stop; SKIP passes over the stopped packet and completes it with ERROR, later where its slot cannot be read or written yet. What a
stopped context does to its queues, and when a SKIP waits, is the model's reading (log entries 27, 38). -/
def Parts.QueueControl : Prop :=
  ∀ (s : State) (q : Nat) (v : Word), 7 ≤ s.bringup → q < 64 →
    let c := rdReg s (.qCfg q)
    let sz := bits v 24 4
    (bit c 63 = false → bit v 63 = true → bit v 62 = false →
      let good : Prop := 4 ≤ sz ∧ bit (rdReg s (.ctxCfg (bits v 20 4))) 63 = true ∧ bits (rdReg s (.qRing q)) 0 56 % (64 * 2 ^ sz) = 0 ∧
        isHbm (bits (rdReg s (.qNtf q)) 0 52) = true;
      (good → ∃ t, exec (.qCfgEnSet q v) s = .next t ∧ bit (rdReg t (.qCfg q)) 63 = true ∧ rdReg t (.qSts q) = 0 ∧
        bits (rdReg t (.qCfg q)) 0 19 = bits v 0 19 ∧ bits (rdReg t (.qCfg q)) 20 8 = bits v 20 8 ∧ bytesStay s t ∧
        otherRegsStay s t [.qCfg q, .qSts q]) ∧
      (¬ good → ∃ t, exec (.qCfgEnSet q v) s = .next t ∧ bit (rdReg t (.qCfg q)) 63 = false ∧ bit (rdReg t (.qCfg q)) 61 = true ∧
        bytesStay s t ∧ otherRegsStay s t [.qCfg q])) ∧
    (bit c 63 = true → bit v 63 = false → bit v 62 = false → ∃ t, exec (.qCfgEnClear q v) s = .next t ∧ bit (rdReg t (.qCfg q)) 63 = false ∧
      stopped t q = false ∧ (mget {} t.queues q).pkts = (mget {} s.queues q).pkts ∧ bytesStay s t) ∧
    (bit c 63 = true → bit v 63 = true → bit v 62 = true → bit v 61 = false → bits v 20 8 = bits c 20 8 → stopped s q = true →
      bits (rdReg s (.qSts q)) 56 4 ≠ 6 → (mget {} s.queues q).stopNode = none →
      let s1 := wrReg s (.qCfg q) (setBits c 0 19 (bits v 0 19))
      let va := slotVa s q
      let later (u : State) : State := { u with queues := mput u.queues q { mget {} u.queues q with skip := true } }
      let slot := cpRun s1 (queueCtx s1 q) va 8 8;
      (slot = .error none → exec (.qCfgSkip q v) s = .next (later (cpAsk s1 (queueCtx s1 q) (wordVas va 64)))) ∧
      (∀ e, slot = .error (some e) → noLoss s1 → ∃ t, exec (.qCfgSkip q v) s = .next t ∧ stopped t q = false ∧ bytesStay s t ∧
        bits (rdReg t (.qSts q)) 0 32 = (bits (rdReg s (.qSts q)) 0 32 + 1) % 2 ^ 32 ∧ t.net = s.net ++ [.queueNotify q]) ∧
      (∀ ws w, slot = .ok ws →
        let s2 := cpTouch s1 (queueCtx s1 q) (wordVas va 64)
        let words := ws.map (BitVec.ofNat 64)
        let x := mget {} w.queues q;
        (clearValid s2 q va (words.getD 0 0) = (w, none) → exec (.qCfgSkip q v) s = .next (later w)) ∧
        (∀ b, clearValid s2 q va (words.getD 0 0) = (w, some b) → exec (.qCfgSkip q v) s =
          .next (send (settlePkt (addPkt (bumpRd (unstop w q) q) q x.pkts.length
            { id := 0, words := if ws.getD 7 0 % 2 ^ 64 % 8 = 0 then words else words.set 7 0, started := true, done := true, out := 1 }) q x.next)
            (.queueNotify q))))) ∧
    (bit c 63 = true → bit v 63 = true → bit v 62 = true → bits v 20 8 = bits c 20 8 → stopped s q = false ∨ bits (rdReg s (.qSts q)) 56 4 = 6 →
      ∃ t, exec (.qCfgSkip q v) s = .next t ∧ rdReg t (.qSts q) = rdReg s (.qSts q) ∧ t.queues = s.queues ∧ bytesStay s t)

/-- R333, R334, R336: an enabled queue with fewer than 8 packets taken reads the slot at RD; a valid packet enters it and RD advances; a bad
one, or a slot that cannot be read, stops the queue with its cause; a slot that is not valid is left. A poll does so for every queue. Causes
of unreadable and bad words of lists are the model's reading (log entry 38). -/
def Parts.QueueTakesPackets : Prop :=
  ∀ (s u : State) (q h r : Nat) (ws : List Nat),
    let x := mget {} s.queues q
    let c := queueCtx s q
    let va := bits (rdReg s (.qRing q)) 0 56 + 64 * (bits (rdReg s (.qSts q)) 0 32 % 2 ^ bits (rdReg s (.qCfg q)) 24 4)
    let words := ws.map (BitVec.ofNat 64)
    let ready : Prop := bit (rdReg s (.qCfg q)) 63 = true ∧ stopped s q = false ∧ heldCtx s c = false ∧ takenCount x < 8
    let stops (n : Nat) : Prop := ∃ t, exec (.queueNotify q) s = .next t ∧ stopped t q = true ∧ bits (rdReg t (.qSts q)) 56 4 = n ∧
      bits (rdReg t (.qSts q)) 0 32 = bits (rdReg s (.qSts q)) 0 32 ∧ (mget {} t.queues q).pkts = x.pkts
    (¬ ready → x.skip = false ∨ stopped s q = false → exec (.queueNotify q) s = .next s) ∧
    (q < 64 → ready →
      let s1 := cpTouch s c (wordVas va 64);
      (cpNum s c va 8 = .ok h → h % 2 = 0 → exec (.queueNotify q) s = .next (cpTouch s c (wordVas va 8))) ∧
      (cpNum s c va 8 = .error none → exec (.queueNotify q) s = .next (cpAsk s c (wordVas va 8))) ∧
      (cpNum s c va 8 = .error (some r) → stops 3) ∧
      (cpNum s c va 8 = .ok h → h % 2 = 1 → cpRun s c va 8 8 = .ok ws →
        (packetCause words ≠ 0 → stops (packetCause words)) ∧
        (packetCause words = 0 → clearValid s1 q va (words.getD 0 0) = (u, none) → exec (.queueNotify q) s = .next u) ∧
        (packetCause words = 0 → clearValid s1 q va (words.getD 0 0) = (u, some false) → exec (.queueNotify q) s = .next (stopQueue u q 3 none false)) ∧
        (packetCause words = 0 → clearValid s1 q va (words.getD 0 0) = (u, some true) → ∃ t, exec (.queueNotify q) s = .next t ∧
          bits (rdReg t (.qSts q)) 0 32 = (bits (rdReg u (.qSts q)) 0 32 + 1) % 2 ^ 32 ∧ t.net = u.net ++ [.queueNotify q] ∧ t.mem = u.mem ∧
          ((mget {} u.queues q).pkts = x.pkts → (mget {} t.queues q).pkts = x.pkts ++ [{ id := (mget {} u.queues q).next, words := words }])))) ∧
    (exec .queuePoll s = .next ((List.range 64).foldl (fun s q =>
      let y := (mget {} s.queues q).pkts.foldl (fun s p => if p.done then settlePkt s q p.id else s) s
      after y (exec (.queueNotify q) y)) s))

/-- R339, R340: the six tests of a word. -/
def Parts.WordTests : Prop :=
  ∀ (x mask value : Word),
    let a := x &&& mask
    testWord x mask value 0 = decide (a = value) ∧ testWord x mask value 1 = decide (a ≠ value) ∧
    testWord x mask value 2 = decide (a.toNat < value.toNat) ∧ testWord x mask value 3 = decide (value.toNat ≤ a.toNat) ∧
    testWord x mask value 4 = decide (a.toInt < value.toInt) ∧ testWord x mask value 5 = decide (value.toInt ≤ a.toInt)

/-- R339: COND runs the list its test chooses, SWITCH the list its field names, LOOP its list while the test holds and its limit allows; a
node whose list is over completes; a word that cannot be read stops the queue with cause 5. What a packet passed over signals and the causes
of bad entries are the model's reading (log entry 38). -/
def Parts.NodesRunLists : Prop :=
  ∀ (s u : State) (q pk n a b : Nat) (p : Pkt) (l : Node) (r : Nat),
    let s1 := startPkt s q pk
    let c := queueCtx s1 q
    let ran (o : Out) (m : Node) : Prop := ∃ t, o = .next t ∧ (pktOf t q pk).map (·.node) = some (some m) ∧ (noLoss s1 → bytesStay s t)
    let turn (ty : Nat) : Prop := onTurn s q pk ty = some p ∧ p.done = false ∧ (mget {} s1.queues q).stopNode ≠ some pk ∧ pktOf s q pk = some p ∧
      p.id = pk
    let word := cpNum s1 c (p.word 1).toNat 8
    let s2 := cpTouch s1 c (wordVas (p.word 1).toNat 8)
    let test (op : Nat) : Bool := testWord (BitVec.ofNat 64 n) (p.word 2) (p.word 3) op
    let stops (o : Out) : Prop := stopped s1 q = false → q < 64 → ∃ t, o = .next t ∧ stopped t q = true ∧ bits (rdReg t (.qSts q)) 56 4 = 5 ∧
      (mget {} t.queues q).stopNode = some pk
    let isOver : Prop := p.node = some l ∧ l.len ≤ l.next ∧ (∀ x ∈ (mget {} s1.queues q).pkts, x.parent ≠ some pk)
    (turn 5 →
      (p.node = none → word = .ok n → ran (exec (.cond q pk) s) (if test (bits (p.word 6) 32 8) = true
        then ⟨(p.word 4).toNat, bits (p.word 6) 0 16, 0, 0⟩ else ⟨(p.word 5).toNat, bits (p.word 6) 16 16, 0, 0⟩)) ∧
      (p.node = none → word = .error (some r) → stops (exec (.cond q pk) s)) ∧
      (isOver → exec (.cond q pk) s = .next (donePkt s1 q pk 0))) ∧
    (turn 6 →
      let limit := bits (p.word 5) 32 32
      let op := bits (p.word 5) 16 8
      let body (m : Nat) : Node := ⟨(p.word 4).toNat, bits (p.word 5) 0 16, 0, m⟩
      let passes (o : Out) (m : Nat) : Prop :=
        (p.word 6 = 0 → ran o (body (m + 1))) ∧
        (p.word 6 ≠ 0 → cpWrite8 s2 q pk (p.word 6).toNat (BitVec.ofNat 64 m) = (u, some true) →
          o = .next (runList u q p (p.word 4).toNat (bits (p.word 5) 0 16) (m + 1))) ∧
        (p.word 6 ≠ 0 → cpWrite8 s2 q pk (p.word 6).toNat (BitVec.ofNat 64 m) = (u, none) → o = .next u) ∧
        (p.word 6 ≠ 0 → cpWrite8 s2 q pk (p.word 6).toNat (BitVec.ofNat 64 m) = (u, some false) → o = .next (stopQueue u q 5 (some pk) true));
      (p.node = none → word = .ok n → test op = true → passes (exec (.loopNode q pk) s) 0) ∧
      (p.node = none → word = .ok n → test op = false → exec (.loopNode q pk) s = .next (donePkt s2 q pk 0)) ∧
      (p.node = none → word = .error (some r) → stops (exec (.loopNode q pk) s)) ∧
      (isOver → word = .ok n → test op = true → limit = 0 ∨ l.passes ≠ limit → passes (exec (.loopPass q pk) s) l.passes) ∧
      (isOver → word = .ok n → test op = true → limit ≠ 0 → l.passes = limit → exec (.loopPass q pk) s = .next (donePkt s2 q pk 32)) ∧
      (isOver → word = .ok n → test op = false → exec (.loopPass q pk) s = .next (donePkt s2 q pk 0)))  ∧
    (turn 7 →
      let i := n / 2 ^ bits (p.word 4) 24 8 % 64
      let entry := (p.word 2).toNat + 16 * i
      let s3 := cpTouch s2 c (wordVas entry 8);
      (p.node = none → n < 2 ^ 64 → word = .ok n → bits (p.word 4) 16 8 ≤ i → ran (exec (.switch q pk) s) ⟨(p.word 3).toNat, bits (p.word 4) 0 16, 0, 0⟩) ∧
      (p.node = none → n < 2 ^ 64 → word = .ok n → i < bits (p.word 4) 16 8 → cpNum s2 c entry 8 = .ok a →
        cpNum s3 c (entry + 8) 8 = .ok b → a < 2 ^ 64 → a % 64 = 0 → b < 2 ^ 16 → ran (exec (.switch q pk) s) ⟨a, b, 0, 0⟩) ∧
      (p.node = none → word = .error (some r) → stops (exec (.switch q pk) s)) ∧
      (isOver → exec (.switch q pk) s = .next (donePkt s1 q pk 0)))

/-- R340: WAIT completes as soon as its test holds, and waits while it does not or its word is on its way; a word that cannot be read stops
its queue with cause 5; past its limit it completes with TIMEOUT. The cause of an unreadable word is the model's reading (log entry 38). -/
def Parts.WaitPackets : Prop :=
  ∀ (s : State) (q pk n r : Nat) (p : Pkt),
    let s1 := startPkt s q pk
    let c := queueCtx s1 q
    let va := (p.word 1).toNat
    let s2 := cpTouch s1 c (wordVas va 8)
    let tmo := bits (p.word 4) 32 32
    (onTurn s q pk 8 = some p → p.done = false → (mget {} s.queues q).stopNode ≠ some pk →
      (cpNum s1 c va 8 = .ok n →
        (testWord (BitVec.ofNat 64 n) (p.word 2) (p.word 3) (bits (p.word 4) 0 8) = true → exec (.wait q pk) s = .next (donePkt s2 q pk 0)) ∧
        (testWord (BitVec.ofNat 64 n) (p.word 2) (p.word 3) (bits (p.word 4) 0 8) = false → exec (.wait q pk) s = .next s2)) ∧
      (cpNum s1 c va 8 = .error none → exec (.wait q pk) s = .next (cpAsk s1 c (wordVas va 8))) ∧
      (cpNum s1 c va 8 = .error (some r) → exec (.wait q pk) s = .next (stopQueue (cpAsk s1 c (wordVas va 8)) q 5 (some p.id) true))) ∧
    (pktOf s q pk = some p → p.type = 8 → p.started = true → p.done = false →
      (tmo ≠ 0 → p.clk0 + tmo * 65536 ≤ s.clk → exec (.waitTimeout q pk) s = .next (donePkt s q pk 16)) ∧
      (tmo = 0 ∨ s.clk < p.clk0 + tmo * 65536 → exec (.waitTimeout q pk) s = .next s))

/-- R65, R66: a move that may begin sets MV in the leaf and keeps what it needs; one that R65 refuses completes with bit 59, one whose leaf
cannot be read, or with the host's port down, with bit 62; completed, every word at the new home is the word that the old one had, and no level,
cache or walker cache knows the old one; a failed move leaves the leaf as it was. That steps 2 to 6 stand in one event is the model's choice (log
entries 38 and 39). -/
def Parts.HomeMoves : Prop :=
  ∀ (s w0 : State) (q pk lp l r : Nat) (p : Pkt) (e : Word) (m : Move) (vs : List (Nat × Lane)) (s1 u : State),
    (onTurn s q pk 4 = some p → p.done = false → (∀ x ∈ s.moves, ¬(x.q = q ∧ x.pk = pk)) →
      let x := queueCtx s q
      let va := (p.word 1).toNat
      let pa := (p.word 2).toNat
      let root := rdReg s (.xltRoot x)
      let size := pageSize l
      let toHost : Bool := decide (bits e 11 2 = 0)
      let e' := setBits (setBits (setBits e 16 36 (pa / 65536)) 11 2 (if toHost then 1 else 0)) 15 1 0
      let walks := leafPlace s va 4 (bits root 11 41 * 2048)
      let refused : Bool := bit e 10 || bit e 13 || bits e 11 2 = 2 || l = 2 || bit e 15 || pa % size ≠ 0 || 2 ^ 52 ≤ pa ||
        (if toHost then !isHostPa pa else !isHbm pa) || !leafPaOk w0 e' size
      let old := leafPa e l va / size * size;
      (2 ^ 56 ≤ va ∨ inFixed va = true ∨ bit root 0 = false ∨ isHbm (bits root 11 41 * 2048) = false → exec (.homemove q pk) s = .next (donePkt s q pk 64)) ∧
      (va < 2 ^ 56 → inFixed va = false → bit root 0 = true → isHbm (bits root 11 41 * 2048) = true →
        (walks = (w0, .error none) → exec (.homemove q pk) s = .next w0) ∧
        (walks = (w0, .error (some r)) → exec (.homemove q pk) s = .next (donePkt w0 q pk 64)) ∧
        (walks = (w0, .ok (lp, e, l)) → refused = true → exec (.homemove q pk) s = .next (donePkt w0 q pk 8)) ∧
        (walks = (w0, .ok (lp, e, l)) → refused = false → hostUp w0 0 = false → exec (.homemove q pk) s = .next (donePkt w0 q pk 64)) ∧
        (walks = (w0, .ok (lp, e, l)) → refused = false → hostUp w0 0 = true → entryReady w0 lp = false → exec (.homemove q pk) s = .next w0) ∧
        (walks = (w0, .ok (lp, e, l)) → refused = false → hostUp w0 0 = true → entryReady w0 lp = true →
          exec (.homemove q pk) s = .next { pokeEntry (startPkt w0 q pk) lp (setBits e 15 1 1) (.cp q pk) with
            moves := w0.moves ++ [{ q := q, pk := pk, ctx := x, va := va / size * size, oldPa := old, newPa := pa, size := size, leafPa := lp, leaf := e }] }))) ∧
    ((s.moves.find? fun x => x.q = q && x.pk = pk) = some m →
      let hk := if bits m.leaf 11 2 = 0 then 1 else 0
      let inOld (w : Nat) : Prop := m.oldPa / 4 ≤ w ∧ w < (m.oldPa + m.size) / 4
      let aside := { s with moves := s.moves.erase m, locks := s.locks.filter fun x => !inPage m.oldPa m.size x.2 }
      let src := touchReads aside ((List.range (m.size / 128)).map fun i => m.oldPa / 4 + 32 * i)
      let values := moveValues m (moveWords s m) src;
      (moveFails s m = true → entryReady s m.leafPa = true → exec (.homemoveFailed q pk) s =
        .next (donePkt (pokeEntry { s with moves := s.moves.erase m } m.leafPa m.leaf (.cp q pk)) q pk 64)) ∧
      (moveFails s m = false ∨ entryReady s m.leafPa = false → exec (.homemoveFailed q pk) s = .next s) ∧
      (moveFails s m = true ∨ moveMeets s m .held = true ∨ entryReady s m.leafPa = false ∨ values = none →
        exec (.homemoveComplete q pk) s = .next s) ∧
      (moveFails s m = false → entryReady s m.leafPa = true → values = some (s1, vs) → moveWrite s1 m vs = none →
        exec (.homemoveComplete q pk) s = .next s) ∧
      (moveFails s m = false → moveMeets s m .held = false → entryReady s m.leafPa = true → values = some (s1, vs) → moveWrite s1 m vs = some u →
        m.oldPa % 4 = 0 → m.newPa % 4 = 0 → m.size % 4 = 0 → m.oldPa + m.size ≤ m.newPa ∨ m.newPa + m.size ≤ m.oldPa →
        ∃ w, exec (.homemoveComplete q pk) s =
            .next (donePkt (pokeEntry w m.leafPa (setBits (setBits m.leaf 16 36 (m.newPa / 65536)) 11 2 hk) (.cp m.q m.pk)) q pk 0) ∧
          w.mem = u.mem ∧ w.dev = u.dev ∧ (∀ x ∈ w.wcache, x.ctx ≠ m.ctx) ∧ (∀ x ∈ w.lvl, ¬ inOld (x.1 % 2 ^ 50)) ∧
          (∀ c ∈ w.cores, ∀ x ∈ c.2.l1, ¬ inOld x.1) ∧
          (noLoss src → (∀ j < m.size / 4, let y := m.newPa / 4 + j;
              homeFind s1 y = .val (memWord s1 y) 0x2000 [] ∧ dropsPa s1 (4 * y) = false ∧ protectedPa s1 (4 * y) = false ∧
              hbmRes s1 (4 * y) = .served ∧ (isHostPa (4 * y) = true → hostServes s1 (srcPort .none) y false = true)) →
            ∀ j x h path, j < m.size / 4 → homeFind src (m.oldPa / 4 + j) = .val x h path → memWord w (m.newPa / 4 + j) = x)))

/-- R344: EN of the ring needs at least 16 records, an aligned base in HBM or host memory, and starts it empty; an event is recorded at WR,
and WR moves once the record stands there; it is counted in LOST where the ring is off or full, or its host's port is down, which also
disables the ring; RD moves up to WR at most. What was under way when a ring starts anew is counted in LOST. The path of a record, how one
waits, and the numbers of error-log kinds are the model's choices (log entries 17, 52). -/
def Parts.EventRing : Prop :=
  ∀ (s : State) (v : Word) (src unit : Nat) (data : Word),
    let c := rdReg s .evqCfg
    let base := bits (rdReg s .evqBase) 0 52
    let wr := bits (rdReg s .evqWr) 0 32
    let rd := bits (rdReg s .evqRd) 0 32
    let held := (wr + 2 ^ 32 - rd) % 2 ^ 32
    let t := evPost s src unit data
    let dead : Bool := isHostPa (base + 16 * (wr % 2 ^ bits c 0 4)) && !hostUp s 0
    let pa := base + 16 * (wr % 2 ^ bits c 0 4)
    (7 ≤ s.bringup → bit c 63 = false → bit v 63 = true → bit v 62 = false →
      let good : Prop := 4 ≤ bits v 0 4 ∧ base % (16 * 2 ^ bits v 0 4) = 0 ∧ (isHbm base = true ∨ isHostPa base = true);
      (good → ∃ u, exec (.evqCfgEnSet v) s = .next u ∧ bit (rdReg u .evqCfg) 63 = true ∧ bits (rdReg u .evqCfg) 0 4 = bits v 0 4 ∧
        rdReg u .evqWr = 0 ∧ rdReg u .evqRd = 0 ∧ bytesStay s u ∧ u.evWait = [] ∧ u.evLeft = 0 ∧
        bits (rdReg u .evqCfg) 16 16 = min 65535 (bits c 16 16 + s.evWait.length + if s.evLeft = 0 then 0 else 1)) ∧
      (¬ good → ∃ u, exec (.evqCfgEnSet v) s = .next u ∧ bit (rdReg u .evqCfg) 63 = false ∧ bit (rdReg u .evqCfg) 62 = true)) ∧
    (7 ≤ s.bringup → bit c 63 = true → bit v 63 = false → bit v 62 = false → ∃ u, exec (.evqCfgEnClear v) s = .next u ∧
      bit (rdReg u .evqCfg) 63 = false ∧ rdReg u .evqWr = rdReg s .evqWr ∧ bytesStay s u) ∧
    (7 ≤ s.bringup → let n := bits v 0 32;
      ((wr + 2 ^ 32 - n) % 2 ^ 32 ≤ 2 ^ bits c 0 4 → ∃ u, exec (.evqRdWrite v) s = .next u ∧ rdReg u .evqRd = BitVec.ofNat 64 n ∧
        otherRegsStay s u [.evqRd]) ∧
      (2 ^ bits c 0 4 < (wr + 2 ^ 32 - n) % 2 ^ 32 → ∃ u, exec (.evqRdWrite v) s = .next u ∧ bit (rdReg u .evqCfg) 62 = true ∧
        otherRegsStay s u [.evqCfg])) ∧
    (t.errLog = s.errLog ++ [⟨100 + src, unit, s.clk, [data]⟩]) ∧
    (s.evLeft ≠ 0 → t.evWait = s.evWait ++ [(src, unit, data)] ∧ bytesStay s t ∧ otherRegsStay s t []) ∧
    (s.evLeft = 0 → bit c 63 = false ∨ held = 2 ^ bits c 0 4 → bits (rdReg t .evqCfg) 16 16 = min 65535 (bits c 16 16 + 1) ∧ bytesStay s t ∧
      bit (rdReg t .evqCfg) 63 = bit c 63 ∧ otherRegsStay s t [.evqCfg]) ∧
    (s.evLeft = 0 → bit c 63 = true → held ≠ 2 ^ bits c 0 4 →
      (dead = true → bits (rdReg t .evqCfg) 16 16 = min 65535 (bits c 16 16 + 1) ∧ bit (rdReg t .evqCfg) 63 = false ∧
        bit (rdReg t .evqCfg) 62 = true ∧ bytesStay s t ∧ otherRegsStay s t [.evqCfg]) ∧
      (dead = false → (∃ i < 4, pokeReady s (pa / 4 + i) = false) → t.evLeft = 4 ∧ bytesStay s t ∧ otherRegsStay s t [] ∧
        ∃ v0 v1 v2 v3 : W32, t.net = s.net ++ [.homeWrite ⟨pa / 4, 15, v0, false, .write, .evq⟩, .homeWrite ⟨pa / 4 + 1, 15, v1, false, .write, .evq⟩,
          .homeWrite ⟨pa / 4 + 2, 15, v2, false, .write, .evq⟩, .homeWrite ⟨pa / 4 + 3, 15, v3, false, .write, .evq⟩]) ∧
      (dead = false → isHbm pa = true → base % 4 = 0 →
        (∀ i < 4, pokeReady s (pa / 4 + i) = true ∧ homeFind s (pa / 4 + i) = .val (memWord s (pa / 4 + i)) 0x2000 []) →
        rdLe t pa 2 = src % 2 ^ 16 ∧ rdLe t (pa + 2) 2 = unit % 2 ^ 16 ∧ rdLe t (pa + 4) 4 = 0 ∧ rdLe t (pa + 8) 8 = data.toNat ∧
        bits (rdReg t .evqWr) 0 32 = (wr + 1) % 2 ^ 32 ∧ ∀ a, a < pa ∨ pa + 16 ≤ a → rdByte t a = rdByte s a))

/-- R345: the forecast is renewed: its sequence number, the cores that hold running tasks, the dispatches that wait, and the two forecasts of
cores in use, at most 128. -/
def Parts.ActivityForecast : Prop :=
  ∀ (s : State),
    let now := ((s.tasks.filter fun x => x.2.st = .running || x.2.st = .setup || x.2.st = .saving).map fun x => x.2.cores.length).sum
    let soon := (((readyTasks s).filter fun x =>
      mayGrant s x.1 x.2 || (!coresIdle s x.2 && leads s x.1 x.2 && !resumesFirst s x.2 && mayPreempt s x.2)).map fun x => x.2.cores.length).sum
    let later := ((List.range 64).map fun q =>
      ((((mget {} s.queues q).pkts.drop 1).filter fun p => p.type = 1 && !p.started).map fun p => pktCores s q p).sum).sum
    ∃ t, exec .actFcstRecompute s = .next t ∧ bits (rdReg t .actFcst) 0 16 = (bits (rdReg s .actFcst) 0 16 + 1) % 2 ^ 16 ∧
      bits (rdReg t .actFcst) 16 16 = min 65535 (readyTasks s).length ∧
      (now < 256 → bits (rdReg t .actFcst) 32 8 = now ∧ bits (rdReg t .actFcst) 40 8 = min 128 (now + soon) ∧
        bits (rdReg t .actFcst) 48 8 = min 128 (min 128 (now + soon) + later) ∧ bit (rdReg t .actFcst) 63 = true) ∧
      otherRegsStay s t [.actFcst] ∧ bytesStay s t ∧ t.tasks = s.tasks

/-! ## Links, collectives, ordered reductions (R346-R362) -/

/-- R347, R348, R415: a port trains, comes up, and goes down or to Failed when it does not within its time; replays are counted and the eighth of one
flit retrains; before step 5 of the bring-up none trains; LNK_CFG brings a Failed port back and asks for a retrain. -/
def Parts.LinkPorts : Prop :=
  ∀ (s : State) (p peer pport flit : Nat) (v : Word), p < 26 →
    let st := portState s p
    let x := mget {} s.ports p
    let sts := rdReg s (.lnkSts p)
    let late : Prop := x.since + bits (rdReg s .fabCfg) 0 32 * 1024 ≤ s.clk
    (st = 0 → bit (rdReg s (.lnkCfg p)) 63 = true → 4 ≤ s.bringup → ∃ t, exec (.linkTraining p peer pport) s = .next t ∧ portState t p = 1 ∧
      (mget {} t.ports p).since = s.clk ∧
      (p < 24 → bits (rdReg t (.lnkSts p)) 55 6 = peer % 64 ∧ bits (rdReg t (.lnkSts p)) 50 5 = pport % 32)) ∧
    (st ≠ 0 ∨ bit (rdReg s (.lnkCfg p)) 63 = false ∨ s.bringup < 4 → exec (.linkTraining p peer pport) s = .next s) ∧
    (st = 1 ∨ st = 3 → ∃ t, exec (.linkUp p) s = .next t ∧ portState t p = 2 ∧ (mget {} t.ports p).fails = 0 ∧ (mget {} t.ports p).replays = []) ∧
    (st = 1 → late → x.fails < 3 → ∃ t, exec (.linkTrainingTimeout p) s = .next t ∧ portState t p = 0 ∧ (mget {} t.ports p).fails = x.fails + 1) ∧
    (st = 1 → late → 3 ≤ x.fails → ∃ t, exec (.linkTrainingTimeout p) s = .next t ∧ portState t p = 4 ∧
      (p < 24 → bit (rdReg t .replSts) 3 = true ∧ bit (rdReg t .replSts) 63 = true)) ∧
    (st ≠ 1 ∨ ¬ late → exec (.linkTrainingTimeout p) s = .next s) ∧
    (st = 3 → late → ∃ t, exec (.linkRetrainTimeout p) s = .next t ∧ portState t p = 0) ∧
    (st ≠ 3 ∨ ¬ late → exec (.linkRetrainTimeout p) s = .next s) ∧
    (st = 2 → ∃ t, exec (.flitReplay ⟨p, flit⟩) s = .next t ∧ bits (rdReg t (.lnkSts p)) 32 16 = min 65535 (bits sts 32 16 + 1) ∧
      bits (rdReg t (.lnkSts p)) 16 16 = min 65535 (bits sts 16 16 + 1) ∧
      (mget 0 x.replays flit < 7 → portState t p = 2 ∧ mget 0 (mget {} t.ports p).replays flit = mget 0 x.replays flit + 1 ∧ bytesStay s t ∧
        ∀ f, f ≠ flit → mget 0 (mget {} t.ports p).replays f = mget 0 x.replays f) ∧
      (7 ≤ mget 0 x.replays flit → portState t p = 3 ∧ (mget {} t.ports p).replays = [] ∧
        bits (rdReg t (.lnkSts p)) 8 8 = min 255 (bits sts 8 8 + 1))) ∧
    (st ≠ 2 → exec (.flitReplay ⟨p, flit⟩) s = .next s) ∧
    (7 ≤ s.bringup → bit v 62 = false → ∃ t, exec (.lnkCfgEn p v) s = .next t ∧ bit (rdReg t (.lnkCfg p)) 63 = bit v 63 ∧
      portState t p = (if st = 4 ∧ bit (rdReg s (.lnkCfg p)) 63 = false ∧ bit v 63 = true then 1 else st)) ∧
    (7 ≤ s.bringup → bit v 62 = true → st = 2 → ∃ t, exec (.lnkCfgRetrain p v) s = .next t ∧ portState t p = 3 ∧
      bits (rdReg t (.lnkSts p)) 8 8 = min 255 (bits sts 8 8 + 1))

/-- R350: a flit for another module goes on without touching memory, and is discarded at its eighth forwarding or without a route. -/
def Parts.FlitsAreForwarded : Prop :=
  ∀ (s : State) (pod : Nat) (hops : BitVec 4),
    (hops.toNat < 7 → routeOf s pod ≠ .down →
      exec (.flitForward pod hops) s = .next { s with outbox := s.outbox ++ [(pod, .flitForward pod (hops + 1))] }) ∧
    (7 ≤ hops.toNat ∨ routeOf s pod = .down → exec (.flitForward pod hops) s = .next s)

/-- R357, R358: a collective on its turn takes its group record and the signatures that came before it, then announces itself to every other
member; a record that is not good, a signature that differs or a CABORT that came before ends it with ERROR; signatures from all complete
its handshake. Corner cases of the arguments are the model's reading (log entry 42). -/
def Parts.CollectivesOpenAndAnnounce : Prop :=
  ∀ (s : State) (q pk r pod : Nat) (p : Pkt) (c : Coll), p.id = pk → pktOf s q pk = some p → p.done = false →
    ∀ x ∈ [(0x10, Instr.broadcast q pk), (0x11, .allGather q pk), (0x12, .reduceScatter q pk), (0x13, .allReduce q pk),
      (0x14, .defaultBarrier q pk), (0x15, .expertBarrier q pk)], onTurn s q pk x.1 = some p →
      let mine (e : Nat × Nat × Nat × Word) : Bool := e.2.1 = c.gid && e.2.2.1 = c.sq && c.memb.contains e.1
      let told (e : Nat × Nat × Nat) : Bool := e.2.1 = c.gid && e.2.2 = c.sq
      let ask := cpAsk s (queueCtx s q) (wordVas (p.word 4).toNat 128 ++ wordVas (p.word 1).toNat 4)
      let begun := startPkt (cpTouch s (queueCtx s q) (wordVas (p.word 4).toNat 128)) q pk
      let ready : Prop := x.1 = 0x14 → ∀ o ∈ s.peerOut, o.queue ≠ q
      let sent : State := { modColl s q pk (fun c => { c with announced := true }) with
        outbox := s.outbox ++ c.others.map (fun j => (j, .sig (podIdx s) c.gid c.sq c.h)) };
      (p.coll = none → readColl s q p = .error none → exec x.2 s = .next ask) ∧
      (p.coll = none → readColl s q p = .error (some r) → exec x.2 s = .next (donePkt ask q pk 1)) ∧
      (p.coll = none → readColl s q p = .ok c → (∀ e ∈ s.aborts, told e = false) → ∃ t, exec x.2 s = .next t ∧
        (pktOf t q pk).map (·.coll) = some (some { c with sigs := (s.early.filter mine).map fun e => (e.1, e.2.2.2) }) ∧
        (pktOf t q pk).map (·.started) = some true ∧ (noLoss s → bytesStay s t ∧ t.outbox = s.outbox) ∧ (∀ e, e ∈ t.early ↔ e ∈ s.early ∧ mine e = false)) ∧
      (p.coll = none → readColl s q p = .ok c → ∀ e, s.aborts.find? told = some e → exec x.2 s = .next
        (donePkt (collErr { begun with aborts := s.aborts.filter fun e => !told e } e.1 q c.sq) q pk 1)) ∧
      (p.coll = some c → c.announced = false → ready → c.mismatch = none →
        ∃ t, exec x.2 s = .next t ∧ t.outbox = sent.outbox ∧ bytesStay s t ∧
          (pktOf t q pk).map (·.coll) = some (some (if ∀ j ∈ c.others, ∃ y ∈ c.sigs, y.1 = j
            then { c with announced := true, shaken := true } else { c with announced := true }))) ∧
      (p.coll = some c → c.announced = false → ready → c.mismatch = some pod → exec x.2 s = .next (donePkt { collErr sent pod q c.sq with
        outbox := sent.outbox ++ c.others.map fun j => (j, .cabort (podIdx s) c.gid c.sq) } q pk 1)) ∧
      (p.coll = some c → c.announced = true → c.shaken = false → exec x.2 s = .next s) ∧
      (p.coll = some c → c.announced = false → ¬ ready → exec x.2 s = .next s)

/-- R358, R359: signatures that agree from every member complete the handshake; the first that differs ends the collective with ERROR, is
recorded, and tells every member; a CABORT does the same here; those for collectives to come are kept, up to 64
signatures. -/
def Parts.SignaturesAreCompared : Prop :=
  ∀ (s : State) (src gid sq q pk pod : Nat) (h : Word) (p : Pkt) (c : Coll),
    let c' : Coll := { c with sigs := (c.sigs.filter fun x => x.1 ≠ src) ++ [(src, h)] }
    (findColl s gid sq = none → s.early.length < 64 → exec (.sig src gid sq h) s = .next { s with early := s.early ++ [(src, gid, sq, h)] }) ∧
    (findColl s gid sq = none → 64 ≤ s.early.length → exec (.sig src gid sq h) s = .next s) ∧
    (findColl s gid sq = some (q, pk, c) → src ∉ c.memb → exec (.sig src gid sq h) s = .next s) ∧
    (findColl s gid sq = none → exec (.cabort src gid sq) s = .next { s with aborts := s.aborts ++ [(src, gid, sq)] }) ∧
    (findColl s gid sq = some (q, pk, c) → pktOf s q pk = some p → p.coll = some c → src ∈ c.memb →
      (∀ x ∈ c.sigs, x.2 = c.h) →
      (h = c.h → ∃ t, exec (.sig src gid sq h) s = .next t ∧ bytesStay s t ∧ t.outbox = s.outbox ∧
        (pktOf t q pk).map (·.coll) = some (some (if c.announced = true ∧ ∀ j ∈ c.others, j = src ∨ ∃ x ∈ c.sigs, x.1 = j
          then { c' with shaken := true } else c'))) ∧
      (h ≠ c.h → exec (.sig src gid sq h) s = .next (donePkt { collErr (modColl s q pk fun c =>
        { c with sigs := (c.sigs.filter fun x => x.1 ≠ src) ++ [(src, h)] }) src q c.sq with
        outbox := s.outbox ++ c.others.map fun j => (j, .cabort (podIdx s) c.gid c.sq) } q pk 1))) ∧
    (findColl s gid sq = some (q, pk, c) → exec (.cabort src gid sq) s = .next (donePkt (collErr s src q sq) q pk 1)) ∧
    (findColl s gid sq = some (q, pk, c) → c.announced = true → pod ∈ c.others →
      exec (.sigResend gid sq pod) s = .next { s with outbox := s.outbox ++ [(pod, .sig (podIdx s) gid sq c.h)] }) ∧
    (src < 64 → q < 64 → sq < 2 ^ 32 → bit (rdReg s .collErr) 63 = false →
      let v := rdReg (collErr s src q sq) .collErr;
      bit v 63 = true ∧ bits v 57 6 = src ∧ bits v 51 6 = q ∧ bits v 0 32 = sq)

/-- R91, R362: after its handshake a barrier completes, the default one with bit 57 where a peer-bound write of its queue was recorded
undeliverable; a collective whose time is over completes with TIMEOUT: before its handshake it wrote nothing, after it with inputs missing its
STAGE is zeroed. -/
def Parts.BarriersAndTimeouts : Prop :=
  ∀ (s : State) (q pk : Nat) (p : Pkt) (c : Coll), p.coll = some c → p.done = false →
    (onTurn s q pk 0x14 = some p → c.announced = true → c.shaken = true → exec (.defaultBarrier q pk) s = .next (donePkt
      { s with queues := mput s.queues q { mget {} s.queues q with und := false } } q pk (if (mget {} s.queues q).und then 2 else 0))) ∧
    (onTurn s q pk 0x15 = some p → c.announced = true → c.shaken = true → p.out = 0 → exec (.expertBarrier q pk) s = .next (donePkt s q pk 0)) ∧
    (let tmo := bits (p.word 5) 32 32
     pktOf s q pk = some p →
     (tmo ≠ 0 → p.clk0 + tmo * 65536 ≤ s.clk → c.shaken = false → exec (.collectiveTimeout q pk) s = .next (donePkt s q pk 16)) ∧
     (let missing : Prop := if c.typ = 0x12 then ∃ i < c.n, c.has 0 i = false
        else if c.typ = 0x10 then c.rank ≠ c.root ∧ c.has 1 0 = false else ∃ i < c.n, c.has 1 i = false
      tmo ≠ 0 → p.clk0 + tmo * 65536 ≤ s.clk → c.shaken = true → c.typ < 0x14 →
        (missing → exec (.collectiveTimeout q pk) s = .next (donePkt (zeroStage s q pk c) q pk 16)) ∧
        (¬ missing → exec (.collectiveTimeout q pk) s = .next s)) ∧
     (tmo = 0 ∨ s.clk < p.clk0 + tmo * 65536 → exec (.collectiveTimeout q pk) s = .next s) ∧
     (c.shaken = true → 0x14 ≤ c.typ → exec (.collectiveTimeout q pk) s = .next s))

/-- R93, R178, R361: a payload waits behind a start that its link holds and for the handshake, and at its home with the accesses that wait there;
then its words are written, STAGE for a fold and DST for a copy, or its pairs are kept, and its sender is told; a word that cannot be written
ends the collective with ERROR. That a payload which is not performed is refused to its sender is the model's choice (log entry 87). -/
def Parts.PayloadsPerform : Prop :=
  ∀ (s u : State) (x : CollPayload) (q pk : Nat) (c : Coll),
    let rank := (c.memb.takeWhile fun j => j ≠ x.src).length
    let y : CollPayload := { x with word := payloadWord s x }
    let ack : Nat × Instr := (x.src, .peerWriteAck x.id 0 false false)
    let refused : Nat × Instr := (x.src, .peerWriteAck x.id ackDropped false true)
    let va := if x.stage then c.stage + 4 * rank * c.chunk else c.dst + 4 * x.off * c.chunk
    let words := at4 va x.data
    let behind := peerBehind s (.collectivePayload x)
    let waits := mustHold s (.collectivePayload y) || heldBefore s (.collectivePayload y);
    (behind = true → exec (.collectivePayload x) s = .next (send s (.collectivePayload x))) ∧
    (behind = false → waits = true → exec (.collectivePayload x) s = .next { s with held := s.held ++ [.collectivePayload y] }) ∧
    (behind = false → waits = false →
      (findColl s x.gid x.sq = some (q, pk, c) → c.shaken = false → exec (.collectivePayload x) s = .next { s with net := .collectivePayload y :: s.net }) ∧
      (findColl s x.gid x.sq = some (q, pk, c) → c.shaken = true → c.sparse = false →
        collWrite s q pk words = some (u, true) →
        ∃ t, exec (.collectivePayload x) s = .next t ∧ t.mem = u.mem ∧ t.outbox = u.outbox ++ [ack] ∧
          t.queues = (modColl u q pk fun c => { c with got := c.got ++ [(if x.stage then (0, rank, []) else (1, x.off, []))] }).queues) ∧
      (findColl s x.gid x.sq = some (q, pk, c) → c.shaken = true → c.sparse = false → collWrite s q pk words = none →
        exec (.collectivePayload x) s = .next (requeue (cpAsk s (queueCtx s q) [va]) (.collectivePayload y))) ∧
      (findColl s x.gid x.sq = some (q, pk, c) → c.shaken = true → c.sparse = false → collWrite s q pk words = some (u, false) →
        exec (.collectivePayload x) s = .next (donePkt (zeroStage { u with outbox := u.outbox ++ [refused] } q pk c) q pk 1)) ∧
      (findColl s x.gid x.sq = some (q, pk, c) → c.shaken = true → c.sparse = true →
        exec (.collectivePayload x) s = .next { modColl s q pk (fun c => { c with
          got := c.got ++ [((if x.stage then 0 else 1), (if x.stage then rank else x.off), x.data)] }) with outbox := s.outbox ++ [ack] }) ∧
      (findColl s x.gid x.sq = none → (∃ e ∈ s.early, e.2.1 = x.gid ∧ e.2.2.1 = x.sq) →
        exec (.collectivePayload x) s = .next { s with net := .collectivePayload y :: s.net }) ∧
      (findColl s x.gid x.sq = none → (∀ e ∈ s.early, ¬(e.2.1 = x.gid ∧ e.2.2.1 = x.sq)) →
        exec (.collectivePayload x) s = .next { s with outbox := s.outbox ++ [refused] }))

/-- R360, R361: the chains of the data collectives after the handshake: broadcast from the root down, chunks around the ring, chunks to
their folding member, the fold in order; the packet completes once everything is there and every send is acknowledged. Rounding of folds and
the broadcast with SRC equal to DST are the model's reading (log entry 42). -/
def Parts.CollectiveChains : Prop :=
  ∀ (s u : State) (q pk : Nat) (p : Pkt) (c : Coll) (ws : List (W32 × Bool)) (xs : List (List (W32 × Bool))),
    p.coll = some c → p.done = false → p.out = 0 → c.announced = true → c.shaken = true → c.sparse = false →
    let v := (c.rank + c.n - c.root) % c.n
    let now (s : State) (f : Coll → Coll) : State := modColl s q pk f
    let seen (runs : List (Nat × Nat)) : State :=
      cpTouch s (queueCtx s q) ((runs.map fun x => (x.1, 4 * x.2)).flatMap fun x => wordVas x.1 x.2)
    let turn (ty : Nat) : Prop := onTurn s q pk ty = some p
    let all (kind : Nat) : Prop := ∀ i < c.n, c.has kind i = true
    let ring (i : Instr) : Prop :=
      let j := (c.rank + c.n - c.sent) % c.n
      let at_ := c.dst + 4 * j * c.chunk;
      (c.sent + 1 < c.n → c.has 1 j = true → collRead s q at_ (c.chunkLen j) = .ok ws →
        exec i s = .next (now (sendPayload (seen [(at_, c.chunkLen j)]) q pk c (c.rank + 1) false j ws) fun d => { d with sent := c.sent + 1 })) ∧
      (c.sent + 1 < c.n → c.has 1 j = false → exec i s = .next s) ∧
      (c.n ≤ c.sent + 1 → all 1 → sendsDone s q pk = true → exec i s = .next (donePkt s q pk 0)) ∧
      (c.n ≤ c.sent + 1 → ¬ all 1 ∨ sendsDone s q pk = false → exec i s = .next s)
    let chunks := (List.range c.n).map fun j => (c.src + 4 * j * c.chunk, c.chunkLen j)
    let scatter (i : Instr) : Prop :=
      collReads s q chunks = .ok xs →
      collWrite (seen chunks) q pk (at4 (c.stage + 4 * c.rank * c.chunk) (xs.getD c.rank [])) = some (u, true) →
      exec i s = .next (now ((List.range c.n).foldl (fun s j =>
        if j = c.rank then s else sendPayload s q pk c j true 0 (xs.getD j [])) u)
        fun c => { c with step := 1, got := c.got ++ [(0, c.rank, [])] })
    let stages := c.order.map fun r => (c.stage + 4 * r * c.chunk, c.chunkLen c.rank)
    let folded (dst : Nat) : Prop := all 0 ∧ sendsDone s q pk = true ∧ collReads s q stages = .ok xs ∧
      collWrite (seen stages) q pk (at4 dst (foldWords c.op xs)) = some (u, true)
    (turn 0x10 →
      (c.step = 0 → v = 0 → collRead s q c.src c.count = .ok ws → collWrite (seen [(c.src, c.count)]) q pk (at4 c.dst ws) = some (u, true) →
        exec (.broadcast q pk) s = .next (now u fun c => { c with step := 1 })) ∧
      (c.step = 0 → v ≠ 0 → exec (.broadcast q pk) s = .next (if c.has 1 0 then now s fun c => { c with step := 1 } else s)) ∧
      (let kids := ((List.range 6).map fun t => 2 ^ t).filter fun d => v < d && v + d < c.n
       let from_ := if v = 0 then c.src else c.dst
       (c.step = 1 → kids = [] → exec (.broadcast q pk) s = .next (now s fun c => { c with step := 2 })) ∧
       (c.step = 1 → kids ≠ [] → collRead s q from_ c.count = .ok ws → exec (.broadcast q pk) s = .next (now
         (kids.foldl (fun s d => sendPayload s q pk c (c.rank + d) false 0 ws) (seen [(from_, c.count)])) fun c => { c with step := 2 }))) ∧
      (c.step = 2 → sendsDone s q pk = true → exec (.broadcast q pk) s = .next (donePkt s q pk 0)) ∧
      (c.step = 2 → sendsDone s q pk = false → exec (.broadcast q pk) s = .next s)) ∧
    (turn 0x11 →
      (c.step = 0 → collRead s q c.src c.count = .ok ws →
        collWrite (seen [(c.src, c.count)]) q pk (at4 (c.dst + 4 * c.rank * c.count) ws) = some (u, true) →
        exec (.allGather q pk) s = .next (now u fun c => { c with step := 2, got := c.got ++ [(1, c.rank, [])] })) ∧
      (c.step = 2 → ring (.allGather q pk))) ∧
    (turn 0x12 →
      (c.step = 0 → scatter (.reduceScatter q pk)) ∧
      (c.step = 1 → folded c.dst → exec (.reduceScatter q pk) s = .next (donePkt (zeroStage u q pk c) q pk 0)) ∧
      (c.step = 1 → ¬ all 0 ∨ sendsDone s q pk = false → exec (.reduceScatter q pk) s = .next s)) ∧
    (turn 0x13 →
      (c.step = 0 → scatter (.allReduce q pk)) ∧
      (c.step = 1 → folded (c.dst + 4 * c.rank * c.chunk) → exec (.allReduce q pk) s =
        .next (now (zeroStage u q pk c) fun c => { c with step := 2, got := c.got ++ [(1, c.rank, [])] })) ∧
      (c.step = 1 → ¬ all 0 ∨ sendsDone s q pk = false → exec (.allReduce q pk) s = .next s) ∧
      (c.step = 2 → ring (.allReduce q pk)))

/-- R354, R360, R361: the sparse all-reduce after its handshake: each member's rising list of pairs goes to the folding members by chunk, every
chunk's lists are merged in order, and the merged lists go around the ring; their words are written once all are there. -/
def Parts.SparseAllReduces : Prop :=
  ∀ (s u : State) (q pk n : Nat) (p : Pkt) (c : Coll) (ws : List (W32 × Bool)),
    p.coll = some c → p.done = false → p.out = 0 → c.announced = true → c.shaken = true → c.sparse = true → onTurn s q pk 0x13 = some p →
    let now (s : State) (f : Coll → Coll) : State := modColl s q pk f
    let list (kind i : Nat) : List (W32 × Bool) := (c.got.findSome? fun e => if e.1 = kind && e.2.1 = i then some e.2.2 else none).getD []
    let all (kind : Nat) : Prop := ∀ i < c.n, c.has kind i = true
    let x := queueCtx s q
    let seen := cpTouch (cpTouch s x (wordVas c.src 4)) x (wordVas (c.src + 8) (4 * ws.length))
    let j := (c.rank + c.n - c.sent) % c.n
    (c.step = 0 → cpNum s x c.src 4 = .ok n → collRead s q (c.src + 8) (2 * n) = .ok ws →
      (rising (sparsePairs ws) = true → (∀ e ∈ sparsePairs ws, e.1 < c.count) →
        exec (.allReduce q pk) s = .next (now ((List.range c.n).foldl (fun s j =>
          if j = c.rank then s else sendPayload s q pk c j true 0 (pairWords (pairsOf c ws j))) seen)
          fun c => { c with step := 1, got := c.got ++ [(0, c.rank, pairWords (pairsOf c ws c.rank))] })) ∧
      (rising (sparsePairs ws) = false ∨ (∃ e ∈ sparsePairs ws, c.count ≤ e.1) → exec (.allReduce q pk) s =
        .next (donePkt (zeroStage (cpAsk s x (wordVas c.src 4)) q pk c) q pk 1))) ∧
    (c.step = 1 → all 0 → sendsDone s q pk = true → exec (.allReduce q pk) s = .next (now s fun d => { d with
      step := 2, got := d.got ++ [(1, d.rank, pairWords (mergePairs d.op (c.order.map fun r => sparsePairs (list 0 r))))] })) ∧
    (c.step = 2 → c.sent + 1 < c.n → c.has 1 j = true → exec (.allReduce q pk) s =
      .next (now (sendPayload s q pk c (c.rank + 1) false j (list 1 j)) fun d => { d with sent := c.sent + 1 })) ∧
    (c.step = 2 → c.n ≤ c.sent + 1 → all 1 → sendsDone s q pk = true →
      collWrite s q pk ((List.range c.n).flatMap fun j => (sparsePairs (list 1 j)).map fun e => (c.dst + 4 * e.1, e.2)) = some (u, true) →
      exec (.allReduce q pk) s = .next (donePkt (zeroStage u q pk c) q pk 0))

/-- R360: a fold combines equal places, in the order of its contributions; a poisoned word poisons its sum. That folds round to nearest and
flush nothing is the model's reading (log entry 42). -/
def Parts.CollectiveFold : Prop :=
  ∀ (op : Nat) (x : List (W32 × Bool)) (r : List (List (W32 × Bool))), (∀ y ∈ r, y.length = x.length) →
    (foldWords op (x :: r)).length = x.length ∧
    (∀ i < x.length, (foldWords op (x :: r)).getD i (0, false) = r.foldl (fun z y => collOp op z (y.getD i (0, false))) (x.getD i (0, false))) ∧
    (∀ a b : W32 × Bool, (collOp op a b).2 = (a.2 || b.2)) ∧
    (∀ a b : W32 × Bool, a.2 = false → b.2 = false → (collOp 3 a b).1 = a.1 + b.1 ∧
      (collOp 6 a b).1 = (if a.1.toInt ≤ b.1.toInt then a.1 else b.1) ∧ (collOp 7 a b).1 = if b.1.toInt ≤ a.1.toInt then a.1 else b.1)

/-- R93, R352, R353, R366: a contribution behind an earlier message of its peer waits, as it does behind the accesses that wait at its home;
one to a parameter engine's window is the engine's; an unordered one is combined word by word. An ordered one is combined when its rank is
next, and the key moves to the next rank or closes; one that has to wait, or that comes early, is held under its key; one with another
count, or whose rank is past or held, is refused; one without room goes back to its sender and is sent again after 4,096 clk. How a refusal
for want of room travels is the model's reading (log entry 43). -/
def Parts.OrderedReductions : Prop :=
  ∀ (s u : State) (o : OrdContrib) (k : OrdKey) (st e core id : Nat) (fl : Flags),
    let chip := if isHostPa o.key then 0 else homeChip o.key
    let mine (x : OrdKey) : Bool := x.chip = chip && x.key = o.key && x.tag = o.tag
    let others := s.ordKeys.filter fun x => !mine x
    let seen : Prop := (s.ordKeys.find? mine) = some k
    let fresh : Prop := (s.ordKeys.find? mine) = none ∧ (s.ordKeys.filter fun x => x.chip = chip).length < 1024 ∧
      k = { chip := chip, key := o.key, tag := o.tag, next := 0, ncon := o.ncon }
    let good : Prop := o.ncon = k.ncon ∧ k.next ≤ o.rank ∧ ∀ h ∈ k.held, h.rank ≠ o.rank
    let turn : Prop := o.rank = k.next ∧ (o ∈ k.held ∨ good)
    let m : Instr := .orderedContribution o
    let waits := mustHold s m || heldBefore s m
    let done (r : Out) : Prop := exec (.orderedContribution o) s = r
    (peerBehind s m = true → done (.next (send s m))) ∧
    (peerBehind s m = false → waits = true → done (.next { s with held := s.held ++ [m] })) ∧
    (peerBehind s m = false → waits = false → intakeOf s o.key = some e → done (.next (send s (.peContribution e o o.variant o.sparse)))) ∧
    (peerBehind s m = false → waits = false → intakeOf s o.key = none →
      (o.variant ≠ 1 →
        let hw (x : Nat × W32 × Bool) : HomeWr := ⟨x.1, 15, x.2.1, x.2.2, .combine o.variant o.rm o.ftz, o.src⟩
        let r := performAll ((List.zip o.words o.data).map hw) false s;
        (r.2.1 = [] → done (.next (contribDone r.1 o 0 0))) ∧
        (r.2.1 ≠ [] → done (.next { r.1 with net := .orderedContribution { o with
          words := r.2.1.map (·.w), data := r.2.1.map fun h => (h.data, h.poison) } :: r.1.net }))) ∧
      (o.variant = 1 → seen ∨ fresh →
        (turn → combineAll s 1 o o.src (List.zip o.words o.data) = some (u, st, fl) →
          let w := contribDone u o st fl
          let rest := w.ordKeys.filter fun x => !mine x
          let k' := { k with next := k.next + 1, held := k.held.erase o }
          ∃ t, done (.next t) ∧ t.mem = w.mem ∧ t.lvl = w.lvl ∧
            (k.ncon ≤ k.next + 1 → t.ordKeys = rest) ∧
            (k.next + 1 < k.ncon → t.ordKeys = rest ++ [k'] ∧ ∀ h ∈ k'.held, h.rank = k.next + 1 → .orderedContribution h ∈ t.net)) ∧
        (turn → combineAll s 1 o o.src (List.zip o.words o.data) = none → done (.next { s with
          ordKeys := others ++ [{ k with held := if o ∈ k.held then k.held else k.held ++ [o] }], net := m :: s.net })) ∧
        (good → o.rank ≠ k.next → heldBytes s chip + 4 * o.data.length ≤ 4 * 2 ^ 20 → done
          (.next (tellHeld { s with ordKeys := others ++ [{ k with held := k.held ++ [o] }] } o))) ∧
        (good → o.rank ≠ k.next → 4 * 2 ^ 20 < heldBytes s chip + 4 * o.data.length → done (.next (noRoom s o))) ∧
        (¬ good → ¬ turn → done (.next (remoteDone s o.src true)))) ∧
      (o.variant = 1 → (s.ordKeys.find? mine) = none → 1024 ≤ (s.ordKeys.filter fun x => x.chip = chip).length → done (.next (noRoom s o)))) ∧
    (∀ pod n, o.src = .peer pod n → noRoom s o = { s with outbox := s.outbox ++ [(pod, .peerWriteAck n ackNoRoom false false)] } ∧
      tellHeld s o = { s with outbox := s.outbox ++ [(pod, .peerWriteAck n ackHeld false false)] } ∧
      remoteDone s o.src true = { s with outbox := s.outbox ++ [(pod, .peerWriteAck n 0 false true)] }) ∧
    (∀ q, o.src = .cmd core q id → noRoom s o = { s with resend := s.resend ++ [(s.clk, o)] } ∧ tellHeld s o = s ∧
      (∀ c, s.resend = [(c, o)] → c + 4096 ≤ s.clk → exec (.contributionResend core id) s = .next (sendContribution { s with resend := [] } o)) ∧
      (∀ c, s.resend = [(c, o)] → s.clk < c + 4096 → exec (.contributionResend core id) s = .next s)) ∧
    (isPeerPa o.key = false → intakeOf s o.key = none → sendContribution s o = { s with net := s.net ++ [.orderedContribution o] })

/-! ## Parameter engines (R363-R369) -/

/-- R363, R416: EN = 1 loads the rule and the block table and starts every block with an empty intake, or sets ERR; values on their way make
the write wait; EN = 0 discards them, and refuses what is held. Corner cases of the settings are the model's reading (log entry 44). -/
def Parts.ParameterEngineControl : Prop :=
  ∀ (s : State) (e r : Nat) (v : Word) (rule : List Byte) (bs : FMap PeBlk), 7 ≤ s.bringup → e < 16 →
    let old := rdReg s (.peCfg e)
    let x := setBits (setBits (setBits (setBits (setBits old 60 2 (bits v 60 2)) 59 1 (bits v 59 1)) 32 16 (bits v 32 16))
      52 4 (bits v 52 4)) 0 32 (bits v 0 32)
    let bt := rdReg s (.peBtab e)
    let rv := bits (rdReg s (.peRule e)) 0 56
    let begun := wrReg s (.peCfg e) x
    let s1 := cpAsk begun (bits v 52 4) (wordVas rv 2048 ++ wordVas (bits bt 0 50 * 64) (64 * bits bt 51 13))
    let loaded := loadRule s1 (bits v 52 4) rv
    (bit old 63 = false → bit v 63 = true → bit v 62 = false →
      let table := readBlocks s1 e (bits v 52 4) (bits v 0 32) (bits bt 0 50 * 64) (List.range (bits bt 51 13));
      (loaded = .ok rule → intakeOk s1 e = true → table = .ok bs →
        ∃ t, exec (.peCfgEnSet e v) s = .next t ∧ mlook t.pes e = some { rule := rule, blocks := bs } ∧ rdReg t (.peCfg e) = setBits x 63 1 1 ∧
          (noLoss begun → ∀ r : Reg, r.rc = [] → r.key ≠ (Reg.peCfg e).key → rdReg t r = rdReg s r)) ∧
      (loaded = .error (some r) ∨ (loaded = .ok rule ∧ intakeOk s1 e = false) → ∃ t, exec (.peCfgEnSet e v) s = .next t ∧
        bit (rdReg t (.peCfg e)) 62 = true ∧ bit (rdReg t (.peCfg e)) 63 = false ∧
        (noLoss begun → t.pes = s.pes ∧ bytesStay s t ∧ otherRegsStay s t [.peCfg e])) ∧
      (loaded = .error none ∨ (loaded = .ok rule ∧ intakeOk s1 e = true ∧ table = .error none) → exec (.peCfgEnSet e v) s =
        .next { s1 with net := s1.net ++ [.registerWrite (Reg.peCfg e).pa { v := setBits (setBits x 62 1 0) 63 1 1 }] })) ∧
    (bit old 63 = true → bit v 63 = false → bit v 62 = false → ∃ t, exec (.peCfgEnClear e v) s = .next t ∧
      mlook t.pes e = (if (mget {} s.pes e).pushes = [] then none else some { pushes := (mget {} s.pes e).pushes }) ∧
      bit (rdReg t (.peCfg e)) 63 = false ∧ bytesStay s t ∧ otherRegsStay s t [.peCfg e] ∧
      ∀ b ∈ (mget {} s.pes e).blocks, ∀ h ∈ b.2.held, ∀ pod n, h.2.src = .peer pod n → (pod, .peerWriteAck n 0 false true) ∈ t.outbox)

/-- R366, R353: a contribution for the step under way or the next one is folded into the intake once and its sender told, an ordered one
when its rank is next; until then it is held, as far as there is room; one received already is counted and dropped; any other is refused and
counted. Which contribution is next and what is refused at EN = 0 is the model's reading (log entry 44). -/
def Parts.ParameterContributions : Prop :=
  ∀ (s u : State) (e b h st : Nat) (o : OrdContrib) (x : PeBlk) (variant : Nat) (sparse : Bool) (fl : Flags), e < 16 →
    let at_ := intakeAt (mget {} s.pes e) (o.key - (intakeWin s e).1)
    let d := (o.tag.toNat + 2 ^ 16 - x.step % 2 ^ 16) % 2 ^ 16
    let g := (x.step + d) % 2
    let fits : Prop := at_ = some (b, x, h) ∧ x.valid = true ∧ variant < 2 ∧ sparse = false ∧ h = o.tag.toNat % 2 ∧ o.data.length = x.nelem ∧
      o.ncon = x.ncon ∧ pgState s ≠ 5 ∧ pgState s ≠ 6 ∧ pgState s ≠ 8 ∧ pgState s ≠ 9
    let sts := rdReg s (.peSts e)
    let words := o.data.mapIdx fun i y => (((intakeWin s e).1 + x.intoff + 4 * g * x.nelem) / 4 + i, y)
    (fits → d < 2 → o.rank ∉ x.got g → variant = 0 → x.held = [] → combineAll s 0 o .none words = some (u, st, fl) →
      ∃ t, exec (.peContribution e o variant sparse) s = .next t ∧ (peBlock t e b).got g = x.got g ++ [o.rank] ∧
        (peBlock t e b).got (1 - g) = x.got (1 - g) ∧ (peBlock t e b).step = x.step ∧ t.mem = u.mem ∧ t.lvl = u.lvl ∧
        t.outbox = (contribDone u o st fl).outbox) ∧
    (let mine : PeBlk := { x.setGot g (x.got g ++ [o.rank]) with since := if d = 0 ∧ x.got g = [] then s.clk else x.since, held := [(g, o)] }
     let first := ((List.range 65536).find? fun r => !(x.got g).contains r).getD 65536
     let s1 := setBlock s e b mine
     fits → d < 2 → o.rank ∉ x.got g → variant = 1 → x.held = [] →
      (o.rank ≠ first ∨ combineAll s1 1 o .none words = none →
        (heldBytes s1 (e / 2) ≤ 4 * 2 ^ 20 → exec (.peContribution e o variant sparse) s = .next s1) ∧
        (4 * 2 ^ 20 < heldBytes s1 (e / 2) → exec (.peContribution e o variant sparse) s = .next (noRoom s o))) ∧
      (o.rank = first → combineAll s1 1 o .none words = some (u, st, fl) → u.pes = s1.pes →
        ∃ t, exec (.peContribution e o variant sparse) s = .next t ∧ (peBlock t e b).got g = x.got g ++ [o.rank] ∧ (peBlock t e b).held = [] ∧
          (peBlock t e b).step = x.step ∧ t.mem = u.mem ∧ t.lvl = u.lvl ∧ t.outbox = (contribDone u o st fl).outbox)) ∧
    (fits → d = 0xFFFF ∨ (d < 2 ∧ o.rank ∈ x.got g) → ∃ t, exec (.peContribution e o variant sparse) s = .next t ∧
      t = remoteDone (wrReg s (.peSts e) (bumpField sts 48 16 1)) o.src false ∧
      bits (rdReg t (.peSts e)) 48 16 = min 65535 (bits sts 48 16 + 1)) ∧
    (at_ = none ∨ (at_ = some (b, x, h) ∧ ¬ fits) ∨ (fits ∧ 2 ≤ d ∧ d ≠ 0xFFFF) → ∃ t, exec (.peContribution e o variant sparse) s = .next t ∧
      t = remoteDone (wrReg s (.peSts e) (bumpField sts 32 16 1)) o.src true ∧
      bits (rdReg t (.peSts e)) 32 16 = min 65535 (bits sts 32 16 + 1))

/-- R367, R369: a step whose contributions are all folded is applied in Running: the rule's outputs are the new masters and moments, the pushes
leave, the block's step moves on and its half is free again and zero; anything less changes nothing but the contributions whose rank has come,
the signals of earlier pushes, and what a read asks for. The steps at commit are recorded, and an abort goes back to them. That a step is
applied in one event is the model's choice (log entry 45). -/
def Parts.ParameterSteps : Prop :=
  ∀ (s : State) (e b : Nat) (i : PeIn),
    let s1 := foldTurns (sendPushes s e) e b
    let x := peBlock s1 e b
    let cfg := rdReg s1 (.peCfg e)
    let h := x.step % 2
    let w0 := ((intakeWin s1 e).1 + x.intoff + 4 * h * x.nelem) / 4
    let grads := (List.range x.nelem).map fun i => w0 + i
    let ready : Prop := bit cfg 63 = true ∧ x.valid = true ∧ x.full h = true ∧ pgState s1 = 2 ∧ peWriting s1 e = false
    let vas := vaWords x.master x.nelem ++ vaWords x.mom (2 * x.nelem) ++ vaWords x.hyp 8
    let seen := cpTouch (grads.foldl ownAsk (touchReads s1 grads)) (bits cfg 52 4) vas
    let runs := (chunksOf 16 i.es).mapIdx fun k es => ruleRun (ruleBundles (mget {} s1.pes e).rule) (bits cfg 60 2) (bit cfg 59) (16 * k) x.step i.hyp es
    let out := runs.flatMap (·.1)
    let ws := List.zip i.dst (out.map (·.a) ++ out.map (·.b) ++ out.map (·.c))
    let u := pePut seen e ws
    let marked := wrReg u (.peFlg e) (rdReg u (.peFlg e) ||| (runs.foldl (fun (f : Flags) (r : List PeElem × Flags) => f ||| r.2) 0).zeroExtend 64)
    let rnd (j : Nat) : Nat := (rngOf (rdReg marked (.peKey e) ^^^ BitVec.ofNat 64 x.step) (x.ebase + BitVec.ofNat 64 j)).toNat % 2 ^ 16
    let pushed := i.parts.foldl (fun t d => push t e (lanesToBytes (packOut x.ofmt rnd (out.map (·.d)))) d) marked;
    (¬ ready → exec (.peStepApply e b) s = .next s1) ∧
    (∀ r, ready → stepInputs s1 e x = .error r → exec (.peStepApply e b) s = .next (cpAsk (grads.foldl ownAsk s1) (bits cfg 52 4) vas)) ∧
    (ready → stepInputs s1 e x = .ok i → pgState u ≠ 2 → exec (.peStepApply e b) s = .next u) ∧
    (ready → stepInputs s1 e x = .ok i → pgState u = 2 →
      ∃ t, exec (.peStepApply e b) s = .next t ∧ (peBlock t e b).step = (x.step + 1) % 2 ^ 32 ∧ (peBlock t e b).got h = [] ∧
        (peBlock t e b).got (1 - h) = x.got (1 - h) ∧ (peBlock t e b).saved = x.saved ∧ (∀ a, rdByte t a = rdByte (zeroIntake pushed e x h) a) ∧
        t.net = (zeroIntake pushed e x h).net ∧ t.outbox = pushed.outbox ∧
        ((∀ j < x.nelem, intakeWin pushed e = intakeWin s1 e ∧ pokeReady pushed (w0 + j) = true ∧
            homeFind pushed (w0 + j) = .val (memWord pushed (w0 + j)) 0x2000 []) → ∀ j < x.nelem, memWord t (w0 + j) = ⟨0, false⟩)) ∧
    (noRing seen → (ws.map (·.1)).Nodup → pgState seen = 2 →
      (∀ n w z, ws[n]? = some (w, z) → let v := pePut seen e (ws.take n); hostBack v w = some v ∧ intakeOf v (4 * w) = none ∧ pgState v = 2 ∧
        ∃ v', homePerform v ⟨w, 15, z.v, z.p, .write, .pe e⟩ = .done v' 0 0) →
      ∀ y ∈ ws, memWord u y.1 = y.2) ∧
    (∀ y ∈ (peCommit s).pes, ∀ z ∈ y.2.blocks, z.2.saved = z.2.step) ∧
    (∀ e p, mlook (peAbort s).pes e = some p → ∀ z ∈ p.blocks, z.2.step = z.2.saved ∧ z.2.held = [] ∧ z.2.got0 = [] ∧ z.2.got1 = [])

/-- R367, R94: a push writes its image, byte for byte, as home writes of its engine, or sends it to the peer whose window the range lies in;
the signal of its entry waits for those writes. An entry whose range cannot be written counts in UND and does nothing else. Elements pass
unchanged with OFMT 0, and are converted in pairs, saturated and rounded at random, with OFMT 1 and 2. Poison of a described block, packing
without flushing and the place of signals are the model's reading (log entry 45). -/
def Parts.PushesWriteTheirImage : Prop :=
  ∀ (s : State) (e pa : Nat) (x : Word) (bs : List (Byte × Bool)) (rnd : Nat → Nat) (out : List Lane),
    (∃ t, push s e bs (x, none) = t ∧ bits (rdReg t (.peSts e)) 16 16 = min 65535 (bits (rdReg s (.peSts e)) 16 16 + 1) ∧
      otherRegsStay s t [.peSts e] ∧ bytesStay s t ∧ t.net = s.net ∧ t.outbox = s.outbox ∧ t.pes = s.pes) ∧
    (∃ hs : List HomeWr,
      (∀ w ∈ hs, w.op = .write ∧ w.src = .pe e ∧ ∀ j < 4, w.mask.getLsbD j = true → pa ≤ 4 * w.w + j ∧ 4 * w.w + j < pa + bs.length) ∧
      (∀ j < bs.length, ∃ w ∈ hs, w.w = (pa + j) / 4 ∧ w.mask.getLsbD ((pa + j) % 4) = true ∧
        w.data.toNat / 2 ^ (8 * ((pa + j) % 4)) % 256 = (bs.getD j (0, false)).1.toNat ∧ ((bs.getD j (0, false)).2 = true → w.poison = true)) ∧
      (isPeerPa pa = false → push s e bs (x, some [(pa, bs.length)]) =
        addPush (hs.foldl pePost s) e { pod := 64, sig := pushSignal e x, ids := [] }) ∧
      (isPeerPa pa = true → bs ≠ [] → push s e bs (x, some [(pa, bs.length)]) =
        peerWrite (addPush s e { pod := peerPod pa, sig := pushSignal e x, ids := [s.nextPeer] }) (peerPod pa)
          (.words (hs.map fun w => { w with w := peerWord (4 * w.w) })) (.pe e))) ∧
    packOut 0 rnd out = out ∧
    (∀ f ∈ [(1, fB16), (2, fF16)], ∀ (j : Nat) (a c : Lane), out[2 * j]? = some a → out[2 * j + 1]? = some c →
      let half (n : Nat) (z : Lane) : Nat := (cvtFloat fF32 f.2 { mode := .stoch (rnd n), ftz := false, sat := true } z.v.toNat).1
      (packOut f.1 rnd out)[j]? = some ⟨BitVec.ofNat 32 (half (2 * j) a + half (2 * j + 1) c * 65536), a.p || c.p⟩)

/-- R368: a block that waits for contributions of its step past the timeout posts an event that names the block, its step, how many are
missing and the lowest missing rank. From when the timeout counts is the model's reading (log entry 45). -/
def Parts.ParameterTimeout : Prop :=
  ∀ (s : State) (e b : Nat),
    let x := peBlock s e b
    let got := x.got (x.step % 2)
    let tmo := bits (rdReg s (.peCfg e)) 32 16 * 65536
    (tmo ≠ 0 → x.valid = true → got ≠ [] → got.length < x.ncon → x.since + tmo ≤ s.clk → ∃ t data low, exec (.peStepTimeout e b) s = .next t ∧
      t = evPost (setBlock s e b { x with since := x.since + tmo }) 7 e data ∧ (peBlock t e b) = { x with since := x.since + tmo } ∧
      bits data 52 12 = b % 2 ^ 12 ∧ bits data 36 16 = x.step % 2 ^ 16 ∧ bits data 28 8 = (x.ncon - got.length) % 2 ^ 8 ∧ bits data 22 6 = low % 64 ∧
      low ∉ got ∧ ∀ r < low, r ∈ got) ∧
    (tmo = 0 ∨ x.valid = false ∨ got = [] ∨ x.ncon ≤ got.length ∨ s.clk < x.since + tmo → exec (.peStepTimeout e b) s = .next s)

/-! ## Power, service and bring-up (R400-R415) -/

/-- R400, R402-R405: BUDGET is at least 16 and SWAL not 0; a profile sets every core's pair; a window ends with empty sums, the settings in force,
and ballast on an idle core that holds the fall of the package's sum. Stores reach these registers at their PAs: that two rules give some of
these PAs to fault registers is settled by log entry 40, which core runs the ballast by log entry 85, both the model's choices. -/
def Parts.PowerSettings : Prop :=
  ∀ (s : State) (k : Nat) (v : Word),
    let n := v.toNat
    (k < 128 → ∃ t, exec (.pwrCoreWrite k v) s = .next t ∧
      rdReg t (.pwrCore k) = BitVec.ofNat 64 (max 16 (n / 2 ^ 16 % 2 ^ 16) * 65536 + max 1 (n % 2 ^ 16)) ∧ otherRegsStay s t [.pwrCore k] ∧
      bytesStay s t) ∧
    (k < 128 → k ≠ 1 ∨ bits v 62 2 = 0 → exec (.registerWrite (Reg.pwrCore k).pa { v := v }) s = exec (.pwrCoreWrite k v) s) ∧
    (exec (.registerWrite Reg.pwrProf.pa { v := v }) s = exec (.pwrProfWrite v) s) ∧
    (bits v 62 2 = 0 → ∃ t, exec (.registerWrite Reg.pwrRamp.pa { v := v }) s = .next t ∧ bits (rdReg t .pwrRamp) 0 32 = n % 2 ^ 32 ∧
      bit (rdReg t .pwrRamp) 63 = bit (rdReg s .pwrRamp) 63 ∧ otherRegsStay s t [.pwrRamp] ∧ bytesStay s t) ∧
    (∀ e ∈ [(0, 0x7BC0FFFF), (1, 0x3C00FFFF), (2, 0x1E00EEEE), (3, 0x08008888)], n % 8 = e.1 → ∃ t, exec (.pwrProfWrite v) s = .next t ∧
      (∀ j < 128, rdReg t (.pwrCore j) = BitVec.ofNat 64 e.2) ∧ t.cores = s.cores ∧ bytesStay s t) ∧
    (4 ≤ n % 8 → exec (.pwrProfWrite v) s = .next s) ∧
    (let sum := (s.cores.map fun c => c.2.esum).sum
     let ramp := bits (rdReg s .pwrRamp) 0 32
     let floor := s.lastW - ramp
     let ends := s.clk / 64 - s.winN
     (ends = 0 → exec .powerWindow s = .next s) ∧
     (ends ≠ 0 → ∃ t, exec .powerWindow s = .next t ∧ t.winN = s.clk / 64 ∧ bytesStay s t ∧ otherRegsStay s t [.pwrRamp] ∧
       (idleCore s = none → t.lastW = (if ends = 1 then sum else 0) ∧ bit (rdReg t .pwrRamp) 63 = false ∧ t.ballast = none) ∧
       (∀ j, idleCore s = some j → (core s j).task = none ∧ j ∉ s.retired ∧ t.lastW = max sum floor - (ends - 1) * ramp ∧
         bit (rdReg t .pwrRamp) 63 = (if ends = 1 then decide (sum < floor) else decide (0 < t.lastW)) ∧
         t.ballast = if bit (rdReg t .pwrRamp) 63 then some j else none) ∧
       (∀ j c, mlook s.cores j = some c → (core t j) = { c with
         esum := 0, swal := (rdReg s (.pwrCore j)).extractLsb' 0 16, budget := bits (rdReg s (.pwrCore j)) 16 16 }) ∧
       ∀ j < 128, (core t j).swal = (rdReg s (.pwrCore j)).extractLsb' 0 16 ∧ (core t j).budget = bits (rdReg s (.pwrCore j)) 16 16 ∧
         (core t j).esum = 0))

/-- R406, R407: an emergency stops every context, takes a member that prepares out of its group and asks for replacement; at 18 ms what is
not saved ends with CODE 4, at 20 ms the compute part is off and the stacks keep themselves; after cooling it comes up with its self-test,
and the stacks are active again. Which cores fail the self-test is a free value (log entry 86). What the emergency stops and which images it
keeps is the model's reading (log entry 47). -/
def Parts.ThermalEmergency : Prop :=
  ∀ (s : State),
    let t18 : Prop := thmState s = 1 ∧ s.emergClk ≠ 0 ∧ s.emergClk - 1 + 43200000 ≤ s.clk
    let t20 : Prop := thmState s = 1 ∧ s.emergClk ≠ 0 ∧ s.emergClk - 1 + 48000000 ≤ s.clk
    let power (u : State) (i : Nat) : Nat := bits (rdReg u (.hbmSts i)) 0 3
    let endsUnsaved (t : State) : Prop := ∀ i x, mlook s.tasks i = some x → x.ended = none →
      x.st = .running ∨ x.st = .setup ∨ x.st = .saving → (mlook t.tasks i).map (·.ended) = some (some (4, 0))
    (thmState s = 0 → ∃ t, exec .thermalEmergency s = .next t ∧ thmState t = 1 ∧ bit (rdReg t .thmSts) 63 = true ∧ t.emergClk = s.clk + 1 ∧
      (∀ x < 16, x ∈ t.ctxStop) ∧ bit (rdReg t .replSts) 4 = true ∧ bit (rdReg t .replSts) 63 = true ∧ (preparing s = true → pgState t = 8)) ∧
    (thmState s ≠ 0 → exec .thermalEmergency s = .next s) ∧
    (t18 → ∃ t, exec .emergencySaveTimeout s = .next t ∧ bytesStay s t ∧ endsUnsaved t) ∧
    (¬ t18 → exec .emergencySaveTimeout s = .next s) ∧
    (t20 → ∃ t, exec .emergencyRailsOff s = .next t ∧ thmState t = 2 ∧ bytesStay s t ∧ endsUnsaved t ∧ (∀ k, (core t k).seqs = [] ∧
      (core t k).l1 = [] ∧ (core t k).task = none ∧ (core t k).spm = []) ∧ (∀ i < 16, power t i = if power s i = 4 then 4 else 3)) ∧
    (¬ t20 → exec .emergencyRailsOff s = .next s) ∧
    (thmState s = 2 → ∃ t, exec .cooldownComplete s = .next t ∧ thmState t = 3 ∧ bytesStay s t ∧ otherRegsStay s t [.thmSts]) ∧
    (thmState s = 3 → noRing s → ∃ t, exec .cooldownComplete s = .next t ∧ thmState t = 0 ∧ t.emergClk = 0 ∧ bytesStay s t ∧
      (∀ i < 16, power t i = if power s i = 3 then 0 else power s i) ∧
      ∀ k, (Config.failedCores s.fresh).getLsbD k = false → (k ∈ t.retired ↔ k ∈ s.retired)) ∧
    (thmState s ≠ 2 → thmState s ≠ 3 → exec .cooldownComplete s = .next s)

/-- R408, R409: the emergency area moves only while no context is enabled and it is empty; a restore brings a context's images back to the
save areas. The size of an image in the area is the model's reading (log entry 47). -/
def Parts.EmergencyArea : Prop :=
  ∀ (s : State) (v : Word),
    let free : Prop := bits v 0 20 + bits v 32 20 ≤ 0xC0000 ∧ (∀ x < 16, bit (rdReg s (.ctxCfg x)) 63 = false) ∧ s.emerg = []
    let res := rdReg s .thmRes
    let mine := emergOf s (bits v 0 4)
    (free → ∃ t, exec (.thmAreaWrite v) s = .next t ∧ bits (rdReg t .thmArea) 0 20 = bits v 0 20 ∧ bits (rdReg t .thmArea) 32 20 = bits v 32 20 ∧
      otherRegsStay s t [.thmArea] ∧ bytesStay s t) ∧
    (¬ free → ∃ t, exec (.thmAreaWrite v) s = .next t ∧ bits (rdReg t .thmArea) 0 20 = bits (rdReg s .thmArea) 0 20 ∧
      bits (rdReg t .thmArea) 32 20 = bits (rdReg s .thmArea) 32 20 ∧ bit (rdReg t .thmArea) 31 = true) ∧
    (bit v 63 = true → thmState s = 0 → bit res 62 = false → mine ≠ [] → ∃ t, exec (.thmResGo v) s = .next t ∧ t.resCtx = bits v 0 4 ∧
      bit (rdReg t .thmRes) 62 = true ∧ t.saves = s.saves ∧ bytesStay s t) ∧
    (bit v 63 = true → thmState s ≠ 0 ∨ bit res 62 = true ∨ mine = [] → ∃ t, exec (.thmResGo v) s = .next t ∧ bit (rdReg t .thmRes) 61 = true ∧
      t.saves = s.saves ∧ t.emerg = s.emerg ∧ t.resCtx = s.resCtx) ∧
    (bit res 62 = true → ∃ t, exec .thmResDone s = .next t ∧ t.saves = s.saves ++ emergOf s s.resCtx ∧ bit (rdReg t .thmRes) 62 = false ∧
      (∀ i ∈ t.emerg, i ∉ emergOf s s.resCtx) ∧ bytesStay s t) ∧
    (bit res 62 = false → exec .thmResDone s = .next s)

/-- R3, R410, R411: a core that is free is retired; the unused spare of its chiplet takes its number, else the number goes out of service
and replacement is requested; a rail fault requests it too. That owned words come home first, and the numbers of error-log kinds, are the
model's choices (log entries 48, 52). -/
def Parts.RetirementAndReplacement : Prop :=
  ∀ (s : State) (v : Word),
    let r := rdReg s .coreRet
    let k := bits r 0 7
    let free : Prop := (core s k).task = none ∧ (∀ i ∈ s.saves ++ s.emerg, i.core ≠ k) ∧ (core s k).outst = [] ∧ ownedIn (core s k) (-1) = []
    (bit v 7 = true → bit r 63 = false → ∃ t, exec (.coreRetGo v) s = .next t ∧ bits (rdReg t .coreRet) 0 7 = bits v 0 7 ∧
      bit (rdReg t .coreRet) 63 = true ∧ otherRegsStay s t [.coreRet]) ∧
    (bit r 63 = true → exec (.coreRetGo v) s = .next s) ∧
    (bit r 63 = true → free → k ∉ s.retired → chipOf k ∉ s.sparesUsed → ∃ t, exec .coreRetirement s = .next t ∧ bit (rdReg t .coreRet) 63 = false ∧
      t.sparesUsed = s.sparesUsed ++ [chipOf k] ∧ t.retired = s.retired ∧ (core t k).seqs = [] ∧ (core t k).l1 = [] ∧ bytesStay s t) ∧
    (bit r 63 = true → free → k ∉ s.retired → chipOf k ∈ s.sparesUsed → ∃ t, exec .coreRetirement s = .next t ∧ bit (rdReg t .coreRet) 63 = false ∧
      t.retired = s.retired ++ [k] ∧ bit (rdReg t .replSts) 2 = true) ∧
    (bit r 63 = false ∨ (core s k).task ≠ none → exec .coreRetirement s = .next s) ∧
    (∃ t, exec .pdRailFault s = .next t ∧ bit (rdReg t .replSts) 7 = true ∧ bit (rdReg t .replSts) 63 = true)

/-- R412-R414: a firmware record enters the log, and is rejected unless its digest is its image's, its signature verifies, and it is not
older than the active version; at a quiescent point the newest accepted record of the module in turn becomes active; a quote binds its nonce
to the active digests, the fuses and the map of retirements; the oldest error record is merged into its kind's total. How the digest and the
signature are computed and where they stand in a record is free (log entry 4). How the log is merged is the model's reading (log entry 49).
-/
def Parts.FirmwareAttestationLog : Prop :=
  ∀ (s : State) (m ver : Nat) (image : List Byte) (nonce : BitVec 512) (r : LogRec) (l : List LogRec) (f : FwRec) (fs : List FwRec),
    let x := fwRecord m ver image
    let good : Prop := x.digest = Config.sha512 x.image ∧ Config.firmwareSigned x.digest m ver x.sig = true ∧
      ∀ a, mlook s.fwActive m = some a → a ≤ ver
    let first : Prop := s.fwSwap = some m ∧ quiescent s = true
    (x.m = m ∧ x.ver = ver ∧ x.image = image.take (image.length - 196)) ∧
    (good → exec (.firmwareRecordAppend m ver image) s =
      .next { s with fw := s.fw ++ [{ x with rejected := false }], fwSwap := s.fwSwap.or (some m) }) ∧
    (¬ good → ∃ t, exec (.firmwareRecordAppend m ver image) s = .next t ∧ t.fw = s.fw ++ [{ x with rejected := true }] ∧
      t.fwSwap = s.fwSwap ∧ t.fwActive = s.fwActive ∧ bit (rdReg t .replSts) 5 = true) ∧
    (first → (s.fw.filter fun x => x.m = m && !x.rejected) = fs ++ [f] → ∃ t, exec (.firmwareActivate m) s = .next t ∧
      mlook t.fwActive m = some f.ver ∧ (∀ j, j ≠ m → mlook t.fwActive j = mlook s.fwActive j) ∧ bytesStay s t ∧
      (∀ j, t.fwSwap = some j → fwDue t j = true)) ∧
    (¬ first → exec (.firmwareActivate m) s = .next s) ∧
    (∃ t, exec (.attestationQuote nonce) s = .next t ∧ bytesStay s t ∧ t.cores = s.cores ∧
      t.quotes = s.quotes ++ [(nonce, Config.quoteSignature nonce (activeDigests s) Config.fuses (retiredMap s) s.fresh)]) ∧
    (s.errLog = r :: l → ∃ t, exec .errorLogMerge s = .next t ∧ t.errLog = l ∧ mget 0 t.logTotals r.kind = mget 0 s.logTotals r.kind + 1 ∧
      ∀ j, j ≠ r.kind → mget 0 t.logTotals j = mget 0 s.logTotals j)

/-- R415: a cold reset of a module in service leaves flash, firmware, the error log and the retirements, and takes every register to its
reset value; bring-up then goes on step by step behind the check of its firmware: its third step trains the stacks, its fourth tests the
cores, its sixth writes the scope table. The outcome of training and self-test is a free value (log entry 86). What a cold reset keeps and
what unwritten memory reads as is the model's choice (log entries 49, 1). -/
def Parts.ColdResetAndBringup : Prop :=
  ∀ (s : State),
    (7 ≤ s.bringup → ∃ t, exec .coldReset s = .next t ∧ t.bringup = 0 ∧ (∀ r : Reg, rdReg t r = r.reset) ∧ t.cores = [] ∧ t.lvl = [] ∧
      t.tasks = [] ∧ t.queues = [] ∧ t.fw = s.fw ∧ t.fwActive = s.fwActive ∧ t.errLog = s.errLog ∧ t.retired = s.retired ∧ t.flashW = s.flashW ∧
      ∀ a, rdByte t a = if isFlashPa a = true then rdByte s a else 0) ∧
    (s.bringup < 7 → s.bringup ≠ 0 ∨ fwOk s = true →
      (s.bringup ≠ 2 → s.bringup ≠ 3 → s.bringup ≠ 5 → exec .coldReset s = .next { s with bringup := s.bringup + 1 }) ∧
      (s.bringup = 2 → noRing s → ∃ t, exec .coldReset s = .next t ∧ t.bringup = 3 ∧ t.cores = s.cores ∧ bytesStay s t ∧
        ∀ i, (∀ key, key / 64 = i → Config.badLane s.fresh key = none) → i < 16 → rdReg t (.hbmSts i) = rdReg s (.hbmSts i)) ∧
      (s.bringup = 3 → noRing s → ∃ t, exec .coldReset s = .next t ∧ t.bringup = 4 ∧ bytesStay s t ∧
        ∀ k < 128, k ∈ t.retired ↔ k ∈ s.retired ∨ ((Config.failedCores s.fresh).getLsbD k = true ∧
          (chipOf k ∈ s.sparesUsed ∨ ∃ j < k, chipOf j = chipOf k ∧ j ∉ s.retired ∧ (Config.failedCores s.fresh).getLsbD j = true))) ∧
      (s.bringup = 5 → ∃ t, exec .coldReset s = .next t ∧ t.bringup = 6 ∧ t.dev = s.dev ∧ t.cores = s.cores ∧ podSize t = 1 ∧ podIdx t = 0 ∧
        ∀ a, a < fixedPa ∨ fixedPa + 576 ≤ a → rdByte t a = rdByte s a)) ∧
    (s.bringup = 0 → fwOk s = false → exec .coldReset s = .next s)

/-- R70, R71, R346: when the pods form, the scope table tells the module's index and the pod's size. -/
def Parts.PodFormWritesTheScopeTable : Prop :=
  ∀ (s : State) (idx size : Nat), 6 ≤ s.bringup →
    (size ≤ 64 → idx < size → ∃ t, exec (.podForm idx size) s = .next t ∧ podSize t = size ∧ podIdx t = idx ∧ rdLe t fixedPa 4 = 1 ∧
      rdLe t (fixedPa + 4) 2 = 7 ∧ rdLe t (fixedPa + 6) 2 = 64 ∧
      (∀ l < 7, rdLe t (fixedPa + 64 + 64 * l) 1 = 1 ∧ rdLe t (fixedPa + 64 + 64 * l + 1) 1 = l ∧
        rdLe t (fixedPa + 64 + 64 * l + 2) 2 = [4096, 128, 16, 8, 2, 1, 1].getD l 0 ∧
        rdLe t (fixedPa + 64 + 64 * l + 4) 4 = [1, 32, 256, 512, 2048, 4096, 4096 * size].getD l 0) ∧
      (∀ a, a < fixedPa ∨ fixedPa + 576 ≤ a → rdByte t a = rdByte s a) ∧ t.dev = s.dev) ∧
    (64 < size ∨ size ≤ idx → exec (.podForm idx size) s = .next s)

/-! ## Encoding, the step, invariants, reset -/

/-- R190, R191, R194-R202: the bundle that holds one well-formed slot decodes to exactly it, with its length, weight and marks. -/
def Parts.EncodedInstructionsDecode : Prop :=
  ∀ (i : Instr) (wt : BitVec 4), i.wf = true → (encodeSlot i).isSome = true →
    decodeBundle 0 (encode i wt) = .ok ⟨2 + slotBytes (homeSlot i), false, false, wt.toNat, [(homeSlot i, i)]⟩ ∧
    (∀ n, decodeTableWord n (leNat (encode i wt)) = some i)

/-- R193, R203, R222: what a slot decodes to is well formed, and no two words of a slot have one meaning. -/
def Parts.DecodedWordsEncodeBack : Prop :=
  ∀ (slot x : Nat) (i : Instr), slot < 8 → x < 2 ^ (8 * slotBytes slot) → decodeSlot slot x = .ok i →
    i.wf = true ∧ encodeSlot i = some (slotCls slot, x)

/-- R315: micro-words and micro-operations are the same things. -/
def Parts.MicroWordsRoundTrip : Prop :=
  ∀ (i : Instr) (x : Nat), x < 2 ^ 64 → ((decodeMicro x = .ok i) ↔ (i.wf = true ∧ encodeMicro i = some x))

/-- The words that the spec writes out decode to what it says they are. -/
def Obligations.WrittenWordsDecode : Prop :=
  decodeSlot 0 0x04061870 = .ok (.add ⟨0, 6, 6, 7⟩) ∧ decodeSlot 2 0x10440420 = .ok (.vfma ⟨1, 4, 1, 2⟩ .f32) ∧
  decodeSlot 6 0x0409140200000040 = .ok (.ld ⟨0, 9, 5, 0, .n32, 0x40⟩) ∧ decodeSlot 0 0x90000000 = .ok (.loop ⟨0, 0⟩) ∧
  decodeSlot 0 0x0E040820 = .ok (.mul ⟨8, 4, 2, 2⟩) ∧ decodeSlot 1 0x06451440 = .ok (.add ⟨9, 5, 5, 4⟩) ∧
  decodeSlot 4 0x70C70420 = .ok (.vxlane ⟨3, 7, 1, 2⟩) ∧ decodeSlot 5 0x18051A41 = .ok (.fsin ⟨0, 5, 6, .vector 2⟩ true) ∧
  decodeSlot 6 0x1C87105200000100 = .ok (.vgather ⟨2, 7, 4, 5, .n32, 0x100⟩) ∧
  decodeSlot 6 0x6400000060000001 = .ok (.acq ⟨0, 0, true⟩ 3) ∧ decodeSlot 6 0x980A000200000000 = .ok (.tcfgM2 0 10 0) ∧
  decodeSlot 6 0x8000000000000051 = .ok (.mcall 0 0 ⟨0, 0, 5, 1⟩) ∧ decodeMicro 0x18EF000000000000 = .ok (.lxMac 239) ∧
  decodeMicro 0x2D90000000000000 = .ok (.lxSetk 1 (.m 1 false 0)) ∧
  decodeBundle 0 [0x45, 0x04, 0x70, 0x18, 0x06, 0x04, 0x20, 0x04, 0x44, 0x10, 0x40, 0x00, 0x00, 0x00, 0x02, 0x14, 0x09, 0x04] =
    .ok ⟨18, false, false, 4, [(0, .add ⟨0, 6, 6, 7⟩), (2, .vfma ⟨1, 4, 1, 2⟩ .f32), (6, .ld ⟨0, 9, 5, 0, .n32, 0x40⟩)]⟩

/-- R73, R180-R184, R192, R193, R205, R206, R210, R238, R400-R402: what a step does when the schedule names a sequencer that has not had its
turn in this clk: its next bundle, cut from the bytes at its pc and decoded, performs slot by slot through exec, the S, V and F slots, the loads
of M0 and M1, then the rest; then the sequencer moves behind it, or to its pending transfer's target; where one slot raises something, none of
them has performed. -/
def Parts.StepRunsTheDecodedBundle : Prop :=
  ∀ (s : State) (k q : Nat) (rest : List Pick), (settleLevels (advance s)).script = .seq k q :: rest →
    let s1 : State := { settleLevels (advance s) with script := rest }
    let turn : Prop := delivered s1 k = true ∧ mget 0 s1.clkSeq k ≤ q
    let ahead := before s1 k q
    (∀ t b, turn → prepareBundle s1 k q = (t, some b) → fits t k ahead b.raw.weight = true → step s = issueBundle t k q b) ∧
    (¬ turn → step s = .next s1) ∧
    (∀ t b, turn → prepareBundle s1 k q = (t, some b) → fits t k ahead b.raw.weight = false → step s = .next t) ∧
    (∀ t, turn → prepareBundle s1 k q = (t, none) →
      step s = .next (if (seqOf t k q).waits.length = (seqOf s1 k q).waits.length then t else tookTurn t k q)) ∧
    (∀ (t : State) n w, fits t k n w = decide ((core t k).esum + n + w ≤ (core t k).budget)) ∧
    ((core s1 k).esum + 15 * 33 ≤ (core s1 k).budget → ahead = 0) ∧
    (∀ t b link u, linkOf t k q b (b.pc + BitVec.ofNat 64 b.raw.len) = some link →
      runSlots (issueOrder b.slots) (beginBundle t k q b link) = .next u →
      (u.raised = none → issueBundle t k q b = .next (closeBundle { u with cur := {} } k q (seqOf t k q) b)) ∧
      (∀ m r, u.raised = some (m, r) → issueBundle t k q b = .next (raiseAt { t with cur := {}, raised := none } k q b.pc r))) ∧
    (∀ t u, runSlots [] t = .next u ↔ u = t) ∧
    (∀ n i l t u, runSlots ((n, i) :: l) t = .next u ↔
      ∃ v, exec i { t with cur := { t.cur with slot := n } } = .next v ∧ runSlots l v = .next u) ∧
    (∀ l : List (Nat × Instr),
      let low := l.filter fun x => x.1 < 6
      let reads := l.filter fun x => 6 ≤ x.1 && isRead x.2
      let others := l.filter fun x => 6 ≤ x.1 && !isRead x.2
      (issueOrder l).Perm l ∧
      ((∀ x ∈ l, x.1 = 6 → isAcquire x.2 = false) → issueOrder l = low ++ reads ++ others) ∧
      (∀ a m, l = low ++ [(6, a), (7, m)] → isAcquire a = true → issueOrder l = l)) ∧
    (∀ (t : State) b (link : Word × Bool), let u := beginBundle t k q b link;
      u.cur.core = k ∧ u.cur.seq = q ∧ u.cur.pc = b.pc ∧ u.cur.next = b.pc + BitVec.ofNat 64 b.raw.len ∧ u.cur.link = link.1 ∧
      u.raised = none ∧ u.mem = t.mem ∧ u.dev = t.dev ∧ sameRegisters (seqOf u k q) (seqOf t k q) ∧ (seqOf u k q).infl = (seqOf t k q).infl) ∧
    (∀ t b, linkOf t k q b (b.pc + BitVec.ofNat 64 b.raw.len) = none → issueBundle t k q b = .next (raiseAt t k q b.pc .stall)) ∧
    (∀ (t : State) b next, (∀ x ∈ b.slots, isLinking x.2 = false) → linkOf t k q b next = some (next, false)) ∧
    (∀ (t : State) b next pc, (∃ x ∈ b.slots, isLinking x.2 = true) → headAfter t k q allLines 3 next = .at_ pc →
      linkOf t k q b next = some (pc, false)) ∧
    (mayIssue s1 k q = true → (seqOf s1 k q).waits = [] → dueReady (seqOf s1 k q) = true →
      let s2 := modSeq s1 k q landDue
      let s3 := modSeq (skipPads k q allLines s2 (seqOf s2 k q).pc).1 k q fun x => { x with pc := (skipPads k q allLines s2 (seqOf s2 k q).pc).2 }
      let pc := (skipPads k q allLines s2 (seqOf s2 k q).pc).2
      ∀ raw head region ws sl, (seqOf s2 k q).boundary = [] → (seqOf s2 k q).ending = none →
        (seqOf (installCode s3 k region ws) k q).xfer = none → raw.hold = false →
        fetchAt s3 k q pc = .bundle raw head region ws → decodeSlots raw.slots = .ok sl →
        prepareBundle s1 k q = (modSeq (installCode s3 k region ws) k q (fun x => { x with relink := none }), some ⟨pc, raw, sl⟩)) ∧
    (∀ (t : State) (pc : Word) pa a hw ws raw, bit pc 0 = false → fetchPage t k q pc pc = .ok (pa, a) → codeAt t k q pa pc.toNat 2 = .ok hw →
      leNat (codeBytes pa 2 hw) ≠ 0 → pc.toNat % 64 + 2 + slotsLen (leNat (codeBytes pa 2 hw) % 256) (List.range 8) ≤ 64 →
      codeAt t k q pa pc.toNat (2 + slotsLen (leNat (codeBytes pa 2 hw) % 256) (List.range 8)) = .ok ws →
      rawBundle (pc.toNat % 64) (codeBytes pa (2 + slotsLen (leNat (codeBytes pa 2 hw) % 256) (List.range 8)) ws) = .ok raw →
      fetchAt t k q pc = .bundle raw (leNat (codeBytes pa 2 hw)) a.region ws)

/-- R181, R206, R208, R209, R244: behind a bundle the pc moves by its length, or to the target once three delay slots are over; results count
one bundle time and stand in the order of their slots, so that the higher slot's lands last; a STOP bundle ends the sequencer once they have
landed. -/
def Parts.BundlesFollowInSequence : Prop :=
  ∀ (before x : Seq) (b : Ready),
    let y := closeSeq before b x
    let next := b.pc + BitVec.ofNat 64 b.raw.len
    (b.raw.stop = false → before.xfer = none → y.pc = next ∧ y.ending = x.ending) ∧
    (b.raw.stop = false → ∀ n t, before.xfer = some ⟨n + 2, t⟩ → y.pc = next ∧ y.xfer = some ⟨n + 1, t⟩) ∧
    (b.raw.stop = false → ∀ t, before.xfer = some ⟨1, t⟩ → y.pc = t.getD next ∧ y.xfer = none) ∧
    (b.raw.stop = true → y.pc = next ∧ y.xfer = none ∧ y.ending = some .stop) ∧
    y.s = x.s ∧ y.v = x.v ∧ y.p = x.p ∧ y.q = x.q ∧ y.m = x.m ∧ y.mode = x.mode ∧
    (∀ f ∈ y.infl, ∃ g ∈ x.infl, f = { g with rem := g.rem - 1 }) ∧
    (∀ (n : Nat) (l : List InFlight), (∀ f ∈ l, f.slot < 8) → (bySlot n l).Perm l ∧ (bySlot n l).take n = l.take n ∧
      ((bySlot n l).drop n).Pairwise fun f g => f.slot ≤ g.slot)

/-- The memory keeps its canonical form: every step, whatever it does. -/
def Obligations.StepKeepsMemoryCanonical : Prop :=
  ∀ (s t : State), Memory.wf s.mem = true → step s = .next t → Memory.wf t.mem = true

/-- The memory after reset has it (the model's empty memory, log entry 1). -/
def Parts.ResetMemoryCanonical : Prop := Memory.wf State.reset.mem = true

/-- R61, R99, R141, R142, R188, R342, R347, R349, R400, R404, R408, R415: after reset every register holds its reset value, no bring-up step is done,
no core has a task, nothing is on its way. -/
def Parts.ResetRegisters : Prop :=
  (∀ r : Reg, rdReg State.reset r = r.reset) ∧
  Reg.ownTmo.reset = 0x960 ∧ (∀ i, (Reg.hbmSts i).reset = 0x40 * 2 ^ 48) ∧ Reg.pgJrn.reset = 0xE0 * 2 ^ 48 ∧
  Reg.pgTmo.reset = 0x40 * 2 ^ 32 + 0x80 * 2 ^ 16 + 0x100 ∧ (∀ k, (Reg.wdgCfg k).reset = 2 ^ 32 + 0x8F0D) ∧
  Reg.schCfg.reset = 0x10 * 2 ^ 16 + 2 * 2 ^ 2 + 2 ∧ (∀ p, (Reg.lnkCfg p).reset = 2 ^ 63) ∧ Reg.fabCfg.reset = 0x40 * 2 ^ 40 + 0x258 ∧
  (∀ k, (Reg.pwrCore k).reset = 0x7BC0 * 2 ^ 16 + 0xFFFF) ∧ Reg.pwrRamp.reset = 0x10000 ∧ Reg.thmArea.reset = 0x1000 * 2 ^ 32 + 0xBF000 ∧
  Reg.pgCfg.reset = 0 ∧ Reg.pgSts.reset = 0 ∧ (∀ q, (Reg.qCfg q).reset = 0) ∧ (∀ x, (Reg.ctxCfg x).reset = 0) ∧ Reg.evqCfg.reset = 0 ∧
  State.reset.bringup = 0 ∧ State.reset.clk = 0 ∧ (∀ k, (core State.reset k).task = none) ∧ State.reset.lvl = [] ∧ State.reset.net = [] ∧
  State.reset.tasks = []

/-- R1, R105, R188, R240, R402, R415: time passes at every step, and never runs back but at a cold reset; as it passes, memory and the
sequencers' registers stay and waits on events that have come end, where no write to a peer is under way and the module is in no group. -/
def Parts.TimePasses : Prop :=
  ∀ (s : State), (advance s).clk = s.clk + s.pace.headD 1 ∧ (advance s).script = s.script ∧ (advance s).pace = s.pace.tail ∧
    (s.pace.headD 1 = 0 → advance s = { s with pace := s.pace.tail }) ∧
    (s.pace.headD 1 ≠ 0 → s.peerOut = [] → pgMember s = false → (advance s).mem = s.mem ∧ (advance s).net = s.net ∧
      (advance s).regNow = [] ∧ (advance s).clkSeq = [] ∧
      ∀ k q, let x := seqOf s k q
        seqOf (advance s) k q = if x.evp = true ∧ .wfe ∈ x.waits then { x with evp := false, waits := x.waits.erase .wfe } else x)

/-! ## Rules stated whole -/

/-- R228: the words of predicate logic, what they name, and their two special uses. -/
def Parts.PredicateLogicWords : Prop :=
  ∀ (slot sub z y x : Nat) (g d a b : BitVec 4) (s : State), slot < 2 → sub < 16 → z < 4 → y < 4 → x < 4 →
    let w := 0x1E * 2 ^ 26 + g.toNat * 2 ^ 22 + z * 2 ^ 20 + d.toNat * 2 ^ 16 + y * 2 ^ 14 + a.toNat * 2 ^ 10 + x * 2 ^ 8 + b.toNat * 2 ^ 4 + sub
    let f : SPred := ⟨g, d, a, b⟩
    (z = 0 → y = 0 → x = 0 → ∀ i, [Instr.pand f, .por f, .pxor f, .pandn f][sub]? = some i → decodeSlot slot w = .ok i) ∧
    (z ≠ 0 ∨ y ≠ 0 ∨ x ≠ 0 ∨ 4 ≤ sub → ∃ e, decodeSlot slot w = .error e) ∧
    exec (.por ⟨g, d, 0, 0⟩) s = .next (underGuard s g (result s 1 [.pred d.toNat true])) ∧
    exec (.pandn ⟨g, d, 0, 0⟩) s = .next (underGuard s g (result s 1 [.pred d.toNat false]))

/-- R199: s0 reads as zero, p0 as 1, q0 as all ones; what lands on them is discarded; a compare with pf = p0 writes only pt. -/
def Obligations.HardwiredRegisters : Prop :=
  ∀ (x : Seq) (v : Word) (p b : Bool) (m : BitVec 16) (pt : BitVec 4),
    rdS x 0 = ⟨0, false⟩ ∧ rdP x 0 = true ∧ rdQ x 0 = 0xFFFF ∧
    (∀ r, rdS (applyW x (.s 0 v p)) r = rdS x r) ∧ (∀ n, rdP (applyW x (.pred 0 b)) n = rdP x n) ∧
    (∀ n, rdQ (applyW x (.q 0 m)) n = rdQ x n) ∧
    (∀ n, rdP (applyW (applyW x (.pred 0 (!b))) (.pred pt.toNat b)) n = if n = pt ∧ n ≠ 0 then b else rdP x n) ∧
    ∀ e ∈ compareTable, ∀ (f : SCmp) (s : State), f.pf = 0 → rdP (me s) f.g = true → (rdS (me s) f.a).p = false → (rdS (me s) f.b).p = false →
      let c := e.2.2 (rdS (me s) f.a).v (rdS (me s) f.b).v
      exec (e.1 f) s = .next (result s 1 [.pred 0 (!c), .pred f.pt.toNat c])

/-- R230, R244, R183: behind a bundle with STOP set no transfer is pending, whether the branch is its own or it stands in a delay slot, and the
sequencer only ends; what its trap, sys, eret or halt asked for is not done. A fault in a delay slot keeps the transfer. -/
def Obligations.StopComesBeforeTransfersAndEndings : Prop :=
  ∀ (before x : Seq) (b : Ready) (s : State) (k q c : Nat) (pc v : Word),
    (b.raw.stop = true → (closeSeq before b x).xfer = none ∧ (closeSeq before b x).ending = some .stop ∧
      (closeSeq before b x).pc = b.pc + BitVec.ofNat 64 b.raw.len ∧ (closeSeq before b x).mode = x.mode ∧
      (closeSeq before b x).xpc = x.xpc ∧ (closeSeq before b x).st = x.st) ∧
    (let y := seqOf (endIssue s k q .stop) k q;
     let z := seqOf s k q;
     y.st = (if z.kind = .dormant then .dormant else .stopped) ∧ y.mode = z.mode ∧ y.pmode = z.pmode ∧ y.pc = z.pc ∧ y.xpc = z.xpc ∧
     y.xcause = z.xcause ∧ y.xval = z.xval ∧ y.s = z.s ∧ y.ending = none) ∧
    ((seqOf s k q).mode = false → hasHandler s k = true →
      (seqOf (takeTrap s k q pc ⟨c, v⟩) k q).savedXfer = (seqOf s k q).xfer ∧
      ((seqOf s k q).xpc.getLsbD 0 = false → (seqOf (endIssue s k q .eret) k q).xfer = (seqOf s k q).savedXfer))

/-- No instruction is refused and none stops the machine: exec answers a next state for every instruction in every state, and so does
every step. -/
def Parts.EveryInstructionCompletes : Prop :=
  (∀ (i : Instr) (s : State), ∃ t, exec i s = .next t) ∧ ∀ s : State, ∃ t, step s = .next t

/-! ## The statements that join several parts -/

/-- Scalar operations and compares put the results of their rules in flight and change nothing else. -/
def Obligations.ScalarResults : Prop :=
  Parts.ScalarThreeRegisterResults ∧ Parts.ScalarSelectInsertAndCounts ∧ Parts.ScalarImmediateResults ∧ Parts.CompareResults

/-- Predicate logic: words, sources, results. -/
def Obligations.PredicateLogic : Prop :=
  Parts.PredicateLogicResults ∧ Parts.PredicateLogicWords

/-- Branches, links, chk, loop and the rotation of the stage window. -/
def Obligations.BranchesLoopsAndPoisonChecks : Prop :=
  Parts.BranchesTransferAfterThreeDelaySlots ∧ Parts.CheckBranchesOnPoison ∧ Parts.LoopCountsAndRotates ∧
  Parts.RotationShiftsTheStagePredicates

/-- mfs, mts and what special registers keep. -/
def Obligations.SpecialRegisters : Prop :=
  Parts.SpecialRegisterMoves ∧ Parts.SpecialRegisterWriteReadBack

/-- Semaphore slots and what a new value does. -/
def Obligations.Semaphores : Prop :=
  Parts.SemaphoreSlots ∧ Parts.SemaphoreTakesItsValueAndWakes

/-- wfe, trap, sys, eret, halt, entry to the handler and the return from it. -/
def Obligations.ModeChangesAndHandlers : Prop :=
  Parts.WaitsAndModeChangesBegin ∧ Parts.HandlerEntryReturnAndHalt ∧ Parts.FaultsTakeTheirRoute

/-- Vector arithmetic, logic, shifts and counts, lane by lane. -/
def Obligations.VectorArithmetic : Prop :=
  Parts.VectorIntegerArithmetic ∧ Parts.VectorFloatArithmetic ∧ Parts.VectorLogicShiftsAndCounts ∧ Parts.MinimaAndMaxima

/-- Vector compares and lane-predicate logic. -/
def Obligations.VectorComparesAndLanePredicates : Prop :=
  Parts.VectorCompareSlots ∧ Parts.ConditionsOfCompares

/-- Selection, permutation, broadcast, cross-lane reads, reductions and scans. -/
def Obligations.LanesMoveAndReduce : Prop :=
  Parts.LaneMovement ∧ Parts.CrossLaneReads ∧ Parts.ReductionsAndScans

/-- Conversions, packing and unpacking. -/
def Obligations.ConversionsAndPacking : Prop :=
  Parts.ConversionsBetweenLaneTypes ∧ Parts.PackingWritesImagesOrFaults ∧ Parts.PackedElements ∧ Parts.UnpackedElements

/-- The F slot: functions, division, random numbers, CRC, hash and GF(2^8). -/
def Obligations.FunctionUnit : Prop :=
  Parts.FunctionSlotResults ∧ Parts.IntegerDivisionResults ∧ Parts.RandomCrcHashAndFieldProducts ∧
  Parts.VectorFormsOfTheIntegerFunctions ∧ Parts.FalseGuardsOfFunctionSlots ∧ Parts.FieldOfBytes

/-- Rounding keeps representable numbers and takes the nearest one. -/
def Obligations.RoundingToNearest : Prop :=
  Parts.RepresentableNumbersRoundToThemselves ∧ Parts.RoundToNearestIsNearest

/-- Every rounding mode, its flags, overflow, tininess and flushing. -/
def Obligations.RoundingAndFlushing : Prop :=
  Parts.RoundingInEveryMode ∧ Parts.SmallOperandsAreFlushed

/-- Functions of F32: special operands, quotients and roots rounded once, exact values (the sign of a zero of fcos.t: log entry 79). -/
def Obligations.FunctionsOfFloats : Prop :=
  Parts.SpecialOperandsOfFunctions ∧ Parts.FunctionsRoundTheirValueOnce

/-- The checks of an access in lane order, global loads, speculative loads, and a hit in the L1. -/
def Obligations.GlobalLoads : Prop :=
  Parts.AccessChecksInLaneOrder ∧ Parts.GlobalLoadsBegin ∧ Parts.SpeculativeLoadsNeverFault ∧ Parts.LoadHitTakesTheL1Word

/-- Global stores perform element by element; stored bytes stand in the L1 and nowhere else. -/
def Obligations.GlobalStores : Prop :=
  Parts.GlobalStoresPerform ∧ Parts.StoredBytesStandInTheL1

/-- Scratchpad loads and stores. -/
def Obligations.ScratchpadAccesses : Prop :=
  Parts.ScratchpadLoadsReadTheirBytes ∧ Parts.ScratchpadStoresWriteTheirBytes

/-- Atomic slots and the new values of atomics. -/
def Obligations.Atomics : Prop :=
  Parts.AtomicSlotsSendTheirRequest ∧ Parts.AtomicNewValues

/-- Acquire, release, drain, markers, invalidation. -/
def Obligations.Synchronisation : Prop :=
  Parts.SynchronisationSlots ∧ Parts.InvalidationRemovesOnlyCopies

/-- Read values arrive, forwarded reads are answered. -/
def Obligations.ValuesArrive : Prop :=
  Parts.ArrivingValuesFillTheirAccess ∧ Parts.ForwardedReadsAreAnswered

/-- Registration, acknowledgement, displacement and recall. -/
def Obligations.RegistrationsAndRecalls : Prop :=
  Parts.RegistrationsClimbAndAcknowledge ∧ Parts.AcknowledgementsAndDisplacements ∧ Parts.RecallsMoveHeldWordsUp

/-- Home writes and atomics where the word is. -/
def Obligations.HomesPerformWritesAndAtomics : Prop :=
  Parts.HomeWritesMergeTheirBytes ∧ Parts.AtomicsExecuteWhereTheWordIs

/-- Lost owners, memory errors, core reset and host lines. -/
def Obligations.LostOwnersErrorsAndTheHost : Prop :=
  Parts.LostOwnersAndErrors ∧ Parts.HostLinesReturn

/-- Walks, invalidation and pending faults. -/
def Obligations.TranslationAndPendingFaults : Prop :=
  Parts.WalksCheckEntriesInOrder ∧ Parts.WalksCompleteOrPend ∧ Parts.InvalidationDropsTranslations ∧ Parts.PendingFaultCommands

/-- Engine slots enqueue their command; qcut cancels waiting commands of its own sequencer. -/
def Obligations.EngineSlots : Prop :=
  Parts.EngineSlotsEnqueueTheirCommand ∧ Parts.TriggerShapeAndCallSlots ∧ Parts.EnqueuedCommandsStandLast ∧
  Parts.QcutCancelsItsOwnWaitingCommands

/-- Engine commands start, fire and complete. -/
def Obligations.EngineCommandsRun : Prop :=
  Parts.EngineCommandsStartInTurn ∧ Parts.FiredTransfersEnterTheirQueue ∧ Parts.EngineCommandsCompleteWithTheirSignal

/-- The data of xfer and xred: which bytes they write. -/
def Obligations.EngineTransfersAndReductions : Prop :=
  Parts.TransfersMoveTheirBytes ∧ Parts.ReductionsCombineTheirWords

/-- Remote signals, handler starts and peer writes. -/
def Obligations.RemotePartsAndPeerWrites : Prop :=
  Parts.RemoteSignalsAndHandlerStarts ∧ Parts.PeerWritesAreAcknowledgedOrRecorded

/-- Verb calls, control and latch micro-operations. -/
def Obligations.VerbCallsAndMicroOperations : Prop :=
  Parts.VerbCallsStartAndEnd ∧ Parts.MicroControl ∧ Parts.MicroLatches

/-- Products, accumulation, conversion and read-out of the matrix engine. -/
def Obligations.ProductsAccumulationAndReadOut : Prop :=
  Parts.MicroProductsAndReadOut ∧ Parts.ProductsOfOneEntry ∧ Parts.EntriesCloseAndReadOut ∧ Parts.ReadOutWritesItsBytes

/-- Lane repair, stack power states, append-log handles. -/
def Obligations.StacksAndFlash : Prop :=
  Parts.LaneRepairSteps ∧ Parts.StackPowerStates ∧ Parts.AppendLogHandles

/-- A coding group is enabled, configured, disabled (its configuration messages: log entry 22). -/
def Obligations.GroupSettings : Prop :=
  Parts.GroupEnable ∧ Parts.GroupDisableAndSpare ∧ Parts.GroupConfiguration

/-- Deltas, prepare, votes, commit and abort. -/
def Obligations.GroupRoundsAndDeltas : Prop :=
  Parts.GroupDeltas ∧ Parts.GroupRounds

/-- Exchange, decisions and timeouts of a group. -/
def Obligations.GroupExchangeAndDecisions : Prop :=
  Parts.GroupExchange ∧ Parts.GroupDecision ∧ Parts.GroupTimeouts

/-- Restore and rebuild (phases of the rebuild messages: log entry 22). -/
def Obligations.GroupRestoreAndRebuild : Prop :=
  Parts.GroupRestore ∧ Parts.GroupRebuild

/-- Device register writes and the fetch of a bundle. -/
def Obligations.RegisterWritesAndFetch : Prop :=
  Parts.RegisterWrites ∧ Parts.BundleFetchReads

/-- Dispatch, the checks of an image, set-up, start, report and retirement of tasks. -/
def Obligations.TasksStartReportAndRetire : Prop :=
  Parts.TasksStart ∧ Parts.ImagesAreChecked ∧ Parts.ReportSlotLayout ∧ Parts.TasksRetireAndAge

/-- Pre-emption, resumption, watchdogs and SEQ_RESUME. -/
def Obligations.PreemptionAndWatchdogs : Prop :=
  Parts.PreemptionSavesAndRestores ∧ Parts.WatchdogAndResume

/-- Contexts, queues and their packets. -/
def Obligations.ContextsAndQueues : Prop :=
  Parts.ContextControl ∧ Parts.QueueControl ∧ Parts.QueueTakesPackets ∧ Parts.PacketsComplete

/-- Nodes, waits and home moves. -/
def Obligations.PacketsRun : Prop :=
  Parts.WordTests ∧ Parts.NodesRunLists ∧ Parts.WaitPackets ∧ Parts.HomeMoves

/-- The event ring and the activity forecast. -/
def Obligations.EventsAndForecast : Prop :=
  Parts.EventRing ∧ Parts.ActivityForecast

/-- Link ports and forwarding. -/
def Obligations.LinksAndFlits : Prop :=
  Parts.LinkPorts ∧ Parts.FlitsAreForwarded

/-- Collectives: announcement, signatures, barriers, payloads. -/
def Obligations.CollectivesBegin : Prop :=
  Parts.CollectivesOpenAndAnnounce ∧ Parts.SignaturesAreCompared ∧ Parts.BarriersAndTimeouts ∧ Parts.PayloadsPerform

/-- Chains and folds of collectives, ordered reductions. -/
def Obligations.CollectivesFoldAndOrderedReductions : Prop :=
  Parts.CollectiveChains ∧ Parts.SparseAllReduces ∧ Parts.CollectiveFold ∧ Parts.OrderedReductions

/-- Parameter engines. -/
def Obligations.ParameterEngines : Prop :=
  Parts.ParameterEngineControl ∧ Parts.ParameterContributions ∧ Parts.ParameterSteps ∧ Parts.PushesWriteTheirImage ∧
  Parts.ParameterTimeout

/-- Power settings, thermal emergency, retirement. -/
def Obligations.PowerHeatAndRetirement : Prop :=
  Parts.PowerSettings ∧ Parts.ThermalEmergency ∧ Parts.EmergencyArea ∧ Parts.RetirementAndReplacement

/-- Firmware, attestation, error log, cold reset and pod formation. -/
def Obligations.FirmwareResetAndPods : Prop :=
  Parts.FirmwareAttestationLog ∧ Parts.ColdResetAndBringup ∧ Parts.PodFormWritesTheScopeTable

/-- Decoding and encoding agree, bundles, slots and micro-words. -/
def Obligations.EncodingRoundTrip : Prop :=
  Parts.EncodedInstructionsDecode ∧ Parts.DecodedWordsEncodeBack ∧ Parts.MicroWordsRoundTrip

/-- A step runs the decoded bundle through exec, slot by slot, and moves on; no instruction is refused (the schedule is the model's choice: log entry 2). -/
def Obligations.StepRunsTheDecodedBundle : Prop :=
  Parts.StepRunsTheDecodedBundle ∧ Parts.BundlesFollowInSequence ∧ Parts.TimePasses ∧ Parts.EveryInstructionCompletes

/-- What reset leaves. -/
def Obligations.ResetState : Prop :=
  Parts.ResetMemoryCanonical ∧ Parts.ResetRegisters
end

