-- ==== Sys2Proof/Laws/State.lean ====
section
/-! SUPPORT. Finite maps, and what each update of the state leaves in each field, each lemma once. -/
namespace Sys2Proof.Machine

/-! ## Finite maps -/

@[simp] theorem mlook_nil {α : Type} (k : Nat) : mlook ([] : FMap α) k = none := rfl
@[simp] theorem mget_nil {α : Type} (d : α) (k : Nat) : mget d [] k = d := rfl

/-- A key that was put is found with its value; every other key as before. -/
theorem mlook_mput {α : Type} (m : FMap α) (k j : Nat) (v : α) : mlook (mput m k v) j = if j = k then some v else mlook m j := by
  induction m with
  | nil => simp [mput, mlook, eq_comm]
  | cons x r ih =>
    obtain ⟨i, w⟩ := x
    unfold mput
    split
    · by_cases h : j = k
      · simp [mlook, h]
      · simp [mlook, h, Ne.symm h]
    · split
      · rename_i h; subst h
        by_cases h : j = i
        · simp [mlook, h]
        · simp [mlook, h, Ne.symm h]
      · rename_i h
        by_cases hj : i = j
        · subst hj; simp [mlook, h]
        · simp [mlook, hj, ih]

/-- A removed key is not found; every other key as before. -/
theorem mlook_mdel {α : Type} (m : FMap α) (k j : Nat) : mlook (mdel m k) j = if j = k then none else mlook m j := by
  induction m with
  | nil => simp [mdel]
  | cons x r ih =>
    obtain ⟨i, w⟩ := x
    unfold mdel
    split
    · rename_i h; subst h
      by_cases h : j = i
      · subst h; simp [ih]
      · simp [ih, h, mlook, Ne.symm h]
    · rename_i h
      by_cases hj : i = j
      · subst hj; simp [mlook, h]
      · simp [mlook, hj, ih]

@[simp] theorem mget_mput_same {α : Type} (d : α) (m : FMap α) (k : Nat) (v : α) : mget d (mput m k v) k = v := by simp [mget, mlook_mput]
theorem mget_mput {α : Type} (d : α) (m : FMap α) (k j : Nat) (v : α) : mget d (mput m k v) j = if j = k then v else mget d m j := by
  unfold mget; rw [mlook_mput]; split <;> simp
/-- Read after write, the default unlisted. -/
theorem mget_mset {α : Type} [DecidableEq α] (d : α) (m : FMap α) (k j : Nat) (v : α) :
    mget d (mset d m k v) j = if j = k then v else mget d m j := by
  unfold mset
  split
  · rename_i h; subst h
    unfold mget; rw [mlook_mdel]; split <;> simp
  · exact mget_mput d m k j v
@[simp] theorem mget_mset_same {α : Type} [DecidableEq α] (d : α) (m : FMap α) (k : Nat) (v : α) : mget d (mset d m k v) k = v := by
  simp [mget_mset]

/-! ## Cores, sequencers, registers, bytes: read after write -/

theorem core_setCore (s : State) (k j : Nat) (c : Core) : core (setCore s k c) j = if j = k then c else core s j := mget_mput _ _ _ _ _
@[simp] theorem core_setCore_same (s : State) (k : Nat) (c : Core) : core (setCore s k c) k = c := by simp [core_setCore]
@[simp] theorem core_modCore_same (s : State) (k : Nat) (f : Core → Core) : core (modCore s k f) k = f (core s k) := by simp [modCore]
theorem core_modCore (s : State) (k j : Nat) (f : Core → Core) : core (modCore s k f) j = if j = k then f (core s k) else core s j := core_setCore _ _ _ _
theorem seqOf_setSeq (s : State) (k q j p : Nat) (x : Seq) : seqOf (setSeq s k q x) j p = if j = k ∧ p = q then x else seqOf s j p := by
  unfold seqOf setSeq
  rw [core_modCore]
  by_cases h : j = k
  · subst h; by_cases hp : p = q <;> simp [mget_mput, hp]
  · simp [h]
@[simp] theorem seqOf_setSeq_same (s : State) (k q : Nat) (x : Seq) : seqOf (setSeq s k q x) k q = x := by simp [seqOf_setSeq]
theorem seqOf_modSeq (s : State) (k q j p : Nat) (f : Seq → Seq) :
    seqOf (modSeq s k q f) j p = if j = k ∧ p = q then f (seqOf s k q) else seqOf s j p := seqOf_setSeq _ _ _ _ _ _
@[simp] theorem seqOf_modSeq_same (s : State) (k q : Nat) (f : Seq → Seq) : seqOf (modSeq s k q f) k q = f (seqOf s k q) := by simp [seqOf_modSeq]
/-- A register keeps what was written to it; every register under another key keeps its value. -/
@[simp] theorem rdReg_wrReg_same (s : State) (r : Reg) (v : Word) : rdReg (wrReg s r v) r = v := by simp [rdReg, wrReg]
theorem rdReg_wrReg_other (s : State) (r x : Reg) (v : Word) (h : x.key ≠ r.key) : rdReg (wrReg s r v) x = rdReg s x := by
  unfold rdReg wrReg mset mget
  split <;> simp [mlook_mput, mlook_mdel, h]
/-- R10: a byte reads as it was written, and every other byte as before. -/
theorem rdByte_wrByte (s : State) (a b : Nat) (v : Byte) : rdByte (wrByte s a v) b = if b = a then v else rdByte s b := mget_mset _ _ _ _ _
@[simp] theorem rdByte_wrByte_same (s : State) (a : Nat) (v : Byte) : rdByte (wrByte s a v) a = v := by simp [rdByte_wrByte]

/-! ## Fields under each update -/

@[simp] theorem setCore_mem (s : State) (k : Nat) (c : Core) : (setCore s k c).mem = s.mem := rfl
@[simp] theorem setCore_pois (s : State) (k : Nat) (c : Core) : (setCore s k c).pois = s.pois := rfl
@[simp] theorem setCore_bad (s : State) (k : Nat) (c : Core) : (setCore s k c).bad = s.bad := rfl
@[simp] theorem setCore_dev (s : State) (k : Nat) (c : Core) : (setCore s k c).dev = s.dev := rfl
@[simp] theorem setCore_clk (s : State) (k : Nat) (c : Core) : (setCore s k c).clk = s.clk := rfl
@[simp] theorem setCore_lvl (s : State) (k : Nat) (c : Core) : (setCore s k c).lvl = s.lvl := rfl
@[simp] theorem setCore_reg (s : State) (k : Nat) (c : Core) : (setCore s k c).reg = s.reg := rfl
@[simp] theorem setCore_l2 (s : State) (k : Nat) (c : Core) : (setCore s k c).l2 = s.l2 := rfl
@[simp] theorem setCore_l2q (s : State) (k : Nat) (c : Core) : (setCore s k c).l2q = s.l2q := rfl
@[simp] theorem setCore_l2n (s : State) (k : Nat) (c : Core) : (setCore s k c).l2n = s.l2n := rfl
@[simp] theorem setCore_regNow (s : State) (k : Nat) (c : Core) : (setCore s k c).regNow = s.regNow := rfl
@[simp] theorem setCore_clkSeq (s : State) (k : Nat) (c : Core) : (setCore s k c).clkSeq = s.clkSeq := rfl
@[simp] theorem setCore_deadChips (s : State) (k : Nat) (c : Core) : (setCore s k c).deadChips = s.deadChips := rfl
@[simp] theorem setCore_locks (s : State) (k : Nat) (c : Core) : (setCore s k c).locks = s.locks := rfl
@[simp] theorem setCore_ownReq (s : State) (k : Nat) (c : Core) : (setCore s k c).ownReq = s.ownReq := rfl
@[simp] theorem setCore_gw (s : State) (k : Nat) (c : Core) : (setCore s k c).gw = s.gw := rfl
@[simp] theorem setCore_wcache (s : State) (k : Nat) (c : Core) : (setCore s k c).wcache = s.wcache := rfl
@[simp] theorem setCore_walks (s : State) (k : Nat) (c : Core) : (setCore s k c).walks = s.walks := rfl
@[simp] theorem setCore_winv (s : State) (k : Nat) (c : Core) : (setCore s k c).winv = s.winv := rfl
@[simp] theorem setCore_xvN (s : State) (k : Nat) (c : Core) : (setCore s k c).xvN = s.xvN := rfl
@[simp] theorem setCore_ctxStop (s : State) (k : Nat) (c : Core) : (setCore s k c).ctxStop = s.ctxStop := rfl
@[simp] theorem setCore_moves (s : State) (k : Nat) (c : Core) : (setCore s k c).moves = s.moves := rfl
@[simp] theorem setCore_grps (s : State) (k : Nat) (c : Core) : (setCore s k c).grps = s.grps := rfl
@[simp] theorem setCore_chFail (s : State) (k : Nat) (c : Core) : (setCore s k c).chFail = s.chFail := rfl
@[simp] theorem setCore_stackUse (s : State) (k : Nat) (c : Core) : (setCore s k c).stackUse = s.stackUse := rfl
@[simp] theorem setCore_flashW (s : State) (k : Nat) (c : Core) : (setCore s k c).flashW = s.flashW := rfl
@[simp] theorem setCore_group (s : State) (k : Nat) (c : Core) : (setCore s k c).group = s.group := rfl
@[simp] theorem setCore_queues (s : State) (k : Nat) (c : Core) : (setCore s k c).queues = s.queues := rfl
@[simp] theorem setCore_tasks (s : State) (k : Nat) (c : Core) : (setCore s k c).tasks = s.tasks := rfl
@[simp] theorem setCore_nextTask (s : State) (k : Nat) (c : Core) : (setCore s k c).nextTask = s.nextTask := rfl
@[simp] theorem setCore_lastQ (s : State) (k : Nat) (c : Core) : (setCore s k c).lastQ = s.lastQ := rfl
@[simp] theorem setCore_saves (s : State) (k : Nat) (c : Core) : (setCore s k c).saves = s.saves := rfl
@[simp] theorem setCore_emerg (s : State) (k : Nat) (c : Core) : (setCore s k c).emerg = s.emerg := rfl
@[simp] theorem setCore_ports (s : State) (k : Nat) (c : Core) : (setCore s k c).ports = s.ports := rfl
@[simp] theorem setCore_routeLeft (s : State) (k : Nat) (c : Core) : (setCore s k c).routeLeft = s.routeLeft := rfl
@[simp] theorem setCore_peerOut (s : State) (k : Nat) (c : Core) : (setCore s k c).peerOut = s.peerOut := rfl
@[simp] theorem setCore_nextPeer (s : State) (k : Nat) (c : Core) : (setCore s k c).nextPeer = s.nextPeer := rfl
@[simp] theorem setCore_ordKeys (s : State) (k : Nat) (c : Core) : (setCore s k c).ordKeys = s.ordKeys := rfl
@[simp] theorem setCore_resend (s : State) (k : Nat) (c : Core) : (setCore s k c).resend = s.resend := rfl
@[simp] theorem setCore_early (s : State) (k : Nat) (c : Core) : (setCore s k c).early = s.early := rfl
@[simp] theorem setCore_aborts (s : State) (k : Nat) (c : Core) : (setCore s k c).aborts = s.aborts := rfl
@[simp] theorem setCore_pes (s : State) (k : Nat) (c : Core) : (setCore s k c).pes = s.pes := rfl
@[simp] theorem setCore_winN (s : State) (k : Nat) (c : Core) : (setCore s k c).winN = s.winN := rfl
@[simp] theorem setCore_lastW (s : State) (k : Nat) (c : Core) : (setCore s k c).lastW = s.lastW := rfl
@[simp] theorem setCore_ballast (s : State) (k : Nat) (c : Core) : (setCore s k c).ballast = s.ballast := rfl
@[simp] theorem setCore_retired (s : State) (k : Nat) (c : Core) : (setCore s k c).retired = s.retired := rfl
@[simp] theorem setCore_sparesUsed (s : State) (k : Nat) (c : Core) : (setCore s k c).sparesUsed = s.sparesUsed := rfl
@[simp] theorem setCore_emergClk (s : State) (k : Nat) (c : Core) : (setCore s k c).emergClk = s.emergClk := rfl
@[simp] theorem setCore_resCtx (s : State) (k : Nat) (c : Core) : (setCore s k c).resCtx = s.resCtx := rfl
@[simp] theorem setCore_fw (s : State) (k : Nat) (c : Core) : (setCore s k c).fw = s.fw := rfl
@[simp] theorem setCore_fwActive (s : State) (k : Nat) (c : Core) : (setCore s k c).fwActive = s.fwActive := rfl
@[simp] theorem setCore_fwSwap (s : State) (k : Nat) (c : Core) : (setCore s k c).fwSwap = s.fwSwap := rfl
@[simp] theorem setCore_errLog (s : State) (k : Nat) (c : Core) : (setCore s k c).errLog = s.errLog := rfl
@[simp] theorem setCore_past (s : State) (k : Nat) (c : Core) : (setCore s k c).past = s.past := rfl
@[simp] theorem setCore_uncErrs (s : State) (k : Nat) (c : Core) : (setCore s k c).uncErrs = s.uncErrs := rfl
@[simp] theorem setCore_logTotals (s : State) (k : Nat) (c : Core) : (setCore s k c).logTotals = s.logTotals := rfl
@[simp] theorem setCore_quotes (s : State) (k : Nat) (c : Core) : (setCore s k c).quotes = s.quotes := rfl
@[simp] theorem setCore_bringup (s : State) (k : Nat) (c : Core) : (setCore s k c).bringup = s.bringup := rfl
@[simp] theorem setCore_sysRd (s : State) (k : Nat) (c : Core) : (setCore s k c).sysRd = s.sysRd := rfl
@[simp] theorem setCore_evWait (s : State) (k : Nat) (c : Core) : (setCore s k c).evWait = s.evWait := rfl
@[simp] theorem setCore_evLeft (s : State) (k : Nat) (c : Core) : (setCore s k c).evLeft = s.evLeft := rfl
@[simp] theorem setCore_evBad (s : State) (k : Nat) (c : Core) : (setCore s k c).evBad = s.evBad := rfl
@[simp] theorem setCore_outbox (s : State) (k : Nat) (c : Core) : (setCore s k c).outbox = s.outbox := rfl
@[simp] theorem setCore_net (s : State) (k : Nat) (c : Core) : (setCore s k c).net = s.net := rfl
@[simp] theorem setCore_held (s : State) (k : Nat) (c : Core) : (setCore s k c).held = s.held := rfl
@[simp] theorem setCore_script (s : State) (k : Nat) (c : Core) : (setCore s k c).script = s.script := rfl
@[simp] theorem setCore_pace (s : State) (k : Nat) (c : Core) : (setCore s k c).pace = s.pace := rfl
@[simp] theorem setCore_phase (s : State) (k : Nat) (c : Core) : (setCore s k c).phase = s.phase := rfl
@[simp] theorem setCore_rr (s : State) (k : Nat) (c : Core) : (setCore s k c).rr = s.rr := rfl
@[simp] theorem setCore_cur (s : State) (k : Nat) (c : Core) : (setCore s k c).cur = s.cur := rfl
@[simp] theorem setCore_raised (s : State) (k : Nat) (c : Core) : (setCore s k c).raised = s.raised := rfl
@[simp] theorem setCore_nextTag (s : State) (k : Nat) (c : Core) : (setCore s k c).nextTag = s.nextTag := rfl
@[simp] theorem setCore_fresh (s : State) (k : Nat) (c : Core) : (setCore s k c).fresh = s.fresh := rfl

@[simp] theorem modCore_mem (s : State) (k : Nat) (f : Core → Core) : (modCore s k f).mem = s.mem := rfl
@[simp] theorem modCore_pois (s : State) (k : Nat) (f : Core → Core) : (modCore s k f).pois = s.pois := rfl
@[simp] theorem modCore_bad (s : State) (k : Nat) (f : Core → Core) : (modCore s k f).bad = s.bad := rfl
@[simp] theorem modCore_dev (s : State) (k : Nat) (f : Core → Core) : (modCore s k f).dev = s.dev := rfl
@[simp] theorem modCore_clk (s : State) (k : Nat) (f : Core → Core) : (modCore s k f).clk = s.clk := rfl
@[simp] theorem modCore_lvl (s : State) (k : Nat) (f : Core → Core) : (modCore s k f).lvl = s.lvl := rfl
@[simp] theorem modCore_reg (s : State) (k : Nat) (f : Core → Core) : (modCore s k f).reg = s.reg := rfl
@[simp] theorem modCore_l2 (s : State) (k : Nat) (f : Core → Core) : (modCore s k f).l2 = s.l2 := rfl
@[simp] theorem modCore_l2q (s : State) (k : Nat) (f : Core → Core) : (modCore s k f).l2q = s.l2q := rfl
@[simp] theorem modCore_l2n (s : State) (k : Nat) (f : Core → Core) : (modCore s k f).l2n = s.l2n := rfl
@[simp] theorem modCore_regNow (s : State) (k : Nat) (f : Core → Core) : (modCore s k f).regNow = s.regNow := rfl
@[simp] theorem modCore_clkSeq (s : State) (k : Nat) (f : Core → Core) : (modCore s k f).clkSeq = s.clkSeq := rfl
@[simp] theorem modCore_deadChips (s : State) (k : Nat) (f : Core → Core) : (modCore s k f).deadChips = s.deadChips := rfl
@[simp] theorem modCore_locks (s : State) (k : Nat) (f : Core → Core) : (modCore s k f).locks = s.locks := rfl
@[simp] theorem modCore_ownReq (s : State) (k : Nat) (f : Core → Core) : (modCore s k f).ownReq = s.ownReq := rfl
@[simp] theorem modCore_gw (s : State) (k : Nat) (f : Core → Core) : (modCore s k f).gw = s.gw := rfl
@[simp] theorem modCore_wcache (s : State) (k : Nat) (f : Core → Core) : (modCore s k f).wcache = s.wcache := rfl
@[simp] theorem modCore_walks (s : State) (k : Nat) (f : Core → Core) : (modCore s k f).walks = s.walks := rfl
@[simp] theorem modCore_winv (s : State) (k : Nat) (f : Core → Core) : (modCore s k f).winv = s.winv := rfl
@[simp] theorem modCore_xvN (s : State) (k : Nat) (f : Core → Core) : (modCore s k f).xvN = s.xvN := rfl
@[simp] theorem modCore_ctxStop (s : State) (k : Nat) (f : Core → Core) : (modCore s k f).ctxStop = s.ctxStop := rfl
@[simp] theorem modCore_moves (s : State) (k : Nat) (f : Core → Core) : (modCore s k f).moves = s.moves := rfl
@[simp] theorem modCore_grps (s : State) (k : Nat) (f : Core → Core) : (modCore s k f).grps = s.grps := rfl
@[simp] theorem modCore_chFail (s : State) (k : Nat) (f : Core → Core) : (modCore s k f).chFail = s.chFail := rfl
@[simp] theorem modCore_stackUse (s : State) (k : Nat) (f : Core → Core) : (modCore s k f).stackUse = s.stackUse := rfl
@[simp] theorem modCore_flashW (s : State) (k : Nat) (f : Core → Core) : (modCore s k f).flashW = s.flashW := rfl
@[simp] theorem modCore_group (s : State) (k : Nat) (f : Core → Core) : (modCore s k f).group = s.group := rfl
@[simp] theorem modCore_queues (s : State) (k : Nat) (f : Core → Core) : (modCore s k f).queues = s.queues := rfl
@[simp] theorem modCore_tasks (s : State) (k : Nat) (f : Core → Core) : (modCore s k f).tasks = s.tasks := rfl
@[simp] theorem modCore_nextTask (s : State) (k : Nat) (f : Core → Core) : (modCore s k f).nextTask = s.nextTask := rfl
@[simp] theorem modCore_lastQ (s : State) (k : Nat) (f : Core → Core) : (modCore s k f).lastQ = s.lastQ := rfl
@[simp] theorem modCore_saves (s : State) (k : Nat) (f : Core → Core) : (modCore s k f).saves = s.saves := rfl
@[simp] theorem modCore_emerg (s : State) (k : Nat) (f : Core → Core) : (modCore s k f).emerg = s.emerg := rfl
@[simp] theorem modCore_ports (s : State) (k : Nat) (f : Core → Core) : (modCore s k f).ports = s.ports := rfl
@[simp] theorem modCore_routeLeft (s : State) (k : Nat) (f : Core → Core) : (modCore s k f).routeLeft = s.routeLeft := rfl
@[simp] theorem modCore_peerOut (s : State) (k : Nat) (f : Core → Core) : (modCore s k f).peerOut = s.peerOut := rfl
@[simp] theorem modCore_nextPeer (s : State) (k : Nat) (f : Core → Core) : (modCore s k f).nextPeer = s.nextPeer := rfl
@[simp] theorem modCore_ordKeys (s : State) (k : Nat) (f : Core → Core) : (modCore s k f).ordKeys = s.ordKeys := rfl
@[simp] theorem modCore_resend (s : State) (k : Nat) (f : Core → Core) : (modCore s k f).resend = s.resend := rfl
@[simp] theorem modCore_early (s : State) (k : Nat) (f : Core → Core) : (modCore s k f).early = s.early := rfl
@[simp] theorem modCore_aborts (s : State) (k : Nat) (f : Core → Core) : (modCore s k f).aborts = s.aborts := rfl
@[simp] theorem modCore_pes (s : State) (k : Nat) (f : Core → Core) : (modCore s k f).pes = s.pes := rfl
@[simp] theorem modCore_winN (s : State) (k : Nat) (f : Core → Core) : (modCore s k f).winN = s.winN := rfl
@[simp] theorem modCore_lastW (s : State) (k : Nat) (f : Core → Core) : (modCore s k f).lastW = s.lastW := rfl
@[simp] theorem modCore_ballast (s : State) (k : Nat) (f : Core → Core) : (modCore s k f).ballast = s.ballast := rfl
@[simp] theorem modCore_retired (s : State) (k : Nat) (f : Core → Core) : (modCore s k f).retired = s.retired := rfl
@[simp] theorem modCore_sparesUsed (s : State) (k : Nat) (f : Core → Core) : (modCore s k f).sparesUsed = s.sparesUsed := rfl
@[simp] theorem modCore_emergClk (s : State) (k : Nat) (f : Core → Core) : (modCore s k f).emergClk = s.emergClk := rfl
@[simp] theorem modCore_resCtx (s : State) (k : Nat) (f : Core → Core) : (modCore s k f).resCtx = s.resCtx := rfl
@[simp] theorem modCore_fw (s : State) (k : Nat) (f : Core → Core) : (modCore s k f).fw = s.fw := rfl
@[simp] theorem modCore_fwActive (s : State) (k : Nat) (f : Core → Core) : (modCore s k f).fwActive = s.fwActive := rfl
@[simp] theorem modCore_fwSwap (s : State) (k : Nat) (f : Core → Core) : (modCore s k f).fwSwap = s.fwSwap := rfl
@[simp] theorem modCore_errLog (s : State) (k : Nat) (f : Core → Core) : (modCore s k f).errLog = s.errLog := rfl
@[simp] theorem modCore_past (s : State) (k : Nat) (f : Core → Core) : (modCore s k f).past = s.past := rfl
@[simp] theorem modCore_uncErrs (s : State) (k : Nat) (f : Core → Core) : (modCore s k f).uncErrs = s.uncErrs := rfl
@[simp] theorem modCore_logTotals (s : State) (k : Nat) (f : Core → Core) : (modCore s k f).logTotals = s.logTotals := rfl
@[simp] theorem modCore_quotes (s : State) (k : Nat) (f : Core → Core) : (modCore s k f).quotes = s.quotes := rfl
@[simp] theorem modCore_bringup (s : State) (k : Nat) (f : Core → Core) : (modCore s k f).bringup = s.bringup := rfl
@[simp] theorem modCore_sysRd (s : State) (k : Nat) (f : Core → Core) : (modCore s k f).sysRd = s.sysRd := rfl
@[simp] theorem modCore_evWait (s : State) (k : Nat) (f : Core → Core) : (modCore s k f).evWait = s.evWait := rfl
@[simp] theorem modCore_evLeft (s : State) (k : Nat) (f : Core → Core) : (modCore s k f).evLeft = s.evLeft := rfl
@[simp] theorem modCore_evBad (s : State) (k : Nat) (f : Core → Core) : (modCore s k f).evBad = s.evBad := rfl
@[simp] theorem modCore_outbox (s : State) (k : Nat) (f : Core → Core) : (modCore s k f).outbox = s.outbox := rfl
@[simp] theorem modCore_net (s : State) (k : Nat) (f : Core → Core) : (modCore s k f).net = s.net := rfl
@[simp] theorem modCore_held (s : State) (k : Nat) (f : Core → Core) : (modCore s k f).held = s.held := rfl
@[simp] theorem modCore_script (s : State) (k : Nat) (f : Core → Core) : (modCore s k f).script = s.script := rfl
@[simp] theorem modCore_pace (s : State) (k : Nat) (f : Core → Core) : (modCore s k f).pace = s.pace := rfl
@[simp] theorem modCore_phase (s : State) (k : Nat) (f : Core → Core) : (modCore s k f).phase = s.phase := rfl
@[simp] theorem modCore_rr (s : State) (k : Nat) (f : Core → Core) : (modCore s k f).rr = s.rr := rfl
@[simp] theorem modCore_cur (s : State) (k : Nat) (f : Core → Core) : (modCore s k f).cur = s.cur := rfl
@[simp] theorem modCore_raised (s : State) (k : Nat) (f : Core → Core) : (modCore s k f).raised = s.raised := rfl
@[simp] theorem modCore_nextTag (s : State) (k : Nat) (f : Core → Core) : (modCore s k f).nextTag = s.nextTag := rfl
@[simp] theorem modCore_fresh (s : State) (k : Nat) (f : Core → Core) : (modCore s k f).fresh = s.fresh := rfl

@[simp] theorem setSeq_mem (s : State) (k q : Nat) (x : Seq) : (setSeq s k q x).mem = s.mem := rfl
@[simp] theorem setSeq_pois (s : State) (k q : Nat) (x : Seq) : (setSeq s k q x).pois = s.pois := rfl
@[simp] theorem setSeq_bad (s : State) (k q : Nat) (x : Seq) : (setSeq s k q x).bad = s.bad := rfl
@[simp] theorem setSeq_dev (s : State) (k q : Nat) (x : Seq) : (setSeq s k q x).dev = s.dev := rfl
@[simp] theorem setSeq_clk (s : State) (k q : Nat) (x : Seq) : (setSeq s k q x).clk = s.clk := rfl
@[simp] theorem setSeq_lvl (s : State) (k q : Nat) (x : Seq) : (setSeq s k q x).lvl = s.lvl := rfl
@[simp] theorem setSeq_reg (s : State) (k q : Nat) (x : Seq) : (setSeq s k q x).reg = s.reg := rfl
@[simp] theorem setSeq_l2 (s : State) (k q : Nat) (x : Seq) : (setSeq s k q x).l2 = s.l2 := rfl
@[simp] theorem setSeq_l2q (s : State) (k q : Nat) (x : Seq) : (setSeq s k q x).l2q = s.l2q := rfl
@[simp] theorem setSeq_l2n (s : State) (k q : Nat) (x : Seq) : (setSeq s k q x).l2n = s.l2n := rfl
@[simp] theorem setSeq_regNow (s : State) (k q : Nat) (x : Seq) : (setSeq s k q x).regNow = s.regNow := rfl
@[simp] theorem setSeq_clkSeq (s : State) (k q : Nat) (x : Seq) : (setSeq s k q x).clkSeq = s.clkSeq := rfl
@[simp] theorem setSeq_deadChips (s : State) (k q : Nat) (x : Seq) : (setSeq s k q x).deadChips = s.deadChips := rfl
@[simp] theorem setSeq_locks (s : State) (k q : Nat) (x : Seq) : (setSeq s k q x).locks = s.locks := rfl
@[simp] theorem setSeq_ownReq (s : State) (k q : Nat) (x : Seq) : (setSeq s k q x).ownReq = s.ownReq := rfl
@[simp] theorem setSeq_gw (s : State) (k q : Nat) (x : Seq) : (setSeq s k q x).gw = s.gw := rfl
@[simp] theorem setSeq_wcache (s : State) (k q : Nat) (x : Seq) : (setSeq s k q x).wcache = s.wcache := rfl
@[simp] theorem setSeq_walks (s : State) (k q : Nat) (x : Seq) : (setSeq s k q x).walks = s.walks := rfl
@[simp] theorem setSeq_winv (s : State) (k q : Nat) (x : Seq) : (setSeq s k q x).winv = s.winv := rfl
@[simp] theorem setSeq_xvN (s : State) (k q : Nat) (x : Seq) : (setSeq s k q x).xvN = s.xvN := rfl
@[simp] theorem setSeq_ctxStop (s : State) (k q : Nat) (x : Seq) : (setSeq s k q x).ctxStop = s.ctxStop := rfl
@[simp] theorem setSeq_moves (s : State) (k q : Nat) (x : Seq) : (setSeq s k q x).moves = s.moves := rfl
@[simp] theorem setSeq_grps (s : State) (k q : Nat) (x : Seq) : (setSeq s k q x).grps = s.grps := rfl
@[simp] theorem setSeq_chFail (s : State) (k q : Nat) (x : Seq) : (setSeq s k q x).chFail = s.chFail := rfl
@[simp] theorem setSeq_stackUse (s : State) (k q : Nat) (x : Seq) : (setSeq s k q x).stackUse = s.stackUse := rfl
@[simp] theorem setSeq_flashW (s : State) (k q : Nat) (x : Seq) : (setSeq s k q x).flashW = s.flashW := rfl
@[simp] theorem setSeq_group (s : State) (k q : Nat) (x : Seq) : (setSeq s k q x).group = s.group := rfl
@[simp] theorem setSeq_queues (s : State) (k q : Nat) (x : Seq) : (setSeq s k q x).queues = s.queues := rfl
@[simp] theorem setSeq_tasks (s : State) (k q : Nat) (x : Seq) : (setSeq s k q x).tasks = s.tasks := rfl
@[simp] theorem setSeq_nextTask (s : State) (k q : Nat) (x : Seq) : (setSeq s k q x).nextTask = s.nextTask := rfl
@[simp] theorem setSeq_lastQ (s : State) (k q : Nat) (x : Seq) : (setSeq s k q x).lastQ = s.lastQ := rfl
@[simp] theorem setSeq_saves (s : State) (k q : Nat) (x : Seq) : (setSeq s k q x).saves = s.saves := rfl
@[simp] theorem setSeq_emerg (s : State) (k q : Nat) (x : Seq) : (setSeq s k q x).emerg = s.emerg := rfl
@[simp] theorem setSeq_ports (s : State) (k q : Nat) (x : Seq) : (setSeq s k q x).ports = s.ports := rfl
@[simp] theorem setSeq_routeLeft (s : State) (k q : Nat) (x : Seq) : (setSeq s k q x).routeLeft = s.routeLeft := rfl
@[simp] theorem setSeq_peerOut (s : State) (k q : Nat) (x : Seq) : (setSeq s k q x).peerOut = s.peerOut := rfl
@[simp] theorem setSeq_nextPeer (s : State) (k q : Nat) (x : Seq) : (setSeq s k q x).nextPeer = s.nextPeer := rfl
@[simp] theorem setSeq_ordKeys (s : State) (k q : Nat) (x : Seq) : (setSeq s k q x).ordKeys = s.ordKeys := rfl
@[simp] theorem setSeq_resend (s : State) (k q : Nat) (x : Seq) : (setSeq s k q x).resend = s.resend := rfl
@[simp] theorem setSeq_early (s : State) (k q : Nat) (x : Seq) : (setSeq s k q x).early = s.early := rfl
@[simp] theorem setSeq_aborts (s : State) (k q : Nat) (x : Seq) : (setSeq s k q x).aborts = s.aborts := rfl
@[simp] theorem setSeq_pes (s : State) (k q : Nat) (x : Seq) : (setSeq s k q x).pes = s.pes := rfl
@[simp] theorem setSeq_winN (s : State) (k q : Nat) (x : Seq) : (setSeq s k q x).winN = s.winN := rfl
@[simp] theorem setSeq_lastW (s : State) (k q : Nat) (x : Seq) : (setSeq s k q x).lastW = s.lastW := rfl
@[simp] theorem setSeq_ballast (s : State) (k q : Nat) (x : Seq) : (setSeq s k q x).ballast = s.ballast := rfl
@[simp] theorem setSeq_retired (s : State) (k q : Nat) (x : Seq) : (setSeq s k q x).retired = s.retired := rfl
@[simp] theorem setSeq_sparesUsed (s : State) (k q : Nat) (x : Seq) : (setSeq s k q x).sparesUsed = s.sparesUsed := rfl
@[simp] theorem setSeq_emergClk (s : State) (k q : Nat) (x : Seq) : (setSeq s k q x).emergClk = s.emergClk := rfl
@[simp] theorem setSeq_resCtx (s : State) (k q : Nat) (x : Seq) : (setSeq s k q x).resCtx = s.resCtx := rfl
@[simp] theorem setSeq_fw (s : State) (k q : Nat) (x : Seq) : (setSeq s k q x).fw = s.fw := rfl
@[simp] theorem setSeq_fwActive (s : State) (k q : Nat) (x : Seq) : (setSeq s k q x).fwActive = s.fwActive := rfl
@[simp] theorem setSeq_fwSwap (s : State) (k q : Nat) (x : Seq) : (setSeq s k q x).fwSwap = s.fwSwap := rfl
@[simp] theorem setSeq_errLog (s : State) (k q : Nat) (x : Seq) : (setSeq s k q x).errLog = s.errLog := rfl
@[simp] theorem setSeq_past (s : State) (k q : Nat) (x : Seq) : (setSeq s k q x).past = s.past := rfl
@[simp] theorem setSeq_uncErrs (s : State) (k q : Nat) (x : Seq) : (setSeq s k q x).uncErrs = s.uncErrs := rfl
@[simp] theorem setSeq_logTotals (s : State) (k q : Nat) (x : Seq) : (setSeq s k q x).logTotals = s.logTotals := rfl
@[simp] theorem setSeq_quotes (s : State) (k q : Nat) (x : Seq) : (setSeq s k q x).quotes = s.quotes := rfl
@[simp] theorem setSeq_bringup (s : State) (k q : Nat) (x : Seq) : (setSeq s k q x).bringup = s.bringup := rfl
@[simp] theorem setSeq_sysRd (s : State) (k q : Nat) (x : Seq) : (setSeq s k q x).sysRd = s.sysRd := rfl
@[simp] theorem setSeq_evWait (s : State) (k q : Nat) (x : Seq) : (setSeq s k q x).evWait = s.evWait := rfl
@[simp] theorem setSeq_evLeft (s : State) (k q : Nat) (x : Seq) : (setSeq s k q x).evLeft = s.evLeft := rfl
@[simp] theorem setSeq_evBad (s : State) (k q : Nat) (x : Seq) : (setSeq s k q x).evBad = s.evBad := rfl
@[simp] theorem setSeq_outbox (s : State) (k q : Nat) (x : Seq) : (setSeq s k q x).outbox = s.outbox := rfl
@[simp] theorem setSeq_net (s : State) (k q : Nat) (x : Seq) : (setSeq s k q x).net = s.net := rfl
@[simp] theorem setSeq_held (s : State) (k q : Nat) (x : Seq) : (setSeq s k q x).held = s.held := rfl
@[simp] theorem setSeq_script (s : State) (k q : Nat) (x : Seq) : (setSeq s k q x).script = s.script := rfl
@[simp] theorem setSeq_pace (s : State) (k q : Nat) (x : Seq) : (setSeq s k q x).pace = s.pace := rfl
@[simp] theorem setSeq_phase (s : State) (k q : Nat) (x : Seq) : (setSeq s k q x).phase = s.phase := rfl
@[simp] theorem setSeq_rr (s : State) (k q : Nat) (x : Seq) : (setSeq s k q x).rr = s.rr := rfl
@[simp] theorem setSeq_cur (s : State) (k q : Nat) (x : Seq) : (setSeq s k q x).cur = s.cur := rfl
@[simp] theorem setSeq_raised (s : State) (k q : Nat) (x : Seq) : (setSeq s k q x).raised = s.raised := rfl
@[simp] theorem setSeq_nextTag (s : State) (k q : Nat) (x : Seq) : (setSeq s k q x).nextTag = s.nextTag := rfl
@[simp] theorem setSeq_fresh (s : State) (k q : Nat) (x : Seq) : (setSeq s k q x).fresh = s.fresh := rfl

@[simp] theorem modSeq_mem (s : State) (k q : Nat) (f : Seq → Seq) : (modSeq s k q f).mem = s.mem := rfl
@[simp] theorem modSeq_pois (s : State) (k q : Nat) (f : Seq → Seq) : (modSeq s k q f).pois = s.pois := rfl
@[simp] theorem modSeq_bad (s : State) (k q : Nat) (f : Seq → Seq) : (modSeq s k q f).bad = s.bad := rfl
@[simp] theorem modSeq_dev (s : State) (k q : Nat) (f : Seq → Seq) : (modSeq s k q f).dev = s.dev := rfl
@[simp] theorem modSeq_clk (s : State) (k q : Nat) (f : Seq → Seq) : (modSeq s k q f).clk = s.clk := rfl
@[simp] theorem modSeq_lvl (s : State) (k q : Nat) (f : Seq → Seq) : (modSeq s k q f).lvl = s.lvl := rfl
@[simp] theorem modSeq_reg (s : State) (k q : Nat) (f : Seq → Seq) : (modSeq s k q f).reg = s.reg := rfl
@[simp] theorem modSeq_l2 (s : State) (k q : Nat) (f : Seq → Seq) : (modSeq s k q f).l2 = s.l2 := rfl
@[simp] theorem modSeq_l2q (s : State) (k q : Nat) (f : Seq → Seq) : (modSeq s k q f).l2q = s.l2q := rfl
@[simp] theorem modSeq_l2n (s : State) (k q : Nat) (f : Seq → Seq) : (modSeq s k q f).l2n = s.l2n := rfl
@[simp] theorem modSeq_regNow (s : State) (k q : Nat) (f : Seq → Seq) : (modSeq s k q f).regNow = s.regNow := rfl
@[simp] theorem modSeq_clkSeq (s : State) (k q : Nat) (f : Seq → Seq) : (modSeq s k q f).clkSeq = s.clkSeq := rfl
@[simp] theorem modSeq_deadChips (s : State) (k q : Nat) (f : Seq → Seq) : (modSeq s k q f).deadChips = s.deadChips := rfl
@[simp] theorem modSeq_locks (s : State) (k q : Nat) (f : Seq → Seq) : (modSeq s k q f).locks = s.locks := rfl
@[simp] theorem modSeq_ownReq (s : State) (k q : Nat) (f : Seq → Seq) : (modSeq s k q f).ownReq = s.ownReq := rfl
@[simp] theorem modSeq_gw (s : State) (k q : Nat) (f : Seq → Seq) : (modSeq s k q f).gw = s.gw := rfl
@[simp] theorem modSeq_wcache (s : State) (k q : Nat) (f : Seq → Seq) : (modSeq s k q f).wcache = s.wcache := rfl
@[simp] theorem modSeq_walks (s : State) (k q : Nat) (f : Seq → Seq) : (modSeq s k q f).walks = s.walks := rfl
@[simp] theorem modSeq_winv (s : State) (k q : Nat) (f : Seq → Seq) : (modSeq s k q f).winv = s.winv := rfl
@[simp] theorem modSeq_xvN (s : State) (k q : Nat) (f : Seq → Seq) : (modSeq s k q f).xvN = s.xvN := rfl
@[simp] theorem modSeq_ctxStop (s : State) (k q : Nat) (f : Seq → Seq) : (modSeq s k q f).ctxStop = s.ctxStop := rfl
@[simp] theorem modSeq_moves (s : State) (k q : Nat) (f : Seq → Seq) : (modSeq s k q f).moves = s.moves := rfl
@[simp] theorem modSeq_grps (s : State) (k q : Nat) (f : Seq → Seq) : (modSeq s k q f).grps = s.grps := rfl
@[simp] theorem modSeq_chFail (s : State) (k q : Nat) (f : Seq → Seq) : (modSeq s k q f).chFail = s.chFail := rfl
@[simp] theorem modSeq_stackUse (s : State) (k q : Nat) (f : Seq → Seq) : (modSeq s k q f).stackUse = s.stackUse := rfl
@[simp] theorem modSeq_flashW (s : State) (k q : Nat) (f : Seq → Seq) : (modSeq s k q f).flashW = s.flashW := rfl
@[simp] theorem modSeq_group (s : State) (k q : Nat) (f : Seq → Seq) : (modSeq s k q f).group = s.group := rfl
@[simp] theorem modSeq_queues (s : State) (k q : Nat) (f : Seq → Seq) : (modSeq s k q f).queues = s.queues := rfl
@[simp] theorem modSeq_tasks (s : State) (k q : Nat) (f : Seq → Seq) : (modSeq s k q f).tasks = s.tasks := rfl
@[simp] theorem modSeq_nextTask (s : State) (k q : Nat) (f : Seq → Seq) : (modSeq s k q f).nextTask = s.nextTask := rfl
@[simp] theorem modSeq_lastQ (s : State) (k q : Nat) (f : Seq → Seq) : (modSeq s k q f).lastQ = s.lastQ := rfl
@[simp] theorem modSeq_saves (s : State) (k q : Nat) (f : Seq → Seq) : (modSeq s k q f).saves = s.saves := rfl
@[simp] theorem modSeq_emerg (s : State) (k q : Nat) (f : Seq → Seq) : (modSeq s k q f).emerg = s.emerg := rfl
@[simp] theorem modSeq_ports (s : State) (k q : Nat) (f : Seq → Seq) : (modSeq s k q f).ports = s.ports := rfl
@[simp] theorem modSeq_routeLeft (s : State) (k q : Nat) (f : Seq → Seq) : (modSeq s k q f).routeLeft = s.routeLeft := rfl
@[simp] theorem modSeq_peerOut (s : State) (k q : Nat) (f : Seq → Seq) : (modSeq s k q f).peerOut = s.peerOut := rfl
@[simp] theorem modSeq_nextPeer (s : State) (k q : Nat) (f : Seq → Seq) : (modSeq s k q f).nextPeer = s.nextPeer := rfl
@[simp] theorem modSeq_ordKeys (s : State) (k q : Nat) (f : Seq → Seq) : (modSeq s k q f).ordKeys = s.ordKeys := rfl
@[simp] theorem modSeq_resend (s : State) (k q : Nat) (f : Seq → Seq) : (modSeq s k q f).resend = s.resend := rfl
@[simp] theorem modSeq_early (s : State) (k q : Nat) (f : Seq → Seq) : (modSeq s k q f).early = s.early := rfl
@[simp] theorem modSeq_aborts (s : State) (k q : Nat) (f : Seq → Seq) : (modSeq s k q f).aborts = s.aborts := rfl
@[simp] theorem modSeq_pes (s : State) (k q : Nat) (f : Seq → Seq) : (modSeq s k q f).pes = s.pes := rfl
@[simp] theorem modSeq_winN (s : State) (k q : Nat) (f : Seq → Seq) : (modSeq s k q f).winN = s.winN := rfl
@[simp] theorem modSeq_lastW (s : State) (k q : Nat) (f : Seq → Seq) : (modSeq s k q f).lastW = s.lastW := rfl
@[simp] theorem modSeq_ballast (s : State) (k q : Nat) (f : Seq → Seq) : (modSeq s k q f).ballast = s.ballast := rfl
@[simp] theorem modSeq_retired (s : State) (k q : Nat) (f : Seq → Seq) : (modSeq s k q f).retired = s.retired := rfl
@[simp] theorem modSeq_sparesUsed (s : State) (k q : Nat) (f : Seq → Seq) : (modSeq s k q f).sparesUsed = s.sparesUsed := rfl
@[simp] theorem modSeq_emergClk (s : State) (k q : Nat) (f : Seq → Seq) : (modSeq s k q f).emergClk = s.emergClk := rfl
@[simp] theorem modSeq_resCtx (s : State) (k q : Nat) (f : Seq → Seq) : (modSeq s k q f).resCtx = s.resCtx := rfl
@[simp] theorem modSeq_fw (s : State) (k q : Nat) (f : Seq → Seq) : (modSeq s k q f).fw = s.fw := rfl
@[simp] theorem modSeq_fwActive (s : State) (k q : Nat) (f : Seq → Seq) : (modSeq s k q f).fwActive = s.fwActive := rfl
@[simp] theorem modSeq_fwSwap (s : State) (k q : Nat) (f : Seq → Seq) : (modSeq s k q f).fwSwap = s.fwSwap := rfl
@[simp] theorem modSeq_errLog (s : State) (k q : Nat) (f : Seq → Seq) : (modSeq s k q f).errLog = s.errLog := rfl
@[simp] theorem modSeq_past (s : State) (k q : Nat) (f : Seq → Seq) : (modSeq s k q f).past = s.past := rfl
@[simp] theorem modSeq_uncErrs (s : State) (k q : Nat) (f : Seq → Seq) : (modSeq s k q f).uncErrs = s.uncErrs := rfl
@[simp] theorem modSeq_logTotals (s : State) (k q : Nat) (f : Seq → Seq) : (modSeq s k q f).logTotals = s.logTotals := rfl
@[simp] theorem modSeq_quotes (s : State) (k q : Nat) (f : Seq → Seq) : (modSeq s k q f).quotes = s.quotes := rfl
@[simp] theorem modSeq_bringup (s : State) (k q : Nat) (f : Seq → Seq) : (modSeq s k q f).bringup = s.bringup := rfl
@[simp] theorem modSeq_sysRd (s : State) (k q : Nat) (f : Seq → Seq) : (modSeq s k q f).sysRd = s.sysRd := rfl
@[simp] theorem modSeq_evWait (s : State) (k q : Nat) (f : Seq → Seq) : (modSeq s k q f).evWait = s.evWait := rfl
@[simp] theorem modSeq_evLeft (s : State) (k q : Nat) (f : Seq → Seq) : (modSeq s k q f).evLeft = s.evLeft := rfl
@[simp] theorem modSeq_evBad (s : State) (k q : Nat) (f : Seq → Seq) : (modSeq s k q f).evBad = s.evBad := rfl
@[simp] theorem modSeq_outbox (s : State) (k q : Nat) (f : Seq → Seq) : (modSeq s k q f).outbox = s.outbox := rfl
@[simp] theorem modSeq_net (s : State) (k q : Nat) (f : Seq → Seq) : (modSeq s k q f).net = s.net := rfl
@[simp] theorem modSeq_held (s : State) (k q : Nat) (f : Seq → Seq) : (modSeq s k q f).held = s.held := rfl
@[simp] theorem modSeq_script (s : State) (k q : Nat) (f : Seq → Seq) : (modSeq s k q f).script = s.script := rfl
@[simp] theorem modSeq_pace (s : State) (k q : Nat) (f : Seq → Seq) : (modSeq s k q f).pace = s.pace := rfl
@[simp] theorem modSeq_phase (s : State) (k q : Nat) (f : Seq → Seq) : (modSeq s k q f).phase = s.phase := rfl
@[simp] theorem modSeq_rr (s : State) (k q : Nat) (f : Seq → Seq) : (modSeq s k q f).rr = s.rr := rfl
@[simp] theorem modSeq_cur (s : State) (k q : Nat) (f : Seq → Seq) : (modSeq s k q f).cur = s.cur := rfl
@[simp] theorem modSeq_raised (s : State) (k q : Nat) (f : Seq → Seq) : (modSeq s k q f).raised = s.raised := rfl
@[simp] theorem modSeq_nextTag (s : State) (k q : Nat) (f : Seq → Seq) : (modSeq s k q f).nextTag = s.nextTag := rfl
@[simp] theorem modSeq_fresh (s : State) (k q : Nat) (f : Seq → Seq) : (modSeq s k q f).fresh = s.fresh := rfl

@[simp] theorem modMe_mem (s : State) (f : Seq → Seq) : (modMe s f).mem = s.mem := rfl
@[simp] theorem modMe_pois (s : State) (f : Seq → Seq) : (modMe s f).pois = s.pois := rfl
@[simp] theorem modMe_bad (s : State) (f : Seq → Seq) : (modMe s f).bad = s.bad := rfl
@[simp] theorem modMe_dev (s : State) (f : Seq → Seq) : (modMe s f).dev = s.dev := rfl
@[simp] theorem modMe_clk (s : State) (f : Seq → Seq) : (modMe s f).clk = s.clk := rfl
@[simp] theorem modMe_lvl (s : State) (f : Seq → Seq) : (modMe s f).lvl = s.lvl := rfl
@[simp] theorem modMe_reg (s : State) (f : Seq → Seq) : (modMe s f).reg = s.reg := rfl
@[simp] theorem modMe_l2 (s : State) (f : Seq → Seq) : (modMe s f).l2 = s.l2 := rfl
@[simp] theorem modMe_l2q (s : State) (f : Seq → Seq) : (modMe s f).l2q = s.l2q := rfl
@[simp] theorem modMe_l2n (s : State) (f : Seq → Seq) : (modMe s f).l2n = s.l2n := rfl
@[simp] theorem modMe_regNow (s : State) (f : Seq → Seq) : (modMe s f).regNow = s.regNow := rfl
@[simp] theorem modMe_clkSeq (s : State) (f : Seq → Seq) : (modMe s f).clkSeq = s.clkSeq := rfl
@[simp] theorem modMe_deadChips (s : State) (f : Seq → Seq) : (modMe s f).deadChips = s.deadChips := rfl
@[simp] theorem modMe_locks (s : State) (f : Seq → Seq) : (modMe s f).locks = s.locks := rfl
@[simp] theorem modMe_ownReq (s : State) (f : Seq → Seq) : (modMe s f).ownReq = s.ownReq := rfl
@[simp] theorem modMe_gw (s : State) (f : Seq → Seq) : (modMe s f).gw = s.gw := rfl
@[simp] theorem modMe_wcache (s : State) (f : Seq → Seq) : (modMe s f).wcache = s.wcache := rfl
@[simp] theorem modMe_walks (s : State) (f : Seq → Seq) : (modMe s f).walks = s.walks := rfl
@[simp] theorem modMe_winv (s : State) (f : Seq → Seq) : (modMe s f).winv = s.winv := rfl
@[simp] theorem modMe_xvN (s : State) (f : Seq → Seq) : (modMe s f).xvN = s.xvN := rfl
@[simp] theorem modMe_ctxStop (s : State) (f : Seq → Seq) : (modMe s f).ctxStop = s.ctxStop := rfl
@[simp] theorem modMe_moves (s : State) (f : Seq → Seq) : (modMe s f).moves = s.moves := rfl
@[simp] theorem modMe_grps (s : State) (f : Seq → Seq) : (modMe s f).grps = s.grps := rfl
@[simp] theorem modMe_chFail (s : State) (f : Seq → Seq) : (modMe s f).chFail = s.chFail := rfl
@[simp] theorem modMe_stackUse (s : State) (f : Seq → Seq) : (modMe s f).stackUse = s.stackUse := rfl
@[simp] theorem modMe_flashW (s : State) (f : Seq → Seq) : (modMe s f).flashW = s.flashW := rfl
@[simp] theorem modMe_group (s : State) (f : Seq → Seq) : (modMe s f).group = s.group := rfl
@[simp] theorem modMe_queues (s : State) (f : Seq → Seq) : (modMe s f).queues = s.queues := rfl
@[simp] theorem modMe_tasks (s : State) (f : Seq → Seq) : (modMe s f).tasks = s.tasks := rfl
@[simp] theorem modMe_nextTask (s : State) (f : Seq → Seq) : (modMe s f).nextTask = s.nextTask := rfl
@[simp] theorem modMe_lastQ (s : State) (f : Seq → Seq) : (modMe s f).lastQ = s.lastQ := rfl
@[simp] theorem modMe_saves (s : State) (f : Seq → Seq) : (modMe s f).saves = s.saves := rfl
@[simp] theorem modMe_emerg (s : State) (f : Seq → Seq) : (modMe s f).emerg = s.emerg := rfl
@[simp] theorem modMe_ports (s : State) (f : Seq → Seq) : (modMe s f).ports = s.ports := rfl
@[simp] theorem modMe_routeLeft (s : State) (f : Seq → Seq) : (modMe s f).routeLeft = s.routeLeft := rfl
@[simp] theorem modMe_peerOut (s : State) (f : Seq → Seq) : (modMe s f).peerOut = s.peerOut := rfl
@[simp] theorem modMe_nextPeer (s : State) (f : Seq → Seq) : (modMe s f).nextPeer = s.nextPeer := rfl
@[simp] theorem modMe_ordKeys (s : State) (f : Seq → Seq) : (modMe s f).ordKeys = s.ordKeys := rfl
@[simp] theorem modMe_resend (s : State) (f : Seq → Seq) : (modMe s f).resend = s.resend := rfl
@[simp] theorem modMe_early (s : State) (f : Seq → Seq) : (modMe s f).early = s.early := rfl
@[simp] theorem modMe_aborts (s : State) (f : Seq → Seq) : (modMe s f).aborts = s.aborts := rfl
@[simp] theorem modMe_pes (s : State) (f : Seq → Seq) : (modMe s f).pes = s.pes := rfl
@[simp] theorem modMe_winN (s : State) (f : Seq → Seq) : (modMe s f).winN = s.winN := rfl
@[simp] theorem modMe_lastW (s : State) (f : Seq → Seq) : (modMe s f).lastW = s.lastW := rfl
@[simp] theorem modMe_ballast (s : State) (f : Seq → Seq) : (modMe s f).ballast = s.ballast := rfl
@[simp] theorem modMe_retired (s : State) (f : Seq → Seq) : (modMe s f).retired = s.retired := rfl
@[simp] theorem modMe_sparesUsed (s : State) (f : Seq → Seq) : (modMe s f).sparesUsed = s.sparesUsed := rfl
@[simp] theorem modMe_emergClk (s : State) (f : Seq → Seq) : (modMe s f).emergClk = s.emergClk := rfl
@[simp] theorem modMe_resCtx (s : State) (f : Seq → Seq) : (modMe s f).resCtx = s.resCtx := rfl
@[simp] theorem modMe_fw (s : State) (f : Seq → Seq) : (modMe s f).fw = s.fw := rfl
@[simp] theorem modMe_fwActive (s : State) (f : Seq → Seq) : (modMe s f).fwActive = s.fwActive := rfl
@[simp] theorem modMe_fwSwap (s : State) (f : Seq → Seq) : (modMe s f).fwSwap = s.fwSwap := rfl
@[simp] theorem modMe_errLog (s : State) (f : Seq → Seq) : (modMe s f).errLog = s.errLog := rfl
@[simp] theorem modMe_past (s : State) (f : Seq → Seq) : (modMe s f).past = s.past := rfl
@[simp] theorem modMe_uncErrs (s : State) (f : Seq → Seq) : (modMe s f).uncErrs = s.uncErrs := rfl
@[simp] theorem modMe_logTotals (s : State) (f : Seq → Seq) : (modMe s f).logTotals = s.logTotals := rfl
@[simp] theorem modMe_quotes (s : State) (f : Seq → Seq) : (modMe s f).quotes = s.quotes := rfl
@[simp] theorem modMe_bringup (s : State) (f : Seq → Seq) : (modMe s f).bringup = s.bringup := rfl
@[simp] theorem modMe_sysRd (s : State) (f : Seq → Seq) : (modMe s f).sysRd = s.sysRd := rfl
@[simp] theorem modMe_evWait (s : State) (f : Seq → Seq) : (modMe s f).evWait = s.evWait := rfl
@[simp] theorem modMe_evLeft (s : State) (f : Seq → Seq) : (modMe s f).evLeft = s.evLeft := rfl
@[simp] theorem modMe_evBad (s : State) (f : Seq → Seq) : (modMe s f).evBad = s.evBad := rfl
@[simp] theorem modMe_outbox (s : State) (f : Seq → Seq) : (modMe s f).outbox = s.outbox := rfl
@[simp] theorem modMe_net (s : State) (f : Seq → Seq) : (modMe s f).net = s.net := rfl
@[simp] theorem modMe_held (s : State) (f : Seq → Seq) : (modMe s f).held = s.held := rfl
@[simp] theorem modMe_script (s : State) (f : Seq → Seq) : (modMe s f).script = s.script := rfl
@[simp] theorem modMe_pace (s : State) (f : Seq → Seq) : (modMe s f).pace = s.pace := rfl
@[simp] theorem modMe_phase (s : State) (f : Seq → Seq) : (modMe s f).phase = s.phase := rfl
@[simp] theorem modMe_rr (s : State) (f : Seq → Seq) : (modMe s f).rr = s.rr := rfl
@[simp] theorem modMe_cur (s : State) (f : Seq → Seq) : (modMe s f).cur = s.cur := rfl
@[simp] theorem modMe_raised (s : State) (f : Seq → Seq) : (modMe s f).raised = s.raised := rfl
@[simp] theorem modMe_nextTag (s : State) (f : Seq → Seq) : (modMe s f).nextTag = s.nextTag := rfl
@[simp] theorem modMe_fresh (s : State) (f : Seq → Seq) : (modMe s f).fresh = s.fresh := rfl

@[simp] theorem wrReg_mem (s : State) (r : Reg) (v : Word) : (wrReg s r v).mem = s.mem := rfl
@[simp] theorem wrReg_pois (s : State) (r : Reg) (v : Word) : (wrReg s r v).pois = s.pois := rfl
@[simp] theorem wrReg_bad (s : State) (r : Reg) (v : Word) : (wrReg s r v).bad = s.bad := rfl
@[simp] theorem wrReg_clk (s : State) (r : Reg) (v : Word) : (wrReg s r v).clk = s.clk := rfl
@[simp] theorem wrReg_cores (s : State) (r : Reg) (v : Word) : (wrReg s r v).cores = s.cores := rfl
@[simp] theorem wrReg_lvl (s : State) (r : Reg) (v : Word) : (wrReg s r v).lvl = s.lvl := rfl
@[simp] theorem wrReg_reg (s : State) (r : Reg) (v : Word) : (wrReg s r v).reg = s.reg := rfl
@[simp] theorem wrReg_l2 (s : State) (r : Reg) (v : Word) : (wrReg s r v).l2 = s.l2 := rfl
@[simp] theorem wrReg_l2q (s : State) (r : Reg) (v : Word) : (wrReg s r v).l2q = s.l2q := rfl
@[simp] theorem wrReg_l2n (s : State) (r : Reg) (v : Word) : (wrReg s r v).l2n = s.l2n := rfl
@[simp] theorem wrReg_regNow (s : State) (r : Reg) (v : Word) : (wrReg s r v).regNow = s.regNow := rfl
@[simp] theorem wrReg_clkSeq (s : State) (r : Reg) (v : Word) : (wrReg s r v).clkSeq = s.clkSeq := rfl
@[simp] theorem wrReg_deadChips (s : State) (r : Reg) (v : Word) : (wrReg s r v).deadChips = s.deadChips := rfl
@[simp] theorem wrReg_locks (s : State) (r : Reg) (v : Word) : (wrReg s r v).locks = s.locks := rfl
@[simp] theorem wrReg_ownReq (s : State) (r : Reg) (v : Word) : (wrReg s r v).ownReq = s.ownReq := rfl
@[simp] theorem wrReg_gw (s : State) (r : Reg) (v : Word) : (wrReg s r v).gw = s.gw := rfl
@[simp] theorem wrReg_wcache (s : State) (r : Reg) (v : Word) : (wrReg s r v).wcache = s.wcache := rfl
@[simp] theorem wrReg_walks (s : State) (r : Reg) (v : Word) : (wrReg s r v).walks = s.walks := rfl
@[simp] theorem wrReg_winv (s : State) (r : Reg) (v : Word) : (wrReg s r v).winv = s.winv := rfl
@[simp] theorem wrReg_xvN (s : State) (r : Reg) (v : Word) : (wrReg s r v).xvN = s.xvN := rfl
@[simp] theorem wrReg_ctxStop (s : State) (r : Reg) (v : Word) : (wrReg s r v).ctxStop = s.ctxStop := rfl
@[simp] theorem wrReg_moves (s : State) (r : Reg) (v : Word) : (wrReg s r v).moves = s.moves := rfl
@[simp] theorem wrReg_grps (s : State) (r : Reg) (v : Word) : (wrReg s r v).grps = s.grps := rfl
@[simp] theorem wrReg_chFail (s : State) (r : Reg) (v : Word) : (wrReg s r v).chFail = s.chFail := rfl
@[simp] theorem wrReg_stackUse (s : State) (r : Reg) (v : Word) : (wrReg s r v).stackUse = s.stackUse := rfl
@[simp] theorem wrReg_flashW (s : State) (r : Reg) (v : Word) : (wrReg s r v).flashW = s.flashW := rfl
@[simp] theorem wrReg_group (s : State) (r : Reg) (v : Word) : (wrReg s r v).group = s.group := rfl
@[simp] theorem wrReg_queues (s : State) (r : Reg) (v : Word) : (wrReg s r v).queues = s.queues := rfl
@[simp] theorem wrReg_tasks (s : State) (r : Reg) (v : Word) : (wrReg s r v).tasks = s.tasks := rfl
@[simp] theorem wrReg_nextTask (s : State) (r : Reg) (v : Word) : (wrReg s r v).nextTask = s.nextTask := rfl
@[simp] theorem wrReg_lastQ (s : State) (r : Reg) (v : Word) : (wrReg s r v).lastQ = s.lastQ := rfl
@[simp] theorem wrReg_saves (s : State) (r : Reg) (v : Word) : (wrReg s r v).saves = s.saves := rfl
@[simp] theorem wrReg_emerg (s : State) (r : Reg) (v : Word) : (wrReg s r v).emerg = s.emerg := rfl
@[simp] theorem wrReg_ports (s : State) (r : Reg) (v : Word) : (wrReg s r v).ports = s.ports := rfl
@[simp] theorem wrReg_routeLeft (s : State) (r : Reg) (v : Word) : (wrReg s r v).routeLeft = s.routeLeft := rfl
@[simp] theorem wrReg_peerOut (s : State) (r : Reg) (v : Word) : (wrReg s r v).peerOut = s.peerOut := rfl
@[simp] theorem wrReg_nextPeer (s : State) (r : Reg) (v : Word) : (wrReg s r v).nextPeer = s.nextPeer := rfl
@[simp] theorem wrReg_ordKeys (s : State) (r : Reg) (v : Word) : (wrReg s r v).ordKeys = s.ordKeys := rfl
@[simp] theorem wrReg_resend (s : State) (r : Reg) (v : Word) : (wrReg s r v).resend = s.resend := rfl
@[simp] theorem wrReg_early (s : State) (r : Reg) (v : Word) : (wrReg s r v).early = s.early := rfl
@[simp] theorem wrReg_aborts (s : State) (r : Reg) (v : Word) : (wrReg s r v).aborts = s.aborts := rfl
@[simp] theorem wrReg_pes (s : State) (r : Reg) (v : Word) : (wrReg s r v).pes = s.pes := rfl
@[simp] theorem wrReg_winN (s : State) (r : Reg) (v : Word) : (wrReg s r v).winN = s.winN := rfl
@[simp] theorem wrReg_lastW (s : State) (r : Reg) (v : Word) : (wrReg s r v).lastW = s.lastW := rfl
@[simp] theorem wrReg_ballast (s : State) (r : Reg) (v : Word) : (wrReg s r v).ballast = s.ballast := rfl
@[simp] theorem wrReg_retired (s : State) (r : Reg) (v : Word) : (wrReg s r v).retired = s.retired := rfl
@[simp] theorem wrReg_sparesUsed (s : State) (r : Reg) (v : Word) : (wrReg s r v).sparesUsed = s.sparesUsed := rfl
@[simp] theorem wrReg_emergClk (s : State) (r : Reg) (v : Word) : (wrReg s r v).emergClk = s.emergClk := rfl
@[simp] theorem wrReg_resCtx (s : State) (r : Reg) (v : Word) : (wrReg s r v).resCtx = s.resCtx := rfl
@[simp] theorem wrReg_fw (s : State) (r : Reg) (v : Word) : (wrReg s r v).fw = s.fw := rfl
@[simp] theorem wrReg_fwActive (s : State) (r : Reg) (v : Word) : (wrReg s r v).fwActive = s.fwActive := rfl
@[simp] theorem wrReg_fwSwap (s : State) (r : Reg) (v : Word) : (wrReg s r v).fwSwap = s.fwSwap := rfl
@[simp] theorem wrReg_errLog (s : State) (r : Reg) (v : Word) : (wrReg s r v).errLog = s.errLog := rfl
@[simp] theorem wrReg_past (s : State) (r : Reg) (v : Word) : (wrReg s r v).past = s.past := rfl
@[simp] theorem wrReg_uncErrs (s : State) (r : Reg) (v : Word) : (wrReg s r v).uncErrs = s.uncErrs := rfl
@[simp] theorem wrReg_logTotals (s : State) (r : Reg) (v : Word) : (wrReg s r v).logTotals = s.logTotals := rfl
@[simp] theorem wrReg_quotes (s : State) (r : Reg) (v : Word) : (wrReg s r v).quotes = s.quotes := rfl
@[simp] theorem wrReg_bringup (s : State) (r : Reg) (v : Word) : (wrReg s r v).bringup = s.bringup := rfl
@[simp] theorem wrReg_sysRd (s : State) (r : Reg) (v : Word) : (wrReg s r v).sysRd = s.sysRd := rfl
@[simp] theorem wrReg_evWait (s : State) (r : Reg) (v : Word) : (wrReg s r v).evWait = s.evWait := rfl
@[simp] theorem wrReg_evLeft (s : State) (r : Reg) (v : Word) : (wrReg s r v).evLeft = s.evLeft := rfl
@[simp] theorem wrReg_evBad (s : State) (r : Reg) (v : Word) : (wrReg s r v).evBad = s.evBad := rfl
@[simp] theorem wrReg_outbox (s : State) (r : Reg) (v : Word) : (wrReg s r v).outbox = s.outbox := rfl
@[simp] theorem wrReg_net (s : State) (r : Reg) (v : Word) : (wrReg s r v).net = s.net := rfl
@[simp] theorem wrReg_held (s : State) (r : Reg) (v : Word) : (wrReg s r v).held = s.held := rfl
@[simp] theorem wrReg_script (s : State) (r : Reg) (v : Word) : (wrReg s r v).script = s.script := rfl
@[simp] theorem wrReg_pace (s : State) (r : Reg) (v : Word) : (wrReg s r v).pace = s.pace := rfl
@[simp] theorem wrReg_phase (s : State) (r : Reg) (v : Word) : (wrReg s r v).phase = s.phase := rfl
@[simp] theorem wrReg_rr (s : State) (r : Reg) (v : Word) : (wrReg s r v).rr = s.rr := rfl
@[simp] theorem wrReg_cur (s : State) (r : Reg) (v : Word) : (wrReg s r v).cur = s.cur := rfl
@[simp] theorem wrReg_raised (s : State) (r : Reg) (v : Word) : (wrReg s r v).raised = s.raised := rfl
@[simp] theorem wrReg_nextTag (s : State) (r : Reg) (v : Word) : (wrReg s r v).nextTag = s.nextTag := rfl
@[simp] theorem wrReg_fresh (s : State) (r : Reg) (v : Word) : (wrReg s r v).fresh = s.fresh := rfl

@[simp] theorem wrByte_pois (s : State) (a : Nat) (b : Byte) : (wrByte s a b).pois = s.pois := rfl
@[simp] theorem wrByte_bad (s : State) (a : Nat) (b : Byte) : (wrByte s a b).bad = s.bad := rfl
@[simp] theorem wrByte_dev (s : State) (a : Nat) (b : Byte) : (wrByte s a b).dev = s.dev := rfl
@[simp] theorem wrByte_clk (s : State) (a : Nat) (b : Byte) : (wrByte s a b).clk = s.clk := rfl
@[simp] theorem wrByte_cores (s : State) (a : Nat) (b : Byte) : (wrByte s a b).cores = s.cores := rfl
@[simp] theorem wrByte_lvl (s : State) (a : Nat) (b : Byte) : (wrByte s a b).lvl = s.lvl := rfl
@[simp] theorem wrByte_reg (s : State) (a : Nat) (b : Byte) : (wrByte s a b).reg = s.reg := rfl
@[simp] theorem wrByte_l2 (s : State) (a : Nat) (b : Byte) : (wrByte s a b).l2 = s.l2 := rfl
@[simp] theorem wrByte_l2q (s : State) (a : Nat) (b : Byte) : (wrByte s a b).l2q = s.l2q := rfl
@[simp] theorem wrByte_l2n (s : State) (a : Nat) (b : Byte) : (wrByte s a b).l2n = s.l2n := rfl
@[simp] theorem wrByte_regNow (s : State) (a : Nat) (b : Byte) : (wrByte s a b).regNow = s.regNow := rfl
@[simp] theorem wrByte_clkSeq (s : State) (a : Nat) (b : Byte) : (wrByte s a b).clkSeq = s.clkSeq := rfl
@[simp] theorem wrByte_deadChips (s : State) (a : Nat) (b : Byte) : (wrByte s a b).deadChips = s.deadChips := rfl
@[simp] theorem wrByte_locks (s : State) (a : Nat) (b : Byte) : (wrByte s a b).locks = s.locks := rfl
@[simp] theorem wrByte_ownReq (s : State) (a : Nat) (b : Byte) : (wrByte s a b).ownReq = s.ownReq := rfl
@[simp] theorem wrByte_gw (s : State) (a : Nat) (b : Byte) : (wrByte s a b).gw = s.gw := rfl
@[simp] theorem wrByte_wcache (s : State) (a : Nat) (b : Byte) : (wrByte s a b).wcache = s.wcache := rfl
@[simp] theorem wrByte_walks (s : State) (a : Nat) (b : Byte) : (wrByte s a b).walks = s.walks := rfl
@[simp] theorem wrByte_winv (s : State) (a : Nat) (b : Byte) : (wrByte s a b).winv = s.winv := rfl
@[simp] theorem wrByte_xvN (s : State) (a : Nat) (b : Byte) : (wrByte s a b).xvN = s.xvN := rfl
@[simp] theorem wrByte_ctxStop (s : State) (a : Nat) (b : Byte) : (wrByte s a b).ctxStop = s.ctxStop := rfl
@[simp] theorem wrByte_moves (s : State) (a : Nat) (b : Byte) : (wrByte s a b).moves = s.moves := rfl
@[simp] theorem wrByte_grps (s : State) (a : Nat) (b : Byte) : (wrByte s a b).grps = s.grps := rfl
@[simp] theorem wrByte_chFail (s : State) (a : Nat) (b : Byte) : (wrByte s a b).chFail = s.chFail := rfl
@[simp] theorem wrByte_stackUse (s : State) (a : Nat) (b : Byte) : (wrByte s a b).stackUse = s.stackUse := rfl
@[simp] theorem wrByte_flashW (s : State) (a : Nat) (b : Byte) : (wrByte s a b).flashW = s.flashW := rfl
@[simp] theorem wrByte_group (s : State) (a : Nat) (b : Byte) : (wrByte s a b).group = s.group := rfl
@[simp] theorem wrByte_queues (s : State) (a : Nat) (b : Byte) : (wrByte s a b).queues = s.queues := rfl
@[simp] theorem wrByte_tasks (s : State) (a : Nat) (b : Byte) : (wrByte s a b).tasks = s.tasks := rfl
@[simp] theorem wrByte_nextTask (s : State) (a : Nat) (b : Byte) : (wrByte s a b).nextTask = s.nextTask := rfl
@[simp] theorem wrByte_lastQ (s : State) (a : Nat) (b : Byte) : (wrByte s a b).lastQ = s.lastQ := rfl
@[simp] theorem wrByte_saves (s : State) (a : Nat) (b : Byte) : (wrByte s a b).saves = s.saves := rfl
@[simp] theorem wrByte_emerg (s : State) (a : Nat) (b : Byte) : (wrByte s a b).emerg = s.emerg := rfl
@[simp] theorem wrByte_ports (s : State) (a : Nat) (b : Byte) : (wrByte s a b).ports = s.ports := rfl
@[simp] theorem wrByte_routeLeft (s : State) (a : Nat) (b : Byte) : (wrByte s a b).routeLeft = s.routeLeft := rfl
@[simp] theorem wrByte_peerOut (s : State) (a : Nat) (b : Byte) : (wrByte s a b).peerOut = s.peerOut := rfl
@[simp] theorem wrByte_nextPeer (s : State) (a : Nat) (b : Byte) : (wrByte s a b).nextPeer = s.nextPeer := rfl
@[simp] theorem wrByte_ordKeys (s : State) (a : Nat) (b : Byte) : (wrByte s a b).ordKeys = s.ordKeys := rfl
@[simp] theorem wrByte_resend (s : State) (a : Nat) (b : Byte) : (wrByte s a b).resend = s.resend := rfl
@[simp] theorem wrByte_early (s : State) (a : Nat) (b : Byte) : (wrByte s a b).early = s.early := rfl
@[simp] theorem wrByte_aborts (s : State) (a : Nat) (b : Byte) : (wrByte s a b).aborts = s.aborts := rfl
@[simp] theorem wrByte_pes (s : State) (a : Nat) (b : Byte) : (wrByte s a b).pes = s.pes := rfl
@[simp] theorem wrByte_winN (s : State) (a : Nat) (b : Byte) : (wrByte s a b).winN = s.winN := rfl
@[simp] theorem wrByte_lastW (s : State) (a : Nat) (b : Byte) : (wrByte s a b).lastW = s.lastW := rfl
@[simp] theorem wrByte_ballast (s : State) (a : Nat) (b : Byte) : (wrByte s a b).ballast = s.ballast := rfl
@[simp] theorem wrByte_retired (s : State) (a : Nat) (b : Byte) : (wrByte s a b).retired = s.retired := rfl
@[simp] theorem wrByte_sparesUsed (s : State) (a : Nat) (b : Byte) : (wrByte s a b).sparesUsed = s.sparesUsed := rfl
@[simp] theorem wrByte_emergClk (s : State) (a : Nat) (b : Byte) : (wrByte s a b).emergClk = s.emergClk := rfl
@[simp] theorem wrByte_resCtx (s : State) (a : Nat) (b : Byte) : (wrByte s a b).resCtx = s.resCtx := rfl
@[simp] theorem wrByte_fw (s : State) (a : Nat) (b : Byte) : (wrByte s a b).fw = s.fw := rfl
@[simp] theorem wrByte_fwActive (s : State) (a : Nat) (b : Byte) : (wrByte s a b).fwActive = s.fwActive := rfl
@[simp] theorem wrByte_fwSwap (s : State) (a : Nat) (b : Byte) : (wrByte s a b).fwSwap = s.fwSwap := rfl
@[simp] theorem wrByte_errLog (s : State) (a : Nat) (b : Byte) : (wrByte s a b).errLog = s.errLog := rfl
@[simp] theorem wrByte_past (s : State) (a : Nat) (b : Byte) : (wrByte s a b).past = s.past := rfl
@[simp] theorem wrByte_uncErrs (s : State) (a : Nat) (b : Byte) : (wrByte s a b).uncErrs = s.uncErrs := rfl
@[simp] theorem wrByte_logTotals (s : State) (a : Nat) (b : Byte) : (wrByte s a b).logTotals = s.logTotals := rfl
@[simp] theorem wrByte_quotes (s : State) (a : Nat) (b : Byte) : (wrByte s a b).quotes = s.quotes := rfl
@[simp] theorem wrByte_bringup (s : State) (a : Nat) (b : Byte) : (wrByte s a b).bringup = s.bringup := rfl
@[simp] theorem wrByte_sysRd (s : State) (a : Nat) (b : Byte) : (wrByte s a b).sysRd = s.sysRd := rfl
@[simp] theorem wrByte_evWait (s : State) (a : Nat) (b : Byte) : (wrByte s a b).evWait = s.evWait := rfl
@[simp] theorem wrByte_evLeft (s : State) (a : Nat) (b : Byte) : (wrByte s a b).evLeft = s.evLeft := rfl
@[simp] theorem wrByte_evBad (s : State) (a : Nat) (b : Byte) : (wrByte s a b).evBad = s.evBad := rfl
@[simp] theorem wrByte_outbox (s : State) (a : Nat) (b : Byte) : (wrByte s a b).outbox = s.outbox := rfl
@[simp] theorem wrByte_net (s : State) (a : Nat) (b : Byte) : (wrByte s a b).net = s.net := rfl
@[simp] theorem wrByte_held (s : State) (a : Nat) (b : Byte) : (wrByte s a b).held = s.held := rfl
@[simp] theorem wrByte_script (s : State) (a : Nat) (b : Byte) : (wrByte s a b).script = s.script := rfl
@[simp] theorem wrByte_pace (s : State) (a : Nat) (b : Byte) : (wrByte s a b).pace = s.pace := rfl
@[simp] theorem wrByte_phase (s : State) (a : Nat) (b : Byte) : (wrByte s a b).phase = s.phase := rfl
@[simp] theorem wrByte_rr (s : State) (a : Nat) (b : Byte) : (wrByte s a b).rr = s.rr := rfl
@[simp] theorem wrByte_cur (s : State) (a : Nat) (b : Byte) : (wrByte s a b).cur = s.cur := rfl
@[simp] theorem wrByte_raised (s : State) (a : Nat) (b : Byte) : (wrByte s a b).raised = s.raised := rfl
@[simp] theorem wrByte_nextTag (s : State) (a : Nat) (b : Byte) : (wrByte s a b).nextTag = s.nextTag := rfl
@[simp] theorem wrByte_fresh (s : State) (a : Nat) (b : Byte) : (wrByte s a b).fresh = s.fresh := rfl

@[simp] theorem setMemWord_dev (s : State) (w : Nat) (x : Lane) : (setMemWord s w x).dev = s.dev := rfl
@[simp] theorem setMemWord_clk (s : State) (w : Nat) (x : Lane) : (setMemWord s w x).clk = s.clk := rfl
@[simp] theorem setMemWord_cores (s : State) (w : Nat) (x : Lane) : (setMemWord s w x).cores = s.cores := rfl
@[simp] theorem setMemWord_lvl (s : State) (w : Nat) (x : Lane) : (setMemWord s w x).lvl = s.lvl := rfl
@[simp] theorem setMemWord_reg (s : State) (w : Nat) (x : Lane) : (setMemWord s w x).reg = s.reg := rfl
@[simp] theorem setMemWord_l2 (s : State) (w : Nat) (x : Lane) : (setMemWord s w x).l2 = s.l2 := rfl
@[simp] theorem setMemWord_l2q (s : State) (w : Nat) (x : Lane) : (setMemWord s w x).l2q = s.l2q := rfl
@[simp] theorem setMemWord_l2n (s : State) (w : Nat) (x : Lane) : (setMemWord s w x).l2n = s.l2n := rfl
@[simp] theorem setMemWord_regNow (s : State) (w : Nat) (x : Lane) : (setMemWord s w x).regNow = s.regNow := rfl
@[simp] theorem setMemWord_clkSeq (s : State) (w : Nat) (x : Lane) : (setMemWord s w x).clkSeq = s.clkSeq := rfl
@[simp] theorem setMemWord_deadChips (s : State) (w : Nat) (x : Lane) : (setMemWord s w x).deadChips = s.deadChips := rfl
@[simp] theorem setMemWord_locks (s : State) (w : Nat) (x : Lane) : (setMemWord s w x).locks = s.locks := rfl
@[simp] theorem setMemWord_ownReq (s : State) (w : Nat) (x : Lane) : (setMemWord s w x).ownReq = s.ownReq := rfl
@[simp] theorem setMemWord_gw (s : State) (w : Nat) (x : Lane) : (setMemWord s w x).gw = s.gw := rfl
@[simp] theorem setMemWord_wcache (s : State) (w : Nat) (x : Lane) : (setMemWord s w x).wcache = s.wcache := rfl
@[simp] theorem setMemWord_walks (s : State) (w : Nat) (x : Lane) : (setMemWord s w x).walks = s.walks := rfl
@[simp] theorem setMemWord_winv (s : State) (w : Nat) (x : Lane) : (setMemWord s w x).winv = s.winv := rfl
@[simp] theorem setMemWord_xvN (s : State) (w : Nat) (x : Lane) : (setMemWord s w x).xvN = s.xvN := rfl
@[simp] theorem setMemWord_ctxStop (s : State) (w : Nat) (x : Lane) : (setMemWord s w x).ctxStop = s.ctxStop := rfl
@[simp] theorem setMemWord_moves (s : State) (w : Nat) (x : Lane) : (setMemWord s w x).moves = s.moves := rfl
@[simp] theorem setMemWord_grps (s : State) (w : Nat) (x : Lane) : (setMemWord s w x).grps = s.grps := rfl
@[simp] theorem setMemWord_chFail (s : State) (w : Nat) (x : Lane) : (setMemWord s w x).chFail = s.chFail := rfl
@[simp] theorem setMemWord_stackUse (s : State) (w : Nat) (x : Lane) : (setMemWord s w x).stackUse = s.stackUse := rfl
@[simp] theorem setMemWord_flashW (s : State) (w : Nat) (x : Lane) : (setMemWord s w x).flashW = s.flashW := rfl
@[simp] theorem setMemWord_group (s : State) (w : Nat) (x : Lane) : (setMemWord s w x).group = s.group := rfl
@[simp] theorem setMemWord_queues (s : State) (w : Nat) (x : Lane) : (setMemWord s w x).queues = s.queues := rfl
@[simp] theorem setMemWord_tasks (s : State) (w : Nat) (x : Lane) : (setMemWord s w x).tasks = s.tasks := rfl
@[simp] theorem setMemWord_nextTask (s : State) (w : Nat) (x : Lane) : (setMemWord s w x).nextTask = s.nextTask := rfl
@[simp] theorem setMemWord_lastQ (s : State) (w : Nat) (x : Lane) : (setMemWord s w x).lastQ = s.lastQ := rfl
@[simp] theorem setMemWord_saves (s : State) (w : Nat) (x : Lane) : (setMemWord s w x).saves = s.saves := rfl
@[simp] theorem setMemWord_emerg (s : State) (w : Nat) (x : Lane) : (setMemWord s w x).emerg = s.emerg := rfl
@[simp] theorem setMemWord_ports (s : State) (w : Nat) (x : Lane) : (setMemWord s w x).ports = s.ports := rfl
@[simp] theorem setMemWord_routeLeft (s : State) (w : Nat) (x : Lane) : (setMemWord s w x).routeLeft = s.routeLeft := rfl
@[simp] theorem setMemWord_peerOut (s : State) (w : Nat) (x : Lane) : (setMemWord s w x).peerOut = s.peerOut := rfl
@[simp] theorem setMemWord_nextPeer (s : State) (w : Nat) (x : Lane) : (setMemWord s w x).nextPeer = s.nextPeer := rfl
@[simp] theorem setMemWord_ordKeys (s : State) (w : Nat) (x : Lane) : (setMemWord s w x).ordKeys = s.ordKeys := rfl
@[simp] theorem setMemWord_resend (s : State) (w : Nat) (x : Lane) : (setMemWord s w x).resend = s.resend := rfl
@[simp] theorem setMemWord_early (s : State) (w : Nat) (x : Lane) : (setMemWord s w x).early = s.early := rfl
@[simp] theorem setMemWord_aborts (s : State) (w : Nat) (x : Lane) : (setMemWord s w x).aborts = s.aborts := rfl
@[simp] theorem setMemWord_pes (s : State) (w : Nat) (x : Lane) : (setMemWord s w x).pes = s.pes := rfl
@[simp] theorem setMemWord_winN (s : State) (w : Nat) (x : Lane) : (setMemWord s w x).winN = s.winN := rfl
@[simp] theorem setMemWord_lastW (s : State) (w : Nat) (x : Lane) : (setMemWord s w x).lastW = s.lastW := rfl
@[simp] theorem setMemWord_ballast (s : State) (w : Nat) (x : Lane) : (setMemWord s w x).ballast = s.ballast := rfl
@[simp] theorem setMemWord_retired (s : State) (w : Nat) (x : Lane) : (setMemWord s w x).retired = s.retired := rfl
@[simp] theorem setMemWord_sparesUsed (s : State) (w : Nat) (x : Lane) : (setMemWord s w x).sparesUsed = s.sparesUsed := rfl
@[simp] theorem setMemWord_emergClk (s : State) (w : Nat) (x : Lane) : (setMemWord s w x).emergClk = s.emergClk := rfl
@[simp] theorem setMemWord_resCtx (s : State) (w : Nat) (x : Lane) : (setMemWord s w x).resCtx = s.resCtx := rfl
@[simp] theorem setMemWord_fw (s : State) (w : Nat) (x : Lane) : (setMemWord s w x).fw = s.fw := rfl
@[simp] theorem setMemWord_fwActive (s : State) (w : Nat) (x : Lane) : (setMemWord s w x).fwActive = s.fwActive := rfl
@[simp] theorem setMemWord_fwSwap (s : State) (w : Nat) (x : Lane) : (setMemWord s w x).fwSwap = s.fwSwap := rfl
@[simp] theorem setMemWord_errLog (s : State) (w : Nat) (x : Lane) : (setMemWord s w x).errLog = s.errLog := rfl
@[simp] theorem setMemWord_past (s : State) (w : Nat) (x : Lane) : (setMemWord s w x).past = s.past := rfl
@[simp] theorem setMemWord_uncErrs (s : State) (w : Nat) (x : Lane) : (setMemWord s w x).uncErrs = s.uncErrs := rfl
@[simp] theorem setMemWord_logTotals (s : State) (w : Nat) (x : Lane) : (setMemWord s w x).logTotals = s.logTotals := rfl
@[simp] theorem setMemWord_quotes (s : State) (w : Nat) (x : Lane) : (setMemWord s w x).quotes = s.quotes := rfl
@[simp] theorem setMemWord_bringup (s : State) (w : Nat) (x : Lane) : (setMemWord s w x).bringup = s.bringup := rfl
@[simp] theorem setMemWord_sysRd (s : State) (w : Nat) (x : Lane) : (setMemWord s w x).sysRd = s.sysRd := rfl
@[simp] theorem setMemWord_evWait (s : State) (w : Nat) (x : Lane) : (setMemWord s w x).evWait = s.evWait := rfl
@[simp] theorem setMemWord_evLeft (s : State) (w : Nat) (x : Lane) : (setMemWord s w x).evLeft = s.evLeft := rfl
@[simp] theorem setMemWord_evBad (s : State) (w : Nat) (x : Lane) : (setMemWord s w x).evBad = s.evBad := rfl
@[simp] theorem setMemWord_outbox (s : State) (w : Nat) (x : Lane) : (setMemWord s w x).outbox = s.outbox := rfl
@[simp] theorem setMemWord_net (s : State) (w : Nat) (x : Lane) : (setMemWord s w x).net = s.net := rfl
@[simp] theorem setMemWord_held (s : State) (w : Nat) (x : Lane) : (setMemWord s w x).held = s.held := rfl
@[simp] theorem setMemWord_script (s : State) (w : Nat) (x : Lane) : (setMemWord s w x).script = s.script := rfl
@[simp] theorem setMemWord_pace (s : State) (w : Nat) (x : Lane) : (setMemWord s w x).pace = s.pace := rfl
@[simp] theorem setMemWord_phase (s : State) (w : Nat) (x : Lane) : (setMemWord s w x).phase = s.phase := rfl
@[simp] theorem setMemWord_rr (s : State) (w : Nat) (x : Lane) : (setMemWord s w x).rr = s.rr := rfl
@[simp] theorem setMemWord_cur (s : State) (w : Nat) (x : Lane) : (setMemWord s w x).cur = s.cur := rfl
@[simp] theorem setMemWord_raised (s : State) (w : Nat) (x : Lane) : (setMemWord s w x).raised = s.raised := rfl
@[simp] theorem setMemWord_nextTag (s : State) (w : Nat) (x : Lane) : (setMemWord s w x).nextTag = s.nextTag := rfl
@[simp] theorem setMemWord_fresh (s : State) (w : Nat) (x : Lane) : (setMemWord s w x).fresh = s.fresh := rfl

end Sys2Proof.Machine
end

