-- ==== Sys2Proof/Laws/Memory.lean ====
section
/-! SUPPORT. Memory: every operation over it keeps its canonical form, bytes and words read as they were written (R10, R44). -/
namespace Sys2Proof.Machine

/-! ## The canonical form -/

/-- A memory is canonical when its first byte is not the default, every later address is higher, and the rest is canonical. -/
theorem Memory.wf_cons (a : Nat) (b : Byte) (r : List Host.Cell) :
    Memory.wf ((a, b) :: r) = true ↔ b ≠ 0 ∧ (∀ x ∈ r, a < x.1) ∧ Memory.wf r = true := by
  induction r generalizing a b with
  | nil => simp [Memory.wf]
  | cons x r ih =>
    obtain ⟨c, d⟩ := x
    have h := ih c d
    simp only [Memory.wf, Bool.and_eq_true, decide_eq_true_eq, bne_iff_ne, List.mem_cons, forall_eq_or_imp]
    constructor
    · rintro ⟨⟨hac, hb⟩, hr⟩
      exact ⟨hb, ⟨hac, fun y hy => Nat.lt_trans hac ((h.mp hr).2.1 y hy)⟩, hr⟩
    · rintro ⟨hb, ⟨hac, _⟩, hr⟩
      exact ⟨⟨hac, hb⟩, hr⟩

/-- The keys of a map after a write are its own or the written one. -/
theorem mem_mput {α : Type} (m : FMap α) (k : Nat) (v : α) (x : Nat × α) (h : x ∈ mput m k v) : x = (k, v) ∨ x ∈ m := by
  induction m with
  | nil => simp [mput] at h; exact .inl h
  | cons y r ih =>
    obtain ⟨i, w⟩ := y
    unfold mput at h
    split at h
    · simpa using h
    · split at h
      · simp only [List.mem_cons] at h ⊢; tauto
      · simp only [List.mem_cons] at h ⊢
        rcases h with h | h
        · tauto
        · rcases ih h with h | h <;> tauto
theorem mem_mdel {α : Type} (m : FMap α) (k : Nat) (x : Nat × α) (h : x ∈ mdel m k) : x ∈ m := by
  induction m with
  | nil => simp [mdel] at h
  | cons y r ih =>
    obtain ⟨i, w⟩ := y
    unfold mdel at h
    split at h
    · exact List.mem_cons_of_mem _ (ih h)
    · simp only [List.mem_cons] at h ⊢
      exact h.imp id ih

theorem Memory.wf_mput (m : List Host.Cell) (k : Nat) (v : Byte) (hv : v ≠ 0) (h : Memory.wf m = true) : Memory.wf (mput m k v) = true := by
  induction m with
  | nil => simpa [mput, Memory.wf] using hv
  | cons x r ih =>
    obtain ⟨i, w⟩ := x
    have hc := (Memory.wf_cons i w r).mp h
    unfold mput
    split
    · rename_i hk
      refine (Memory.wf_cons _ _ _).mpr ⟨hv, ?_, h⟩
      simp only [List.mem_cons, forall_eq_or_imp]
      exact ⟨hk, fun y hy => Nat.lt_trans hk (hc.2.1 y hy)⟩
    · rename_i hk
      split
      · rename_i he; subst he
        exact (Memory.wf_cons _ _ _).mpr ⟨hv, hc.2.1, hc.2.2⟩
      · rename_i he
        refine (Memory.wf_cons _ _ _).mpr ⟨hc.1, ?_, ih hc.2.2⟩
        intro y hy
        rcases mem_mput r k v y hy with rfl | hy
        · show i < k
          omega
        · exact hc.2.1 y hy
theorem Memory.wf_mdel (m : List Host.Cell) (k : Nat) (h : Memory.wf m = true) : Memory.wf (mdel m k) = true := by
  induction m with
  | nil => rfl
  | cons x r ih =>
    obtain ⟨i, w⟩ := x
    have hc := (Memory.wf_cons i w r).mp h
    unfold mdel
    split
    · exact ih hc.2.2
    · exact (Memory.wf_cons _ _ _).mpr ⟨hc.1, fun y hy => hc.2.1 y (mem_mdel r k y hy), ih hc.2.2⟩
/-- A write of one byte keeps the canonical form. -/
theorem Memory.wf_mset (m : List Host.Cell) (k : Nat) (v : Byte) (h : Memory.wf m = true) : Memory.wf (mset 0 m k v) = true := by
  unfold mset
  split
  · exact Memory.wf_mdel m k h
  · rename_i hv
    exact Memory.wf_mput m k v hv h
/-- Dropping bytes keeps it (a cold reset, an emptied parity area). -/
theorem Memory.wf_filter (m : List Host.Cell) (p : Host.Cell → Bool) (h : Memory.wf m = true) : Memory.wf (m.filter p) = true := by
  induction m with
  | nil => rfl
  | cons x r ih =>
    obtain ⟨i, w⟩ := x
    have hc := (Memory.wf_cons i w r).mp h
    simp only [List.filter_cons]
    split
    · exact (Memory.wf_cons _ _ _).mpr ⟨hc.1, fun y hy => hc.2.1 y ((List.mem_filter.mp hy).1), ih hc.2.2⟩
    · exact ih hc.2.2

theorem wrByte_wf (s : State) (a : Nat) (b : Byte) (h : Memory.wf s.mem = true) : Memory.wf (wrByte s a b).mem = true := Memory.wf_mset _ _ _ h
theorem wrLe_wf (s : State) (a v n : Nat) (h : Memory.wf s.mem = true) : Memory.wf (wrLe s a v n).mem = true := by
  induction n generalizing s a v with
  | zero => exact h
  | succ n ih => exact ih _ _ _ (wrByte_wf s a _ h)
theorem setMemWord_wf (s : State) (w : Nat) (x : Lane) (h : Memory.wf s.mem = true) : Memory.wf (setMemWord s w x).mem = true :=
  wrLe_wf s (4 * w) x.v.toNat 4 h
theorem afterColdReset_wf (s : State) (h : Memory.wf s.mem = true) : Memory.wf (afterColdReset s).mem = true := Memory.wf_filter _ _ h

/-! ## Read after write -/

/-- Bytes outside the written ones keep their value (R10). -/
theorem rdByte_wrLe_other (s : State) (a v n b : Nat) (h : b < a ∨ a + n ≤ b) : rdByte (wrLe s a v n) b = rdByte s b := by
  induction n generalizing s a v with
  | zero => rfl
  | succ n ih =>
    rw [wrLe, ih _ _ _ (by omega), rdByte_wrByte, if_neg (by omega)]
/-- The bytes written are those of the number, lowest first. -/
theorem rdByte_wrLe (s : State) (a v n i : Nat) (h : i < n) : rdByte (wrLe s a v n) (a + i) = BitVec.ofNat 8 (v / 256 ^ i) := by
  induction n generalizing s a v i with
  | zero => omega
  | succ n ih =>
    rw [wrLe]
    cases i with
    | zero => rw [rdByte_wrLe_other _ _ _ _ _ (by omega)]; simp
    | succ i =>
      have := ih (wrByte s a (BitVec.ofNat 8 v)) (a + 1) (v / 256) i (by omega)
      rw [show a + (i + 1) = a + 1 + i by omega, this, Nat.div_div_eq_div_mul, pow_succ, Nat.mul_comm]
/-- A number that was written reads back, modulo its width. -/
theorem rdLe_wrLe_same (s : State) (a v n : Nat) : rdLe (wrLe s a v n) a n = v % 256 ^ n := by
  induction n generalizing s a v with
  | zero => simp [rdLe, Nat.mod_one]
  | succ n ih =>
    have hb := rdByte_wrLe s a v (n + 1) 0 (by omega)
    simp only [Nat.add_zero, pow_zero, Nat.div_one] at hb
    rw [rdLe, hb, wrLe, ih, pow_succ, Nat.mul_comm (256 ^ n) 256, Nat.mod_mul]
    simp
/-- A number that no written byte touches reads as before. -/
theorem rdLe_wrLe_other (s : State) (a v n b m : Nat) (h : b + m ≤ a ∨ a + n ≤ b) : rdLe (wrLe s a v n) b m = rdLe s b m := by
  induction m generalizing b with
  | zero => rfl
  | succ m ih => rw [rdLe, rdLe, rdByte_wrLe_other _ _ _ _ _ (by omega), ih _ (by omega)]

/-- R44, R277: a home word reads as it was written, with its poison bit; every other word as before. -/
theorem memWord_setMemWord (s : State) (w j : Nat) (x : Lane) : memWord (setMemWord s w x) j = if j = w then x else memWord s j := by
  unfold memWord
  have hp : mget false (setMemWord s w x).pois j = if j = w then x.p else mget false s.pois j := mget_mset _ _ _ _ _
  have hb : rdLe (setMemWord s w x) (4 * j) 4 = rdLe (wrLe s (4 * w) x.v.toNat 4) (4 * j) 4 := rfl
  rw [hp, hb]
  by_cases h : j = w
  · subst h
    rw [rdLe_wrLe_same]
    have : BitVec.ofNat 32 (x.v.toNat % 4294967296) = x.v := by rw [Nat.mod_eq_of_lt x.v.isLt]; exact BitVec.ofNat_toNat ..
    obtain ⟨v, p⟩ := x
    simpa using this
  · rw [rdLe_wrLe_other _ _ _ _ _ _ (by omega)]
    simp [h]
theorem rdByte_setMemWord_other (s : State) (w a : Nat) (x : Lane) (h : a / 4 ≠ w) : rdByte (setMemWord s w x) a = rdByte s a :=
  rdByte_wrLe_other s (4 * w) x.v.toNat 4 a (by omega)

/-! ## Updates that do not touch memory -/

@[simp] theorem rdByte_setCore (s : State) (k : Nat) (c : Core) (a : Nat) : rdByte (setCore s k c) a = rdByte s a := rfl
@[simp] theorem rdByte_modCore (s : State) (k : Nat) (f : Core → Core) (a : Nat) : rdByte (modCore s k f) a = rdByte s a := rfl
@[simp] theorem rdByte_modSeq (s : State) (k q : Nat) (f : Seq → Seq) (a : Nat) : rdByte (modSeq s k q f) a = rdByte s a := rfl
@[simp] theorem rdByte_wrReg (s : State) (r : Reg) (v : Word) (a : Nat) : rdByte (wrReg s r v) a = rdByte s a := rfl
@[simp] theorem memWord_setCore (s : State) (k : Nat) (c : Core) (w : Nat) : memWord (setCore s k c) w = memWord s w := rfl
@[simp] theorem rdReg_setCore (s : State) (k : Nat) (c : Core) (r : Reg) : rdReg (setCore s k c) r = rdReg s r := rfl
@[simp] theorem rdReg_modCore (s : State) (k : Nat) (f : Core → Core) (r : Reg) : rdReg (modCore s k f) r = rdReg s r := rfl
@[simp] theorem rdReg_modSeq (s : State) (k q : Nat) (f : Seq → Seq) (r : Reg) : rdReg (modSeq s k q f) r = rdReg s r := rfl
@[simp] theorem rdReg_wrByte (s : State) (a : Nat) (b : Byte) (r : Reg) : rdReg (wrByte s a b) r = rdReg s r := rfl
@[simp] theorem rdReg_setMemWord (s : State) (w : Nat) (x : Lane) (r : Reg) : rdReg (setMemWord s w x) r = rdReg s r := rfl

end Sys2Proof.Machine
end

