-- ==== Sys2Proof/Laws/Ops.lean ====
section
/-! SUPPORT. Shared operations of a slot and of a core, each with what it can do said once: results in flight, raising, handler entry and
return, ending a task, semaphores, engine queues, register reads. -/
namespace Sys2Proof.Machine

/-! ## Registers of a sequencer (R199, R205, R206) -/

@[simp] theorem rdS_zero (x : Seq) : rdS x 0 = {} := rfl
@[simp] theorem rdP_zero (x : Seq) : rdP x 0 = true := rfl
@[simp] theorem rdQ_zero (x : Seq) : rdQ x 0 = 0xFFFF := rfl

/-- A landing s write: its register reads as written, every other as before. -/
theorem rdS_applyW_s (x : Seq) (d n : BitVec 6) (v : Word) (p : Bool) :
    rdS (applyW x (.s d.toNat v p)) n = if n = d ∧ d ≠ 0 then ⟨v, p⟩ else rdS x n := by
  unfold rdS applyW
  by_cases hd : d = 0
  · subst hd; simp
  · have hd' : d.toNat ≠ 0 := fun h => hd (BitVec.eq_of_toNat_eq h)
    simp only [hd', if_false]
    by_cases hn : n = 0
    · subst hn
      rw [if_pos rfl, if_pos rfl, if_neg fun h => hd h.1.symm]
    · simp only [hn, if_false, mget_mset]
      by_cases h : n = d
      · subst h; rw [if_pos rfl, if_pos ⟨rfl, hd⟩]
      · have : n.toNat ≠ d.toNat := fun e => h (BitVec.eq_of_toNat_eq e)
        simp [h, this]
/-- A landing lane: that lane reads as written, every other as before. -/
theorem rdV_applyW_lane (x : Seq) (d n : BitVec 6) (l j : Nat) (v : W32) (p : Bool) (hl : l < 16) (hj : j < 16) :
    rdV (applyW x (.lane d.toNat l v p)) n j = if n = d ∧ j = l then ⟨v, p⟩ else rdV x n j := by
  simp only [rdV, applyW, mget_mset]
  by_cases h : n = d ∧ j = l
  · obtain ⟨rfl, rfl⟩ := h; simp
  · rw [if_neg h, if_neg]
    intro e
    exact h ⟨BitVec.eq_of_toNat_eq (by omega), by omega⟩
@[simp] theorem rdV_applyW_s (x : Seq) (d : Nat) (v : Word) (p : Bool) (n : BitVec 6) (l : Nat) : rdV (applyW x (.s d v p)) n l = rdV x n l := by
  unfold applyW rdV; dsimp only; split <;> rfl
@[simp] theorem rdS_applyW_lane (x : Seq) (d l : Nat) (v : W32) (p : Bool) (n : BitVec 6) : rdS (applyW x (.lane d l v p)) n = rdS x n := rfl
@[simp] theorem rdS_applyW_pred (x : Seq) (n : Nat) (b : Bool) (m : BitVec 6) : rdS (applyW x (.pred n b)) m = rdS x m := rfl
@[simp] theorem rdV_applyW_pred (x : Seq) (n : Nat) (b : Bool) (m : BitVec 6) (l : Nat) : rdV (applyW x (.pred n b)) m l = rdV x m l := rfl

/-! ## Results and raising (R181, R371) -/

/-- A slot's result stands in flight at its own sequencer; nothing else changes. -/
theorem result_eq (s : State) (lat : Nat) (ws : List LandW) :
    result s lat ws = setSeq s s.cur.core s.cur.seq { me s with infl := (me s).infl ++ [⟨lat, s.cur.slot, ws, none⟩] } := rfl
@[simp] theorem me_result (s : State) (lat : Nat) (ws : List LandW) :
    me (result s lat ws) = { me s with infl := (me s).infl ++ [⟨lat, s.cur.slot, ws, none⟩] } :=
  seqOf_modSeq_same s s.cur.core s.cur.seq fun x => { x with infl := x.infl ++ [⟨lat, s.cur.slot, ws, none⟩] }
@[simp] theorem rdByte_result (s : State) (lat : Nat) (ws : List LandW) (a : Nat) : rdByte (result s lat ws) a = rdByte s a := rfl
@[simp] theorem rdReg_result (s : State) (lat : Nat) (ws : List LandW) (r : Reg) : rdReg (result s lat ws) r = rdReg s r := rfl

/-- Raising changes only what is raised. -/
theorem raise_frame (s : State) (r : Raise) : ∃ x, raise s r = { s with raised := x } := by
  unfold raise
  split
  · exact ⟨_, rfl⟩
  · split
    · exact ⟨_, rfl⟩
    · exact ⟨s.raised, rfl⟩
theorem fault_frame (s : State) (c : Nat) (v : Word) : ∃ x, fault s c v = { s with raised := x } := raise_frame s _
/-- The first thing raised stands with its slot. -/
theorem raise_first (s : State) (r : Raise) (h : s.raised = none) : raise s r = { s with raised := some (s.cur.slot, r) } := by
  unfold raise; rw [h]
@[simp] theorem raise_mem (s : State) (r : Raise) : (raise s r).mem = s.mem := by obtain ⟨x, h⟩ := raise_frame s r; rw [h]
@[simp] theorem raise_cores (s : State) (r : Raise) : (raise s r).cores = s.cores := by obtain ⟨x, h⟩ := raise_frame s r; rw [h]
@[simp] theorem raise_dev (s : State) (r : Raise) : (raise s r).dev = s.dev := by obtain ⟨x, h⟩ := raise_frame s r; rw [h]

/-! ## Handlers (R373, R375, R376) -/

/-- In user mode with a handler a fault enters it, and its record is logged. -/
theorem takeTrap_user (s : State) (k q : Nat) (pc : Word) (t : Trap) (hm : (seqOf s k q).mode = false) (hh : hasHandler s k = true) :
    takeTrap s k q pc t = modSeq (logFault s (64 * k + q) t) k q fun x => enterHandler x pc t := by
  have h1 : (seqOf (logFault s (64 * k + q) t) k q).mode = false := hm
  have h2 : hasHandler (logFault s (64 * k + q) t) k = true := hh
  simp [takeTrap, h1, h2]
/-- In system mode, or without a handler, it ends the task. -/
theorem takeTrap_ends (s : State) (k q : Nat) (pc : Word) (t : Trap) (h : (seqOf s k q).mode = true ∨ hasHandler s k = false) :
    takeTrap s k q pc t = endCoreTask (logFault s (64 * k + q) t) k 2 t.cause := by
  have h' : (seqOf (logFault s (64 * k + q) t) k q).mode = true ∨ hasHandler (logFault s (64 * k + q) t) k = false := h
  unfold takeTrap
  rcases h' with h' | h' <;> simp [h']
/-- A return undoes an entry: mode, transfer and results in flight are those of the interrupted code. -/
theorem returnFrom_enterHandler (x : Seq) (pc : Word) (t : Trap) (hm : x.mode = false) :
    let y := returnFrom (enterHandler x pc t)
    y.pc = pc ∧ y.mode = x.mode ∧ y.infl = x.infl ∧ y.xfer = x.xfer ∧ y.ending = x.ending ∧ y.s = x.s ∧ y.v = x.v ∧ y.p = x.p := by
  simp [returnFrom, enterHandler, hm]

/-! ## Semaphores and queues (R179, R238, R288) -/

@[simp] theorem wakeAll_sems (c : Core) : (wakeAll c).sems = c.sems := rfl
/-- Firing entries changes no semaphore. -/
@[simp] theorem fireOn_sems (c : Core) (i : Nat) : (fireOn c i).sems = c.sems := by
  unfold fireOn; dsimp only; split <;> rfl
@[simp] theorem fireOn_cmds (c : Core) (i : Nat) : (fireOn c i).cmds = c.cmds := by
  unfold fireOn; dsimp only; split <;> rfl
@[simp] theorem fireOn_l1 (c : Core) (i : Nat) : (fireOn c i).l1 = c.l1 := by
  unfold fireOn; dsimp only; split <;> rfl
@[simp] theorem fireOn_spm (c : Core) (i : Nat) : (fireOn c i).spm = c.spm := by
  unfold fireOn; dsimp only; split <;> rfl
/-- Commands that pass step 1 are marked, and nothing else changes. -/
theorem passStep1_frame (c : Core) : ∃ l : List Nat, passStep1 c =
    { c with cmds := c.cmds.map fun (i, m) => (i, if l.contains i then { m with passed := true } else m) } := by
  unfold passStep1
  split
  · exact ⟨[], by simp⟩
  · exact ⟨_, rfl⟩
@[simp] theorem passStep1_sems (c : Core) : (passStep1 c).sems = c.sems := by obtain ⟨l, h⟩ := passStep1_frame c; rw [h]
@[simp] theorem passStep1_l1 (c : Core) : (passStep1 c).l1 = c.l1 := by obtain ⟨l, h⟩ := passStep1_frame c; rw [h]
@[simp] theorem passStep1_spm (c : Core) : (passStep1 c).spm = c.spm := by obtain ⟨l, h⟩ := passStep1_frame c; rw [h]
@[simp] theorem semPut_sems (c : Core) (i v : Nat) : (semPut c i v).sems = mset 0 c.sems i v := by simp [semPut]
/-- A semaphore's new value changes no command but by the mark that it has passed step 1. -/
theorem semPut_cmds (c : Core) (i v : Nat) : ∃ l : List Nat,
    (semPut c i v).cmds = c.cmds.map fun (j, m) => (j, if l.contains j then { m with passed := true } else m) := by
  obtain ⟨l, h⟩ := passStep1_frame { c with sems := mset 0 c.sems i v, seqs := c.seqs.map fun (j, x) => (j, metSem i v x) }
  exact ⟨l, by simp [semPut, wakeAll, h]⟩
@[simp] theorem semPut_l1 (c : Core) (i v : Nat) : (semPut c i v).l1 = c.l1 := by simp [semPut, wakeAll]
@[simp] theorem semPut_spm (c : Core) (i v : Nat) : (semPut c i v).spm = c.spm := by simp [semPut, wakeAll]

@[simp] theorem queue_setQueue (c : Core) (q : Nat) (l : List QEnt) : (c.setQueue q l).queue q = l := by
  unfold Core.setQueue Core.queue; split <;> simp_all
/-- A command that enters stands last, under the next number; it passes step 1 at once where nothing before it waits. -/
theorem enqueue_eq (c : Core) (m : Cmd) : enqueue c m = passStep1
    { (c.setQueue m.q (c.queue m.q ++ [.cmd c.nextId])) with cmds := mput c.cmds c.nextId { m with id := c.nextId }, nextId := c.nextId + 1 } := rfl

/-! ## Register reads (R11) -/

/-- Fields set to 0 one after another change nothing but device registers. -/
theorem clearFields_frame (r : Reg) (l : List (Nat × Nat)) (s : State) : ∃ d,
    l.foldl (fun s (x : Nat × Nat) => wrReg s r (setBits (rdReg s r) x.1 x.2 0)) s = { s with dev := d } := by
  induction l generalizing s with
  | nil => exact ⟨s.dev, rfl⟩
  | cons x l ih =>
    obtain ⟨d, h⟩ := ih (wrReg s r (setBits (rdReg s r) x.1 x.2 0))
    exact ⟨d, h⟩
/-- A read returns the register's value and changes nothing but device registers. -/
theorem regPart_frame (s : State) (r : Reg) (lo n : Nat) : ∃ d, regPart s r lo n = ({ s with dev := d }, regValue s r) := by
  unfold regPart
  dsimp only
  split
  · exact ⟨s.dev, rfl⟩
  · obtain ⟨d, h⟩ := clearFields_frame r (r.rc.filter fun f => f.1 < lo + n && lo < f.1 + f.2) s
    exact ⟨d, by rw [← h]⟩
theorem regRead_frame (s : State) (r : Reg) : ∃ d, regRead s r = ({ s with dev := d }, regValue s r) := regPart_frame s r 0 64

end Sys2Proof.Machine
end

