-- ==== Sys2Proof/Laws/PerInstr.lean ====
section
/-! SUPPORT. One lemma per instruction: its encoding stands in a slot of its class and fits the slot's width (R190, R191, R194-R197). -/
namespace Sys2Proof.Laws.Encoding

/-- The word that encodes a slot instruction belongs to the class of the slot it may stand in and fits it. -/
def Statement (i : Instr) : Prop :=
  ∀ c x, encodeSlot i = some (c, x) → slotCls (homeSlot i) = c ∧ x < 2 ^ (8 * slotBytes (homeSlot i))

theorem of_some {i : Instr} {c : SlotCls} {x : Nat} (h : encodeSlot i = some (c, x)) (hc : slotCls (homeSlot i) = c)
    (hx : x < 2 ^ (8 * slotBytes (homeSlot i))) : Statement i := by
  intro d y hy
  rw [h] at hy
  cases hy
  exact ⟨hc, hx⟩
theorem of_none {i : Instr} (h : encodeSlot i = none) : Statement i := by
  intro d y hy
  rw [h] at hy
  cases hy

/-! ## Bounds of the encoders -/

theorem vtype_lt (t : VType) : t.code < 16 := by cases t <;> decide
theorem pkfmt_lt (t : PkFmt) : t.code < 16 := by cases t <;> decide
theorem perm_lt (t : PermPat) : t.code < 16 := by cases t <;> decide
theorem redop_lt (t : RedOp) : t.code < 8 := by cases t <;> decide
theorem msize_lt (t : MSize) : t.code < 16 := by cases t <;> decide
theorem bool_lt (b : Bool) : b.toNat < 2 := by cases b <;> decide
theorem bv_lt {n : Nat} (x : BitVec n) : x.toNat < 2 ^ n := x.isLt

theorem reg_lt {op sub : Nat} (f : SReg) (h : op < 64) (hs : sub < 16) : encReg op sub f < 2 ^ 32 := by
  have := f.g.isLt; have := f.d.isLt; have := f.a.isLt; have := f.b.isLt
  unfold encReg; omega
theorem un_lt {op sub : Nat} (f : SUn) (h : op < 64) (hs : sub < 16) : encUn op sub f < 2 ^ 32 := by
  have := f.g.isLt; have := f.d.isLt; have := f.a.isLt
  unfold encUn; omega
theorem imm_lt {op : Nat} (f : SImm) (h : op < 64) : encImm op f < 2 ^ 32 := by
  have := f.g.isLt; have := f.d.isLt; have := f.a.isLt; have := f.imm.isLt
  unfold encImm; omega
theorem shift_lt {op : Nat} (f : SShift) (h : op < 64) : encShift op f < 2 ^ 32 := by
  have := f.g.isLt; have := f.d.isLt; have := f.a.isLt; have := f.cnt.isLt
  unfold encShift; omega
theorem long_lt {op : Nat} (f : SLong) (h : op < 64) : encLong op f < 2 ^ 32 := by
  have := f.g.isLt; have := f.imm.isLt
  unfold encLong; omega
theorem cmp_lt {op : Nat} (f : SCmp) (h : op < 64) : encCmp op f < 2 ^ 32 := by
  have := f.g.isLt; have := f.pt.isLt; have := f.pf.isLt; have := f.a.isLt; have := f.b.isLt
  unfold encCmp; omega
theorem cmpi_lt {op : Nat} (f : SCmpi) (h : op < 64) : encCmpi op f < 2 ^ 32 := by
  have := f.g.isLt; have := f.pt.isLt; have := f.pf.isLt; have := f.a.isLt; have := f.imm.isLt
  unfold encCmpi; omega
theorem pred_lt {sub : Nat} (f : SPred) (hs : sub < 16) : encPred sub f < 2 ^ 32 := by
  have := f.g.isLt; have := f.d.isLt; have := f.a.isLt; have := f.b.isLt
  unfold encPred; omega
theorem chk_lt {v : Nat} (f : SChk) (hv : v < 2) : encChk v f < 2 ^ 32 := by
  have := f.g.isLt; have := f.a.isLt; have := f.off.isLt
  unfold encChk; omega
theorem brr_lt {sub : Nat} (g : BitVec 4) (a : BitVec 6) (hs : sub < 16) : encBrr sub g a < 2 ^ 32 := by
  have := g.isLt; have := a.isLt
  unfold encBrr; omega
theorem x_lt {op : Nat} (g : BitVec 4) (d a : BitVec 6) (h : op < 64) : encX op g d a < 2 ^ 32 := by
  have := g.isLt; have := d.isLt; have := a.isLt
  unfold encX; omega
theorem g_lt {op : Nat} (g : BitVec 4) (h : op < 64) : encG op g < 2 ^ 32 := by
  have := g.isLt
  unfold encG; omega
theorem vb_lt {op lo : Nat} (f : VBin) (h : op < 64) (hl : lo < 16) : encVB op lo f < 2 ^ 32 := by
  have := f.q.isLt; have := f.vd.isLt; have := f.va.isLt; have := f.vb.isLt
  unfold encVB; omega
theorem vu_lt {op lo : Nat} (f : VUn) (h : op < 64) (hl : lo < 1024) : encVU op lo f < 2 ^ 32 := by
  have := f.q.isLt; have := f.vd.isLt; have := f.va.isLt
  unfold encVU; omega
theorem vc_lt {op lo : Nat} (f : VCmp) (h : op < 64) (hl : lo < 16) : encVC op lo f < 2 ^ 32 := by
  have := f.q.isLt; have := f.qd.isLt; have := f.va.isLt; have := f.vb.isLt
  unfold encVC; omega
theorem q_lt {lo : Nat} (f : QLog) (hl : lo < 16) : encQ lo f < 2 ^ 32 := by
  have := f.q.isLt; have := f.qd.isLt; have := f.qa.isLt; have := f.qb.isLt
  unfold encQ; omega
theorem f_lt {op opx : Nat} (f : FOp) (h : op < 64) (hl : opx < 32) : encF op opx f < 2 ^ 32 := by
  have := f.g.isLt; have := f.d.isLt; have := f.a.isLt
  unfold encF
  split
  · omega
  · rename_i q _; have := q.isLt; omega
theorem mem_lt {op : Nat} (f : MMem) (h : op < 64) : encMem op f < 2 ^ 64 := by
  have := f.g.isLt; have := f.data.isLt; have := f.base.isLt; have := f.idx.isLt; have := f.off.isLt; have := msize_lt f.size
  unfold encMem; omega
theorem atom_lt {op : Nat} (f : MAtom) (h : op < 64) : encAtom op f < 2 ^ 64 := by
  have := f.g.isLt; have := f.data.isLt; have := f.base.isLt; have := f.idx.isLt; have := f.off.isLt; have := msize_lt f.size
  have := f.scope.isLt; have := f.ord.isLt
  unfold encAtom; omega
theorem mreg_lt {op sc : Nat} (f : MReg) (h : op < 64) (hs : sc < 8) : encMReg op sc f < 2 ^ 64 := by
  have := f.g.isLt; have := f.a.isLt; have := bool_lt f.all
  unfold encMReg; omega
theorem ws_lt (f : WaitSig) : encWS f < 2 ^ 32 := by
  have := f.wsem.isLt; have := f.wthr.isLt; have := f.ssem.isLt; have := f.sinc.isLt
  unfold encWS; omega
theorem eng_lt {op v : Nat} (f : MEng) (h : op < 64) (hv : v < 16) : encEng op v f < 2 ^ 64 := by
  have := f.g.isLt; have := f.a.isLt; have := f.b.isLt; have := f.scope.isLt; have := bool_lt f.acq; have := bool_lt f.rel; have := ws_lt f.w
  unfold encEng; omega
theorem sync_lt {op lo : Nat} (g : BitVec 4) (h : op < 64) (hl : lo < 2 ^ 48) : encSync op g lo < 2 ^ 64 := by
  have := g.isLt
  unfold encSync; omega
theorem tcfg_lt {v lo : Nat} (g : BitVec 4) (a : BitVec 6) (n : BitVec 3) (hv : v < 16) (hl : lo < 2 ^ 32) : encTcfg v g a n lo < 2 ^ 64 := by
  have := g.isLt; have := a.isLt; have := n.isLt
  unfold encTcfg; omega

/-! ## The instructions -/

theorem add (f : SReg) : Statement (.add f) := of_some rfl rfl (reg_lt f (by decide) (by decide))
theorem sub (f : SReg) : Statement (.sub f) := of_some rfl rfl (reg_lt f (by decide) (by decide))
theorem mul (f : SReg) : Statement (.mul f) := of_some rfl rfl (reg_lt f (by decide) (by decide))
theorem mulh (f : SReg) : Statement (.mulh f) := of_some rfl rfl (reg_lt f (by decide) (by decide))
theorem mulhu (f : SReg) : Statement (.mulhu f) := of_some rfl rfl (reg_lt f (by decide) (by decide))
theorem and (f : SReg) : Statement (.and f) := of_some rfl rfl (reg_lt f (by decide) (by decide))
theorem or (f : SReg) : Statement (.or f) := of_some rfl rfl (reg_lt f (by decide) (by decide))
theorem xor (f : SReg) : Statement (.xor f) := of_some rfl rfl (reg_lt f (by decide) (by decide))
theorem andn (f : SReg) : Statement (.andn f) := of_some rfl rfl (reg_lt f (by decide) (by decide))
theorem shl (f : SReg) : Statement (.shl f) := of_some rfl rfl (reg_lt f (by decide) (by decide))
theorem shr (f : SReg) : Statement (.shr f) := of_some rfl rfl (reg_lt f (by decide) (by decide))
theorem sar (f : SReg) : Statement (.sar f) := of_some rfl rfl (reg_lt f (by decide) (by decide))
theorem min (f : SReg) : Statement (.min f) := of_some rfl rfl (reg_lt f (by decide) (by decide))
theorem minu (f : SReg) : Statement (.minu f) := of_some rfl rfl (reg_lt f (by decide) (by decide))
theorem max (f : SReg) : Statement (.max f) := of_some rfl rfl (reg_lt f (by decide) (by decide))
theorem maxu (f : SReg) : Statement (.maxu f) := of_some rfl rfl (reg_lt f (by decide) (by decide))
theorem sel (f : SReg) (n : BitVec 4) : Statement (.sel f n) := of_some rfl rfl (reg_lt f (by decide) (by have := n.isLt; omega))
theorem bfx (f : SReg) : Statement (.bfx f) := of_some rfl rfl (reg_lt f (by decide) (by decide))
theorem bfxu (f : SReg) : Statement (.bfxu f) := of_some rfl rfl (reg_lt f (by decide) (by decide))
theorem bfi (f : SReg) : Statement (.bfi f) := of_some rfl rfl (reg_lt f (by decide) (by decide))
theorem clz (f : SUn) : Statement (.clz f) := of_some rfl rfl (un_lt f (by decide) (by decide))
theorem ctz (f : SUn) : Statement (.ctz f) := of_some rfl rfl (un_lt f (by decide) (by decide))
theorem popc (f : SUn) : Statement (.popc f) := of_some rfl rfl (un_lt f (by decide) (by decide))
theorem addi (f : SImm) : Statement (.addi f) := of_some rfl rfl (imm_lt f (by decide))
theorem andi (f : SImm) : Statement (.andi f) := of_some rfl rfl (imm_lt f (by decide))
theorem ori (f : SImm) : Statement (.ori f) := of_some rfl rfl (imm_lt f (by decide))
theorem xori (f : SImm) : Statement (.xori f) := of_some rfl rfl (imm_lt f (by decide))
theorem shli (f : SShift) : Statement (.shli f) := of_some rfl rfl (shift_lt f (by decide))
theorem shri (f : SShift) : Statement (.shri f) := of_some rfl rfl (shift_lt f (by decide))
theorem sari (f : SShift) : Statement (.sari f) := of_some rfl rfl (shift_lt f (by decide))
theorem lis (f : SLong) : Statement (.lis f) := of_some rfl rfl (long_lt f (by decide))
theorem lic (f : SLong) : Statement (.lic f) := of_some rfl rfl (long_lt f (by decide))
theorem cmpeq (f : SCmp) : Statement (.cmpeq f) := of_some rfl rfl (cmp_lt f (by decide))
theorem cmplt (f : SCmp) : Statement (.cmplt f) := of_some rfl rfl (cmp_lt f (by decide))
theorem cmpltu (f : SCmp) : Statement (.cmpltu f) := of_some rfl rfl (cmp_lt f (by decide))
theorem cmpeqi (f : SCmpi) : Statement (.cmpeqi f) := of_some rfl rfl (cmpi_lt f (by decide))
theorem cmplti (f : SCmpi) : Statement (.cmplti f) := of_some rfl rfl (cmpi_lt f (by decide))
theorem cmpltui (f : SCmpi) : Statement (.cmpltui f) := of_some rfl rfl (cmpi_lt f (by decide))
theorem pand (f : SPred) : Statement (.pand f) := of_some rfl rfl (pred_lt f (by decide))
theorem por (f : SPred) : Statement (.por f) := of_some rfl rfl (pred_lt f (by decide))
theorem pxor (f : SPred) : Statement (.pxor f) := of_some rfl rfl (pred_lt f (by decide))
theorem pandn (f : SPred) : Statement (.pandn f) := of_some rfl rfl (pred_lt f (by decide))
theorem br (f : SLong) : Statement (.br f) := of_some rfl rfl (long_lt f (by decide))
theorem brl (f : SLong) : Statement (.brl f) := of_some rfl rfl (long_lt f (by decide))
theorem brr (g : BitVec 4) (a : BitVec 6) : Statement (.brr g a) := of_some rfl rfl (brr_lt g a (by decide))
theorem brrl (g : BitVec 4) (a : BitVec 6) : Statement (.brrl g a) := of_some rfl rfl (brr_lt g a (by decide))
theorem loop (f : SLong) : Statement (.loop f) := of_some rfl rfl (long_lt f (by decide))
theorem chkS (f : SChk) : Statement (.chkS f) := of_some rfl rfl (chk_lt f (by decide))
theorem chkV (f : SChk) : Statement (.chkV f) := of_some rfl rfl (chk_lt f (by decide))
theorem mfs (g : BitVec 4) (d : BitVec 6) (x : BitVec 6) : Statement (.mfs g d x) := of_some rfl rfl (x_lt g d x (by decide))
theorem mts (g : BitVec 4) (x : BitVec 6) (a : BitVec 6) : Statement (.mts g x a) := of_some rfl rfl (x_lt g x a (by decide))
theorem semget (f : SImm) : Statement (.semget f) := of_some rfl rfl (imm_lt f (by decide))
theorem semset (f : SImm) : Statement (.semset f) := of_some rfl rfl (imm_lt f (by decide))
theorem semsig (f : SImm) : Statement (.semsig f) := of_some rfl rfl (imm_lt f (by decide))
theorem semwait (f : SImm) : Statement (.semwait f) := of_some rfl rfl (imm_lt f (by decide))
theorem wfe (g : BitVec 4) : Statement (.wfe g) := of_some rfl rfl (g_lt g (by decide))
theorem trap (f : SLong) : Statement (.trap f) := of_some rfl rfl (long_lt f (by decide))
theorem sys (f : SLong) : Statement (.sys f) := of_some rfl rfl (long_lt f (by decide))
theorem eret (g : BitVec 4) : Statement (.eret g) := of_some rfl rfl (g_lt g (by decide))
theorem halt (g : BitVec 4) : Statement (.halt g) := of_some rfl rfl (g_lt g (by decide))
theorem nop : Statement (.nop) := of_none rfl
theorem vadd (f : VBin) (ty : VType) : Statement (.vadd f ty) := of_some rfl rfl (vb_lt f (by decide) (by have := vtype_lt ty; omega))
theorem vsub (f : VBin) (ty : VType) : Statement (.vsub f ty) := of_some rfl rfl (vb_lt f (by decide) (by have := vtype_lt ty; omega))
theorem vmul (f : VBin) (ty : VType) : Statement (.vmul f ty) := of_some rfl rfl (vb_lt f (by decide) (by have := vtype_lt ty; omega))
theorem vfma (f : VBin) (ty : VType) : Statement (.vfma f ty) := of_some rfl rfl (vb_lt f (by decide) (by have := vtype_lt ty; omega))
theorem vfms (f : VBin) (ty : VType) : Statement (.vfms f ty) := of_some rfl rfl (vb_lt f (by decide) (by have := vtype_lt ty; omega))
theorem vmin (f : VBin) (ty : VType) : Statement (.vmin f ty) := of_some rfl rfl (vb_lt f (by decide) (by have := vtype_lt ty; omega))
theorem vmax (f : VBin) (ty : VType) : Statement (.vmax f ty) := of_some rfl rfl (vb_lt f (by decide) (by have := vtype_lt ty; omega))
theorem vabs (f : VUn) (ty : VType) : Statement (.vabs f ty) := of_some rfl rfl (vu_lt f (by decide) (by have := vtype_lt ty; omega))
theorem vneg (f : VUn) (ty : VType) : Statement (.vneg f ty) := of_some rfl rfl (vu_lt f (by decide) (by have := vtype_lt ty; omega))
theorem vclamp (f : VBin) (ty : VType) : Statement (.vclamp f ty) := of_some rfl rfl (vb_lt f (by decide) (by have := vtype_lt ty; omega))
theorem vand (f : VBin) : Statement (.vand f) := of_some rfl rfl (vb_lt f (by decide) (by decide))
theorem vor (f : VBin) : Statement (.vor f) := of_some rfl rfl (vb_lt f (by decide) (by decide))
theorem vxor (f : VBin) : Statement (.vxor f) := of_some rfl rfl (vb_lt f (by decide) (by decide))
theorem vandn (f : VBin) : Statement (.vandn f) := of_some rfl rfl (vb_lt f (by decide) (by decide))
theorem vshl (f : VBin) (ty : VType) : Statement (.vshl f ty) := of_some rfl rfl (vb_lt f (by decide) (by have := vtype_lt ty; omega))
theorem vshr (f : VBin) (ty : VType) : Statement (.vshr f ty) := of_some rfl rfl (vb_lt f (by decide) (by have := vtype_lt ty; omega))
theorem vsar (f : VBin) (ty : VType) : Statement (.vsar f ty) := of_some rfl rfl (vb_lt f (by decide) (by have := vtype_lt ty; omega))
theorem vpopc (f : VUn) : Statement (.vpopc f) := of_some rfl rfl (vu_lt f (by decide) (by decide))
theorem vclz (f : VUn) : Statement (.vclz f) := of_some rfl rfl (vu_lt f (by decide) (by decide))
theorem vcmpeq (f : VCmp) (ty : VType) : Statement (.vcmpeq f ty) := of_some rfl rfl (vc_lt f (by decide) (by have := vtype_lt ty; omega))
theorem vcmplt (f : VCmp) (ty : VType) : Statement (.vcmplt f ty) := of_some rfl rfl (vc_lt f (by decide) (by have := vtype_lt ty; omega))
theorem vcmple (f : VCmp) (ty : VType) : Statement (.vcmple f ty) := of_some rfl rfl (vc_lt f (by decide) (by have := vtype_lt ty; omega))
theorem qand (f : QLog) : Statement (.qand f) := of_some rfl rfl (q_lt f (by decide))
theorem qor (f : QLog) : Statement (.qor f) := of_some rfl rfl (q_lt f (by decide))
theorem qxor (f : QLog) : Statement (.qxor f) := of_some rfl rfl (q_lt f (by decide))
theorem qandn (f : QLog) : Statement (.qandn f) := of_some rfl rfl (q_lt f (by decide))
theorem vsel (f : VBin) (n : BitVec 4) : Statement (.vsel f n) := of_some rfl rfl (vb_lt f (by decide) (by have := n.isLt; omega))
theorem vcvt (f : VUn) (sat : Bool) (rtz : Bool) (s : VType) (d : VType) : Statement (.vcvt f sat rtz s d) := of_some rfl rfl (vu_lt f (by decide) (by have := bool_lt sat; have := bool_lt rtz; have := vtype_lt s; have := vtype_lt d; omega))
theorem vpack (f : VBin) (fmt : PkFmt) : Statement (.vpack f fmt) := of_some rfl rfl (vb_lt f (by decide) (by have := pkfmt_lt fmt; omega))
theorem vunpack (f : VBin) (fmt : PkFmt) : Statement (.vunpack f fmt) := of_some rfl rfl (vb_lt f (by decide) (by have := pkfmt_lt fmt; omega))
theorem vperm (f : VUn) (p : PermPat) (k : BitVec 4) : Statement (.vperm f p k) := of_some rfl rfl (vu_lt f (by decide) (by have := k.isLt; have := perm_lt p; omega))
theorem vbcast (f : VUn) (k : BitVec 4) : Statement (.vbcast f k) := of_some rfl rfl (vu_lt f (by decide) (by have := k.isLt; omega))
theorem vbcastS (f : VUn) : Statement (.vbcastS f) := of_some rfl rfl (vu_lt f (by decide) (by decide))
theorem vbcastH (f : VUn) : Statement (.vbcastH f) := of_some rfl rfl (vu_lt f (by decide) (by decide))
theorem vxlane (f : VBin) : Statement (.vxlane f) := of_some rfl rfl (vb_lt f (by decide) (by decide))
theorem vxlaneZ (f : VBin) : Statement (.vxlaneZ f) := of_some rfl rfl (vb_lt f (by decide) (by decide))
theorem vred (f : VUn) (o : RedOp) (t : VType) : Statement (.vred f o t) := of_some rfl rfl (vu_lt f (by decide) (by have := redop_lt o; have := vtype_lt t; omega))
theorem vscan (f : VUn) (o : RedOp) (x : Bool) (t : VType) : Statement (.vscan f o x t) := of_some rfl rfl (vu_lt f (by decide) (by have := bool_lt x; have := redop_lt o; have := vtype_lt t; omega))
theorem frcp (f : FOp) : Statement (.frcp f) := of_some rfl rfl (f_lt f (by decide) (by decide))
theorem frsqrt (f : FOp) : Statement (.frsqrt f) := of_some rfl rfl (f_lt f (by decide) (by decide))
theorem fsqrt (f : FOp) : Statement (.fsqrt f) := of_some rfl rfl (f_lt f (by decide) (by decide))
theorem fexp2 (f : FOp) : Statement (.fexp2 f) := of_some rfl rfl (f_lt f (by decide) (by decide))
theorem flog2 (f : FOp) : Statement (.flog2 f) := of_some rfl rfl (f_lt f (by decide) (by decide))
theorem fsin (f : FOp) (u : Bool) : Statement (.fsin f u) := of_some rfl rfl (f_lt f (by decide) (by have := bool_lt u; omega))
theorem fcos (f : FOp) (u : Bool) : Statement (.fcos f u) := of_some rfl rfl (f_lt f (by decide) (by have := bool_lt u; omega))
theorem fdiv (f : FOp) : Statement (.fdiv f) := of_some rfl rfl (f_lt f (by decide) (by decide))
theorem idiv (f : FOp) (u : Bool) : Statement (.idiv f u) := of_some rfl rfl (f_lt f (by decide) (by have := bool_lt u; omega))
theorem idivu (f : FOp) (u : Bool) : Statement (.idivu f u) := of_some rfl rfl (f_lt f (by decide) (by have := bool_lt u; omega))
theorem rng (f : FOp) : Statement (.rng f) := of_some rfl rfl (f_lt f (by decide) (by decide))
theorem crc (f : FOp) (p : Bool) (z : BitVec 2) : Statement (.crc f p z) := of_some rfl rfl (f_lt f (by decide) (by have := bool_lt p; have := z.isLt; omega))
theorem hash (f : FOp) : Statement (.hash f) := of_some rfl rfl (f_lt f (by decide) (by decide))
theorem gfmul (f : FOp) : Statement (.gfmul f) := of_some rfl rfl (f_lt f (by decide) (by decide))
theorem ld (f : MMem) : Statement (.ld f) := of_some rfl rfl (mem_lt f (by decide))
theorem st (f : MMem) : Statement (.st f) := of_some rfl rfl (mem_lt f (by decide))
theorem vld (f : MMem) : Statement (.vld f) := of_some rfl rfl (mem_lt f (by decide))
theorem vst (f : MMem) : Statement (.vst f) := of_some rfl rfl (mem_lt f (by decide))
theorem vldr (f : MMem) : Statement (.vldr f) := of_some rfl rfl (mem_lt f (by decide))
theorem vstr (f : MMem) : Statement (.vstr f) := of_some rfl rfl (mem_lt f (by decide))
theorem vgather (f : MMem) : Statement (.vgather f) := of_some rfl rfl (mem_lt f (by decide))
theorem vscatter (f : MMem) : Statement (.vscatter f) := of_some rfl rfl (mem_lt f (by decide))
theorem sld (f : MMem) : Statement (.sld f) := of_some rfl rfl (mem_lt f (by decide))
theorem vsld (f : MMem) : Statement (.vsld f) := of_some rfl rfl (mem_lt f (by decide))
theorem ldSpm (f : MMem) : Statement (.ldSpm f) := of_some rfl rfl (mem_lt f (by decide))
theorem stSpm (f : MMem) : Statement (.stSpm f) := of_some rfl rfl (mem_lt f (by decide))
theorem vldSpm (f : MMem) : Statement (.vldSpm f) := of_some rfl rfl (mem_lt f (by decide))
theorem vstSpm (f : MMem) : Statement (.vstSpm f) := of_some rfl rfl (mem_lt f (by decide))
theorem vgatherSpm (f : MMem) : Statement (.vgatherSpm f) := of_some rfl rfl (mem_lt f (by decide))
theorem vscatterSpm (f : MMem) : Statement (.vscatterSpm f) := of_some rfl rfl (mem_lt f (by decide))
theorem aadd (f : MAtom) : Statement (.aadd f) := of_some rfl rfl (atom_lt f (by decide))
theorem amin (f : MAtom) : Statement (.amin f) := of_some rfl rfl (atom_lt f (by decide))
theorem amax (f : MAtom) : Statement (.amax f) := of_some rfl rfl (atom_lt f (by decide))
theorem aand (f : MAtom) : Statement (.aand f) := of_some rfl rfl (atom_lt f (by decide))
theorem aor (f : MAtom) : Statement (.aor f) := of_some rfl rfl (atom_lt f (by decide))
theorem axor (f : MAtom) : Statement (.axor f) := of_some rfl rfl (atom_lt f (by decide))
theorem aswp (f : MAtom) : Statement (.aswp f) := of_some rfl rfl (atom_lt f (by decide))
theorem acas (f : MAtom) : Statement (.acas f) := of_some rfl rfl (atom_lt f (by decide))
theorem acq (f : MReg) (s : BitVec 3) : Statement (.acq f s) := of_some rfl rfl (mreg_lt f (by decide) (by have := s.isLt; omega))
theorem rel (g : BitVec 4) (s : BitVec 3) : Statement (.rel g s) := of_some rfl rfl (sync_lt g (by decide) (by have := s.isLt; omega))
theorem inval (f : MReg) (s : BitVec 3) : Statement (.inval f s) := of_some rfl rfl (mreg_lt f (by decide) (by have := s.isLt; omega))
theorem drain (g : BitVec 4) : Statement (.drain g) := of_some rfl rfl (sync_lt g (by decide) (by decide))
theorem drainX (g : BitVec 4) : Statement (.drainX g) := of_some rfl rfl (sync_lt g (by decide) (by decide))
theorem cln (f : MReg) : Statement (.cln f) := of_some rfl rfl (mreg_lt f (by decide) (by decide))
theorem mark (g : BitVec 4) (m : BitVec 2) : Statement (.mark g m) := of_some rfl rfl (sync_lt g (by decide) (by have := m.isLt; omega))
theorem join (g : BitVec 4) : Statement (.join g) := of_some rfl rfl (sync_lt g (by decide) (by decide))
theorem mcall (g : BitVec 4) (a : BitVec 6) (ws : WaitSig) : Statement (.mcall g a ws) :=
  of_some rfl rfl (by have := ws_lt ws; have := g.isLt; have := a.isLt; show 0x20 * 2 ^ 58 + g.toNat * 2 ^ 54 + a.toNat * 2 ^ 48 + encWS ws < 2 ^ 64; omega)
theorem xferGg (f : MEng) : Statement (.xferGg f) := of_some rfl rfl (eng_lt f (by decide) (by decide))
theorem xferSg (f : MEng) : Statement (.xferSg f) := of_some rfl rfl (eng_lt f (by decide) (by decide))
theorem xferGs (f : MEng) : Statement (.xferGs f) := of_some rfl rfl (eng_lt f (by decide) (by decide))
theorem xferSs (f : MEng) : Statement (.xferSs f) := of_some rfl rfl (eng_lt f (by decide) (by decide))
theorem xferTg (f : MEng) : Statement (.xferTg f) := of_some rfl rfl (eng_lt f (by decide) (by decide))
theorem xferTs (f : MEng) : Statement (.xferTs f) := of_some rfl rfl (eng_lt f (by decide) (by decide))
theorem xferGt (f : MEng) : Statement (.xferGt f) := of_some rfl rfl (eng_lt f (by decide) (by decide))
theorem xferSt (f : MEng) : Statement (.xferSt f) := of_some rfl rfl (eng_lt f (by decide) (by decide))
theorem xferGa (f : MEng) : Statement (.xferGa f) := of_some rfl rfl (eng_lt f (by decide) (by decide))
theorem xferSa (f : MEng) : Statement (.xferSa f) := of_some rfl rfl (eng_lt f (by decide) (by decide))
theorem xredAddF32 (f : MEng) : Statement (.xredAddF32 f) := of_some rfl rfl (eng_lt f (by decide) (by decide))
theorem xredAddoF32 (f : MEng) : Statement (.xredAddoF32 f) := of_some rfl rfl (eng_lt f (by decide) (by decide))
theorem xredAddB16 (f : MEng) : Statement (.xredAddB16 f) := of_some rfl rfl (eng_lt f (by decide) (by decide))
theorem xredAddI32 (f : MEng) : Statement (.xredAddI32 f) := of_some rfl rfl (eng_lt f (by decide) (by decide))
theorem xredMinF32 (f : MEng) : Statement (.xredMinF32 f) := of_some rfl rfl (eng_lt f (by decide) (by decide))
theorem xredMaxF32 (f : MEng) : Statement (.xredMaxF32 f) := of_some rfl rfl (eng_lt f (by decide) (by decide))
theorem xredMinI32 (f : MEng) : Statement (.xredMinI32 f) := of_some rfl rfl (eng_lt f (by decide) (by decide))
theorem xredMaxI32 (f : MEng) : Statement (.xredMaxI32 f) := of_some rfl rfl (eng_lt f (by decide) (by decide))
theorem trig (f : MEng) (v : BitVec 4) : Statement (.trig f v) := of_some rfl rfl (eng_lt f (by decide) (by have := v.isLt; omega))
theorem tldT (f : MEng) : Statement (.tldT f) := of_some rfl rfl (eng_lt f (by decide) (by decide))
theorem tldS (f : MEng) : Statement (.tldS f) := of_some rfl rfl (eng_lt f (by decide) (by decide))
theorem tstT (f : MEng) : Statement (.tstT f) := of_some rfl rfl (eng_lt f (by decide) (by decide))
theorem tstS (f : MEng) : Statement (.tstS f) := of_some rfl rfl (eng_lt f (by decide) (by decide))
theorem tcfgShp (g : BitVec 4) (a : BitVec 6) (n : BitVec 3) (ws : WaitSig) : Statement (.tcfgShp g a n ws) := of_some rfl rfl (tcfg_lt g a n (by decide) (ws_lt ws))
theorem tcfgM (g : BitVec 4) (a : BitVec 6) (n : BitVec 3) : Statement (.tcfgM g a n) := of_some rfl rfl (tcfg_lt g a n (by decide) (by decide))
theorem tcfgM2 (g : BitVec 4) (a : BitVec 6) (n : BitVec 3) : Statement (.tcfgM2 g a n) := of_some rfl rfl (tcfg_lt g a n (by decide) (by decide))
theorem qcut (g : BitVec 4) (s : BitVec 3) (ws : WaitSig) : Statement (.qcut g s ws) :=
  of_some rfl rfl (by have := ws_lt ws; have := g.isLt; have := s.isLt; show 0x27 * 2 ^ 58 + g.toNat * 2 ^ 54 + s.toNat * 2 ^ 32 + encWS ws < 2 ^ 64; omega)
theorem bundleFetch (x0 : Nat) (x1 : Nat) : Statement (.bundleFetch x0 x1) := of_none rfl
theorem loadValueArrives (x0 : Nat) (x1 : Nat) (x2 : Nat) (x3 : Nat) (x4 : Nat) (x5 : W32) (x6 : Bool) (x7 : LandErr) : Statement (.loadValueArrives x0 x1 x2 x3 x4 x5 x6 x7) := of_none rfl
theorem lxEnd : Statement (.lxEnd) := of_none rfl
theorem lxSig (x0 : BitVec 8) (x1 : BitVec 4) : Statement (.lxSig x0 x1) := of_none rfl
theorem lxSetk (x0 : BitVec 2) (x1 : KSrc) : Statement (.lxSetk x0 x1) := of_none rfl
theorem lxAddk (x0 : BitVec 2) (x1 : BitVec 16) : Statement (.lxAddk x0 x1) := of_none rfl
theorem lxLoop (x0 : BitVec 2) (x1 : BitVec 13) : Statement (.lxLoop x0 x1) := of_none rfl
theorem lxBr (x0 : BitVec 2) (x1 : LxCond) (x2 : BitVec 13) : Statement (.lxBr x0 x1 x2) := of_none rfl
theorem lxNop : Statement (.lxNop) := of_none rfl
theorem lxFetch (x0 : BitVec 6) (x1 : TileIx) (x2 : Bool) (x3 : LxUnit) (x4 : BitVec 3) (x5 : BitVec 2) : Statement (.lxFetch x0 x1 x2 x3 x4 x5) := of_none rfl
theorem lxSel (x0 : BitVec 6) (x1 : TileIx) (x2 : Bool) : Statement (.lxSel x0 x1 x2) := of_none rfl
theorem lxSkip (x0 : SkipSrc) (x1 : BitVec 13) : Statement (.lxSkip x0 x1) := of_none rfl
theorem lxScan (x0 : BitVec 10) : Statement (.lxScan x0) := of_none rfl
theorem lxMac (x0 : BitVec 10) : Statement (.lxMac x0) := of_none rfl
theorem lxAcc : Statement (.lxAcc) := of_none rfl
theorem lxCvt (x0 : BitVec 8) (x1 : Bool) (x2 : BitVec 3) (x3 : Bool) : Statement (.lxCvt x0 x1 x2 x3) := of_none rfl
theorem lxWout (x0 : WoutDst) (x1 : WoutFmt) (x2 : Bool) (x3 : BitVec 6) : Statement (.lxWout x0 x1 x2 x3) := of_none rfl
theorem verbCallStart (x0 : Nat) : Statement (.verbCallStart x0) := of_none rfl
theorem engineCommandStart (x0 : Nat) (x1 : Nat) (x2 : Nat) : Statement (.engineCommandStart x0 x1 x2) := of_none rfl
theorem engineCommandComplete (x0 : Nat) (x1 : Nat) (x2 : Nat) : Statement (.engineCommandComplete x0 x1 x2) := of_none rfl
theorem firedTransferEnqueue (x0 : Nat) (x1 : Nat) : Statement (.firedTransferEnqueue x0 x1) := of_none rfl
theorem handlerStart (x0 : Nat) (x1 : Nat) : Statement (.handlerStart x0 x1) := of_none rfl
theorem remoteSignal (x0 : Remote) : Statement (.remoteSignal x0) := of_none rfl
theorem peerWriteArrival (x0 : PeerMsg) : Statement (.peerWriteArrival x0) := of_none rfl
theorem peerWriteAck (x0 : Nat) (x1 : Word) (x2 : Bool) (x3 : Bool) : Statement (.peerWriteAck x0 x1 x2 x3) := of_none rfl
theorem undeliverableRecording (x0 : Nat) : Statement (.undeliverableRecording x0) := of_none rfl
theorem registration (x0 : Nat) (x1 : Nat) (x2 : Nat) (x3 : RegAsk) (x4 : Nat) (x5 : Nat) : Statement (.registration x0 x1 x2 x3 x4 x5) := of_none rfl
theorem registrationAck (x0 : Nat) (x1 : Nat) (x2 : Nat) (x3 : Bool) : Statement (.registrationAck x0 x1 x2 x3) := of_none rfl
theorem displacement (x0 : Nat) (x1 : Nat) (x2 : Nat) (x3 : Ret) : Statement (.displacement x0 x1 x2 x3) := of_none rfl
theorem forwardedRead (x0 : Nat) (x1 : Nat) (x2 : Nat) (x3 : Ret) : Statement (.forwardedRead x0 x1 x2 x3) := of_none rfl
theorem readReply (x0 : Nat) (x1 : Nat) (x2 : Ret) (x3 : W32) (x4 : Bool) (x5 : BitVec 3) (x6 : List Nat) : Statement (.readReply x0 x1 x2 x3 x4 x5 x6) := of_none rfl
theorem recallWord (x0 : Nat) (x1 : Nat) : Statement (.recallWord x0 x1) := of_none rfl
theorem notHeldAnswer (x0 : Nat) (x1 : Nat) (x2 : Nat) (x3 : Ret) (x4 : List Nat) : Statement (.notHeldAnswer x0 x1 x2 x3 x4) := of_none rfl
theorem ownTmoExpiry (x0 : Nat) (x1 : Nat) (x2 : Nat) (x3 : Ret) (x4 : List Nat) : Statement (.ownTmoExpiry x0 x1 x2 x3 x4) := of_none rfl
theorem homeWrite (x0 : HomeWr) : Statement (.homeWrite x0) := of_none rfl
theorem atomicExecute (x0 : Nat) (x1 : Nat) (x2 : AtomReq) : Statement (.atomicExecute x0 x1 x2) := of_none rfl
theorem hostLineRecall (x0 : Nat) (x1 : Nat) : Statement (.hostLineRecall x0 x1) := of_none rfl
theorem hostLineInvalidate (x0 : Nat) (x1 : Nat) : Statement (.hostLineInvalidate x0 x1) := of_none rfl
theorem uncorrectableError (x0 : Nat) (x1 : Nat) : Statement (.uncorrectableError x0 x1) := of_none rfl
theorem coreReset (x0 : Nat) : Statement (.coreReset x0) := of_none rfl
theorem walkComplete (x0 : Nat) (x1 : Nat) : Statement (.walkComplete x0 x1) := of_none rfl
theorem homemove (x0 : Nat) (x1 : Nat) : Statement (.homemove x0 x1) := of_none rfl
theorem homemoveComplete (x0 : Nat) (x1 : Nat) : Statement (.homemoveComplete x0 x1) := of_none rfl
theorem homemoveFailed (x0 : Nat) (x1 : Nat) : Statement (.homemoveFailed x0 x1) := of_none rfl
theorem burstCrcError (x0 : Nat) (x1 : Nat) (x2 : Nat) (x3 : BurstErr) : Statement (.burstCrcError x0 x1 x2 x3) := of_none rfl
theorem trackingPhaseMove (x0 : Nat) (x1 : Nat) (x2 : Nat) : Statement (.trackingPhaseMove x0 x1 x2) := of_none rfl
theorem repairSwitch (x0 : Nat) (x1 : Nat) (x2 : Nat) : Statement (.repairSwitch x0 x1 x2) := of_none rfl
theorem repairSwitchDone (x0 : Nat) (x1 : Nat) (x2 : Nat) : Statement (.repairSwitchDone x0 x1 x2) := of_none rfl
theorem retrainDone (x0 : Nat) (x1 : Nat) (x2 : Nat) : Statement (.retrainDone x0 x1 x2) := of_none rfl
theorem retrainTimeout (x0 : Nat) (x1 : Nat) (x2 : Nat) : Statement (.retrainTimeout x0 x1 x2) := of_none rfl
theorem hbmPowerDown (x0 : Nat) : Statement (.hbmPowerDown x0) := of_none rfl
theorem hbmStsWrite (x0 : Nat) (x1 : Word) : Statement (.hbmStsWrite x0 x1) := of_none rfl
theorem hbmStsRead (x0 : Nat) : Statement (.hbmStsRead x0) := of_none rfl
theorem flashPageDurable (x0 : Nat) (x1 : Nat) : Statement (.flashPageDurable x0 x1) := of_none rfl
theorem fahOpen (x0 : Nat) (x1 : Nat) (x2 : Word) : Statement (.fahOpen x0 x1 x2) := of_none rfl
theorem fahSeal (x0 : Nat) (x1 : Nat) (x2 : Word) : Statement (.fahSeal x0 x1 x2) := of_none rfl
theorem fahSealDone (x0 : Nat) (x1 : Nat) : Statement (.fahSealDone x0 x1) := of_none rfl
theorem fahTrim (x0 : Nat) (x1 : Nat) (x2 : Word) : Statement (.fahTrim x0 x1 x2) := of_none rfl
theorem ownLogbRead (x0 : Nat) : Statement (.ownLogbRead x0) := of_none rfl
theorem xltWinvWrite (x0 : Nat) (x1 : Word) : Statement (.xltWinvWrite x0 x1) := of_none rfl
theorem xltWinvComplete (x0 : Nat) : Statement (.xltWinvComplete x0) := of_none rfl
theorem pgCfgEnSet (x0 : Word) : Statement (.pgCfgEnSet x0) := of_none rfl
theorem pgCfgEnClear (x0 : Word) : Statement (.pgCfgEnClear x0) := of_none rfl
theorem pgCfgSpare (x0 : Word) : Statement (.pgCfgSpare x0) := of_none rfl
theorem pgPreset (x0 : Word) : Statement (.pgPreset x0) := of_none rfl
theorem pgRbldGo (x0 : Word) : Statement (.pgRbldGo x0) := of_none rfl
theorem configExchange (x0 : Nat) (x1 : GroupCfg) : Statement (.configExchange x0 x1) := of_none rfl
theorem encodingDone : Statement (.encodingDone) := of_none rfl
theorem delta (x0 : Nat) (x1 : Nat) (x2 : Nat) (x3 : Nat) (x4 : List Byte) : Statement (.delta x0 x1 x2 x3 x4) := of_none rfl
theorem dack (x0 : Nat) (x1 : Nat) (x2 : Nat) : Statement (.dack x0 x1 x2) := of_none rfl
theorem dackTimeout (x0 : Nat) : Statement (.dackTimeout x0) := of_none rfl
theorem round (x0 : Nat) (x1 : Nat) : Statement (.round x0 x1) := of_none rfl
theorem prepared (x0 : Nat) (x1 : Nat) : Statement (.prepared x0 x1) := of_none rfl
theorem abort (x0 : Nat) (x1 : Nat) (x2 : Nat) : Statement (.abort x0 x1 x2) := of_none rfl
theorem voteTimeout : Statement (.voteTimeout) := of_none rfl
theorem memberDeadReport (x0 : Nat) : Statement (.memberDeadReport x0) := of_none rfl
theorem vquery (x0 : Nat) (x1 : Nat) : Statement (.vquery x0 x1) := of_none rfl
theorem vset (x0 : Nat) (x1 : Nat) (x2 : Nat) (x3 : W32) (x4 : Bool) (x5 : Bool) (x6 : Option Decision) : Statement (.vset x0 x1 x2 x3 x4 x5 x6) := of_none rfl
theorem vsetTimeout : Statement (.vsetTimeout) := of_none rfl
theorem decide (x0 : Nat) (x1 : Nat) (x2 : Decision) : Statement (.decide x0 x1 x2) := of_none rfl
theorem decideTimeout : Statement (.decideTimeout) := of_none rfl
theorem restoreDone : Statement (.restoreDone) := of_none rfl
theorem isolated (x0 : Nat) : Statement (.isolated x0) := of_none rfl
theorem rebuild (x0 : Nat) (x1 : Nat) (x2 : Nat) (x3 : List Byte) : Statement (.rebuild x0 x1 x2 x3) := of_none rfl
theorem rebuildComplete (x0 : RebuildNote) (x1 : Nat) (x2 : Nat) : Statement (.rebuildComplete x0 x1 x2) := of_none rfl
theorem dispatch (x0 : Nat) (x1 : Nat) : Statement (.dispatch x0 x1) := of_none rfl
theorem dispatchGrant (x0 : Nat) : Statement (.dispatchGrant x0) := of_none rfl
theorem taskStart (x0 : Nat) : Statement (.taskStart x0) := of_none rfl
theorem taskRetire (x0 : Nat) : Statement (.taskRetire x0) := of_none rfl
theorem ageExpiry (x0 : Nat) : Statement (.ageExpiry x0) := of_none rfl
theorem minrunExpiry (x0 : Nat) : Statement (.minrunExpiry x0) := of_none rfl
theorem preempt (x0 : Nat) : Statement (.preempt x0) := of_none rfl
theorem preemptSaveDone (x0 : Nat) : Statement (.preemptSaveDone x0) := of_none rfl
theorem resume (x0 : Nat) : Statement (.resume x0) := of_none rfl
theorem watchdogExpiry (x0 : Nat) : Statement (.watchdogExpiry x0) := of_none rfl
theorem wdgStsRead (x0 : Nat) : Statement (.wdgStsRead x0) := of_none rfl
theorem seqResumeWrite (x0 : Nat) (x1 : Word) : Statement (.seqResumeWrite x0 x1) := of_none rfl
theorem engErrRead (x0 : Nat) : Statement (.engErrRead x0) := of_none rfl
theorem ctxCfgEnSet (x0 : Nat) (x1 : Word) : Statement (.ctxCfgEnSet x0 x1) := of_none rfl
theorem ctxCfgEnClear (x0 : Nat) (x1 : Word) : Statement (.ctxCfgEnClear x0 x1) := of_none rfl
theorem ctxCfgStop (x0 : Nat) (x1 : Word) : Statement (.ctxCfgStop x0 x1) := of_none rfl
theorem ctxCfgGo (x0 : Nat) (x1 : Word) : Statement (.ctxCfgGo x0 x1) := of_none rfl
theorem qCfgEnSet (x0 : Nat) (x1 : Word) : Statement (.qCfgEnSet x0 x1) := of_none rfl
theorem qCfgEnClear (x0 : Nat) (x1 : Word) : Statement (.qCfgEnClear x0 x1) := of_none rfl
theorem qCfgSkip (x0 : Nat) (x1 : Word) : Statement (.qCfgSkip x0 x1) := of_none rfl
theorem queueNotify (x0 : Nat) : Statement (.queueNotify x0) := of_none rfl
theorem queuePoll : Statement (.queuePoll) := of_none rfl
theorem cond (x0 : Nat) (x1 : Nat) : Statement (.cond x0 x1) := of_none rfl
theorem loopNode (x0 : Nat) (x1 : Nat) : Statement (.loopNode x0 x1) := of_none rfl
theorem loopPass (x0 : Nat) (x1 : Nat) : Statement (.loopPass x0 x1) := of_none rfl
theorem switch (x0 : Nat) (x1 : Nat) : Statement (.switch x0 x1) := of_none rfl
theorem wait (x0 : Nat) (x1 : Nat) : Statement (.wait x0 x1) := of_none rfl
theorem waitTimeout (x0 : Nat) (x1 : Nat) : Statement (.waitTimeout x0 x1) := of_none rfl
theorem broadcast (x0 : Nat) (x1 : Nat) : Statement (.broadcast x0 x1) := of_none rfl
theorem allGather (x0 : Nat) (x1 : Nat) : Statement (.allGather x0 x1) := of_none rfl
theorem reduceScatter (x0 : Nat) (x1 : Nat) : Statement (.reduceScatter x0 x1) := of_none rfl
theorem allReduce (x0 : Nat) (x1 : Nat) : Statement (.allReduce x0 x1) := of_none rfl
theorem defaultBarrier (x0 : Nat) (x1 : Nat) : Statement (.defaultBarrier x0 x1) := of_none rfl
theorem expertBarrier (x0 : Nat) (x1 : Nat) : Statement (.expertBarrier x0 x1) := of_none rfl
theorem sig (x0 : Nat) (x1 : Nat) (x2 : Nat) (x3 : Word) : Statement (.sig x0 x1 x2 x3) := of_none rfl
theorem cabort (x0 : Nat) (x1 : Nat) (x2 : Nat) : Statement (.cabort x0 x1 x2) := of_none rfl
theorem collectivePayload (x0 : CollPayload) : Statement (.collectivePayload x0) := of_none rfl
theorem collectiveTimeout (x0 : Nat) (x1 : Nat) : Statement (.collectiveTimeout x0 x1) := of_none rfl
theorem evqCfgEnSet (x0 : Word) : Statement (.evqCfgEnSet x0) := of_none rfl
theorem evqCfgEnClear (x0 : Word) : Statement (.evqCfgEnClear x0) := of_none rfl
theorem evqCfgRead : Statement (.evqCfgRead) := of_none rfl
theorem evqRdWrite (x0 : Word) : Statement (.evqRdWrite x0) := of_none rfl
theorem actFcstRecompute : Statement (.actFcstRecompute) := of_none rfl
theorem linkTraining (x0 : Nat) (x1 : Nat) (x2 : Nat) : Statement (.linkTraining x0 x1 x2) := of_none rfl
theorem linkUp (x0 : Nat) : Statement (.linkUp x0) := of_none rfl
theorem linkTrainingTimeout (x0 : Nat) : Statement (.linkTrainingTimeout x0) := of_none rfl
theorem linkRetrainTimeout (x0 : Nat) : Statement (.linkRetrainTimeout x0) := of_none rfl
theorem flitReplay (x0 : FlitErr) : Statement (.flitReplay x0) := of_none rfl
theorem flitForward (x0 : Nat) (x1 : BitVec 4) : Statement (.flitForward x0 x1) := of_none rfl
theorem lnkCfgEn (x0 : Nat) (x1 : Word) : Statement (.lnkCfgEn x0 x1) := of_none rfl
theorem lnkCfgRetrain (x0 : Nat) (x1 : Word) : Statement (.lnkCfgRetrain x0 x1) := of_none rfl
theorem lnkStsRead (x0 : Nat) : Statement (.lnkStsRead x0) := of_none rfl
theorem orderedContribution (x0 : OrdContrib) : Statement (.orderedContribution x0) := of_none rfl
theorem contributionResend (x0 : Nat) (x1 : Nat) : Statement (.contributionResend x0 x1) := of_none rfl
theorem peCfgEnSet (x0 : Nat) (x1 : Word) : Statement (.peCfgEnSet x0 x1) := of_none rfl
theorem peCfgEnClear (x0 : Nat) (x1 : Word) : Statement (.peCfgEnClear x0 x1) := of_none rfl
theorem peStsRead (x0 : Nat) : Statement (.peStsRead x0) := of_none rfl
theorem peContribution (x0 : Nat) (x1 : OrdContrib) (x2 : Nat) (x3 : Bool) : Statement (.peContribution x0 x1 x2 x3) := of_none rfl
theorem peStepApply (x0 : Nat) (x1 : Nat) : Statement (.peStepApply x0 x1) := of_none rfl
theorem peStepTimeout (x0 : Nat) (x1 : Nat) : Statement (.peStepTimeout x0 x1) := of_none rfl
theorem fltCmdResume (x0 : Nat) (x1 : Nat) : Statement (.fltCmdResume x0 x1) := of_none rfl
theorem fltCmdDeliver (x0 : Nat) (x1 : Nat) : Statement (.fltCmdDeliver x0 x1) := of_none rfl
theorem fltCmdKill (x0 : Nat) (x1 : Nat) : Statement (.fltCmdKill x0 x1) := of_none rfl
theorem pwrCoreWrite (x0 : Nat) (x1 : Word) : Statement (.pwrCoreWrite x0 x1) := of_none rfl
theorem pwrProfWrite (x0 : Word) : Statement (.pwrProfWrite x0) := of_none rfl
theorem powerWindow : Statement (.powerWindow) := of_none rfl
theorem thermalEmergency : Statement (.thermalEmergency) := of_none rfl
theorem emergencySaveTimeout : Statement (.emergencySaveTimeout) := of_none rfl
theorem emergencyRailsOff : Statement (.emergencyRailsOff) := of_none rfl
theorem cooldownComplete : Statement (.cooldownComplete) := of_none rfl
theorem thmAreaWrite (x0 : Word) : Statement (.thmAreaWrite x0) := of_none rfl
theorem thmResGo (x0 : Word) : Statement (.thmResGo x0) := of_none rfl
theorem thmResDone : Statement (.thmResDone) := of_none rfl
theorem coreRetGo (x0 : Word) : Statement (.coreRetGo x0) := of_none rfl
theorem coreRetirement : Statement (.coreRetirement) := of_none rfl
theorem firmwareRecordAppend (x0 : Nat) (x1 : Nat) (x2 : List Byte) : Statement (.firmwareRecordAppend x0 x1 x2) := of_none rfl
theorem firmwareActivate (x0 : Nat) : Statement (.firmwareActivate x0) := of_none rfl
theorem attestationQuote (x0 : BitVec 512) : Statement (.attestationQuote x0) := of_none rfl
theorem errorLogMerge : Statement (.errorLogMerge) := of_none rfl
theorem coldReset : Statement (.coldReset) := of_none rfl
theorem registerWrite (x0 : Nat) (x1 : RegPut) : Statement (.registerWrite x0 x1) := of_none rfl
theorem hostRequest (x0 : HostReq) : Statement (.hostRequest x0) := of_none rfl
theorem podForm (x0 : Nat) (x1 : Nat) : Statement (.podForm x0 x1) := of_none rfl
theorem correctedError (x0 : Nat) : Statement (.correctedError x0) := of_none rfl
theorem pdRailFault : Statement (.pdRailFault) := of_none rfl
theorem sigResend (x0 : Nat) (x1 : Nat) (x2 : Nat) : Statement (.sigResend x0 x1 x2) := of_none rfl
theorem invalidMicroWord (x0 : Nat) : Statement (.invalidMicroWord x0) := of_none rfl

end Sys2Proof.Laws.Encoding
end

