-- ==== Sys2Proof/Tests/Slice0.lean ====
section
/-! SUPPORT. Small tests of the decoder and of single steps, and the witnesses of the statements' hypotheses. -/

namespace Sys2Proof.Tests
set_option Elab.async false
open Sys2Proof hiding core
open Sys2Proof.Machine

/-- S words by R194, R200, R223-R243. -/
theorem test_decode_s1 :
    decodeSlot 1 0x48B4500 = .ok (.add ⟨2, 11, 17, 16⟩) ∧
    decodeSlot 0 0x8D271D0 = .ok (.sub ⟨3, 18, 28, 29⟩) ∧
    decodeSlot 1 0xD199EA0 = .ok (.mul ⟨4, 25, 39, 42⟩) ∧
    decodeSlot 0 0xD60CB71 = .ok (.mulh ⟨5, 32, 50, 55⟩) ∧
    decodeSlot 1 0xDA7F452 = .ok (.mulhu ⟨6, 39, 61, 5⟩) ∧
    decodeSlot 0 0x11EE2520 = .ok (.and ⟨7, 46, 9, 18⟩) ∧
    decodeSlot 1 0x163551F0 = .ok (.or ⟨8, 53, 20, 31⟩) ∧
    decodeSlot 0 0x1A7C7EC0 = .ok (.xor ⟨9, 60, 31, 44⟩) ∧
    decodeSlot 1 0x1E84AB90 = .ok (.andn ⟨10, 4, 42, 57⟩) ∧
    decodeSlot 0 0x22CBD470 = .ok (.shl ⟨11, 11, 53, 7⟩) :=
  ⟨rfl, rfl, rfl, rfl, rfl, rfl, rfl, rfl, rfl, rfl⟩
/-- S words by R194, R200, R223-R243. -/
theorem test_decode_s2 :
    decodeSlot 1 0x27120540 = .ok (.shr ⟨12, 18, 1, 20⟩) ∧
    decodeSlot 0 0x2B593210 = .ok (.sar ⟨13, 25, 12, 33⟩) ∧
    decodeSlot 1 0x2FA05EE0 = .ok (.min ⟨14, 32, 23, 46⟩) ∧
    decodeSlot 0 0x2FE78BB1 = .ok (.minu ⟨15, 39, 34, 59⟩) ∧
    decodeSlot 1 0x306EB490 = .ok (.max ⟨1, 46, 45, 9⟩) ∧
    decodeSlot 0 0x30B5E161 = .ok (.maxu ⟨2, 53, 56, 22⟩) ∧
    decodeSlot 1 0x38FC1230 = .ok (.bfx ⟨3, 60, 4, 35⟩) ∧
    decodeSlot 0 0x39043F01 = .ok (.bfxu ⟨4, 4, 15, 48⟩) ∧
    decodeSlot 1 0x3D4B6BD0 = .ok (.bfi ⟨5, 11, 26, 61⟩) ∧
    decodeSlot 0 0x359294BB = .ok (.sel ⟨6, 18, 37, 11⟩ 11) :=
  ⟨rfl, rfl, rfl, rfl, rfl, rfl, rfl, rfl, rfl, rfl⟩
/-- S words by R194, R200, R223-R243. -/
theorem test_decode_s3 :
    decodeSlot 1 0x41D9C000 = .ok (.clz ⟨7, 25, 48⟩) ∧
    decodeSlot 1 0x4220EC01 = .ok (.ctz ⟨8, 32, 59⟩) ∧
    decodeSlot 1 0x42671C02 = .ok (.popc ⟨9, 39, 7⟩) ∧
    decodeSlot 0 0x46AE4A00 = .ok (.addi ⟨10, 46, 18, 512⟩) ∧
    decodeSlot 1 0x4AF575FF = .ok (.andi ⟨11, 53, 29, 511⟩) ∧
    decodeSlot 0 0x4F3CA3FF = .ok (.ori ⟨12, 60, 40, 1023⟩) ∧
    decodeSlot 1 0x5344CC4D = .ok (.xori ⟨13, 4, 51, 77⟩) ∧
    decodeSlot 0 0xA38BF8FF = .ok (.semget ⟨14, 11, 62, 255⟩) ∧
    decodeSlot 1 0xA7D22BFD = .ok (.semset ⟨15, 18, 10, 1021⟩) ∧
    decodeSlot 0 0xA8595409 = .ok (.semsig ⟨1, 25, 21, 9⟩) :=
  ⟨rfl, rfl, rfl, rfl, rfl, rfl, rfl, rfl, rfl, rfl⟩
/-- S words by R194, R200, R223-R243. -/
theorem test_decode_s4 :
    decodeSlot 1 0xACA08000 = .ok (.semwait ⟨2, 32, 32, 0⟩) ∧
    decodeSlot 0 0x54E7AC3F = .ok (.shli ⟨3, 39, 43, 63⟩) ∧
    decodeSlot 1 0x592ED801 = .ok (.shri ⟨4, 46, 54, 1⟩) ∧
    decodeSlot 0 0x5D750820 = .ok (.sari ⟨5, 53, 2, 32⟩) ∧
    decodeSlot 1 0x61B04D44 = .ok (.cmpeq ⟨6, 12, 1, 13, 17⟩) ∧
    decodeSlot 0 0x65D25878 = .ok (.cmplt ⟨7, 4, 9, 24, 30⟩) ∧
    decodeSlot 1 0x6A2C23AC = .ok (.cmpltu ⟨8, 11, 0, 35, 43⟩) ∧
    decodeSlot 0 0x6E49EE80 = .ok (.cmpeqi ⟨9, 2, 7, 46, 128⟩) ∧
    decodeSlot 1 0x72A7B97F = .ok (.cmplti ⟨10, 9, 14, 57, 127⟩) ∧
    decodeSlot 0 0x76C145FF = .ok (.cmpltui ⟨11, 0, 5, 5, 255⟩) :=
  ⟨rfl, rfl, rfl, rfl, rfl, rfl, rfl, rfl, rfl, rfl⟩
/-- S words by R194, R200, R223-R243. -/
theorem test_decode_s5 :
    decodeSlot 1 0x7B070000 = .ok (.pand ⟨12, 7, 0, 0⟩) ∧
    decodeSlot 0 0x7B4E2CD1 = .ok (.por ⟨13, 14, 11, 13⟩) ∧
    decodeSlot 1 0x7B8518A2 = .ok (.pxor ⟨14, 5, 6, 10⟩) ∧
    decodeSlot 0 0x7BCC0483 = .ok (.pandn ⟨15, 12, 1, 8⟩) ∧
    decodeSlot 0 0x7C600000 = .ok (.lis ⟨1, 2097152⟩) ∧
    decodeSlot 0 0x80BFFFFF = .ok (.lic ⟨2, 4194303⟩) ∧
    decodeSlot 0 0x84C00005 = .ok (.br ⟨3, 5⟩) ∧
    decodeSlot 0 0x893FFFFE = .ok (.brl ⟨4, 4194302⟩) ∧
    decodeSlot 0 0x91412345 = .ok (.loop ⟨5, 74565⟩) ∧
    decodeSlot 0 0xB5800015 = .ok (.trap ⟨6, 21⟩) :=
  ⟨rfl, rfl, rfl, rfl, rfl, rfl, rfl, rfl, rfl, rfl⟩
/-- S words by R194, R200, R223-R243. -/
theorem test_decode_s6 :
    decodeSlot 0 0xB9FFFFFF = .ok (.sys ⟨7, 4194303⟩) ∧
    decodeSlot 0 0x8E002C00 = .ok (.brr 8 11) ∧
    decodeSlot 0 0x8E405801 = .ok (.brrl 9 22) ∧
    decodeSlot 0 0x968087F0 = .ok (.chkS ⟨10, 33, 1008⟩) ∧
    decodeSlot 0 0x96C1B3F0 = .ok (.chkV ⟨11, 44, 1008⟩) ∧
    decodeSlot 1 0x9B125000 = .ok (.mfs 12 18 20) ∧
    decodeSlot 1 0x9F510C00 = .ok (.mts 13 17 3) ∧
    decodeSlot 1 0xB3800000 = .ok (.wfe 14) ∧
    decodeSlot 0 0xBFC00000 = .ok (.eret 15) ∧
    decodeSlot 0 0xC0400000 = .ok (.halt 1) :=
  ⟨rfl, rfl, rfl, rfl, rfl, rfl, rfl, rfl, rfl, rfl⟩
/-- V words by R195, R201, R246-R267. -/
theorem test_decode_v1 :
    decodeSlot 2 0x4B5BE80 = .ok (.vadd ⟨2, 53, 47, 40⟩ .f32) ∧
    decodeSlot 3 0x8FCEB51 = .ok (.vsub ⟨3, 60, 58, 53⟩ .f16) ∧
    decodeSlot 2 0xD041832 = .ok (.vmul ⟨4, 4, 6, 3⟩ .b16) ∧
    decodeSlot 2 0x114B4503 = .ok (.vfma ⟨5, 11, 17, 16⟩ .i32) ∧
    decodeSlot 2 0x159271D4 = .ok (.vfms ⟨6, 18, 28, 29⟩ .n32) ∧
    decodeSlot 4 0x19D99EA5 = .ok (.vmin ⟨7, 25, 39, 42⟩ .i16) ∧
    decodeSlot 3 0x1E20CB76 = .ok (.vmax ⟨8, 32, 50, 55⟩ .n16) ∧
    decodeSlot 2 0x7E67F450 = .ok (.vclamp ⟨9, 39, 61, 5⟩ .f32) ∧
    decodeSlot 3 0x3AAE2524 = .ok (.vshl ⟨10, 46, 9, 18⟩ .n32) ∧
    decodeSlot 4 0x3EF551F5 = .ok (.vshr ⟨11, 53, 20, 31⟩ .i16) :=
  ⟨rfl, rfl, rfl, rfl, rfl, rfl, rfl, rfl, rfl, rfl⟩
/-- V words by R195, R201, R246-R267. -/
theorem test_decode_v2 :
    decodeSlot 2 0x433C7EC5 = .ok (.vsar ⟨12, 60, 31, 44⟩ .i16) ∧
    decodeSlot 4 0x2344A800 = .ok (.vabs ⟨13, 4, 42⟩ .f32) ∧
    decodeSlot 4 0x278BD403 = .ok (.vneg ⟨14, 11, 53⟩ .i32) ∧
    decodeSlot 3 0x2BD20540 = .ok (.vand ⟨15, 18, 1, 20⟩) ∧
    decodeSlot 3 0x2C593210 = .ok (.vor ⟨1, 25, 12, 33⟩) ∧
    decodeSlot 3 0x30A05EE0 = .ok (.vxor ⟨2, 32, 23, 46⟩) ∧
    decodeSlot 3 0x34E78BB0 = .ok (.vandn ⟨3, 39, 34, 59⟩) ∧
    decodeSlot 2 0x752EB400 = .ok (.vpopc ⟨4, 46, 45⟩) ∧
    decodeSlot 2 0x7575E001 = .ok (.vclz ⟨5, 53, 56⟩) ∧
    decodeSlot 3 0x458C1230 = .ok (.vcmpeq ⟨6, 12, 4, 35⟩ .f32) :=
  ⟨rfl, rfl, rfl, rfl, rfl, rfl, rfl, rfl, rfl, rfl⟩
/-- V words by R195, R201, R246-R267. -/
theorem test_decode_v3 :
    decodeSlot 3 0x49C43F03 = .ok (.vcmplt ⟨7, 4, 15, 48⟩ .i32) ∧
    decodeSlot 3 0x4E0B6BD4 = .ok (.vcmple ⟨8, 11, 26, 61⟩ .n32) ∧
    decodeSlot 4 0x7A4214B0 = .ok (.qand ⟨9, 2, 5, 11⟩) ∧
    decodeSlot 4 0x7A890081 = .ok (.qor ⟨10, 9, 0, 8⟩) ∧
    decodeSlot 4 0x7AC02C52 = .ok (.qxor ⟨11, 0, 11, 5⟩) ∧
    decodeSlot 4 0x7B071C23 = .ok (.qandn ⟨12, 7, 7, 2⟩) ∧
    decodeSlot 2 0x536E4BFD = .ok (.vsel ⟨13, 46, 18, 63⟩ 13) ∧
    decodeSlot 2 0x57B57603 = .ok (.vcvt ⟨14, 53, 29⟩ true false .f32 .i32) ∧
    decodeSlot 2 0x5BFCA1A3 = .ok (.vpack ⟨15, 60, 40, 26⟩ .f8e5) ∧
    decodeSlot 2 0x5C44CE78 = .ok (.vunpack ⟨1, 4, 51, 39⟩ .blk) :=
  ⟨rfl, rfl, rfl, rfl, rfl, rfl, rfl, rfl, rfl, rfl⟩
/-- V words by R195, R201, R246-R267. -/
theorem test_decode_v4 :
    decodeSlot 4 0x608BF892 = .ok (.vperm ⟨2, 11, 62⟩ .shd 9) ∧
    decodeSlot 4 0x64D228F0 = .ok (.vbcast ⟨3, 18, 10⟩ 15) ∧
    decodeSlot 4 0x65195401 = .ok (.vbcastS ⟨4, 25, 21⟩) ∧
    decodeSlot 4 0x65608002 = .ok (.vbcastH ⟨5, 32, 32⟩) ∧
    decodeSlot 4 0x71A7AE90 = .ok (.vxlane ⟨6, 39, 43, 41⟩) ∧
    decodeSlot 4 0x71EEDB61 = .ok (.vxlaneZ ⟨7, 46, 54, 54⟩) ∧
    decodeSlot 4 0x6A350854 = .ok (.vred ⟨8, 53, 2⟩ .xor .n32) ∧
    decodeSlot 4 0x6E7C3620 = .ok (.vscan ⟨9, 60, 13⟩ .max true .f32) :=
  ⟨rfl, rfl, rfl, rfl, rfl, rfl, rfl, rfl⟩
/-- F words by R196, R202, R268-R275. -/
theorem test_decode_f1 :
    decodeSlot 5 0x6846000 = .ok (.frcp ⟨10, 4, 24, .scalar⟩) ∧
    decodeSlot 5 0xACB8EE0 = .ok (.frsqrt ⟨11, 11, 35, (.vector 7)⟩) ∧
    decodeSlot 5 0xF12B800 = .ok (.fsqrt ⟨12, 18, 46, .scalar⟩) ∧
    decodeSlot 5 0x1359E7E0 = .ok (.fexp2 ⟨13, 25, 57, (.vector 15)⟩) ∧
    decodeSlot 5 0x17A01400 = .ok (.flog2 ⟨14, 32, 5, .scalar⟩) ∧
    decodeSlot 5 0x1BE74241 = .ok (.fsin ⟨15, 39, 16, (.vector 2)⟩ true) ∧
    decodeSlot 5 0x1C6E6C00 = .ok (.fcos ⟨1, 46, 27, .scalar⟩ false) ∧
    decodeSlot 5 0x20B59A20 = .ok (.fdiv ⟨2, 53, 38, (.vector 1)⟩) ∧
    decodeSlot 5 0x24FCC401 = .ok (.idiv ⟨3, 60, 49, .scalar⟩ true) ∧
    decodeSlot 5 0x2904F260 = .ok (.idivu ⟨4, 4, 60, (.vector 3)⟩ false) :=
  ⟨rfl, rfl, rfl, rfl, rfl, rfl, rfl, rfl, rfl, rfl⟩
/-- F words by R196, R202, R268-R275. -/
theorem test_decode_f2 :
    decodeSlot 5 0x314B2006 = .ok (.crc ⟨5, 11, 8, .scalar⟩ true 2) ∧
    decodeSlot 5 0x35924F20 = .ok (.hash ⟨6, 18, 19, (.vector 9)⟩) ∧
    decodeSlot 5 0x39D97800 = .ok (.gfmul ⟨7, 25, 30, .scalar⟩) ∧
    decodeSlot 5 0x2E20A280 = .ok (.rng ⟨8, 32, 40, .vector 4⟩) :=
  ⟨rfl, rfl, rfl, rfl⟩
/-- M words by R197, R203, R276-R303. -/
theorem test_decode_m1 :
    decodeSlot 7 0x667D17480000000 = .ok (.ld ⟨9, 39, 52, 23, .i8, 2147483648⟩) ∧
    decodeSlot 6 0xAAEFE4300000040 = .ok (.st ⟨10, 46, 63, 36, .n64, 64⟩) ∧
    decodeSlot 7 0xEF52F127FFFFFFF = .ok (.vld ⟨11, 53, 11, 49, .n32, 2147483647⟩) ∧
    decodeSlot 6 0x133C5BE1FFFFFFFF = .ok (.vst ⟨12, 60, 22, 62, .n16, 4294967295⟩) ∧
    decodeSlot 7 0x174484C580000000 = .ok (.vldr ⟨13, 4, 33, 12, .i16, 2147483648⟩) ∧
    decodeSlot 6 0x1B8BB19000000040 = .ok (.vstr ⟨14, 11, 44, 25, .n8, 64⟩) ∧
    decodeSlot 7 0x1FD2DE627FFFFFFF = .ok (.vgather ⟨15, 18, 55, 38, .n32, 2147483647⟩) ∧
    decodeSlot 6 0x20590F32FFFFFFFF = .ok (.vscatter ⟨1, 25, 3, 51, .n32, 4294967295⟩) ∧
    decodeSlot 7 0x24A0381380000000 = .ok (.sld ⟨2, 32, 14, 1, .n64, 2147483648⟩) ∧
    decodeSlot 6 0x28E764E200000040 = .ok (.vsld ⟨3, 39, 25, 14, .n32, 64⟩) :=
  ⟨rfl, rfl, rfl, rfl, rfl, rfl, rfl, rfl, rfl, rfl⟩
/-- M words by R197, R203, R276-R303. -/
theorem test_decode_m2 :
    decodeSlot 7 0x2D2E91B67FFFFFFF = .ok (.ldSpm ⟨4, 46, 36, 27, .i32, 2147483647⟩) ∧
    decodeSlot 6 0x3175BE81FFFFFFFF = .ok (.stSpm ⟨5, 53, 47, 40, .n16, 4294967295⟩) ∧
    decodeSlot 7 0x35BCEB5280000000 = .ok (.vldSpm ⟨6, 60, 58, 53, .n32, 2147483648⟩) ∧
    decodeSlot 6 0x39C4183200000040 = .ok (.vstSpm ⟨7, 4, 6, 3, .n32, 64⟩) ∧
    decodeSlot 7 0x3E0B45027FFFFFFF = .ok (.vgatherSpm ⟨8, 11, 17, 16, .n32, 2147483647⟩) ∧
    decodeSlot 6 0x425271D2FFFFFFFF = .ok (.vscatterSpm ⟨9, 18, 28, 29, .n32, 4294967295⟩) ∧
    decodeSlot 6 0x46989EA24FFFFFFF = .ok (.aadd ⟨10, 24, 39, 42, .n32, 2, 1, 134217727⟩) ∧
    decodeSlot 6 0x4AE0CB7777FFFFFF = .ok (.amin ⟨11, 32, 50, 55, .i64, 3, 2, 134217727⟩) ∧
    decodeSlot 6 0x4F26F4539FFFFFFF = .ok (.amax ⟨12, 38, 61, 5, .n64, 4, 3, 134217727⟩) ∧
    decodeSlot 6 0x536E2522A7FFFFFF = .ok (.aand ⟨13, 46, 9, 18, .n32, 5, 0, 134217727⟩) :=
  ⟨rfl, rfl, rfl, rfl, rfl, rfl, rfl, rfl, rfl, rfl⟩
/-- M words by R197, R203, R276-R303. -/
theorem test_decode_m3 :
    decodeSlot 6 0x57B451F6CFFFFFFF = .ok (.aor ⟨14, 52, 20, 31, .i32, 6, 1, 134217727⟩) ∧
    decodeSlot 6 0x5BFC7EC307FFFFFF = .ok (.axor ⟨15, 60, 31, 44, .n64, 0, 0, 134217727⟩) ∧
    decodeSlot 6 0x5C44AB9237FFFFFF = .ok (.aswp ⟨1, 4, 42, 57, .n32, 1, 2, 134217727⟩) ∧
    decodeSlot 6 0x608AD4735FFFFFFF = .ok (.acas ⟨2, 10, 53, 7, .n64, 2, 3, 134217727⟩) ∧
    decodeSlot 7 0x64C1000080000000 = .ok (.acq ⟨3, 1, false⟩ 4) ∧
    decodeSlot 7 0x6D0C0000C0000000 = .ok (.inval ⟨4, 12, false⟩ 6) ∧
    decodeSlot 7 0x7540000000000001 = .ok (.cln ⟨5, 0, true⟩) ∧
    decodeSlot 6 0x69800000A0000000 = .ok (.rel 6 5) ∧
    decodeSlot 6 0x71C0000000000000 = .ok (.drain 7) ∧
    decodeSlot 6 0x7200000010000000 = .ok (.drainX 8) :=
  ⟨rfl, rfl, rfl, rfl, rfl, rfl, rfl, rfl, rfl, rfl⟩
/-- M words by R197, R203, R276-R303. -/
theorem test_decode_m4 :
    decodeSlot 6 0x7A40000000000003 = .ok (.mark 9 3) ∧
    decodeSlot 6 0x7E80000000000000 = .ok (.join 10) ∧
    decodeSlot 6 0x82DA0000C9ABC119 = .ok (.mcall 11 26 ⟨201, 2748, 17, 9⟩) ∧
    decodeSlot 6 0x873C2C00C9ABC119 = .ok (.xferGg ⟨12, 60, 11, 0, false, false, ⟨201, 2748, 17, 9⟩⟩) ∧
    decodeSlot 7 0x877C6141C9ABC119 = .ok (.xferSg ⟨13, 60, 24, 2, true, false, ⟨201, 2748, 17, 9⟩⟩) ∧
    decodeSlot 6 0x87BC95A2C9ABC119 = .ok (.xferGs ⟨14, 60, 37, 3, false, true, ⟨201, 2748, 17, 9⟩⟩) ∧
    decodeSlot 7 0x87FCCA63C9ABC119 = .ok (.xferSs ⟨15, 60, 50, 4, true, true, ⟨201, 2748, 17, 9⟩⟩) ∧
    decodeSlot 6 0x847FFC04C9ABC119 = .ok (.xferTg ⟨1, 63, 63, 0, false, false, ⟨201, 2748, 17, 9⟩⟩) ∧
    decodeSlot 7 0x84BF3746C9ABC119 = .ok (.xferTs ⟨2, 63, 13, 6, true, false, ⟨201, 2748, 17, 9⟩⟩) ∧
    decodeSlot 6 0x84FF68A8C9ABC119 = .ok (.xferGt ⟨3, 63, 26, 1, false, true, ⟨201, 2748, 17, 9⟩⟩) :=
  ⟨rfl, rfl, rfl, rfl, rfl, rfl, rfl, rfl, rfl, rfl⟩
/-- M words by R197, R203, R276-R303. -/
theorem test_decode_m5 :
    decodeSlot 7 0x853F9D69C9ABC119 = .ok (.xferSt ⟨4, 63, 39, 2, true, true, ⟨201, 2748, 17, 9⟩⟩) ∧
    decodeSlot 6 0x857ED00CC9ABC119 = .ok (.xferGa ⟨5, 62, 52, 0, false, false, ⟨201, 2748, 17, 9⟩⟩) ∧
    decodeSlot 7 0x85BE0A4DC9ABC119 = .ok (.xferSa ⟨6, 62, 2, 4, true, false, ⟨201, 2748, 17, 9⟩⟩) ∧
    decodeSlot 6 0x89FD3EA0C9ABC119 = .ok (.xredAddF32 ⟨7, 61, 15, 5, false, true, ⟨201, 2748, 17, 9⟩⟩) ∧
    decodeSlot 7 0x8A3D7361C9ABC119 = .ok (.xredAddoF32 ⟨8, 61, 28, 6, true, true, ⟨201, 2748, 17, 9⟩⟩) ∧
    decodeSlot 6 0x8A7DA402C9ABC119 = .ok (.xredAddB16 ⟨9, 61, 41, 0, false, false, ⟨201, 2748, 17, 9⟩⟩) ∧
    decodeSlot 7 0x8ABDD943C9ABC119 = .ok (.xredAddI32 ⟨10, 61, 54, 2, true, false, ⟨201, 2748, 17, 9⟩⟩) ∧
    decodeSlot 6 0x8AFD11A4C9ABC119 = .ok (.xredMinF32 ⟨11, 61, 4, 3, false, true, ⟨201, 2748, 17, 9⟩⟩) ∧
    decodeSlot 7 0x8B3D4665C9ABC119 = .ok (.xredMaxF32 ⟨12, 61, 17, 4, true, true, ⟨201, 2748, 17, 9⟩⟩) ∧
    decodeSlot 6 0x8B7D7806C9ABC119 = .ok (.xredMinI32 ⟨13, 61, 30, 0, false, false, ⟨201, 2748, 17, 9⟩⟩) :=
  ⟨rfl, rfl, rfl, rfl, rfl, rfl, rfl, rfl, rfl, rfl⟩
/-- M words by R197, R203, R276-R303. -/
theorem test_decode_m6 :
    decodeSlot 7 0x8BBDAF47C9ABC119 = .ok (.xredMaxI32 ⟨14, 61, 43, 6, true, false, ⟨201, 2748, 17, 9⟩⟩) ∧
    decodeSlot 6 0x93FFE0A0C9ABC119 = .ok (.tldT ⟨15, 63, 56, 1, false, true, ⟨201, 2748, 17, 9⟩⟩) ∧
    decodeSlot 7 0x907F1961C9ABC119 = .ok (.tldS ⟨1, 63, 6, 2, true, true, ⟨201, 2748, 17, 9⟩⟩) ∧
    decodeSlot 6 0x94BF4C00C9ABC119 = .ok (.tstT ⟨2, 63, 19, 0, false, false, ⟨201, 2748, 17, 9⟩⟩) ∧
    decodeSlot 7 0x94FF8241C9ABC119 = .ok (.tstS ⟨3, 63, 32, 4, true, false, ⟨201, 2748, 17, 9⟩⟩) ∧
    decodeSlot 7 0x8D3BB5E2C9ABC119 = .ok (.trig ⟨4, 59, 45, 3, true, true, ⟨201, 2748, 17, 9⟩⟩ 2) ∧
    decodeSlot 7 0x99661400C9ABC119 = .ok (.tcfgShp 5 38 5 ⟨201, 2748, 17, 9⟩) ∧
    decodeSlot 7 0x99B11C0100000000 = .ok (.tcfgM 6 49 7) ∧
    decodeSlot 7 0x99FC180200000000 = .ok (.tcfgM2 7 60 6) ∧
    decodeSlot 7 0x9E000005C9ABC119 = .ok (.qcut 8 5 ⟨201, 2748, 17, 9⟩) :=
  ⟨rfl, rfl, rfl, rfl, rfl, rfl, rfl, rfl, rfl, rfl⟩
/-- Micro-words by R315-R324. -/
theorem test_decode_x1 :
    decodeMicro 0x400000000000000 = .ok (.lxEnd) ∧
    decodeMicro 0xA176C0000000000 = .ok (.lxFetch 33 (.k 2) true .both 5 2) ∧
    decodeMicro 0xBF0800000000000 = .ok (.lxFetch 63 .none false .hi 0 0) ∧
    decodeMicro 0xCC8800000000000 = .ok (.lxSel 12 (.k 3) true) ∧
    decodeMicro 0x1092FFC000001FFF = .ok (.lxSkip (.tile 9 (.k 0) 1023) 8191) ∧
    decodeMicro 0x100101800000004D = .ok (.lxSkip (.m 6) 77) ∧
    decodeMicro 0x17FF000000000000 = .ok (.lxScan 1023) ∧
    decodeMicro 0x18EF000000000000 = .ok (.lxMac 239) ∧
    decodeMicro 0x1C00000000000000 = .ok (.lxAcc) ∧
    decodeMicro 0x2207E00000000000 = .ok (.lxCvt 0x81 true 7 true) :=
  ⟨rfl, rfl, rfl, rfl, rfl, rfl, rfl, rfl, rfl, rfl⟩
/-- Micro-words by R315-R324. -/
theorem test_decode_x2 :
    decodeMicro 0x26840FF800000000 = .ok (.lxWout (.tile 40 (.k 1)) .f8e4 true 63) ∧
    decodeMicro 0x2401980000000000 = .ok (.lxWout (.spm 4) .c32 false 0) ∧
    decodeMicro 0x2B23C00000000000 = .ok (.lxSig 200 15) ∧
    decodeMicro 0x2E0000000000FFFF = .ok (.lxSetk 2 (.imm 0xFFFF)) ∧
    decodeMicro 0x2FD8000000000000 = .ok (.lxSetk 3 (.m 5 true 0)) ∧
    decodeMicro 0x3100000000008000 = .ok (.lxAddk 1 0x8000) ∧
    decodeMicro 0x3700000000000064 = .ok (.lxLoop 3 100) ∧
    decodeMicro 0x3A80000000001FFF = .ok (.lxBr 2 .nonzero 8191) ∧
    decodeMicro 0x38C0000000000001 = .ok (.lxBr 0 .bmrZero 1) ∧
    decodeMicro 0x3C00000000000000 = .ok (.lxNop) :=
  ⟨rfl, rfl, rfl, rfl, rfl, rfl, rfl, rfl, rfl, rfl⟩

/-! ## Small states -/

/-- Stores device registers. -/
def wr (s : State) (l : List (Reg × Word)) : State := l.foldl (fun s x => wrReg s x.1 x.2) s
/-- Stores runs of 64-bit words. -/
def wb (s : State) (l : List (Nat × List Nat)) : State :=
  l.foldl (fun s x => (x.2.mapIdx fun i w => (x.1 + 8 * i, w)).foldl (fun s y => wrLe s y.1 y.2 8) s) s
/-- A value that a computation gives. -/
def gives {ε α : Type} [DecidableEq α] (x : Except ε α) (v : α) : Bool :=
  match x with
  | .ok y => decide (y = v)
  | .error _ => false
theorem ok_of_gives {ε α : Type} [DecidableEq α] {x : Except ε α} {v : α} (h : gives x v = true) : x = .ok v := by
  cases x with
  | ok y => simpa [gives] using h
  | error e => simp [gives] at h
/-- The error a computation ends with. -/
def errs {ε α : Type} [DecidableEq ε] (x : Except ε α) (e : ε) : Bool :=
  match x with
  | .ok _ => false
  | .error y => decide (y = e)
theorem error_of_errs {ε α : Type} [DecidableEq ε] {x : Except ε α} {e : ε} (h : errs x e = true) : x = .error e := by
  cases x with
  | ok y => simp [errs] at h
  | error y => simpa [errs] using h

/-- A running sequencer. -/
def q0 : Seq := { kind := .active, st := .running }
/-- Its registers for the register slots: clean, negative, zero and poisoned values, true and false predicates. -/
def xa : Seq := { q0 with
  s := [(1, ⟨5, false⟩), (2, ⟨-9, false⟩), (4, ⟨9, true⟩), (5, ⟨0x804, false⟩), (6, ⟨0x10000, false⟩), (7, ⟨BitVec.intMin 64, false⟩),
    (9, ⟨-1, false⟩), (10, ⟨0xFFFF, false⟩)]
  p := 0b101, lc := 3, ec := 2
  v := [(16, ⟨0x3F800000, false⟩), (17, ⟨7, false⟩), (18, ⟨0x7F800001, true⟩), (33, ⟨1, false⟩), (64, ⟨0x10, false⟩)]
  q := [(1, 0x0003), (2, 0x8001), (3, 0), (4, 4)] }
/-- A state about to execute a slot of a sequencer. -/
def at_ (x : Seq) : State := { State.reset with cores := [(0, { seqs := [(0, x)] })], cur := { slot := 2, pc := 0x1000, next := 0x1006 } }

/-- The same on a core whose task was given a handler. -/
def sx : State := modCore (at_ xa) 0 fun c => { c with xvIn := 0x8000000000000000 }

/-! ## Witnesses: states and operands that meet the hypotheses of each statement, clause by clause -/

theorem wit_ScalarResults :
    rdP (me (at_ xa)) 2 = true ∧ rdP (me (at_ xa)) 1 = false ∧ (rdS (me (at_ xa)) 1).p = false ∧ (rdS (me (at_ xa)) 2).p = false ∧
    (rdS (me (at_ xa)) 4).p = true := by decide +kernel

theorem wit_PredicateLogic :
    [Instr.pand ⟨0, 0, 0, 0⟩, .por ⟨0, 0, 0, 0⟩, .pxor ⟨0, 0, 0, 0⟩, .pandn ⟨0, 0, 0, 0⟩][3]? = some (.pandn ⟨0, 0, 0, 0⟩) ∧
    (1 < 2 ∧ 15 < 16 ∧ 3 < 4) ∧ (3 ≠ 0 ∨ 4 ≤ 15) := by decide

theorem wit_HardwiredRegisters : (0 : BitVec 4) = 0 ∧ rdP (me (at_ xa)) 2 = true ∧ (rdS (me (at_ xa)) 1).p = false ∧
    (rdS (me (at_ xa)) 2).p = false := by decide +kernel

theorem wit_BranchesLoopsAndPoisonChecks :
    rdP (me (at_ xa)) 0 = true ∧ rdP (me (at_ xa)) 1 = false ∧
    ((rdS (me (at_ xa)) 6).p = false ∧ (rdS (me (at_ xa)) 6).v.getLsbD 0 = false) ∧ (rdS (me (at_ xa)) 4).p = true ∧
    ((rdS (me (at_ xa)) 1).p = false ∧ (rdS (me (at_ xa)) 1).v.getLsbD 0 = true) ∧
    (∃ l < 16, (rdV (me (at_ xa)) 1 l).p = true) ∧ (∀ l < 16, (rdV (me (at_ xa)) 2 l).p = false) := by decide +kernel

theorem wit_BranchesLoopsAndPoisonChecks_Loops :
    rdP xa 1 = false ∧ rdP xa 0 = true ∧ 0 < xa.lc.toNat ∧
    (let x := { xa with lc := 0 }; rdP x 0 = true ∧ x.lc.toNat = 0 ∧ 1 < x.ec.toNat) ∧
    (let x := { xa with lc := 0, ec := 1 }; x.lc.toNat = 0 ∧ x.ec.toNat = 1) ∧
    (let x := { xa with lc := 0, ec := 0 }; x.lc.toNat = 0 ∧ x.ec.toNat = 0) ∧ (15 : BitVec 4) ≠ 0 := by decide

theorem wit_StopComesBeforeTransfersAndEndings :
    (⟨0x1000, ⟨2, true, false, 0, []⟩, []⟩ : Ready).raw.stop = true ∧
    ((seqOf sx 0 0).mode = false ∧ hasHandler sx 0 = true ∧ (seqOf sx 0 0).xpc.getLsbD 0 = false) := by decide +kernel

theorem wit_SpecialRegisters :
    rdP (me (at_ xa)) 0 = true ∧ (16 ≤ (16 : BitVec 6).toNat ∧ (me (at_ xa)).mode = false) ∧
    ((15 : BitVec 6).toNat < 16 ∧ (15 : BitVec 6) ≠ 7 ∧ (rdS (me (at_ xa)) 1).p = false ∧ (rdS (me (at_ xa)) 4).p = true) ∧
    ((63 : BitVec 6) ≠ 7 ∧ (me (at_ { xa with mode := true })).mode = true) := by decide +kernel

theorem wit_Semaphores :
    rdP (me (at_ xa)) 0 = true ∧ (rdS (me (at_ xa)) 1).p = false ∧
    (let s := at_ xa; let d (n : BitVec 6) := rdS (me s) n; let v := semVal (myCore s) 5
     ((d 10).p = false ∧ (d 10).v.toNat ≤ 0xFFFF ∧ (d 10).v ≠ 0 ∧ v + (d 10).v.toNat ≤ 0xFFFF) ∧
     ((d 6).p = false ∧ 0xFFFF < (d 6).v.toNat ∧ 0xFFFF < v + (d 6).v.toNat ∧ (d 6).v ≠ 0) ∧
     ((d 0).p = false ∧ (d 0).v = 0) ∧ (d 4).p = true) ∧
    (let c : Core := { seqs := [(3, q0)] }; (3, { q0 with evp := true }) ∈ (semPut c 7 1).seqs) ∧ (6 : Nat) ≠ 7 := by decide +kernel

theorem wit_ModeChangesAndHandlers :
    ((at_ xa).cur.stop = false ∧ (me (at_ xa)).mode = false) ∧ ((at_ xa).cur.stop = false ∧ (me (at_ { xa with mode := true })).mode = true) ∧
    { (at_ xa).cur with stop := true }.stop = true ∧ hasHandler (at_ xa) 0 = false ∧
    (hasHandler sx 0 = true ∧ headAfter sx 0 0 allLines 0 0x1006 = .at_ 0x1006) ∧
    (seqOf (at_ xa) 0 0).xpc.getLsbD 0 = false ∧ (seqOf (at_ { xa with xpc := 0x1001 }) 0 0).xpc.getLsbD 0 = true ∧
    Ending.stop = .stop ∧ Ending.halt 4 = .halt 4 := by decide +kernel

theorem wit_ResultsLandAfterTheirLatency : xa.infl = [] ∧ 3 < 4 ∧ (5 : BitVec 6) ≠ 6 := by decide

theorem wit_RegisterSlotsFrame : ∃ t, registerOnly (.add ⟨0, 9, 1, 2⟩) = true ∧ exec (.add ⟨0, 9, 1, 2⟩) (at_ xa) = .next t ∧
    ¬(0 = (at_ xa).cur.core ∧ 1 = (at_ xa).cur.seq) := ⟨_, rfl, rfl, by decide⟩

theorem wit_VectorArithmetic :
    (VType.i32.isFloat = false ∧ VType.i16.isSigned = true) ∧ floatOf .f32 = some fF32 ∧ VType.b16.isFloat = true ∧
    VType.n16.isFloat = false ∧ ((fF16.decode 0x7E00).isNan = true ∧ (fF16.decode 0xFC00).isNan = false ∧ fF8E4.sign true = 0x80 ∧
      0x80 < 2 ^ (fF8E4.eb + fF8E4.fb + 1) ∧ fF16.decode 0x7E01 = .nan false 0x201) := by decide

theorem wit_VectorComparesAndLanePredicates :
    ((active (rdQ (me (at_ xa)) 1)).filter fun l => (rdV (me (at_ xa)) 1 l).p || (rdV (me (at_ xa)) 2 l).p) = [] ∧
    ((active (rdQ (me (at_ xa)) 4)).filter fun l => (rdV (me (at_ xa)) 1 l).p || (rdV (me (at_ xa)) 2 l).p) ≠ [] ∧ VType.i32 = .i32 ∧
    (fF32.decode 0x3F800000).isNan = false ∧ (fF32.decode 0x7FC00000).isNan = true := by decide +kernel

theorem wit_LanesMoveAndReduce :
    (∀ l ∈ active (rdQ (me (at_ xa)) 1), (rdQ (me (at_ xa)) 1).getLsbD ((rdV (me (at_ xa)) 2 l).v.toNat % 16) = true) ∧
    (let x := me (at_ xa); let q := rdQ x 4; ∃ l ∈ active q, q.getLsbD ((rdV x 3 l).v.toNat % 16) = false) := by decide +kernel

theorem wit_ConversionsAndPacking :
    (floatOf .f16 = some fF16 ∧ floatOf .n32 = none ∧ 0xFFFFFFFF < 2 ^ VType.width .n32) ∧
    (let env : REnv := { envOf xa with mode := .rm 1 }; let v (a : Nat) := fF32.decode a
     env.ftz = false ∧ (v 0x7FC00000).isNan = true ∧ v 0xFF800000 = .inf true ∧ finite (v 0x3FC00000) = true ∧
       v 0x3FC00000 = .fin false 0xC00000 (-23)) ∧
    xa.fcsr.getLsbD 9 = false ∧
    (let x := me (at_ { xa with fcsr := 0x200 })
     x.fcsr.getLsbD 9 = true ∧ active (rdQ x 1) ≠ [] ∧ PkFmt.blk = .blk ∧
     (let code := (rdV x 2 1).v.toNat % 256; code ≠ 0 ∧ code ≠ 0x10 ∧ code ≠ 0x11 ∧ code ≠ 0x18) ∧
     (let code := (rdV x 2 0).v.toNat % 256; code ≠ 0x10 ∧ code ≠ 0x11 ∧ code ≠ 0x18)) := by decide +kernel

/-- The value 1.5, and values toward zero of each side of the range of an 8-bit integer, exactly at its ends and beyond. -/
theorem wit_ConversionsAndPacking_Ranges :
    ((-128 : Int) ≤ 1 ∧ (1 : Int) ≤ 127 ∧ ((1 : Int) : ℚ) ≠ 3 / 2) ∧ ((127 : Int) < 128 ∧ (-129 : Int) < -128) ∧
    ⌊(3 / 2 : ℚ)⌋ = 1 ∧ ⌈(-3 / 2 : ℚ)⌉ = -1 := by
  refine ⟨by norm_num, by norm_num, by norm_num, by norm_num⟩

/-- A control word of vpack or vunpack: exponent, index, option. -/
def ctl (e p : Nat) (o : Bool) : Lane := ⟨BitVec.ofNat 32 (e + 256 * p + if o then 131072 else 0), false⟩
theorem wit_ConversionsAndPacking_Elements :
    (let p (b : Lane) : Nat := (b.v.extractLsb' 8 9).toNat
     32 ≤ p (ctl 0 32 false) ∧ 16 * p (ctl 0 31 true) < 512 ∧ 8 * p (ctl 0 63 true) < 512 ∧ p (ctl 0 511 false) < 512 ∧ p (ctl 0 127 true) < 128 ∧
       (ctl 0 31 true).v.getLsbD 17 = true ∧ (ctl 0 31 false).v.getLsbD 17 = false) ∧
    (fF32.decode 0x3F800000 = .fin false 0x800000 (-23) ∧ (-32768 : Int) ≤ -32768 ∧ (-129 : Int) < -128 ∧ (127 : Int) < 128) ∧
    (({} : REnv).ftz = false ∧ (roundInt ({} : REnv).mode false 7 0).1 ≤ 7 ∧ 7 < (roundInt ({} : REnv).mode false 8 0).1 ∧
      (roundInt ({} : REnv).mode true 8 0).1 < -7 ∧ 0 % 24 + 3 ≤ 24 ∧ ¬(127 % 24 + 3 ≤ 8) ∧ 125 % 24 + 3 ≤ 8) ∧
    (let img := 0x8010; let at_ (lo n : Nat) : Nat := img / 2 ^ lo % 2 ^ n
     img % 256 = 0x10 ∧ 59 < 60 ∧ at_ 502 10 = 0 ∧ (60 ≤ 60 ∧ 120 ≤ 127) ∧ at_ 12 4 = 8 ∧
       (∀ i < 24, 24 * (127 / 24) + i < 128 → at_ (4 * (24 * (127 / 24) + i)) 4 ≠ 8)) ∧
    (0 % 256 = 0 ∧ 0x17 % 256 = 0x17 ∧ 0x18 % 256 = 0x18) := by decide +kernel

theorem wit_FunctionUnit :
    rdP (me (at_ xa)) 2 = true ∧ rdP (me (at_ xa)) 1 = false ∧ active (rdQ (me (at_ xa)) 1) ≠ [] ∧ 7 < 8 ∧ 3 < 4 ∧ (let m (n : BitVec 6) := (rdS (me (at_ xa)) n).v; m 0 = 0 ∧
      (m 1 ≠ 0 ∧ ¬(m 2 = BitVec.intMin 64 ∧ m 1 = -1)) ∧ (m 7 = BitVec.intMin 64 ∧ m 9 = -1)) ∧
    (255 < 256 ∧ 255 ≠ 0 ∧ 0 < 256) := by decide +kernel

theorem wit_FloatOperationsRoundTheExactResultOnce :
    ({} : REnv).ftz = false ∧ finite (fF32.decode 0x3F800000) = true ∧ finite (fF16.decode 0x0001) = true ∧
    finite (fF8E4.decode 0x7E) = true := by decide +kernel

theorem wit_RoundingToNearest :
    fF32 ∈ formats ∧ 0xFFFFFFFF < 2 ^ (fF32.eb + fF32.fb + 1) ∧ (∃ n m e, fF32.decode 1 = .fin n m e) ∧
    (fF32.round {} false 3 (-1) false).2.getLsbD 2 = false ∧ finite (fF32.decode 0x3F800000) = true :=
  ⟨by decide, by decide, ⟨false, 1, -149, by decide +kernel⟩, by decide +kernel, by decide +kernel⟩

theorem wit_RoundingAndFlushing :
    fF8E4 ∈ formats ∧ 1 ≠ 0 ∧ (({} : REnv).mode ≠ .stoch 65536 ∧ RMode.stoch 65535 = .stoch 65535 ∧ 65535 < 2 ^ 16) ∧
    fF8E4.hasInf = false ∧ fF16.hasInf = true ∧ ({ ftz := true } : REnv).ftz = true ∧ fB16.decode 1 = .fin false 1 (-133) ∧
    flushIn true (fB16.decode 0x0080) = fB16.decode 0x0080 := by decide +kernel
theorem wit_RoundingAndFlushing_Small : |floatValue (.fin false 1 (-133))| < 2 ^ (-126 : Int) := by norm_num [floatValue]

theorem wit_FunctionsOfFloats :
    (inF32 {} 0xBF800000 = .fin true 0x800000 (-23) ∧ inF32 {} 0x7F800000 = .inf false ∧ inF32 {} 0 = .fin false 0 (-149)) ∧
    (0x7FC00000 < 2 ^ 32 ∧ (fF32.decode 0x7FC00000).isNan = true ∧ (fF32.decode 0x3F800000).isNan = false ∧ 0x800000 ≠ 0) ∧
    ({} : REnv).mode = .rm 0 ∧ inF32 {} 0x3E800000 = .fin false 0x800000 (-25) ∧ 1 % 2 = 1 ∧ (-1 : Int) % 4 = 3 := by decide +kernel
theorem wit_FunctionsOfFloats_Values :
    floatValue (.fin true 0x800000 (-23)) < 0 ∧ floatValue (.fin false 0x800000 (-23)) = 2 ^ (0 : Int) ∧
    floatValue (.fin false 0x800000 (-23)) = ((1 : Int) : ℚ) ∧ 4 * floatValue (.fin false 0x800000 (-25)) = ((1 : Int) : ℚ) := by
  norm_num [floatValue]

theorem wit_ElementaryFunctionsRoundACloseValue :
    inF32 {} 0x3F000000 = .fin false 0x800000 (-24) ∧ inF32 {} 0x3DCCCCCD = .fin false 0xCCCCCD (-27) ∧ inF32 {} 0xC47A0000 = .fin true 0xFA0000 (-14) ∧
    0x800000 ≠ 0 ∧ ({} : REnv).sat = false := by decide +kernel
theorem wit_ElementaryFunctionsRoundACloseValue_Values :
    floatValue (.fin false 0x800000 (-24)) = 1 / 2 ∧ |floatValue (.fin false 0x800000 (-24))| < 1000 ∧ floatValue (.fin true 0xFA0000 (-14)) ≤ -1000 ∧
    0 < floatValue (.fin false 0xCCCCCD (-27)) := by
  norm_num [floatValue]

/-- A core with an extent of plain pages (VA 0x10000 at PA 0x1000), a scratchpad, and words in its L1. -/
def xm : Seq := { q0 with
  s := [(1, ⟨0x10010, false⟩), (2, ⟨4, false⟩), (3, ⟨0x10001, false⟩), (4, ⟨0x10020, true⟩), (5, ⟨0x55667788, false⟩),
    (9, ⟨0x40, false⟩), (10, ⟨0x0F, false⟩), (12, ⟨0xFC, false⟩)]
  p := 0b101
  v := [(16, ⟨4, false⟩), (32, ⟨1, false⟩)], q := [(1, 3)] }
def cm : Core := {
  seqs := [(0, xm), (1, q0)], extents := [⟨0x10000, 0x1000, 0x10000, true, true, false, false, false, 0, false, 3, 0⟩], spmSize := 256
  l1 := [(0x404, ⟨.v, 77, false⟩), (0x405, ⟨.o, 78, true⟩)], l1reg := [(0x20, 8)], task := some 0 }
def sm : State := { wr State.reset [(.xltRoot 0, 1)] with
  cores := [(0, cm)], cur := { slot := 6, pc := 0x1000, next := 0x1006 }, mem := [(0x1010, 5)], nextTag := 7
  lvl := [(lkey 0x200 0x404, .copy 1 false), (lkey 0x200 0x405, .owner 0), (lkey 0x1000 0x405, .owner 0x200)] }
/-- The place of an element of that extent. -/
def place (i : BitVec 6) : Place :=
  match checkAll sm .load false 4 false (scalarElems xm ⟨0, 5, 1, i, .n32, 0⟩) with
  | .ok [p] => p
  | _ => ⟨0, 0, 0, leafAttr 0⟩
def elem (b i : BitVec 6) : List Elem := scalarElems xm ⟨0, 5, b, i, .n32, 0⟩

/-- Lane 0 aligned, lanes 1 and 2 misaligned and descending; lanes past the address range; lanes that do not translate. -/
def els (a b c : Nat) : List Elem := [⟨0, BitVec.ofNat 64 a, false⟩, ⟨1, BitVec.ofNat 64 b, false⟩, ⟨2, BitVec.ofNat 64 c, false⟩]
theorem wit_GlobalLoads_Checks :
    ((els 4 8 12).Pairwise fun x y => x.lane < y.lane) ∧ (∀ e ∈ els 4 8 12, e.lane < 16 ∧ e.pois = false) ∧
    checkAll sm .load false 4 false (elem 1 0) = .ok [place 0] ∧
    (∃ p, checkElem sm .load false false 4 (elem 1 0 ++ elem 3 0) ((elem 1 0).getD 0 ⟨0, 0, false⟩) = .at_ p) ∧
    (∃ r, checkElem sm .load false false 4 (elem 1 0 ++ elem 3 0) ((elem 3 0).getD 0 ⟨0, 0, false⟩) = .raise r) ∧
    checkAll sm .load false 4 false (elem 3 0) = .error (.trap ⟨4, memVal 6 0x10001⟩) ∧
    ((els 0x10010 0x10022 0x10011).all fun x => x.addr.toNat % 4 = 0 || 0x10011 ≤ x.addr.toNat) = true ∧
    ((els 0x10010 (2 ^ 56 + 8) (2 ^ 56)).all fun x => x.addr.toNat % 4 = 0 && (x.addr.toNat < 2 ^ 56 || 2 ^ 56 ≤ x.addr.toNat)) = true ∧
    ((els 0x10010 0x50008 0x50004).all fun x => x.addr.toNat % 4 = 0 && x.addr.toNat < 2 ^ 56) = true ∧
    (∃ r, checkElem sm .load false false 4 (els 0x10010 0x50008 0x50004) ⟨2, 0x50004, false⟩ = .raise r) :=
  ⟨by decide, by decide, ok_of_gives (by decide +kernel), ⟨place 0, by decide +kernel⟩, ⟨.trap ⟨4, memVal 6 0x10001⟩, by decide +kernel⟩,
    error_of_errs (by decide +kernel), by decide +kernel, by decide +kernel, by decide +kernel, ⟨_, rfl⟩⟩

theorem wit_GlobalLoads :
    (rdP (me sm) 0 = true ∧ cleanAddr (me sm) ⟨0, 5, 1, 0, .n32, 0⟩ false ∧ (rdS (me sm) 4).p = true ∧ elem 4 0 ≠ [] ∧ contiguous 0 0 4 = []) ∧
    rdP (me sm) 1 = false ∧
    checkAll sm .load false 4 false (elem 1 0) = .ok [place 0] ∧
    checkAll sm .load false 4 false (elem 3 0) = .error (.trap ⟨4, memVal 6 0x10001⟩) ∧
    (∀ x ∈ elem 3 0, ∃ c, checkElem sm .load false true 4 [x] x = .raise (.trap c)) ∧
    (∀ x ∈ elem 1 0, (sm.cur.seq, x.addr.toNat) ∉ (myCore sm).specFail ∧ checkElem sm .load false true 4 [x] x = .at_ (place 0) ∧
      busyAt sm .load (place 0).pa = false) ∧
    (plainPa sm (place 0).pa ∧ (place 0).pa % 4 = 0 ∧ acquiring sm = false ∧ l1At sm 0 ((place 0).pa / 4) = some ⟨.v, 77, false⟩ ∧
      (myCore sm).l1err.contains ((place 0).pa / 4) = false ∧ (∀ l ∈ (me sm).lates, l.tag ≠ sm.nextTag)) :=
  ⟨⟨by decide +kernel, ⟨by decide +kernel, fun _ => by decide +kernel⟩, by decide +kernel, by decide +kernel, by decide +kernel⟩, by decide +kernel,
    ok_of_gives (by decide +kernel), error_of_errs (by decide +kernel), fun x hx => by
      simp only [elem, scalarElems, List.mem_singleton] at hx
      subst hx
      exact ⟨⟨4, memVal 6 0x10001⟩, by decide +kernel⟩, by decide +kernel,
    ⟨by decide +kernel, by decide +kernel, by decide +kernel, by decide +kernel⟩, by decide +kernel, by decide +kernel,
    by decide +kernel, by decide +kernel, by decide +kernel⟩

/-- The same with a release of M0 before the slot. -/
def smBehind : State := setSeq sm 0 0 { xm with waits := [.rel 3 none] }
theorem wit_GlobalStores :
    rdP (me sm) 2 = true ∧ rdP (me sm) 1 = false ∧ cleanAddr (me sm) ⟨2, 5, 1, 0, .n32, 0⟩ false ∧ behind sm = false ∧ behind smBehind = true ∧
    (rdS (me sm) 4).p = true ∧ elem 4 0 ≠ [] ∧ contiguous 0 0 4 = [] ∧
    checkAll sm .store false 4 false (elem 1 0) = .ok [place 0] ∧
    checkAll sm .store false 4 false (elem 3 0) = .error (.trap ⟨4, memVal 6 0x10001⟩) :=
  ⟨by decide +kernel, by decide +kernel, ⟨by decide +kernel, fun _ => by decide +kernel⟩, by decide +kernel, by decide +kernel, by decide +kernel,
    by decide +kernel, by decide +kernel, ok_of_gives (by decide +kernel), error_of_errs (by decide +kernel)⟩

theorem wit_GlobalStores_StoredBytes : accessSize 8 ∧ 0x1018 % 8 = 0 ∧ plainPa sm 0x1018 ∧ true = true :=
  ⟨.inr (.inr (.inr rfl)), by decide, ⟨by decide +kernel, by decide +kernel, by decide +kernel, by decide +kernel⟩, rfl⟩

theorem wit_ScratchpadAccesses :
    rdP (me sm) 0 = true ∧ cleanAddr (me sm) ⟨0, 5, 12, 0, .n32, 0⟩ false ∧ ((rdS (me sm) 4).p = true ∧ elem 4 0 ≠ []) ∧
    behind sm = false ∧ behind smBehind = true ∧
    (∀ x ∈ elem 12 0, x.pois = false ∧ x.addr.toNat % 4 = 0 ∧ x.addr.toNat + 4 ≤ (myCore sm).spmSize) ∧
    (∃ x r, elem 10 0 = x :: r ∧ x.pois = false ∧ x.addr.toNat % 4 ≠ 0) ∧
    (∃ x r, elem 12 2 = x :: r ∧ x.pois = false ∧ x.addr.toNat % 4 = 0 ∧ (myCore sm).spmSize < x.addr.toNat + 4) ∧
    (∀ y ∈ els 0x104 0x100 0x80, y.addr.toNat % 4 = 0 ∧ ((myCore sm).spmSize < y.addr.toNat + 4 → 0x100 ≤ y.addr.toNat)) ∧
    (∀ y ∈ els 0x82 0x80 0x81, y.addr.toNat % 4 ≠ 0 → 0x81 ≤ y.addr.toNat) ∧
    (0x7F < 0x80 ∨ 0x80 + 4 ≤ 0x7F) :=
  ⟨by decide +kernel, ⟨by decide +kernel, fun _ => by decide +kernel⟩, by decide +kernel, by decide +kernel, by decide +kernel, by decide +kernel,
    ⟨_, _, rfl, by decide +kernel, by decide +kernel⟩, ⟨_, _, rfl, by decide +kernel, by decide +kernel, by decide +kernel⟩,
    by decide +kernel, by decide +kernel, .inl (by decide)⟩

theorem wit_Atomics :
    rdP (me sm) 0 = true ∧ (rdS (me sm) 1).p = false ∧ (rdS (me sm) 0).p = false ∧ (rdS (me sm) 5).p = false ∧ (rdS (me sm) (5 + 1)).p = false ∧
    (rdS (me sm) 4).p = true ∧
    checkAll sm .atomic false 4 false (elem 1 0) = .ok [place 0] ∧ checkAll sm .atomic false 4 false (elem 3 0) = .error (.trap ⟨4, memVal 6 0x10001⟩) ∧
    plainPa sm (place 0).pa ∧ behind sm = false ∧ behind smBehind = true ∧ (1 : BitVec 2).getLsbD 1 = false ∧
    (2 : BitVec 2).getLsbD 1 = true ∧ (1 : BitVec 2).getLsbD 0 = true ∧ (0x55667788 ≠ 0x1) :=
  ⟨by decide +kernel, by decide +kernel, by decide +kernel, by decide +kernel, by decide +kernel, by decide +kernel, ok_of_gives (by decide +kernel),
    error_of_errs (by decide +kernel), ⟨by decide +kernel, by decide +kernel, by decide +kernel, by decide +kernel⟩, by decide +kernel,
    by decide +kernel, by decide, by decide, by decide, by decide⟩

theorem wit_Synchronisation :
    rdP (me sm) 0 = true ∧ (rdS (me sm) 9).p = false ∧ (rdS (me sm) 4).p = true ∧
    (let u := modCore sm 0 popMarkers; (me u).marks.length ≤ 14) ∧
    (let s := setSeq sm 0 0 { xm with marks := List.range 16 }; (me (modCore s 0 popMarkers)).marks.length = 16) ∧ (3 : BitVec 2) ≠ 0 ∧
    (1 ≤ 1 ∧ 2 ≤ 2) ∧ l1At sm 0 0x405 = some ⟨.o, 78, true⟩ ∧
    (l1At sm 0 0x404 = some ⟨.v, 77, false⟩ ∧ mget 0 (Machine.core sm 0).l1reg (0x404 / 32) &&& 1 = 0) ∧
    (0x404, (⟨.v, 77, false⟩ : L1Word)) ∈ (Machine.core (invalidate sm 0 2 1) 0).l1 ∧
    (lkey 0x200 0x405, Lvl.owner 0) ∈ sm.lvl ∧ (lkey 0x200 0x405, Lvl.owner 0) ∈ (invalidate sm 0 2 (-1)).lvl ∧
    (0x200 = plLanding (layerOf 0) ∧ 0x400 = plRdc (chipOf 0) ∧ 0x404 < 2 ^ 50) ∧
    (lkey 0x200 0x404, Lvl.copy 1 false) ∈ (invalidate sm 0 3 (-1)).lvl ∧
    ((lkey 0x200 0x404) / 2 ^ 50 = 0x200 ∧ 2 < 3 ∧ mget 0 sm.reg (lkey 0x200 (0x404 / 32)) &&& 1 = 0) := by decide +kernel

/-- A load of one word on its way; a registration not yet acknowledged, with and without its climb; a word being registered with fetch. -/
def smLate : State := modSeq sm 0 0 fun x => { x with lates := [{ tag := 6, slot := 6, dst := .s 20 .n32, elems := [{ va := 0x10010, words := [none], w := 0x4004 }] }] }
def smReg (climb : Bool) : State := { modCore sm 0 fun c => { c with outst := [{ w := 0x405, seq := 0 }] } with
  net := if climb then [.registration 0 0x405 0x1000 ⟨false, false⟩ 0 0] else [] }
def smPend (w : Nat) : State := modCore sm 3 fun c => { c with l1 := [(w, ⟨.pend 3 false, 9, false⟩)] }

theorem wit_ValuesArrive :
    (∃ l x, (seqOf smLate 0 0).lates[0]? = some l ∧ l.tag = 6 ∧ l.tag ≠ 7 ∧ l.elems[0]? = some x ∧ 0 < x.words.length) ∧
    ¬(0 = 0 ∧ 1 = 0) ∧ LandErr.ownerLost ≠ .none ∧ ({ words := [none], err := .ownerLost } : LateElem).err ≠ .none ∧ ([none] : List (Option Lane))[0x4004 + 0 - 0x4004]? = some none ∧
    (1 < 0x200 ∧ 1 ≠ 0 ∧ dropsPa sm (4 * 0x405) = false ∧ sm.deadChips.contains (placeChip 0) = false ∧ l1At sm 0 0x405 = some ⟨.o, 78, true⟩ ∧
      l1At sm 1 0x405 = none) ∧
    (let s := { sm with lvl := [(lkey 0x1000 0x405, .owner 0)], cores := [] }
     (∃ path id cause, follow (unlockAll s [] 0x405) 0x405 6 0x1000 [] = .lost path id cause) ∧ lvlAt s 0x1000 0x405 = some (.owner 0) ∧
       protectedPa s (4 * 0x405) = false) :=
  ⟨⟨_, _, rfl, rfl, by decide, rfl, by decide⟩, by decide, by decide, by decide, by decide, by decide +kernel,
    ⟨_, _, _, rfl⟩, by decide +kernel, by decide +kernel⟩

theorem wit_RegistrationsAndRecalls :
    sm.regNow = [] ∧
    (locked sm 0x200 0x500 = false ∧ lvlAt sm 0x200 0x500 = none ∧ isTop 0x200 0x500 = false ∧ nextUp 0 0x500 0x200 = some 0x1000) ∧
    lvlAt sm 0x200 0x404 = some (.copy 1 false) ∧
    (locked sm 0x200 0x501 = false ∧ lvlAt sm 0x200 0x501 = none ∧ nextUp 0 0x501 0x200 = some 0x1000) ∧
    lkey 0x200 0x501 ≠ lkey 0x200 0x500 ∧
    (locked sm 0x1000 0x500 = false ∧ lvlAt sm 0x1000 0x500 = none ∧ isTop 0x1000 0x500 = true ∧ isHostPa (4 * 0x500) = false ∧ sm.held = [] ∧
      dropsPa sm (4 * 0x500) = false ∧ movingPa sm (4 * 0x500) = false ∧ ∀ x ∈ lineWords (0x500 / 32), lvlAt sm 0x1000 x = none) ∧
    (hbmRead (smPend 0x500) (4 * 0x500) = .served ∧ badAt (smPend 0x500) 0x2000 0x500 = false ∧
      l1At (smPend 0x500) 3 0x500 = some ⟨.pend 3 false, 9, false⟩) ∧
    ((Machine.core (smReg true) 0).outst = [{ w := 0x405, seq := 0 }] ∧ climbing (smReg true) 0x405 = true ∧
      climbing (smReg false) 0x405 = false) ∧
    (let s := { smPend 0x405 with locks := [(0x200, 0x405)] }
     3 < 0x200 ∧ 0x200 ≤ 0x200 ∧ s.locks = [(0x200, 0x405)] ∧ s.deadChips.contains (chipOf 0) = false ∧
       l1At s 0 0x405 = some ⟨.o, 78, true⟩ ∧ lvlAt s 0x200 0x405 = some (.owner 0) ∧ l1At s 3 0x405 = some ⟨.pend 3 false, 9, false⟩) ∧
    (∀ x ∈ [Lvl.copy 5 true, .held 78 true, .owner 0], let s := { sm with lvl := [(lkey 0x200 0x405, x)] }
     lvlAt s 0x200 0x404 = none ∧ s.locks = [] ∧ s.deadChips = [] ∧ climbing s 0x405 = false ∧ lvlAt s 0x200 0x405 = some x ∧ isTop 0x200 0x405 = false ∧
     nextUp (coreUnder 0x200) 0x405 0x200 = some 0x1000 ∧ 0x800 ≤ 0x1000 ∧ 0x1000 ≠ 0x200) ∧
    (0x200 ≤ 0x200 ∧ 0x5FF < 0x600 ∧ 0 < 0x200) := by decide +kernel

theorem wit_HomesPerformWritesAndAtomics :
    (isHbm (4 * 0x504) = true ∧ protectedPa sm (4 * 0x504) = false ∧ movingPa sm (4 * 0x504) = false ∧ hbmRes sm (4 * 0x504) = .served ∧
      lvlAt sm (plHome (homeChip (4 * 0x504))) 0x504 = none ∧
      (∀ x ∈ lineWords (0x504 / 32), lvlAt sm (plHome (homeChip (4 * 0x504))) x = none) ∧ mget false sm.bad 0x504 = false ∧ sm.held = []) ∧
    (let s := modCore sm 0 fun c => { c with cmds := [(3, { id := 3, q := 1, opc := 0x21, variant := 0, seq := 0, st := .done, left := 2 })] }
     WSrc.cmd 0 1 3 = .cmd 0 1 3 ∧ intakeOf s (4 * 0x504) = none ∧ (mlook (Machine.core s 0).cmds 3).isSome = true) ∧
    0x2000 / 4 ≠ 0x504 ∧ 0x405 ∉ (Machine.core sm 0).l1err ∧
    (l1At sm 0 0x405 = some ⟨.o, 78, true⟩ ∧ AKind.add ≠ .swp ∧ atomNew ⟨.swp, false, false, 5, 0, 0, 0, 0, 0⟩ 78 = some 5 ∧
      atomNew ⟨.cas, false, false, 5, 0, 0, 0, 0, 0⟩ 78 = none) ∧
    (∀ x ∈ ([⟨1, false⟩, ⟨2, false⟩] : List Lane), x.p = false) ∧ (∃ x ∈ ([⟨1, false⟩, ⟨2, true⟩] : List Lane), x.p = true) := by decide +kernel

theorem wit_LostOwnersErrorsAndTheHost :
    (let s := { sm with net := [.forwardedRead 0x405 0 0x200 (.load 1 0 7 0 0 0)], clk := 2457600, ownReq := [(0x405, 0)] }
     Instr.forwardedRead 0x405 0 0x200 (.load 1 0 7 0 0 0) ∈ s.net ∧ protectedPa s (4 * 0x405) = false ∧
       mlook s.ownReq 0x405 = some 0 ∧ bits (rdReg s .ownTmo) 0 16 * 1024 ≤ s.clk - 0) ∧
    manyErrors (logUnc sm 0 [0x405]) = false ∧
    (let s := modCore sm 0 fun c => { c with l1 := [(0x404, ⟨.v, 77, false⟩)] }
     l1At s 0 0x404 = some ⟨.v, 77, false⟩ ∧ l1At s 0 0x405 = none ∧ 0x405 / 2 * 2 = 0x404) ∧
    (protectedPa sm (4 * 0x404) = false ∧ l1At sm 0 0x405 = some ⟨.o, 78, true⟩) ∧
    mlook [(lkey 1 5, GwLine.shared)] (lkey 1 5) = some .shared ∧
    (let s := { wr sm [(.lnkSts 24, 0x4000000000000000)] with gw := [(lkey 0 5, .owned)] }
     mlook s.gw (lkey 0 5) = some .owned ∧ (∀ w ∈ lineWords 5, lvlAt s (plGw 0) w = none) ∧ hostUp s 0 = true ∧ hostUp s 1 = false ∧
       dropsPa s (128 * 5) = false ∧ movingPa s (128 * 5) = false ∧ ∀ w ∈ lineWords 5, lvlAt s (plHome (homeChip (128 * 5))) w = none) := by
  decide +kernel

theorem wit_RegisterReadsClearTheirCounts : 7 ≤ 7 ∧ Reg.pgCfg.key ≠ (Reg.ownLogB 3).key := by decide

/-- A walk in flight; a pending fault. -/
def wk (va : Nat) : Walk := { core := 0, idx := 0, ctx := 1, va := va, kind := .load, system := false, pc := 0x1000, slot := 6 }
def pend (r : Nat) : State := { wr sm [(.fltPend 0, 1), (.fltRecA 0 0, BitVec.ofNat 64 (r * 2 ^ 60 + 0x12345)), (.fltRecB 0 0, 0x8000000000001000)]
  with tasks := [(0, { q := 0, pk := 0, ctx := 0, arg := 0, taskid := 3, slot := 1, cores := [0], st := .running })] }

theorem wit_TranslationAndPendingFaults :
    (0xFFFFFFFFFF0000 ≤ 0xFFFFFFFFFFFFFF ∧ 0xFFFFFFFFFFFFFF < 2 ^ 56) ∧ (0xFFFFFFFFE00000 ≤ 0xFFFFFFFFFDFFFF ∧ 0xFFFFFFFFFDFFFF < 0xFFFFFFFFFE0000) ∧
    (0xFFFFFFFFDFFFFF < 0xFFFFFFFFE00000 ∧ (rdReg sm (.xltRoot 3)).getLsbD 0 = false) ∧ (2 : Word).getLsbD 0 = false ∧
        (let w := wk 0xFFFFFFFFFF0010; let s := { sm with walks := [w] }
     (s.walks.find? fun x => x.core = w.core && x.idx = w.idx) = some w ∧ w.idx < 32 ∧
       ∃ e l es, pageWalk s (chipOf w.core) w.ctx w.va = (.leaf e l, es) ∧ (leafAttr e).s = false ∧ (leafAttr e).allows w.kind w.opt = true) ∧
    (let w := wk 0x10000; let s := { sm with walks := [w] }
     (∃ es, pageWalk s (chipOf w.core) w.ctx w.va = (.fail 0, es)) ∧ w.spec = false ∧ 0 < 16) ∧
    ((1 : Word).getLsbD 0 = true ∧ (2 : Word).getLsbD 0 = false ∧ 1 ∈ [1, 2]) ∧
    (isPending (pend 5) 0 1 = false ∧ isPending (pend 5) 0 0 = true ∧ corePreempted (pend 5) 0 = false ∧
      bits (rdReg (pend 15) (.fltRecA 0 0)) 60 4 = 15 ∧ bits (rdReg (pend 5) (.fltRecA 0 0)) 60 4 ≠ 15) ∧
    (let s := modCore (wr (pend 5) [(.fltPend 0, 0x200000000)]) 0 fun c => { c with pendCmd := [(1, 3)], cmds := [(3, { id := 3, q := 1, opc := 0x21, variant := 0, seq := 0, st := .started })] }
     isPending s 0 33 = true ∧ corePreempted s 0 = false ∧ 33 < 34 ∧ ∃ m, mlook (Machine.core s 0).cmds (mget 0 (Machine.core s 0).pendCmd 1) = some m ∧ m.status = 0) := by
  refine ⟨by decide, by decide, by decide +kernel, by decide, ⟨by decide +kernel, by decide, ?_⟩, ⟨?_, by decide +kernel⟩,
    by decide, by decide +kernel, by decide +kernel, by decide +kernel, by decide, _, rfl, rfl⟩
  · exact ⟨_, _, _, rfl, by decide +kernel, by decide +kernel⟩
  · exact ⟨_, rfl⟩

/-- A walk whose table words are still on their way goes on; a speculative one. -/
theorem wit_TranslationAndPendingFaults_Waits :
    (let s := { wr sm [(.xltRoot 1, 0x2001)] with walks := [wk 0x10000], locks := [(0x1000, 0x800)], lvl := [(lkey 0x1000 0x800, .owner 0)] }
     (pageWalk s 0 1 0x10000).1 = .wait ∧ (s.walks.find? fun x => x.core = 0 && x.idx = 0) = some (wk 0x10000)) ∧
    { wk 0x10000 with spec := true }.spec = true := by decide +kernel

/-- Entries that meet each check of a walk (R20): page leaves and pointers. -/
theorem wit_TranslationAndPendingFaults_Entries :
    ((7 : Word).getLsbD 2 = true ∧ (0x4003 : Word).getLsbD 14 = true ∧ bits 0x1803 11 2 = 3) ∧
    (bits 3 11 2 ≠ 3 ∧ bits 3 3 2 ≠ 1 ∧ bits 3 3 2 = 0) ∧
    (bits 0x1000B 3 2 = 1 ∧ bits 0x1000B 16 36 * 65536 % pageSize 1 ≠ 0) ∧
    (bits 0x10003 16 36 * 65536 % pageSize 0 = 0 ∧ leafPaOk sm 0x10003 (pageSize 0) = true ∧ leafPaOk sm 0xFFFFFFFF0003 (pageSize 0) = false) ∧
    (bits 0x10000000000001 52 12 ≠ 0 ∧ bits 0x201 2 6 = 0 ∧ bits 0x201 8 4 ≠ 0) ∧
    (bits 0x2001 52 12 = 0 ∧ bits 0x2001 2 6 = 0 ∧ bits 0x2001 8 4 = 0 ∧ (0x2001 : Word).getLsbD 1 = false) ∧
    paBad sm 0x2000 = false ∧ isHbm 0x2000 = true ∧ paBad sm (2 ^ 50) = false ∧ isHbm (2 ^ 50) = false ∧ paBad sm (2 ^ 51 + 2 ^ 46) = true ∧
    7 ≤ { sm with bringup := 7 }.bringup ∧ sm.bringup < 7 := by decide +kernel

/-- Whether a word's owner is lost. -/
def isLost : Found → Bool
  | .lost _ _ _ => true
  | _ => false
theorem not_lost {x : Found} (h : isLost x = false) : ∀ path id cause, x ≠ .lost path id cause := by
  rintro p i c rfl
  simp [isLost] at h

theorem wit_TranslationAndPendingFaults_Found :
    let s : State := { wr sm [(.xltRoot 1, 0x2001)] with walks := [wk 0x10000] }
    ∀ x ∈ walkWords s 0 1 0x10000 (pageWalk s 0 1 0x10000).1 (pageWalk s 0 1 0x10000).2, ∀ path id cause, homeFind s x ≠ .lost path id cause := by
  intro s x hx
  exact not_lost ((by decide +kernel : ∀ x ∈ walkWords s 0 1 0x10000 (pageWalk s 0 1 0x10000).1 (pageWalk s 0 1 0x10000).2, isLost (homeFind s x) = false) x hx)

/-- A core with engine commands: two of sequencer 0 in its transfer queue, one of its matrix engine. -/
def xe : Seq := { xm with s := mput xm.s 5 ⟨0x1FFF, false⟩, v := xm.v ++ [(64, ⟨5, false⟩), (80, ⟨5, true⟩)], m := [(0, 0x44), (1, 7)] }
def cmd1 : Cmd := { id := 3, q := 1, opc := 0x21, variant := 0, seq := 0, regs := [0x10000, 0x10100], b := 8, w := ⟨1, 2, 3, 4⟩ }
def se (f : Core → Core) : State :=
  { modCore (setSeq sm 0 0 xe) 0 f with tasks := [(0, { q := 0, pk := 0, ctx := 0, arg := 0, taskid := 0x50003, slot := 1, cores := [0], st := .running })] }
def many (c : Core) : Core := { c with
  tq := [.cmd 3, .cmd 4], cmds := [(3, cmd1), (4, { cmd1 with id := 4, w := ⟨1, 9, 0, 0⟩ })], sems := [(3, 7)], nextId := 9
  trig := [(0, ⟨cmd1, 1, 9, false⟩)], fireQ := [0, 7] }

theorem wit_EngineSlots :
    (let x := me (se id)
     rdP x 0 = true ∧ (rdS x 9).p = false ∧ (rdS x 4).p = true ∧ (∀ i < 4, (rdS x (9 + BitVec.ofNat 6 i)).p = false) ∧
     (∃ i < 4, (rdS x (1 + BitVec.ofNat 6 i)).p = true) ∧ (∀ l < 6, (rdV x 4 l).p = false) ∧ (∃ l < 6, (rdV x 5 l).p = true) ∧
     (∀ i < 5, (rdS x (9 + BitVec.ofNat 6 i)).p = false) ∧
     ((rdS x 5).v.toNat < 8192 ∧ (mget 0 x.m 0).toNat < 2 ^ 26 ∧ (arrayMode (mget 0 x.m 0)).isSome = true) ∧
     8192 ≤ (rdS x 1).v.toNat) ∧
    (2 ^ 26 ≤ (0x4000000 : W32).toNat ∧ arrayMode 0xF = none) ∧ (0 ≠ 9 ∧ (0 = 0 ∧ cmd1.q ≠ 0)) := by decide +kernel

theorem wit_EngineSlots_Qcut :
    rdP (me (se many)) 0 = true ∧ (3 : BitVec 3).getLsbD 2 = false ∧ (7 : BitVec 3).getLsbD 2 = true ∧
    semVal (myCore (se many)) (3 : BitVec 8).toNat + (4 : BitVec 4).toNat ≤ 0xFFFF ∧
    0xFFFF < semVal (myCore (se fun c => { many c with sems := [(3, 0xFFFF)] })) (3 : BitVec 8).toNat + (1 : BitVec 4).toNat ∧
    (myCore (se many)).cmds[1]? = some (4, { cmd1 with id := 4, w := ⟨1, 9, 0, 0⟩ }) ∧
    (let y : Trig := ⟨cmd1, 1, 9, false⟩
     (0, y) ∈ (myCore (se many)).trig ∧ y.fired = false ∧ y.cmd.seq = (se many).cur.seq ∧ y.sem = (1 : BitVec 8).toNat ∧ (2 : BitVec 16).toNat < y.thr) ∧
    (cmd1.opc ≠ 0x23 ∧ ¬(cmd1.fired = true ∨ cmd1.w.wthr.toNat ≤ semVal (many {}) cmd1.w.wsem.toNat) ∧
      cmd1.w.wthr.toNat ≤ semVal { many {} with sems := [(1, 2)] } cmd1.w.wsem.toNat) := by decide +kernel

/-- A shape command that has started; one that is done. -/
def shp : Cmd := { cmd1 with id := 6, q := 0, opc := 0x26, regs := [0x123, 7], st := .started }
def cdone : Cmd := { cmd1 with st := .done, b := 0, flags := 5 }
/-- A tile command of 16 columns and 2 rows of tensor 1, into tile 5; its descriptor and shape. -/
def ctile : Cmd := { cmd1 with q := 0, opc := 0x24, b := 5, lanes := [0, 0, 0, 0, 0, 1] }
def desc1 : TDesc := ⟨1, 0x10000, 0, 0, 1, [64], [4]⟩
def stile : State := se fun c => { c with mq := [.cmd 3], cmds := [(3, ctile)], sems := [(1, 2)], descs := [(1, some desc1)], shape := [(0, 0x20010)] }

theorem wit_EngineCommandsRun :
    (∀ m ∈ [(1, cmd1, se fun c => { many c with sems := [(1, 2)] }), (1, cmd1, se many),
        (0, shp, se fun c => { c with mq := [.cmd 6], cmds := [(6, shp)] })],
      turnCmd (Machine.core m.2.2 0) m.1 = some m.2.1 ∧ engineRuns m.2.2 0 = true ∧ isPending m.2.2 0 (32 + m.1) = false ∧
      (∀ w ∈ m.2.2.walks, ¬(w.core = 0 ∧ w.idx = 32 + m.1)) ∧ startHeld m.2.2 0 m.1 = false ∧
      mlook (Machine.core m.2.2 0).cmds m.2.1.id = some m.2.1) ∧
    (turnCmd (Machine.core stile 0) 0 = some ctile ∧ engineRuns stile 0 = true ∧ isPending stile 0 32 = false ∧ startHeld stile 0 0 = false ∧
      ctile.st = .waiting ∧ 2 ≤ semVal (Machine.core stile 0) 1 ∧ gives (tileMove (Machine.core stile 0) ctile (imgEnd ctile)) ⟨desc1, 16, 2, 64, [0, 0, 0, 0, 0]⟩ = true) ∧
    (cmd1.st = .waiting ∧ cmd1.passed = false ∧ { cmd1 with passed := true }.passed = true ∧ cmd1.opc ≠ 0x23) ∧ 2 ≤ semVal { sems := [(1, 2)] } 1 ∧ semVal (Machine.core (se many) 0) 1 < 2 ∧
    (shp.st = .started ∧ shp.acq = false ∧ shp.status = 0 ∧ shp.regs = [0x123, 7]) ∧
    ((Machine.core (se many) 0).fireQ = 0 :: [7] ∧ mlook (Machine.core (se many) 0).trig 0 = some ⟨cmd1, 1, 9, false⟩ ∧
      (Machine.core (se many) 0).places 1 < 128) ∧
    128 ≤ (Machine.core (se fun c => { many c with tq := (List.range 128).map .cmd, cmds := (List.range 128).map fun i => (i, { cmd1 with id := i }) }) 0).places 1 ∧
    (let s := se fun c => { many c with cmds := [(3, cdone)] }
     mlook (Machine.core s 0).cmds 3 = some cdone ∧ 3 < (Machine.core s 0).nextId ∧ cdone.opc ≠ 0x23 ∧ cdone.left = 0 ∧ engineRuns s 0 = true ∧ aheadPassed (Machine.core s 0) cdone = true ∧
     wantsRemote cdone = false ∧ step5Met s 0 cdone = true ∧ semVal (Machine.core s 0) 3 + 4 ≤ 0xFFFF ∧ cdone.status = 0 ∧
       { cdone with status := 15 }.status < 16 ∧ cdone.opc < 64 ∧ cdone.seq < 32 ∧ (rdReg s (.engErr 0)).getLsbD 63 = false) ∧
    (let m := { cdone with b := 0x8200000000000000 }; let s := se fun c => { many c with cmds := [(3, m)] }
     mlook (Machine.core s 0).cmds 3 = some m ∧ aheadPassed (Machine.core s 0) m = true ∧ wantsRemote m = true ∧ destOf s 0 m = some 64) := by decide +kernel

/-- A trig at its turn, for slot 1, with its trigger reached or not, and one that is malformed. -/
def ctrig (t4 : Word) : Cmd := { cmd1 with opc := 0x23, regs := [0, 0, 0, 0, t4] }
def strig (t4 : Word) (f : Core → Core) : State := se fun c => f { c with tq := [.cmd 3], cmds := [(3, ctrig t4)], nextId := 4 }
theorem wit_EngineCommandsRun_Trig :
    (∀ n ∈ [1, 0x401], let t4 := BitVec.ofNat 64 n; turnCmd (Machine.core (strig t4 id) 0) 1 = some (ctrig t4) ∧ engineRuns (strig t4 id) 0 = true ∧
      isPending (strig t4 id) 0 33 = false ∧ (strig t4 id).walks = [] ∧ startHeld (strig t4 id) 0 1 = false ∧
      mlook (Machine.core (strig t4 id) 0).cmds 3 = some (ctrig t4)) ∧
    ((ctrig 1).status = 0 ∧ (Machine.core (strig 1 id) 0).fireQ = [] ∧ (ctrig 1).id < (Machine.core (strig 1 id) 0).nextId) ∧
    (bits 1 10 54 = 0 ∧ bits 1 9 1 ≠ 1 ∧ (ctrig 1).variant < 4 ∧ bits 0x401 10 54 ≠ 0) ∧
    mlook (Machine.core (strig 1 id) 0).trig 1 = none ∧ (Machine.core (strig 1 id) 0).trig = [] ∧
    (mlook (Machine.core (strig 1 fun c => { c with trig := [(1, ⟨cmd1, 1, 9, false⟩)] }) 0).trig 1).isSome = true ∧
    semVal (Machine.core (strig 1 id) 0) 1 < 2 ∧ 2 ≤ semVal (Machine.core (strig 1 fun c => { c with sems := [(1, 2)] }) 0) 1 ∧
    (Machine.core (strig 1 id) 0).places 1 < 128 := by decide +kernel

/-- Engine transfers on their turn: between two scratchpad ranges, and from and to the extent's page. -/
def cx (opc v : Nat) (regs : List Word) (b : Word) : Cmd := { cmd1 with opc := opc, variant := v, regs := regs, b := b, st := .started }
def sxf (m : Cmd) : State := se fun c => { c with tq := [.cmd 3], cmds := [(3, m)] }
/-- A page part is at a PA; a home gives a value. -/
def etrAt (e : ETr) (p : Nat) : Bool :=
  match e with
  | .at_ q _ => q = p
  | _ => false
def isVal (r : HomeRead) : Bool :=
  match r with
  | .value _ => true
  | _ => false
def cmdOnTurn (s : State) (q : Nat) (m : Cmd) : Bool :=
  turnCmd (Machine.core s 0) q = some m && engineRuns s 0 && !isPending s 0 (32 + q) && s.walks.isEmpty && !startHeld s 0 q &&
    mlook (Machine.core s 0).cmds m.id = some m && m.st = .started && !m.acq && m.status = 0 && m.pos = 0
theorem wit_EngineTransfersAndReductions :
    (∀ m ∈ [cx 0x21 3 [0x40, 0x80] 8, cx 0x21 3 [0x40, 0x44] 8, cx 0x21 3 [0x40, 0xFC] 8, cx 0x21 2 [0x41, 0x10021] 7, cx 0x21 1 [0x10101, 0x40] 7,
      cx 0x21 3 [0x40, 0x80] 0, cx 0x22 0 [0x10100, 0x40, 0x4000000000000000] 8, cx 0x22 0 [0x10101, 0x40, 0x4000000000000000] 8],
      cmdOnTurn (sxf m) 1 m = true ∧ m.variant < 4 ∧ m.data = none) ∧
    ((0x44 < 0x40 + 8 ∧ 0x40 < 0x44 + 8) ∧ (3 % 2 = 1 ∧ 256 < 0xFC + 8) ∧ (Machine.core (sxf cmd1) 0).spmSize = 256) ∧
    (let m := cx 0x21 2 [0x41, 0x10021] 7; let s := sxf m
     0x10021 % 65536 + 7 ≤ 65536 ∧ someFlash s 0 (pageCuts 0x10021 7) = false ∧ etrAt (engTr s 0 m 0x10021 false true) 0x1021 = true ∧
       queueWrites s 0 1 (0x1021 / 4) ((0x1021 + 7) / 4) = false ∧
       ∀ w ∈ [0x408, 0x409], isHbm (4 * w) = true ∧ isVal (homeRead s w (retOf 0)) = true) ∧
    (let m := cx 0x21 1 [0x10101, 0x40] 7; let s := sxf m
     etrAt (engTr s 0 m 0x10101 true false) 0x1101 = true ∧ isHbm 0x1101 = true ∧ 0x10101 % 65536 + 7 ≤ 65536) ∧
    (let rctl : Word := 0x4000000000000000
     bits rctl 48 14 = 0 ∧ rctl.getLsbD 63 = false ∧ rctl.getLsbD 62 = true ∧ 0x40 + 8 ≤ 256 ∧ (0x10101 : Nat) % 4 ≠ 0 ∧ 0 ≠ 1 ∧
       etrAt (engTr (sxf cmd1) 0 cmd1 0x10100 true false) 0x1100 = true ∧ intakeOf (sxf cmd1) 0x1100 = none) ∧
    (let s := sm; HomeOp.combine 3 0 false = .combine 3 0 false ∧ isHbm (4 * 0x504) = true ∧ protectedPa s (4 * 0x504) = false ∧
       movingPa s (4 * 0x504) = false ∧ hbmRes s (4 * 0x504) = .served ∧ s.held = [] ∧ mget false s.bad 0x504 = false ∧
       ∀ x ∈ lineWords (0x504 / 32), lvlAt s (plHome (homeChip (4 * 0x504))) x = none) ∧
    ((⟨1, true⟩ : Lane).p = true ∧ (⟨1, false⟩ : Lane).p = false) := by decide +kernel

/-- A tile move of 16 columns and 2 rows of which 10 columns lie in the tensor, started; the same out of the tensor. -/
def mv (o : Int) : TileMove := ⟨desc1, 16, 2, 64, [o, 0, 0, 0, 0]⟩
def ctl1 (opc v q : Nat) (b : Word) (o : Int) : Cmd := { cmd1 with q := q, opc := opc, variant := v, b := b, st := .started, tile := some (mv o) }
def stl (m : Cmd) : State := se fun c => if m.q = 0 then { c with mq := [.cmd 3], cmds := [(3, m)] } else { c with tq := [.cmd 3], cmds := [(3, m)] }
def readsOf (m : Cmd) : Bool :=
  match readRuns (afterSeqs (stl m) 0) 0 m (mv 0).runs with
  | .ok (s, _) => (Machine.core s 0).cmds = (Machine.core (stl m) 0).cmds
  | .error _ => false
theorem wit_TilesMoveTheirElements :
    ((mv 64).run 0 = none ∧ ((mv 0).run 0).isSome = true ∧ ((mv (-6)).run 0).isSome = true ∧ fmtWidth desc1.fmt ≤ 32 ∧
      fmtWidth 0x18 = 4 ∧ (3 < 64 ∧ 64 * Nat.xor 1 (3 % 2 ^ 1) + 3 < 128)) ∧
    (∀ m ∈ [ctl1 0x24 0 0 5 0, ctl1 0x24 1 0 0x40 0, ctl1 0x21 6 1 0x40 0], cmdOnTurn (stl m) m.q m = true ∧ m.tile = some (mv 0) ∧ readsOf m = true) ∧
    ((5 : Word).toNat < 64 ∧ (mv 0).rows * (mv 0).pitch ≤ 4096) ∧
    (let m := ctl1 0x24 0 0 5 0; let s := stl m
     0x10021 % 65536 + 7 ≤ 65536 ∧ etrAt (engTr s 0 m 0x10021 false false) 0x1021 = true ∧
       queueWrites s 0 0 (0x1021 / 4) ((0x1021 + 7) / 4) = false ∧
       ∀ w ∈ [0x408, 0x409], isHbm (4 * w) = true ∧ isVal (homeRead s w (retOf 0)) = true) := by decide +kernel

/-- A dormant sequencer with two starts; one write to pod 2 not yet acknowledged, with the route down and up. -/
def sdorm : State := setSeq (se many) 0 5 { kind := .dormant, st := .dormant, starts := [(0x2000, 7, 6), (0x3000, 8, 2)] }
def hw1 : HomeWr := ⟨0x504, 15, 7, false, .write, .none⟩
def sout : State := { se id with peerOut := [{ id := 4, pod := 2, body := .words [hw1], src := .seq 0 0 }] }
def sup : State := wr sout [(.route 2, 1), (.lnkSts 0, 0x4000000000000000)]

/-- A home write performs. -/
def isDone (r : HomeRes) : Bool :=
  match r with
  | .done _ _ _ => true
  | .wait _ => false
/-- A peer's atomic performs. -/
def isAtomDone (r : PeerAtom) : Bool :=
  match r with
  | .done _ _ => true
  | _ => false
def patom : AtomReq := ⟨.add, false, false, 5, 0, 0, 0, 3, 0⟩
theorem wit_RemotePartsAndPeerWrites :
    ((∀ x ∈ sdorm.net, peerIdOf x = none) ∧
      taskidOf sdorm 0 = some 0x50003 ∧ (0x50003 : W32).extractLsb' 0 16 = (3 : BitVec 16) ∧ (0x50003 : W32).extractLsb' 0 16 ≠ (4 : BitVec 16) ∧
      semVal (Machine.core sdorm 0) 3 + 15 ≤ 0xFFFF ∧ (seqOf sdorm 0 5).kind = .dormant ∧ (seqOf sdorm 0 5).starts.length < 8 ∧
      taskidOf sdorm 1 = none ∧ (seqOf sdorm 0 5).st = .dormant ∧ (seqOf sdorm 0 5).starts = (0x2000, 7, 6) :: [(0x3000, 8, 2)] ∧
      engineRuns sdorm 0 = true ∧ (let x : Seq := { kind := .dormant, starts := List.replicate 8 (0x2000, 7, 6) }; x.kind = .dormant ∧ 8 ≤ x.starts.length)) ∧
    (sout.peerOut = [{ id := 4, pod := 2, body := .words [hw1], src := .seq 0 0, queue := 64 }] ∧ [hw1] ≠ [] ∧
      (seqOf sout 0 0).dCount < 2 ^ 31 - 1 ∧ routeOf sout 2 = .down) ∧
    (∀ b ∈ [PeerBody.words [hw1], .atomic 0x504 patom], let m : PeerMsg := ⟨2, 4, b, false⟩
      routeOf sup 2 = .up ∧ peerBehind sup (.peerWriteArrival m) = false ∧ mustHold sup (.peerWriteArrival m) = false ∧
      heldBefore sup (.peerWriteArrival m) = false) ∧
    isDone (homePerform sup { hw1 with src := .peer 2 4 }) = true ∧ isAtomDone (peerAtomic sup 0x504 patom) = true := by decide +kernel

/-- A home whose word's owner is being asked makes a write wait. -/
def resWait (r : HomeRes) : Bool :=
  match r with
  | .wait _ => true
  | .done _ _ _ => false
theorem wit_RemotePartsAndPeerWrites_Order :
    (∃ u e, performedInOrder [{ hw1 with src := .peer 2 4 }] false sup u e) ∧ performedInOrder [] true sup sup true ∧
    resWait (homePerform { sup with locks := [(0x1000, 0x504)], lvl := [(lkey 0x1000 0x504, .owner 0)] } { hw1 with src := .peer 2 4 }) = true :=
  ⟨⟨_, _, _, _, _, rfl, rfl, rfl⟩, ⟨rfl, rfl⟩, by decide +kernel⟩

/-- A verb call: its command, and its engine once it has started. -/
def mc (m0 : W32) : Cmd := { id := 6, q := 0, opc := 0x20, variant := 0, seq := 0, regs := [5], m := [m0, 0x100, 2, 3, 4, 5, 6, 7], st := .started }
def mxr (m0 : W32) : Mx := { call := some 6, upc := 7, m := (mc m0).m, k := [(0, 1), (1, 5)], la := [(0, { bits := 1 })], laN := 16, lbN := 16 }
def smc (m0 : W32) (f : Mx) (am : Nat) : State := se fun c => { c with mq := [.cmd 6], cmds := [(6, mc m0)], mx := f, am := [(0, am)] }

theorem wit_VerbCallsAndMicroOperations :
    (∀ am ∈ [0, 2, 3], let s := smc 0x44 {} am
     turnCmd (Machine.core s 0) 0 = some (mc 0x44) ∧ (Machine.core s 0).mx.call = none ∧ engineRuns s 0 = true ∧ (mc 0x44).opc = 0x20 ∧
      mget 0 (Machine.core s 0).am 0 = am ∧ (0x44 : W32).getLsbD 11 = false) ∧
    ((arrayMode 0x44).getD 0 ≠ 2 ∨ (arrayMode 0x44).getD 0 ≠ 3) ∧
    (turnCmd (Machine.core (smc 0x844 {} 0) 0) 0 = some (mc 0x844) ∧ (0x844 : W32).getLsbD 11 = true) ∧
    (let s := smc 0x44 { mxr 0x44 with upc := 8192 } 0
     (Machine.core s 0).mx.call = some 6 ∧ mlook (Machine.core s 0).cmds 6 = some (mc 0x44) ∧ nextMicro (Machine.core s 0) = none) ∧
    (let s := smc 0x44 (mxr 0x44) 0; let x := (myCore s).mx
     callCmd (myCore s) = some (mc 0x44) ∧ semVal (myCore s) 3 + 15 ≤ 0xFFFF ∧ (0 : BitVec 2) ≠ 1 ∧
     x.tileNo 63 .none = some 63 ∧ x.tileNo 63 (.k 0) = none ∧ x.f0 14 1 = 0 ∧ LxUnit.hi ≠ .both) ∧
    (let x := (myCore (smc 0x4044 (mxr 0x4044) 0)).mx; x.f0 14 1 = 1 ∧ x.tileNo 3 .none = some 3 ∧ 0 < x.rows) := by decide +kernel

theorem wit_ProductsAccumulationAndReadOut :
    (let x := mxr 0; x.mode ≠ modeBlock ∧ x.knOk 1 = true ∧ x.knOk 1024 = false ∧ woutOk x.mode .f32 = true ∧ woutOk x.mode .i32 = false ∧ x.call = some 6 ∧
      (x.mreg 2).toNat + (64 * (0 + 1) * (x.rows - 1) + x.cols * woutBytes .f32) ≤ (myCore (se fun c => { c with spmSize := 0x10000 })).spmSize ∧
      (let s := se fun c => { c with spmSize := 0 }
       (myCore s).spmSize < (x.mreg 2).toNat + (64 * (0 + 1) * (x.rows - 1) + x.cols * woutBytes .f32)) ∧
      x.tileNo 3 .none = some 3 ∧ x.tileNo 63 (.k 1) = none ∧ 64 * (0 + 1) * (x.rows - 1) + x.cols * woutBytes .f32 ≤ 4096 ∧
      4096 < 64 * (63 + 1) * 1 + x.cols * woutBytes .f32 ∧ 1 ≠ x.accNo ∧ 0 < x.rows ∧ 0 < x.cols) ∧
    (∃ m0 : W32, (mxr m0).mode = modeBlock ∧ ∃ n, (mxr m0).knOk n = true) ∧ callCmd (myCore (smc 0x44 (mxr 0x44) 0)) = some (mc 0x44) ∧
    callCmd (myCore (smc 0 (mxr 0) 0)) = some (mc 0) :=
  ⟨by decide +kernel, ⟨0x44, by decide +kernel, 1, by decide +kernel⟩, by decide +kernel, by decide +kernel⟩

/-- A block-mode call all of whose products are admitted, and one with a product above its scanned exponent. -/
theorem wit_ProductsAccumulationAndReadOut_Fits :
    (∀ i < (mxr 0x44).rows, ∀ j < (mxr 0x44).cols, admitted (mxr 0x44) i j ⟨[], false, false⟩ {} = true) ∧
    (let x := { mxr 0x44 with xe := [(0, -5)] }; admitted x 0 0 ⟨[(0, { s := 1, x := 9 })], false, false⟩ {} = false) := by decide +kernel

/-- A lane group of stack 1; a stack; a handle of tier 0. -/
def sgrp (x : LaneGrp) : State := { wr sm [] with grps := [(grpKey 1 2 1, x)], clk := 48005, bringup := 7 }
def shbm (v : Word) (u : Nat) : State := { wr sm [(.hbmSts 1, v)] with clk := 4096, stackUse := [(1, u)], bringup := 7 }
def sfah (st app dur : Nat) : State :=
  { wr sm [(.fahCtl 0 1, BitVec.ofNat 64 (st * 2 ^ 62 + 4 + 8 * 2 ^ 29)), (.fahPtr 0 1, BitVec.ofNat 64 (app + dur * 2 ^ 30))] with bringup := 7 }
def fcmd (c base lim : Nat) : Word := BitVec.ofNat 64 (c * 2 ^ 58 + base + lim * 2 ^ 29)

theorem wit_StacksAndFlash :
    (1 < 16 ∧ 2 < 32 ∧ 1 < 2 ∧ grpOf (sgrp {}) 1 2 1 = {} ∧ grpOf (sgrp {}) 1 2 0 = {} ∧ ({} : LaneGrp).st = .normal ∧
      (sgrp {}).chFail.contains (32 * 1 + 2) = false ∧ laneErrs {} 7 < 15 ∧ ({} : LaneGrp).spare = none) ∧
    (∀ sp ∈ [none, some 3], let x : LaneGrp := { errs := List.replicate 15 (7, 9), bursts := 9, spare := sp }
      grpOf (sgrp x) 1 2 1 = x ∧ x.st = .normal ∧ 15 ≤ laneErrs x 7) ∧
    (∀ r ∈ [6, 7], let x : LaneGrp := { st := .pending, replays := [(5, r)] }; grpOf (sgrp x) 1 2 1 = x ∧ x.st = .pending ∧ (mget 0 x.replays 5 + 1 < 8 ↔ r = 6)) ∧
    (∀ t ∈ [GrpSt.pending, .switch, .retrain], let x : LaneGrp := { st := t, want := some 7, since := 5 }; grpOf (sgrp x) 1 2 1 = x ∧ x.st = t ∧ x.since + 48000 ≤ (sgrp x).clk) ∧
    (bits (rdReg (sgrp {}) (.hbmSts 1)) 48 8 ≠ 1 ∧ bits (rdReg (wr (sgrp {}) [(.hbmSts 1, 0x1000000000000)]) (.hbmSts 1)) 48 8 = 1) ∧
    1 < bits (rdReg (sgrp {}) (.hbmSts 1)) 48 8 ∧ grpKey 1 2 0 ≠ grpKey 1 2 1 ∧
    (bits (rdReg (shbm 0 0) (.hbmSts 1)) 0 3 = 0 ∧ mget 0 (shbm 0 0).stackUse 1 + 4096 ≤ (shbm 0 0).clk) ∧
    (shbm 0 1).clk < mget 0 (shbm 0 1).stackUse 1 + 4096 ∧ bits (rdReg (shbm 4 0) (.hbmSts 1)) 0 3 = 4 ∧ bits (3 : Word) 0 3 = 3 ∧
    bits (fcmd 1 8 8) 58 3 = 1 ∧ bits (fcmd 1 8 8) 0 29 ≤ bits (fcmd 1 8 8) 29 29 ∧ bits (fcmd 2 0 0) 58 3 = 2 ∧ bits (fcmd 3 0 0) 58 3 = 3 ∧
    bits (fcmd 1 9 8) 29 29 < bits (fcmd 1 9 8) 0 29 ∧ 7 ≤ (sfah 0 6 5).bringup ∧
    (∀ st < 4, bits (rdReg (sfah st 6 5) (.fahCtl 0 1)) 62 2 = st ∧
      bits (rdReg (sfah st 6 5) (.fahPtr 0 1)) 30 30 < bits (rdReg (sfah st 6 5) (.fahPtr 0 1)) 0 30 ∧
      bits (rdReg (sfah st 6 6) (.fahPtr 0 1)) 30 30 = bits (rdReg (sfah st 6 6) (.fahPtr 0 1)) 0 30) := by decide +kernel

/-- Three members, one of them this module, M = 1, with data, parity and journal areas. -/
def memb : List (Reg × Word) := [(.pgMemb 0, 0x0101010000), (.pgMemb 1, 0x0202020000), (.pgMemb 2, 0x0303030000)]
def gcfg (en : Bool) : Word := BitVec.ofNat 64 (3 * 65536 + 256 + if en then 2 ^ 31 else 0)
def area : List (Reg × Word) := [(.pgAreaD, 0x200100), (.pgAreaP, 0x100200), (.pgJrn, 0x00E0000000100300), (.pgRnd, 0x500000004)]
def gs (en : Bool) (st : Nat) (g : Group) : State :=
  { wr State.reset (memb ++ area ++ [(.pgCfg, gcfg en), (.pgSts, BitVec.ofNat 64 (st * 2 ^ 60))]) with
    group := g, bringup := 7, clk := 100000000 }

theorem wit_GroupSettings :
    (let s := gs false 0 {}; let v := gcfg true
     7 ≤ s.bringup ∧ pgOn s = false ∧ pgState s = 0 ∧ bit (rdReg s .pgCfg) 32 = false ∧ bit v 31 = true ∧ bit v 30 = false ∧ bit v 32 = false ∧
       bits v 16 6 = pgN s ∧ bits v 8 3 = pgM s ∧ bits v 0 5 = pgSelf s ∧ pgLocalOk s = true ∧
       pgLocalOk (wr s [(.pgAreaP, 0x200100)]) = false ∧ bits (3 : Word) 0 3 = 3 ∧ 3 < bits (4 : Word) 0 3) ∧
    (bit (gcfg false) 31 = false ∧ (∀ st ∈ [2, 8, 9], let s := gs true st {}; pgOn s = true ∧ pgState s = st ∧ protectedTask s = false ∧ jUsed s = 0) ∧
      (pgState (gs true 3 {}) ≠ 2 ∧ pgState (gs true 3 {}) ≠ 8 ∧ pgState (gs true 3 {}) ≠ 9) ∧
      bit (gcfg false ||| 0x100000000) 32 = true ∧
      (let s := wr (gs false 10 {}) [(.pgCfg, 0x100030100)]; pgOn s = false ∧ pgState s = 10 ∧ bit (rdReg s .pgCfg) 32 = true) ∧
      (∀ st ∈ [8, 9], let s := gs false st {}; pgOn s = false ∧ pgState s = st ∧ protectedTask s = false ∧ jUsed s = 0)) ∧
    (let c := { ownCfg (gs false 0 {}) with phase := .report }
     c.index = 32 ∧ { c with phase := .ask } = ownCfg (gs false 0 { asking := true }) ∧ { c with m := 2, phase := .ask } ≠ ownCfg (gs false 0 {}) ∧
       (1 : W32) ||| 1#32 <<< 1 ≠ allMembers (gs false 0 {}) ∧ (5 : W32) ||| 1#32 <<< 1 = allMembers (gs false 0 {})) ∧
    (∀ ph ∈ [CfgPhase.ask, .encoding, .shared, .encoded], { ownCfg (gs false 0 {}) with phase := ph }.phase = ph) ∧
    (pgState (gs true 1 {}) = 1 ∧ (gs true 1 { encoded := 7 }).group.encoded = allMembers (gs true 1 {}) ∧
      (gs true 1 {}).group.encoded ≠ allMembers (gs true 1 {})) := by decide +kernel

def line0 : List Lane := (List.range 32).map fun i => ⟨BitVec.ofNat 32 i, false⟩
/-- A ROUND packet of queue 0 for round w. -/
def roundPkt (w : Nat) : Pkt := { id := 9, words := [0x301, BitVec.ofNat 64 w, 0, 0, 0, 0, 0, 0] }
/-- A DELTA of round 5 to member 1, sent at clk 7. -/
def dlt (l : Nat) : DeltaOut := ⟨1, 5, l, 7, 0⟩
def withRound (s : State) (w : Nat) : State := { s with queues := [(0, { pkts := [roundPkt w], next := 10 })] }

theorem wit_GroupRoundsAndDeltas :
    (∀ st ∈ [2, 3, 4], fromMember (gs true st {}) 1 ∧ pgState (gs true st {}) = st ∧ pgOrn (gs true st {}) = 5 ∧
      canRecord (gs true st {}) ((parityPa (gs true st {}) 0 + 0) / 128)) ∧
    (let s := gs true 2 {}; let line := (parityPa s 0 + 0) / 128
     hbmRes s (128 * line) = .served ∧ (∀ i < 32, mget false s.bad (32 * line + i) = false) ∧ (List.replicate 128 (1 : Byte)).length = 128 ∧
     (∀ st ∈ [2, 4], let s := wr (gs true st {}) [(.pgJfill, 0x1C00)]; mlook s.group.journal line = none ∧ jCap s ≤ jUsed s ∧ pgState s = st) ∧
     (∀ i < 32, let u := { s with bad := [(32 * line + i, true)] }; hbmRes u (128 * line) ≠ .held ∧ mget false u.bad (32 * line + i) = true) ∧
     hbmRes { s with chFail := List.range 512 } (128 * line) = .failed ∧
     (0 < 128 * line ∨ 128 * line + 128 ≤ 0) ∧ 6 = (pgOrn s + 1) % 2 ^ 32) ∧
    (∀ l ∈ [[dlt 0], [dlt 0, dlt 1], [dlt 0, dlt 0]], ∀ w ∈ [false, true], let s := gs true 3 { wrote := w, deltas := l, votes := 2 }
     let left := s.group.deltas.eraseP fun x => x.member = 1 && x.round = 5 && x.line = 0
     pgState s = 3 ∧ s.group.wrote = w ∧ (left = [] ↔ l = [dlt 0]) ∧ maskCount (s.group.votes ||| (1#32 <<< pgSelf s)).toNat ≠ pgN s) ∧
    (∀ w ∈ [5, 6], let s := withRound (gs true 2 {}) w
      onTurn s 0 9 3 = some (roundPkt w) ∧ (roundPkt w).done = false ∧ (0, 9) ∉ s.group.rounds ∧ protectedTask (startPkt s 0 9) = false ∧
      peBusy s = false ∧ (bits ((roundPkt w).word 1) 0 32 = pgOrn s ↔ w = 5)) ∧
    (∀ st ∈ [0, 8, 9, 10], onTurn (withRound (gs true st {}) 5) 0 9 3 = some (roundPkt 5) ∧ pgState (gs true st {}) = st) ∧
    (let s := gs true 4 { votes := 5 }; pgState s = 4 ∧ maskCount (s.group.votes ||| (1#32 <<< 1)).toNat = pgN s) ∧
    maskCount (1#32 <<< 1).toNat ≠ pgN (gs true 4 {}) ∧ 7 ≠ pgOrn (gs true 2 {}) := by
  unfold fromMember canRecord
  refine ⟨?_, ?_, ?_, ?_, ?_, ?_, ?_, ?_⟩ <;> decide +kernel

/-- An exchange under a coordinator, entered from a state, with answers. -/
def ex0 (c f : Nat) (l : List VAns) : Exch := { from_ := f, coord := c, suspects := 4, answers := l }

theorem wit_GroupExchangeAndDecisions :
    (∀ st ∈ [2, 3, 4, 5, 7, 11], fromMember (gs true st {}) 1 ∧ pgState (gs true st {}) = st) ∧
    (let s := gs true 2 {}; 6 ≠ pgOrn s ∧ 4 ≠ pgOrn s ∧ receiving s = false ∧ 6 = (pgOrn s + 1) % 2 ^ 32 ∧ isOlder s 4 = true) ∧
    (let s := gs true 1 {}; pgState s = 1 ∧ isOlder s 4 = true ∧ isOlder s 5 = false ∧ isOlder s 6 = false) ∧
    (∀ f ∈ [(1 : Nat), 4, 6], ∀ st ∈ [5, 6], let s := gs true st { exch := some (ex0 1 4 []), await := true }
     fromMember s 1 ∧ pgState s = st ∧ ((BitVec.ofNat 32 f).getLsbD (pgSelf s) = decide (f = 1)) ∧
       (maskCount (Nat.lor (pgMissing s) f) ≤ pgM s ↔ f ≠ 6)) ∧
    (let s := gs true 5 { exch := some (ex0 1 4 []) }; 6 ≠ pgOrn s ∧ 6 = (pgOrn s + 1) % 2 ^ 32 ∧ isOlder s 4 = true) ∧
    (let e := ex0 0 4 []; let s := gs true 5 { exch := some e }
     s.group.exch = some e ∧ e.coord = pgSelf s ∧ ∃ i ∈ present s, i ≠ pgSelf s ∧ ∀ a ∈ [VAns.mk 1 4 7 false false none], a.member ≠ i) ∧
    (∀ dead ∈ [4, 5], let e := ex0 0 4 [⟨2, dead, 7, false, false, none⟩]; let s := gs true 5 { exch := some e }
     let l := (e.answers.filter fun a => a.member ≠ 1) ++ [⟨1, 4, 7, false, false, none⟩]
     s.group.exch = some e ∧ e.coord = pgSelf s ∧ (∀ i < pgN s, memberSt s i = 0 ∧ (i = pgSelf s ∨ ∃ a ∈ l, a.member = i)) ∧ pgMissing s = 0 ∧
     s.group.dec = none ∧ (∀ a ∈ l, a.dec = none) ∧ e.from_ = 4) ∧
    (∀ f ∈ [2, 7, 11], let e := ex0 1 f []; let s := gs true 5 { exch := some e }
     s.group.exch = some e ∧ (1 : W32).getLsbD (pgSelf s) = true ∧ (6 : W32).getLsbD (pgSelf s) = false ∧
     pgM s < maskCount (Nat.lor (pgMissing s) (6 : W32).toNat) ∧ maskCount (Nat.lor (pgMissing s) (4 : W32).toNat) ≤ pgM s) ∧
    (∀ st ∈ [2, 3, 4, 7, 11], let s := gs true st { deltas := [dlt 0] }
     (1 < pgN s ∧ 1 ≠ pgSelf s ∧ memberSt s 1 ≠ 1 ∧ pgN s ≤ 32) ∧ (∃ x ∈ s.group.deltas, x.member = 1 ∧ x.clk + bits (rdReg s .pgTmo) 32 16 * 65536 ≤ s.clk)) ∧
    (∀ x ∈ [{ dlt 0 with clk := 99999999 }], x.member = 1 → (gs true 2 {}).clk < x.clk + bits (rdReg (gs true 2 {}) .pgTmo) 32 16 * 65536) ∧
    (pgState (gs true 4 {}) = 4 ∧ (gs true 4 {}).group.since + bits (rdReg (gs true 4 {}) .pgTmo) 0 16 * 65536 ≤ (gs true 4 {}).clk) ∧
    (gs true 4 { since := 99999999 }).clk < (gs true 4 { since := 99999999 }).group.since + bits (rdReg (gs true 4 {}) .pgTmo) 0 16 * 65536 ∧
    (∀ c ∈ [0, 1], let e := ex0 c 4 []; let s := gs true 5 { exch := some e }
     s.group.exch = some e ∧ (e.coord = pgSelf s ↔ c = 0) ∧ s.group.since + 2 * (bits (rdReg s .pgTmo) 16 16 * 65536) ≤ s.clk ∧
     (e.answers.length + 1 < pgN s - pgM s ∨ (e.answers.length + 1) * 2 ≤ pgN s)) ∧ (gs true 5 {}).group.exch = none := by
  unfold fromMember
  refine ⟨?_, ?_, ?_, ?_, ?_, ?_, ?_, ?_, ?_, ?_, ?_, ?_, ?_, ?_⟩ <;> decide +kernel

/-- A group in Restoring with one journal record, or with a word of the own data area that cannot be read. -/
def sjr (mend : Bool) : State := gs true 6 { journal := [(0x20000, ⟨false, line0⟩)], mend := mend }
def shurt (mend : Bool) : State :=
  { gs true 6 { mend := mend } with bad := [(parityPa (gs true 6 {}) 0 / 4, true)] }
def hurtOf (s : State) : State := wr s [(.pgSts, 0x6500000000000000)]

theorem wit_GroupRestoreAndRebuild :
    (∀ b ∈ [true, false], let s := gs true 6 { await := b, mend := true, suspects := if b then 0 else 1#32 <<< 1 }
     pgState s = 6 ∧ s.group.await = b ∧ (b = true → (let u := { s with group := { s.group with since := 99999999 } }
       u.clk < u.group.since + 2 * (bits (rdReg u .pgTmo) 16 16 * 65536))) ∧ s.group.mend = true ∧ bits (rdReg s .pgSts) 56 4 ≠ 5 ∧
       (b = false → s.group.suspects = 1#32 <<< 1 ∧ 1 < pgN s ∧ 1 ≠ pgSelf s ∧ memberSt s 1 ≠ 1)) ∧
    ((sjr false).group.await = false ∧ (sjr false).group.suspects = 0 ∧ (hurtOf (shurt true)).group.suspects = 0) ∧
    (let s := gs true 7 { rblds := [(2, 0x8000000704040002)] }; let v : Word := 0x8000000704040002
     let own := { ownCfg s with memb := (ownCfg s).memb.set 2 (rbldRow v), spare := true }
     let c : GroupCfg := { own with phase := .report, index := 2 }
     c.phase = .report ∧ c.index < 32 ∧ pgState s ≠ 8 ∧ mlook s.group.rblds c.index = some v ∧ { c with phase := .ask, index := 32 } = own ∧
       ({ c with m := 2, phase := .ask, index := 32 } : GroupCfg) ≠ own ∧ ({ c with spare := false, phase := .ask, index := 32 } : GroupCfg) ≠ own) ∧
    (∀ ms ∈ [(0x0303030001 : Nat), 0x0303030002], let s := wr (gs true 7 { rebuilds := [2] }) [(.pgSts, 0x7000000000000004), (.pgMemb 2, BitVec.ofNat 64 ms)]
     pgState s = 7 ∧ 2 < pgN s ∧ 2 ≠ pgSelf s ∧ (memberSt s 2 = 2 ↔ ms = 0x0303030002)) ∧
    (pgState (gs true 11 {}) = 11 ∧ 1 < pgN (gs true 11 {}) ∧ 1 ≠ pgSelf (gs true 11 {}) ∧ memberSt (gs true 11 {}) 1 = 0) ∧
    (let s := sjr false
     pgState s = 6 ∧ s.group.mend = false ∧ bits (rdReg s .pgSts) 56 4 ≠ 5 ∧
       s.group.journal = [(0x20000, ⟨false, line0⟩)] ∧ line0.length = 32 ∧ s.pes = [] ∧ s.group.rounds = [] ∧ noRing s) ∧
    (∀ b ∈ [false, true], let s := hurtOf (shurt b); pgState s = 6 ∧ bits (rdReg s .pgSts) 56 4 = 5 ∧ s.group.mend = b ∧
      damagedStripes s ≠ [] ∧ (b = false → damagedStripes (restoreRound s) ≠ []) ∧ others s ≠ []) ∧
    (∀ b ∈ [false, true], let s := hurtOf (sjr b); pgState s = 6 ∧ s.group.mend = b ∧ damagedStripes s = [] ∧ (b = false → damagedStripes (restoreRound s) = [])) ∧
    pgState (gs true 2 {}) ≠ 6 ∧
    (let v : Word := 0x8000000704040002; let s := wr (gs true 7 { rebuilds := [2] }) [(.pgSts, 0x7000000000000004), (.pgMemb 2, 0x0303030001)]
     7 ≤ s.bringup ∧ bit v 63 = true ∧ bits v 0 5 = 2 ∧ 2 < pgN s ∧ memberSt s 2 = 1 ∧
       domainsOk (wrReg s (.pgMemb 2) (rbldRow v)) (pgN s) (pgM s) 24 = true ∧ domainsOk (wrReg s (.pgMemb 2) (rbldRow v)) (pgN s) (pgM s) 32 = true ∧
       pgN s ≤ bits (0x8000000704040003 : Word) 0 5 ∧ memberSt s 1 ≠ 1 ∧ pgState s = 7 ∧ 2 ∈ s.group.rebuilds ∧
       0 < stripeCount s ∧ stripeCount s ≤ stripeCount s ∧ 2 < pgN s ∧ 2 ≠ pgSelf s ∧ memberSt s 2 ≠ 0 ∧
       ((1 < pgN s ∧ 1 ≠ pgSelf s ∧ memberSt s 1 = 0) ∧ 1 ≠ 2) ∧
       (∃ n < 4, (rebuildChain s n 2).head? ≠ some (pgSelf s)) ∧ (∃ n < 4, (rebuildChain s n 2).head? = some (pgSelf s)) ∧
       (∃ n < 4, (rebuildChain s n 2).contains (pgSelf s) = true ∧ ((rebuildChain s n 2).takeWhile fun j => j ≠ pgSelf s).getLast? = some 1)) ∧
    (∀ st ∈ [5, 6], pgState (gs true st { rebuilds := [2] }) = st ∧ 2 ∈ (gs true st { rebuilds := [2] }).group.rebuilds) ∧
    (pgState (gs true 10 {}) = 10 ∧ 31 < 32 ∧ 1 < pgN (gs true 10 {}) ∧ memberSt (gs true 10 {}) 1 = 0 ∧ [(7 : Byte)] ≠ []) ∧
    (let s (n : Nat) := gs true 11 { got := List.range n }
     (pgState (s 0) = 11 ∧ 0 = pgSelf (s 0) ∧ (s 0).group.gotRnd = none ∧ 1 < pgN (s 0) ∧ memberSt (s 0) 1 = 0) ∧
      (s 0).group.got.length < stripeCount (s 0) ∧ stripeCount (s 768) ≤ (s 768).group.got.length ∧ 4 < 2 ^ 32 ∧ 5 < 2 ^ 32) ∧
    (pgState (gs true 1 {}) = 1 ∧ 0 = pgSelf (gs true 1 {}) ∧ 1 ≠ pgSelf (gs true 1 {}) ∧ (List.replicate 4096 (7 : Byte)).length = 4096) := by
  unfold noRing
  refine ⟨?_, ?_, ?_, ?_, ?_, ?_, ?_, ?_, ?_, ?_, ?_, ?_, ?_, ?_⟩ <;> decide +kernel

/-- With no registration and no host line no owner is lost. -/
theorem noLoss_of {s : State} (h : s.lvl = [] ∧ s.gw = []) : noLoss s := by
  intro w path id c e
  unfold homeFind at e
  split at e
  · cases e
  · have : ∀ p, lvlAt s p w = none := fun p => by unfold lvlAt; rw [h.1]; rfl
    simp [this] at e

/-- A module in service: context 0 with an identity table of 1 GB at PA 0x800000, cores 4-7 in its placement map, queue 0 with a ring of
16 slots at 0x100000, and a task image at PA 0x3000000001000, in the fixed window. -/
def sys : State :=
  { wr State.reset [(.xltRoot 0, 0x800001), (.ctxCfg 0, 0x8000000000000004), (.pmap 0 0, 0x07060504), (.qRing 0, 0x100000),
      (.qCfg 0, 0x8000000004000000), (.qNtf 0, 0x9000)] with
    bringup := 7, clk := 100000000, mem := [
    (0x800000, 0x01), (0x800001, 0x10), (0x800002, 0x80), (0x801000, 0x01), (0x801001, 0x20),
    (0x801002, 0x80), (0x802000, 0xF3), (0x3000000001000, 0x01), (0x3000000001004, 0x02), (0x3000000001008, 0x40),
    (0x300000000100C, 0x01), (0x3000000001014, 0x01), (0x3000000001018, 0x02), (0x3000000001020, 0x80), (0x3000000001028, 0x80),
    (0x3000000001029, 0x01), (0x3000000001030, 0x98), (0x3000000001031, 0x01), (0x3000000001038, 0xA0), (0x3000000001039, 0x01),
    (0x3000000001040, 0xB0), (0x3000000001041, 0x01), (0x3000000001081, 0x10), (0x3000000001182, 0x01), (0x300000000118A, 0x01),
    (0x3000000001190, 0x03)] }
/-- A word whose owner's answer is on its way. -/
def busyWord (s : State) (w : Nat) : State :=
  let h := plHome (homeChip (4 * w))
  { s with lvl := [(lkey h w, .owner 0)], locks := [(h, w)] }
/-- What a computation gives satisfies a test. -/
def okIs {ε α : Type} (x : Except ε α) (f : α → Bool) : Bool :=
  match x with
  | .ok y => f y
  | .error _ => false
theorem ok_of_okIs {ε α : Type} {x : Except ε α} {f : α → Bool} (h : okIs x f = true) : ∃ y, x = .ok y ∧ f y = true := by
  cases x with
  | ok y => exact ⟨y, rfl, h⟩
  | error => cases h
/-- A packet taken by queue 0. -/
def pk (ws : List Word) : Pkt := { id := 9, words := ws ++ List.replicate (8 - ws.length) 0 }
def withPk (s : State) (p : Pkt) : State := { s with queues := [(0, { pkts := [p], next := 10 })] }
/-- Sequencer 0 of core 0 at a pc, with code words at 0x1000. -/
def sfetch (pc : Word) (code : List Nat) : State :=
  let s : State := { wb sys [(0x1000, code)] with
    wcache := (pageWalk sys 0 0 0x1000).2, cores := [(0, { task := some 0 })]
    tasks := [(0, { q := 0, pk := 0, ctx := 0, arg := 0, taskid := 3, slot := 1, cores := [0], st := .running })] }
  setSeq s 0 0 { q0 with pc := pc }
/-- Whether a fetch gives a bundle that decodes, one that does not, or a trap. -/
def fetchKind (s : State) : Nat :=
  let s0 := modSeq s 0 0 landDue
  let (sp, pc) := skipPads 0 0 allLines s0 (seqOf s0 0 0).pc
  match fetchAt (modSeq sp 0 0 fun x => { x with pc := pc }) 0 0 pc with
  | .pad _ _ => 0
  | .bundle b _ _ ws => if !ws.all (fun x => !isHostPa (4 * x.1) && spaceOf (4 * x.1) ≠ 2) then 5 else (match decodeSlots b.slots with
    | .ok _ => 1
    | .error _ => 2)
  | .raise (.trap ⟨c, _⟩) => if c = 9 ∨ c = 18 then 4 else 3
  | .raise _ => 4

theorem wit_RegisterWritesAndFetch :
    (writeAt sys 0x2000000000008 0 = none ∧ (∀ r ∈ [Reg.ownTmo, .wdgCfg 3, .xltRoot 2, .ctxXvec 1, .tdtBase 0, .schCfg, .fabCfg, .peKey 3, .pgEvt, .replSts,
        .pgSts, .pgRnd, .pgJfill, .actFcst, .evqWr, .qSts 1, .fltPend 2, .engEva 4, .pgAreaD], writeAt sys r.pa 1 = some r ∧
        writeAt { sys with bringup := 3 } r.pa 1 = some r) ∧
      (∀ r ∈ [Reg.peKey 3, .pgEvt], let x : RegPut := { v := 7, mask := 0xFF }; x.src = .none ∧ writeAt sys r.pa (x.v &&& x.mask) = some r) ∧
      3 < 7 ∧ Reg.ownTmo.early = false ∧ 7 ≤ sys.bringup ∧
      (let s := wr sys [(.pgCfg, 0x80000000)]; pgOn s = true ∧ (0 : Word) = rdReg s .pgAreaD ∧ (1 : Word) ≠ rdReg s .pgAreaD)) ∧
    (∀ x ∈ [((0x1000 : Word), [0x900000000101], 1), (0x1000, [0xFF00010101], 2), (0x1000, [0x0000FF01], 3), (0x1001, [0], 3)],
      let s := sfetch x.1 x.2.1
      mayIssue s 0 0 = true ∧ (seqOf s 0 0).waits = [] ∧ dueReady (seqOf s 0 0) = true ∧
        (let y := seqOf (modSeq s 0 0 landDue) 0 0; y.boundary = [] ∧ y.ending = none ∧ y.xfer = none ∧ y.infl = []) ∧ fetchKind s = x.2.2 ∧
        (let s0 := modSeq s 0 0 landDue; (skipPads 0 0 allLines s0 (seqOf s0 0 0).pc).1 = s0)) ∧
    bit (skipPads 0 0 allLines (sfetch 0x1001 [0]) 0x1001).2 0 = true := by decide +kernel

/-- A dispatch of the image by queue 0, and its task. -/
def pdisp (a : Nat) : Pkt := pk [0x101, BitVec.ofNat 64 a, 0x77, 0x0003000000000005]
def img0 : TaskImg := { ncores := 2, spm := 64, entry := 1, dormant := 2, pcs := 0x1000 :: List.replicate 31 0, ranges := [(0x10000, 0x10000, 3)] }
def ext0 : List Extent × Nat := ([⟨0, 0, 0x40000000, true, true, false, false, false, 0, false, 0, 0⟩], 0)
def tsk (st : TaskSt) : Task := { q := 0, pk := 9, ctx := 0, img := img0, arg := 0x77, taskid := 5, slot := 3, cores := [4, 5], st := st }
def stsk (st : TaskSt) (x : Seq) : State :=
  { withPk sys (pdisp 0xFFFFFFFFFF1000) with
    tasks := [(0, tsk st)], nextTask := 1, cores := [(4, { task := some 0, seqs := [(0, x)], sink := 5 }), (5, { task := some 0 })] }
def shalt : Seq := { kind := .active, st := .stopped }

theorem wit_TasksStartReportAndRetire_Dispatch :
    (let s := withPk sys (pdisp 0xFFFFFFFFFF1000)
     onTurn s 0 9 1 = some (pdisp 0xFFFFFFFFFF1000) ∧ (pdisp 0xFFFFFFFFFF1000).done = false ∧ (pdisp 0xFFFFFFFFFF1000).started = false ∧ s.tasks = [] ∧ s.retired = []) ∧
    (∃ spans, readImage sys (queueCtx sys 0) 0 0xFFFFFFFFFF1000 = .ok (img0, spans)) ∧ (∃ r, readImage sys (queueCtx sys 0) 0 0xFFFFFFFFFF1040 = .error (some r)) :=
  ⟨by decide +kernel, by
    obtain ⟨⟨i, l⟩, h, e⟩ := ok_of_okIs (x := readImage sys (queueCtx sys 0) 0 0xFFFFFFFFFF1000) (f := fun y => decide (y.1 = img0)) (by decide +kernel)
    exact ⟨l, by rw [h]; simp at e; rw [e]⟩, ⟨1, error_of_errs (by decide +kernel)⟩⟩

/-- The image of `sys` with some of its words written anew; its header has these fields and offsets. -/
def simg (l : List (Nat × Nat)) : State := wb sys (l.map fun (o, w) => (0x3000000001000 + o, [w]))
def hdrIs (s : State) (vals offs : List Nat) : Bool :=
  (([(0, 4), (4, 2), (6, 2), (8, 4), (0xC, 2), (0xE, 2), (0x10, 2), (0x12, 2), (0x14, 4), (0x18, 4), (0x1C, 4)].zip vals).all
    fun (p, v) => gives (cpNum s 0 (0xFFFFFFFFFF1000 + p.1) p.2) v) &&
  gives (cpRun s 0 0xFFFFFFFFFF1020 8 5) offs && gives (cpRun s 0 0xFFFFFFFFFF1048 8 7) (List.replicate 7 0)
def offs0 : List Nat := [0x80, 0x180, 0x198, 0x1A0, 0x1B0]

theorem wit_TasksStartReportAndRetire_Images :
    errs (cpNum sys 0 0x80000000 4) (some 5) = true ∧ bits (rdReg sys (.ctxCfg 0)) 0 8 = 4 ∧
    hdrIs (simg [(0, 0x200000002)]) [2, 2, 0, 0x40, 1, 0, 0, 0, 1, 2, 0] offs0 = true ∧
    hdrIs (simg [(0, 1)]) [1, 0, 0, 0x40, 1, 0, 0, 0, 1, 2, 0] offs0 = true ∧
    hdrIs (simg [(8, 0x100000041)]) [1, 2, 0, 0x41, 1, 0, 0, 0, 1, 2, 0] offs0 = true ∧
    hdrIs (simg [(8, 0x10100000040)]) [1, 2, 0, 0x40, 257, 0, 0, 0, 1, 2, 0] offs0 = true ∧
    (let s := simg [(0x20, 0x10000000)]
     hdrIs s [1, 2, 0, 0x40, 1, 0, 0, 0, 1, 2, 0] (0x10000000 :: offs0.tail) = true ∧ errs (cpRun s 0 (0xFFFFFFFFFF1000 + 0x10000000) 8 32) (some 5) = true) ∧
    (∀ x ∈ [((0x10000 : Nat), (3 : Nat), (0x1000 : Nat)), (0, 3, 0x1000), (0x10000, 0, 0x1000), (0x10000, 3, 0x80000000)],
      let s := simg [(0x10, 0x100000001), (0x188, x.1), (0x190, x.2.1), (0x1A0, x.2.2), (0x1A8, 0x10000)]
      hdrIs s [1, 2, 0, 0x40, 1, 0, 1, 0, 1, 2, 0] offs0 = true ∧ gives (cpRun s 0 0xFFFFFFFFFF1080 8 32) (0x1000 :: List.replicate 31 0) = true ∧
        gives (cpRun s 0 0xFFFFFFFFFF1180 8 3) [0x10000, x.1, x.2.1] = true ∧ gives (cpRun s 0 0xFFFFFFFFFF1198 2 0) [] = true ∧
        gives (cpRun s 0 0xFFFFFFFFFF11A0 8 2) [x.2.2, 0x10000] = true ∧ gives (cpRun s 0 0xFFFFFFFFFF11B0 4 0) [] = true ∧
        gives (readVerbs s 0 [(x.2.2, 0, 1)]) [(0, [0])] = decide (x.2.2 = 0x1000) ∧
        errs (readVerbs s 0 [(x.2.2, 0, 1)]) (some 5) = decide (x.2.2 ≠ 0x1000)) := by decide +kernel

theorem wit_TasksStartReportAndRetire_Retired :
    ([4, 5].all fun k => !sys.retired.contains k) = true ∧ { sys with retired := [5] }.retired.contains 5 = true := by decide +kernel

theorem wit_TasksStartReportAndRetire_Grant :
    (let s : State := { withPk sys (pdisp 0xFFFFFFFFFF1000) with tasks := [(0, tsk .ready)], nextTask := 1 }; let t := tsk .ready
     mlook s.tasks 0 = some t ∧ t.ended = none ∧ heldCtx s t.ctx = false ∧ barred s t.ctx = false ∧ coresFree s t = true ∧ leads s 0 t = true ∧ t.ctx < 16 ∧ s.lvl = [] ∧ s.gw = [] ∧
       waiting s = [] ∧ s.retired = [] ∧ t.cores.Nodup) ∧
    (let t := tsk .ready; let s : State := { withPk sys (pdisp 0) with tasks := [(0, t), (1, { tsk .preempted with prio := 7 })], saves := [⟨1, 4, {}⟩, ⟨1, 5, {}⟩] }
     ∃ e ∈ waiting s, share e.2 t = true ∧ rankOf s t ≤ e.2.prio ∧ coresIdle s e.2 = true) ∧
    buildExtents sys 0 img0.ranges ([], 0) = .ok ext0 ∧ readDescs sys 0 img0.tensors = .ok [] ∧
    mlook (stsk .setup shalt).tasks 0 = some (tsk .setup) :=
  ⟨by decide +kernel, by decide +kernel, ok_of_gives (by decide +kernel), ok_of_gives (by decide +kernel), by decide +kernel⟩

theorem wit_TasksStartReportAndRetire_End :
    ((tsk .running).ended = none ∧ mlook (stsk .running shalt).tasks 0 = some (tsk .running) ∧
      (∀ k ∈ [4, 5], coreQuiet (stsk .running shalt) k = true) ∧ coreQuiet (stsk .running q0) 4 = false ∧ (tsk .running).cores = [4, 5] ∧
      (tsk .running).reported = false ∧ { tsk .running with reported := true }.reported = true) ∧
    (let t := { tsk .running with ended := some (2, 8) }; t.reported = false ∧ t.ended = some (2, 8) ∧
      (∀ k ∈ [4, 5], (Machine.core (stsk .running shalt) k).outst = [] ∧
        (Outst.performed (stsk .running shalt) k { w := 5, seq := 0, acked := [0x2000] } 5 = true) ∧ ownedIn (Machine.core (stsk .running shalt) k) (-1) = []) ∧
      (let s := modCore (stsk .running shalt) 4 fun c => { c with outst := [{ w := 5, seq := 0 }] }
       (Machine.core s 4).task = some 0 ∧ (∃ o ∈ (Machine.core s 4).outst, o.performed s 4 5 = false) ∧ ∀ k ∈ [4, 5], ownedIn (Machine.core s k) (-1) = [])) ∧
    (let s := wr (stsk .ready shalt) [(.qCfg 0, 0x80000000040005F5)]
     rankOf s { tsk .ready with aged := true } = 7 ∧ { tsk .ready with aged := true }.aged = true ∧ (tsk .ready).aged = false) ∧
    (∀ k ∈ [4, 5], (Machine.core sys k).task ≠ some 0) ∧ 63 < 64 ∧
    (let s := wr (stsk .ready shalt) [(.qCfg 0, 0x80000000040005F5)]
     bits (rdReg s (.qCfg 0)) 0 16 ≠ 0 ∧ (tsk .ready).readyClk + bits (rdReg s (.qCfg 0)) 0 16 * 65536 ≤ s.clk ∧
     s.clk < (tsk .ready).readyClk + 1526 * 65536 ∧ (tsk .running).runClk + bits (rdReg s .schCfg) 16 16 * 65536 ≤ s.clk ∧
     s.clk < 99999999 + bits (rdReg s .schCfg) 16 16 * 65536) := by decide +kernel

theorem wit_PreemptionAndWatchdogs_Save :
    (let t := tsk .running; let s := { stsk .running q0 with ctxStop := [0] }
     t.ended = none ∧ t.reported = false ∧ mlook s.tasks 0 = some t ∧ preparing s = false ∧ (∀ k ∈ [4, 5], savedOn s k < 4) ∧ emergencyTurn s t = true ∧
       s.ctxStop.contains t.ctx = true ∧ (stsk .running q0).ctxStop.contains t.ctx = false ∧ readyTasks (stsk .running q0) = [] ∧
       (gs true 3 {}).emergClk = 0 ∧ preparing (gs true 3 {}) = true ∧
       (let u : State := { gs true 3 {} with emergClk := 9 }; u.emergClk = 0 → preparing u = false)) ∧
    (let t := { tsk .running with minrun := true }
     let s := { wr (stsk .running q0) [(.qCfg 0, 0x8000000004070000), (.schCfg, 6)] with tasks := [(0, t), (1, tsk .ready)] }
     mlook s.tasks 0 = some t ∧ (∃ e ∈ readyTasks s, share e.2 t = true ∧ mayPreempt s e.2 = true) ∧ stopsWith s 0 t = [0]) ∧
    (let s := { stsk .running q0 with saves := List.replicate 4 ⟨7, 4, {}⟩ }; 4 ≤ savedOn s 4) ∧
    (let t := tsk .saving; let s := stsk .saving q0
     mlook s.tasks 0 = some t ∧ t.cores.Nodup ∧ s.held = [] ∧ s.emergClk = 0 ∧ (∀ k ∈ [4, 5], ownedIn (Machine.core s k) (-1) = []) ∧
       (∀ k ∈ [4, 5], ∀ x ∈ (Machine.core s k).seqs, accessWaits x.2 = [] ∧ x.2.ending = none) ∧
       (∀ k ∈ [4, 5], coreSettled s k = true) ∧
       coreSettled (modCore s 4 fun c => { c with outst := [{ w := 5, seq := 0 }] }) 4 = false) := by
  decide +kernel

theorem wit_PreemptionAndWatchdogs_Resume :
    (let t := tsk .preempted; let s := { stsk .preempted q0 with cores := [], saves := [⟨0, 4, { seqs := [(0, q0)] }⟩, ⟨0, 5, {}⟩] }
     mlook (waiting s) 0 = some t ∧ t.ctx < 16 ∧ coresIdle s t = true ∧ readyTasks s = [] ∧ t.cores.Nodup ∧ t.ended = none ∧ t.reported = false ∧
       (s.saves.find? fun v => v.task = 0 && v.core = 5) = some ⟨0, 5, {}⟩) ∧
    buildExtents sys 0 img0.ranges ([], 0) = .ok ext0 ∧ readDescs sys 0 img0.tensors = .ok [] :=
  ⟨by decide +kernel, ok_of_gives (by decide +kernel), ok_of_gives (by decide +kernel)⟩

theorem wit_PreemptionAndWatchdogs_Watchdog :
    (let s := wr (stsk .running q0) [(.wdgCfg 4, 0x1000005F5)]; let v (n : Nat) : Nat := n * 65536
     countRuns s 4 = true ∧ (Machine.core s 4).sink + v (bits (rdReg s (.wdgCfg 4)) 0 32) ≤ s.clk ∧ 4 < 128 ∧ bit (rdReg s (.wdgSts 4)) 63 = false ∧
     bit (rdReg (wr s [(.wdgSts 4, 0x8000000000000007)]) (.wdgSts 4)) 63 = true ∧ countRuns s 6 = false ∧ s.clk < 5 + v 1526 ∧ 7 ≤ s.bringup ∧
     bit 1 0 = true ∧ 5 ≠ 4) ∧
    (let s := stsk .running { q0 with stalled := true, onMove := true }
     (∀ x ∈ (Machine.core s 4).seqs, x.2.st = .running ∧ standsStill s 4 x.1 = true) ∧ (Machine.core s 4).task.isSome = true ∧
       (Machine.core sys 4).task = none) := by decide +kernel

/-- Words of a queue slot: a dispatch, one of an unknown type, one that is not valid. -/
def slotWords (w0 : Nat) : List Nat := [w0, 0xFFFFFFFFFF1000, 7, 8, 0, 0, 0, 0]
def stopSt (c : Nat) : Word := BitVec.ofNat 64 (3 * 2 ^ 60 + c * 2 ^ 56 + 1)

theorem wit_ContextsAndQueues_Contexts :
    (let s := wr sys [(.ctxCfg 0, 4)]; let v : Word := 0x8000000000000004
     7 ≤ s.bringup ∧ 15 < 16 ∧ bit (rdReg s (.ctxCfg 0)) 63 = false ∧ bit v 63 = true ∧ bit v 60 = false ∧ bit v 61 = false ∧
       pmapOk s 0 (bits v 0 8) = true ∧ pmapOk s 0 255 = false) ∧
    (bit (rdReg sys (.ctxCfg 0)) 63 = true ∧ bit (4 : Word) 63 = false ∧ ctxBusy sys 0 = true ∧ ctxBusy (wr sys [(.qCfg 0, 0)]) 0 = false) ∧
    (let v : Word := 0xA000000000000004; bit v 61 = true ∧ bit v 60 = false ∧ bit (rdReg sys (.ctxCfg 0)) 63 = bit v 63 ∧
      bits v 0 8 = bits (rdReg sys (.ctxCfg 0)) 0 8 ∧ queueCtx sys 0 = 0 ∧ bit (rdReg sys (.qCfg 0)) 63 = true ∧ stopped sys 0 = false) ∧
    (let v : Word := 0x9000000000000004; bit v 60 = true ∧ bit v 61 = false ∧ thmState sys = 0 ∧ emergOf sys 0 = [] ∧
      bits (rdReg (wr sys [(.qSts 0, stopSt 6)]) (.qSts 0)) 56 4 = 6 ∧ thmState (wr sys [(.thmSts, 0x1000000000000000)]) ≠ 0) := by decide +kernel

theorem wit_ContextsAndQueues_Control :
    (let s := wr sys [(.qCfg 0, 0)]; let v : Word := 0x8000000004000005
     0 < 64 ∧ bit (rdReg s (.qCfg 0)) 63 = false ∧ bit v 63 = true ∧ bit v 62 = false ∧ 4 ≤ bits v 24 4 ∧ bit (rdReg s (.ctxCfg (bits v 20 4))) 63 = true ∧
       bits (rdReg s (.qRing 0)) 0 56 % (64 * 2 ^ bits v 24 4) = 0 ∧ isHbm (bits (rdReg s (.qNtf 0)) 0 52) = true ∧ ¬ 4 ≤ bits (0x8000000003000005 : Word) 24 4) ∧
    (let s := wb (wr sys [(.qSts 0, stopSt 2)]) [(0x100040, slotWords 0xFF01)]; let v : Word := 0xC000000004000005
     bit (rdReg s (.qCfg 0)) 63 = true ∧ bit v 62 = true ∧ bit v 61 = false ∧ bits v 20 8 = bits (rdReg s (.qCfg 0)) 20 8 ∧ stopped s 0 = true ∧
       bits (rdReg s (.qSts 0)) 56 4 ≠ 6 ∧ (mget {} s.queues 0).stopNode = none) := by decide +kernel

/-- A move of the pages from 0x100000 on is under way. -/
def held100 (s : State) : State := { s with moves := [{ q := 1, pk := 1, ctx := 0, va := 0x100000, oldPa := 0x100000, newPa := 0x300000, size := 0x10000, leafPa := 0, leaf := 0 }] }
theorem wit_ContextsAndQueues_Skip :
    let s := unstop (wb (wr sys [(.qSts 0, stopSt 2), (.qCfg 0, 0x8000000004000005)]) [(0x100040, slotWords 0xFF01)]) 0
    let far := wr s [(.qRing 0, 0x80000000)]
    gives (cpRun s (queueCtx s 0) (slotVa s 0) 8 8) (slotWords 0xFF01) = true ∧ (clearValid s 0 (slotVa s 0) 0xFF01).2 = some true ∧
      gives (cpRun (held100 s) 0 (slotVa s 0) 8 8) (slotWords 0xFF01) = true ∧ (clearValid (held100 s) 0 (slotVa s 0) 0xFF01).2 = none ∧
      errs (cpRun (busyWord s (slotVa s 0 / 4)) 0 (slotVa s 0) 8 8) none = true ∧
      (slotWords 0xFF01).getD 7 0 = 0 ∧ (far.lvl = [] ∧ far.gw = []) ∧ errs (cpRun far 0 (slotVa far 0) 8 8) (some 5) = true := by decide +kernel

theorem wit_ContextsAndQueues_Take :
    (let s := wb sys [(0x100000, slotWords 0x101)]; let x := mget {} s.queues 0; let words := (slotWords 0x101).map (BitVec.ofNat 64)
     stopped s 0 = false ∧ heldCtx s 0 = false ∧ takenCount x < 8 ∧ x.skip = false ∧ gives (cpNum s 0 0x100000 8) 0x101 = true ∧
       gives (cpNum sys 0 0x100000 8) 0 = true ∧ errs (cpNum (busyWord s 0x40000) 0 0x100000 8) none = true ∧
       errs (cpNum sys 0 0x80000000 8) (some 5) = true ∧ gives (cpRun s 0 0x100000 8 8) (slotWords 0x101) = true ∧ packetCause words = 0 ∧
       packetCause ((slotWords 0xFF01).map (BitVec.ofNat 64)) ≠ 0 ∧ (clearValid s 0 0x100000 (words.getD 0 0)).2 = some true ∧
       (clearValid (held100 s) 0 0x100000 (words.getD 0 0)).2 = none ∧ (clearValid s 0 0xFFFFFFFFFF0000 (words.getD 0 0)).2 = some false) ∧
    stopped (wr sys [(.qSts 0, stopSt 2)]) 0 = true ∧
    (pktOf (withPk sys (pk [0x109])) 0 9 = some (pk [0x109]) ∧ (pk [0x109]).word 7 = 0 ∧ 8 ≠ 9 ∧ 1 ≠ 0) := by decide +kernel

/-- Node packets, with the list they run. -/
def pnode (ws : List Word) (l : Option Node) : Pkt := { pk ws with node := l, started := l.isSome }
def wcond : List Word := [0x501, 0x60000, 0xFF, 7, 0x70000, 0x71000, 0x30002]
def wloop : List Word := [0x601, 0x60000, 0xFF, 7, 0x70000, 0x200000003]
def wswitch : List Word := [0x701, 0x60000, 0x70000, 0x71000, 0x00020004]
def wwait (tmo : Nat) : List Word := [0x801, 0x60000, 0xFF, 7, BitVec.ofNat 64 (tmo * 2 ^ 32)]
def snode (p : Pkt) (n : Nat) : State := withPk (wb sys [(0x60000, [n]), (0x70000, [0x80000, 5]), (0x70010, [0x81000, 6])]) p
/-- A page of context 0 whose new home is in host memory, with the host port up; the move under way. -/
def smove : State := wb (wr sys [(.lnkSts 24, 0x4000000000000000)]) [(0x802000, [0x803001]), (0x803000, [0x804001]), (0x804010, [0x20063])]
def pmove (va pa : Nat) : Pkt := pk [0x401, BitVec.ofNat 64 va, BitVec.ofNat 64 pa]
def mv0 : Move := { q := 0, pk := 9, ctx := 0, va := 0x20000, oldPa := 0x20000, newPa := 0x4000000050000, size := 0x10000, leafPa := 0x804010, leaf := 0x20063 }

theorem wit_PacketsRun_Nodes :
    (∀ x ∈ [(5, wcond), (6, wloop), (7, wswitch)], ∀ l ∈ [none, some (⟨0x70000, 2, 2, 1⟩ : Node), some ⟨0x70000, 2, 2, 2⟩],
      let p := pnode x.2 l; let s := snode p 7
      ((startPkt s 0 9).lvl = [] ∧ (startPkt s 0 9).gw = []) ∧
      onTurn s 0 9 x.1 = some p ∧ p.done = false ∧ (mget {} (startPkt s 0 9).queues 0).stopNode ≠ some 9 ∧ pktOf s 0 9 = some p ∧ p.id = 9 ∧
        ((mget {} (startPkt s 0 9).queues 0).pkts.all fun y => y.parent ≠ some 9) = true ∧ stopped (startPkt s 0 9) 0 = false) ∧
    (∀ n ∈ [7, 1, 0], gives (cpNum (startPkt (snode (pnode wcond none) n) 0 9) 0 0x60000 8) n = true) ∧
    errs (cpNum (startPkt (snode (pnode wcond none) 7) 0 9) 0 0x80000000 8) (some 5) = true ∧
    (testWord 7 0xFF 7 0 = true ∧ testWord 0 0xFF 7 0 = false) ∧ bits ((pnode wloop none).word 5) 32 32 = 2 ∧ (pnode wloop none).word 6 = 0 ∧
    (bits ((pnode wswitch none).word 4) 16 8 ≤ 7 / 2 ^ 0 % 64 ∧ 1 < bits ((pnode wswitch none).word 4) 16 8 ∧
      gives (cpNum (startPkt (snode (pnode wswitch none) 1) 0 9) 0 0x70010 8) 0x81000 = true ∧
      gives (cpNum (startPkt (snode (pnode wswitch none) 1) 0 9) 0 0x70018 8) 6 = true ∧ 0x81000 % 64 = 0 ∧ 6 < 2 ^ 16) ∧
    (∀ t ∈ [0, 1, 1526], let p := { pk (wwait t) with started := true }; let s := snode p 7
      onTurn s 0 9 8 = some p ∧ p.done = false ∧ (mget {} s.queues 0).stopNode ≠ some 9 ∧ p.type = 8 ∧ pktOf s 0 9 = some p ∧
        (if t = 1 then p.clk0 + t * 65536 ≤ s.clk else t = 0 ∨ s.clk < p.clk0 + t * 65536)) ∧
    (let p := { pk (wwait 0) with started := true }; errs (cpNum (startPkt (busyWord (snode p 7) 0x18000) 0 9) 0 0x60000 8) none = true) ∧
    (let s := startPkt (snode (pnode (wloop ++ [0x62000]) none) 7) 0 9
     (pnode (wloop ++ [0x62000]) none).word 6 ≠ 0 ∧ (cpWrite8 s 0 9 0x62000 0).2 = some true ∧ (cpWrite8 s 0 9 0x80000000 0).2 = some false ∧
       (cpWrite8 (held100 s) 0 9 0x100000 0).2 = none) := by decide +kernel

/-- The same with a word of the old page at PA 0x20010, held at its home, or owned by an L1 that is still registering it. -/
def sword (x : Lvl) (st : L1St) : State :=
  { smove with moves := [mv0], lvl := [(lkey (plHome (homeChip 0x20010)) 0x8004, x)], cores := [(0, { l1 := [(0x8004, ⟨st, 5, false⟩)] })] }
/-- What R65 moves: the values, with the page's own accesses laid aside. -/
def mvals (s : State) : Option (State × List (Nat × Lane)) :=
  moveValues mv0 (moveWords s mv0) (touchReads { s with moves := s.moves.erase mv0, locks := s.locks.filter fun x => !inPage mv0.oldPa mv0.size x.2 }
    ((List.range (mv0.size / 128)).map fun i => mv0.oldPa / 4 + 32 * i))

theorem wit_PacketsRun_HomeMoves :
    (∀ p ∈ [pmove 0x20010 0x4000000050000, pmove 0x20010 0x50000, pmove 0xFFFFFFFFE00000 0x50000],
      onTurn (withPk smove p) 0 9 4 = some p ∧ p.done = false ∧ (withPk smove p).moves = []) ∧
    (inFixed 0xFFFFFFFFFF0000 = true ∧ inFixed 0x20010 = false ∧ bit (rdReg smove (.xltRoot 0)) 0 = true ∧
      isHbm (bits (rdReg smove (.xltRoot 0)) 11 41 * 2048) = true ∧ hostUp smove 0 = true ∧ hostUp (wr smove [(.lnkSts 24, 0)]) 0 = false) ∧
    (∀ x ∈ [(smove, (0x200000000 : Nat)), (busyWord smove 0x200C00, 0x20010), (smove, 0x20010)],
      let w0 := (leafPlace x.1 x.2 4 0x800000).1; hostUp w0 0 = true ∧ hostUp (wr w0 [(.lnkSts 24, 0)]) 0 = false ∧ entryReady w0 0x804010 = true) ∧
    errs (leafPlace smove 0x200000000 4 0x800000).2 (some 5) = true ∧
    errs (leafPlace (busyWord smove 0x200C00) 0x20010 4 0x800000).2 none = true ∧
    gives (leafPlace smove 0x20010 4 0x800000).2 (0x804010, 0x20063, 0) = true ∧
    (gives (leafPlace (wr smove [(.lnkSts 24, 0)]) 0x20010 4 0x800000).2 (0x804010, 0x20063, 0) = true ∧
      gives (leafPlace (busyWord smove 0x201004) 0x20010 4 0x800000).2 (0x804010, 0x20063, 0) = false) ∧
    (entryReady smove 0x804010 = true ∧ entryReady (busyWord smove 0x201004) 0x804010 = false) ∧
    (0x50000 % 0x10000 = 0 ∧ isHostPa 0x50000 = false ∧ isHostPa 0x4000000050000 = true ∧
      leafPaOk smove (setBits (setBits (setBits 0x20063 16 36 (0x4000000050000 / 65536)) 11 2 1) 15 1 0) 0x10000 = true) ∧
    (let s := { smove with moves := [mv0] }
     (s.moves.find? fun x => x.q = 0 && x.pk = 9) = some mv0 ∧ moveFails s mv0 = false ∧ moveFails (wr s [(.lnkSts 24, 0)]) mv0 = true ∧
       moveMeets s mv0 .held = false ∧ moveMeets (wr s ((List.range 16).map fun i => (.hbmSts i, 3))) mv0 .held = true ∧
       entryReady s mv0.leafPa = true ∧ mv0.oldPa % 4 = 0 ∧ mv0.newPa % 4 = 0 ∧ mv0.size % 4 = 0 ∧ mv0.oldPa + mv0.size ≤ mv0.newPa) :=
  ⟨by decide +kernel, by decide +kernel, by decide +kernel, by decide +kernel, by decide +kernel, by decide +kernel, by decide +kernel,
    by decide +kernel⟩

theorem wit_PacketsRun_HomeMoves_Values :
    moveWords (sword (.held 5 false) .v) mv0 = [4] ∧
    ((mvals (sword (.held 5 false) .v)).map fun x => (moveWrite x.1 mv0 x.2).isSome) = some true ∧
    ((mvals { sword (.held 5 false) .v with moves := [mv0, { mv0 with pk := 8, oldPa := mv0.newPa }] }).map fun x => (moveWrite x.1 mv0 x.2).isSome) = some false ∧
    (mvals (sword (.owner 0) (.pend 3 false))).isSome = false ∧ moveFails (sword (.held 5 false) .v) mv0 = false := by decide +kernel

/-- The word is at a place, and which value it has there. -/
def foundIs (r : Found) (x : Lane) : Bool :=
  match r with
  | .val y _ _ => y == x
  | _ => false

theorem wit_PacketsRun_HomeMoves_Copied :
    let m := { mv0 with size := 8, newPa := 0x50000 }
    let s := wb { smove with moves := [m] } [(0x20000, [0x900000007])]
    let src := touchReads { s with moves := s.moves.erase m, locks := s.locks.filter fun x => !inPage m.oldPa m.size x.2 }
      ((List.range (m.size / 128)).map fun i => m.oldPa / 4 + 32 * i)
    let vs := [(0, ⟨7, false⟩), (1, (⟨9, false⟩ : Lane))]
    (src.lvl = [] ∧ src.gw = []) ∧ ((moveValues m (moveWords s m) src).map (·.2)) = some vs ∧
    ((moveValues m (moveWords s m) src).map fun x => decide (x.1 = src)) = some true ∧ (moveWrite src m vs).isSome = true ∧
    (∀ j < 2, let y := m.newPa / 4 + j
      foundIs (homeFind src y) (memWord src y) = true ∧ dropsPa src (4 * y) = false ∧ protectedPa src (4 * y) = false ∧
        hbmRes src (4 * y) = .served ∧ isHostPa (4 * y) = false ∧ foundIs (homeFind src (m.oldPa / 4 + j)) ⟨BitVec.ofNat 32 (7 + 2 * j), false⟩ = true) ∧
    (moveFails s m = false ∧ moveMeets s m .held = false ∧ entryReady s m.leafPa = true ∧ m.oldPa + m.size ≤ m.newPa) := by decide +kernel

/-- The ring at 0x8000 with 16 records held. -/
def sring : State := wr sys [(.evqBase, 0x8000), (.evqCfg, 0x8000000000000004), (.evqWr, 0x15), (.evqRd, 0x5)]

theorem wit_EventsAndForecast :
    (let v : Word := 0x8000000000000004; let s := wr sys [(.evqBase, 0x8000)]
     7 ≤ s.bringup ∧ bit (rdReg s .evqCfg) 63 = false ∧ bit v 63 = true ∧ bit v 62 = false ∧ 4 ≤ bits v 0 4 ∧ 0x8000 % (16 * 2 ^ bits v 0 4) = 0 ∧
       isHbm 0x8000 = true ∧ ¬ 4 ≤ bits (0x8000000000000003 : Word) 0 4) ∧
    (let w (n : Nat) := (0x15 + 2 ^ 32 - n) % 2 ^ 32
     bit (rdReg sring .evqCfg) 63 = true ∧ bit (0 : Word) 63 = false ∧ w 5 ≤ 2 ^ 4 ∧ 2 ^ 4 < w 4 ∧ w 5 = 2 ^ bits (rdReg sring .evqCfg) 0 4 ∧ w 6 ≠ 2 ^ 4) ∧
    (sring.evLeft = 0 ∧ { sring with evLeft := 3 }.evLeft ≠ 0 ∧ isHostPa (0x8000 + 16 * 5) = false ∧ isHbm (0x8000 + 16 * 5) = true ∧
      (isHostPa (0x4000000000000 + 16 * 5) = true ∧ hostUp sring 0 = false)) ∧
    (∀ i < 4, pokeReady sring (0x8050 / 4 + i) = true ∧ pokeReady (busyWord sring (0x8050 / 4 + i)) (0x8050 / 4 + i) = false) ∧
    homeFind sring 0x2014 = .val (memWord sring 0x2014) 0x2000 [] ∧ homeFind sring 0x2015 = .val (memWord sring 0x2015) 0x2000 [] ∧
    homeFind sring 0x2016 = .val (memWord sring 0x2016) 0x2000 [] ∧ homeFind sring 0x2017 = .val (memWord sring 0x2017) 0x2000 [] :=
  ⟨by decide +kernel, by decide +kernel, by decide +kernel, by decide +kernel, rfl, rfl, rfl, rfl⟩

/-- Port 3 in a state. -/
def sport (st fails reps since : Nat) (cfg : Word) : State :=
  { wr sys [(.lnkSts 3, BitVec.ofNat 64 (st * 2 ^ 61)), (.lnkCfg 3, cfg), (.route 2, 8)] with ports := [(3, { fails := fails, replays := [(5, reps)], since := since })] }

theorem wit_LinksAndFlits :
    (∀ st ∈ [0, 1, 2, 3, 4], portState (sport st 2 6 5 0x8000000000000000) 3 = st ∧ bit (rdReg (sport st 2 6 5 0x8000000000000000) (.lnkCfg 3)) 63 = true ∧
      5 + bits (rdReg (sport st 2 6 5 0) .fabCfg) 0 32 * 1024 ≤ (sport st 2 6 5 0).clk ∧ 2 < 3 ∧ 3 ≤ 3 ∧ 6 < 7 ∧ 7 ≤ 7) ∧ 25 < 26 ∧
    bit (rdReg (sport 4 0 0 0 0) (.lnkCfg 3)) 63 = false ∧
    ¬ 99999999 + bits (rdReg (sport 1 2 6 99999999 0) .fabCfg) 0 32 * 1024 ≤ (sport 1 2 6 99999999 0).clk ∧ 7 ≤ sys.bringup ∧ { sys with bringup := 3 }.bringup < 4 ∧
    (bit (0x8000000000000000 : Word) 62 = false ∧ bit (0x4000000000000000 : Word) 62 = true) ∧
    (∀ r ∈ [6, 7], mget 0 (mget {} (sport 2 0 r 0 0).ports 3).replays 5 = r) ∧ (4 ≠ 5) ∧
    ((6 : BitVec 4).toNat < 7 ∧ 7 ≤ (7 : BitVec 4).toNat ∧ routeOf (sport 2 0 0 5 0) 2 ≠ .down ∧ routeOf (sport 4 0 0 5 0) 2 = .down) := by
  decide +kernel

/-- Module 0 of a pod of four, with a group record of members 0, 1, 2 in the fixed window and three words at 0x60000; a collective of queue 0. -/
def scoll : State := wb (wr sys [(.route 1, 8), (.route 2, 8), (.lnkSts 3, 0x4000000000000000)])
  [(fixedPa + 8, [4]), (fixedPa + 0x2000, [0x7700000003, 0x020100]), (0x60000, [0x200000001, 3])]
def wcoll (ty : Nat) : List Word := [BitVec.ofNat 64 (ty * 256 + 1), 0x60000, 0x61000, 3, 0xFFFFFFFFFF2000, 0x5F60000000A, 0x68000]
def coll0 (ty : Nat) : Coll :=
  { typ := ty, gid := 0x77, sq := 10, n := 3, rank := 0, memb := [0, 1, 2], h := 5, src := 0x60000,
    dst := 0x61000, stage := 0x68000, count := 3, op := 3, root := 0, sparse := false }
def pcoll (ty : Nat) (c : Option Coll) (out : BitVec 7) : Pkt := { pk (wcoll ty) with coll := c, started := c.isSome, out := out }
def swith (ty : Nat) (c : Coll) : State := withPk scoll (pcoll ty (some c) 0)
/-- A move of the pages from 0x60000 on is under way. -/
def held60 (s : State) : State := { s with moves := [{ q := 1, pk := 1, ctx := 0, va := 0x60000, oldPa := 0x60000, newPa := 0x300000, size := 0x10000, leafPa := 0, leaf := 0 }] }

theorem wit_CollectivesBegin_Open :
    (∀ ty ∈ [0x10, 0x11, 0x12, 0x13, 0x14, 0x15], let p := pcoll ty none 0; let s := withPk scoll p
      p.id = 9 ∧ pktOf s 0 9 = some p ∧ p.done = false ∧ onTurn s 0 9 ty = some p ∧ p.coll = none ∧ s.aborts = [] ∧ s.early = []) ∧
    (∀ ty ∈ [0x10, 0x11, 0x12, 0x13, 0x14, 0x15], let c := coll0 ty; let p := pcoll ty (some c) 0; let s := withPk scoll p
      onTurn s 0 9 ty = some p ∧ p.coll = some c ∧ c.announced = false ∧ c.sigs = [] ∧ c.others ≠ [] ∧ c.shaken = false ∧ s.peerOut = []) ∧
    ({ id := 4, pod := 2, body := .words [], src := .cp 0 9, queue := 0 } : PeerOut).queue = 0 ∧
    (∀ ty ∈ [0x10, 0x14], let c := { coll0 ty with sigs := [(1, 6)] }; c.announced = false ∧ c.mismatch = some 1 ∧ (coll0 ty).mismatch = none) ∧
    (let s := { scoll with aborts := [(2, 0x77, 10)] }
     s.aborts.find? (fun e => e.2.1 = (coll0 0x10).gid && e.2.2 = (coll0 0x10).sq) = some (2, 0x77, 10)) := by decide +kernel

theorem wit_CollectivesBegin_Record :
    (∃ c, readColl (withPk scoll (pcoll 0x10 none 0)) 0 (pcoll 0x10 none 0) = .ok c) ∧
    (let p := { pcoll 0x10 none 0 with words := (wcoll 0x10).set 4 0x64000 }; readColl (busyWord (withPk scoll p) (0x64000 / 4)) 0 p = .error none) ∧
    (∃ r, readColl (withPk State.reset (pcoll 0x10 none 0)) 0 (pcoll 0x10 none 0) = .error (some r)) :=
  ⟨⟨{ coll0 0x10 with op := 0, h := collHash 3 0x10 0 0 0 0x77 3 10 }, ok_of_gives (by decide +kernel)⟩, error_of_errs (by decide +kernel),
    ⟨1, error_of_errs (by decide +kernel)⟩⟩

theorem wit_CollectivesBegin_Signatures :
    findColl scoll 0x77 10 = none ∧ scoll.early.length < 64 ∧ 64 ≤ { scoll with early := List.replicate 64 (1, 0, 0, 0) }.early.length ∧ 5 ∉ (coll0 0x10).memb ∧
    (∀ a ∈ [false, true], let c := { coll0 0x10 with announced := a, sigs := if a then [(2, 5)] else [] }; let s := swith 0x10 c
      findColl s 0x77 10 = some (0, 9, c) ∧ pktOf s 0 9 = some (pcoll 0x10 (some c) 0) ∧ 1 ∈ c.memb ∧ (∀ x ∈ c.sigs, x.2 = c.h) ∧
        (5 : Word) = c.h ∧ (6 : Word) ≠ c.h ∧ c.announced = a ∧ 2 ∈ c.others) ∧
    (63 < 64 ∧ 0xFFFFFFFF < 2 ^ 32 ∧ bit (rdReg scoll .collErr) 63 = false) := by decide +kernel

theorem wit_CollectivesBegin_Barriers :
    (∀ ty ∈ [0x14, 0x15], let c := { coll0 ty with announced := true, shaken := true }; let s := swith ty c
      onTurn s 0 9 ty = some (pcoll ty (some c) 0) ∧ c.announced = true ∧ c.shaken = true ∧ (pcoll ty (some c) 0).out = 0 ∧ 0x14 ≤ c.typ) ∧
    (let c := coll0 0x10; let p := pcoll 0x10 (some c) 0; let tmo := bits (p.word 5) 32 32
     pktOf (swith 0x10 c) 0 9 = some p ∧ tmo ≠ 0 ∧ p.clk0 + 1525 * 65536 ≤ (swith 0x10 c).clk ∧ (swith 0x10 c).clk < p.clk0 + tmo * 65536 ∧ c.shaken = false) ∧
    (let c := { coll0 0x12 with shaken := true }; c.typ = 0x12 ∧ c.typ < 0x14 ∧ ∃ i < c.n, c.has 0 i = false) ∧
    (let c := { coll0 0x10 with shaken := true, root := 1 }; c.typ = 0x10 ∧ c.rank ≠ c.root ∧ c.has 1 0 = false ∧ { c with got := [(1, 0, [])] }.has 1 0 = true) ∧
    (let c := { coll0 0x11 with shaken := true }; ∃ i < c.n, c.has 1 i = false) ∧
    (let p := { pcoll 0x10 (some { coll0 0x10 with shaken := true }) 0 with clk0 := 0 }; bits (p.word 5) 32 32 ≠ 0 ∧
      p.clk0 + bits (p.word 5) 32 32 * 65536 ≤ ({ scoll with clk := 200000000 } : State).clk) := by
  decide +kernel

theorem wit_CollectivesBegin_Payloads :
    let c := { coll0 0x10 with announced := true, shaken := true }
    let x : CollPayload := { src := 1, id := 5, gid := 0x77, sq := 10, stage := false, off := 1, data := [(7, false)] }
    findColl (swith 0x10 (coll0 0x10)) x.gid x.sq = some (0, 9, coll0 0x10) ∧ findColl (swith 0x10 c) x.gid x.sq = some (0, 9, c) ∧ c.sparse = false ∧
    (collWrite (swith 0x10 c) 0 9 (at4 (c.dst + 4 * x.off * c.chunk) x.data)).map (·.2) = some true ∧
    (collWrite (swith 0x10 c) 0 9 (at4 (c.stage + 4 * 1 * c.chunk) x.data)).map (·.2) = some true ∧ findColl scoll x.gid x.sq = none ∧ scoll.early = [] ∧
    { c with sparse := true }.sparse = true ∧
    (let s := busyWord (swith 0x10 c) 0x200800
     peerBehind s (.collectivePayload x) = false ∧ (mustHold s (.collectivePayload { x with word := payloadWord s x }) ||
       heldBefore s (.collectivePayload { x with word := payloadWord s x })) = false ∧
     (collWrite s 0 9 (at4 (c.dst + 4 * x.off * c.chunk) x.data)).isNone = true) ∧
    (let s := held60 (swith 0x10 c); payloadWord s x = some ((0x61000 + 12) / 4) ∧ peerBehind s (.collectivePayload x) = false ∧
      mustHold s (.collectivePayload { x with word := payloadWord s x }) = true) ∧
    (let u := swith 0x10 c; let s := { u with held := [.collectivePayload { x with word := payloadWord u x }] }
     heldBefore s (.collectivePayload { x with word := payloadWord s x }) = true ∧ peerBehind s (.collectivePayload x) = false) ∧
    (peerBehind { swith 0x10 c with net := [.peerWriteArrival { pod := 1, id := 4, body := .words [] }] } (.collectivePayload x) = true) ∧
    (∀ s ∈ [swith 0x10 (coll0 0x10), swith 0x10 c, swith 0x10 { c with dst := 0x80000000 }, swith 0x10 { c with sparse := true }, scoll,
        ({ scoll with early := [(1, 0x77, 10, 5)] } : State)],
      peerBehind s (.collectivePayload x) = false ∧ (mustHold s (.collectivePayload { x with word := payloadWord s x }) ||
        heldBefore s (.collectivePayload { x with word := payloadWord s x })) = false) ∧
    (collWrite (swith 0x10 { c with dst := 0x80000000 }) 0 9 (at4 (0x80000000 + 4 * x.off * c.chunk) x.data)).map (·.2) = some false ∧
    (∃ e ∈ ({ scoll with early := [(1, 0x77, 10, 5)] } : State).early, e.2.1 = x.gid ∧ e.2.2.1 = x.sq) := by
  decide +kernel

/-- The values of the words at 0x60000. -/
def data0 : List (W32 × Bool) := [(1, false), (2, false), (3, false)]
/-- A ready collective in a phase of its chain. -/
def cready (ty step sent : Nat) (got : List (Nat × Nat × List (W32 × Bool))) : Coll :=
  { coll0 ty with announced := true, shaken := true, step := step, sent := sent, got := got }

theorem wit_CollectivesFoldAndOrderedReductions_Copies :
    (let s := swith 0x10 (cready 0x10 0 0 []); gives (collRead s 0 0x60000 3) data0 = true ∧
      (collWrite s 0 9 (at4 0x61000 data0)).map (·.2) = some true ∧ (0 + 3 - (cready 0x10 0 0 []).root) % 3 = 0) ∧
    (let s := swith 0x10 (cready 0x10 1 0 []); gives (collRead s 0 0x61000 3) [(0, false), (0, false), (0, false)] = true ∧
      sendsDone s 0 9 = true ∧ (0 + 3 - 2) % 3 ≠ 0) ∧
    (let c := cready 0x10 1 0 []; let v := (c.rank + c.n - c.root) % c.n
     v = 0 ∧ (((List.range 6).map fun t => 2 ^ t).filter fun d => v < d && v + d < c.n) ≠ []) ∧
    (let c := { cready 0x10 1 0 [] with root := 1 }; let v := (c.rank + c.n - c.root) % c.n
     v = 2 ∧ (((List.range 6).map fun t => 2 ^ t).filter fun d => v < d && v + d < c.n) = []) ∧
    (let c := { cready 0x10 1 0 [(1, 0, [])] with n := 4, root := 3, memb := [0, 1, 2, 3] }; let v := (c.rank + c.n - c.root) % c.n
     v ≠ 0 ∧ (((List.range 6).map fun t => 2 ^ t).filter fun d => v < d && v + d < c.n) ≠ [] ∧
       gives (collRead (swith 0x10 c) 0 c.dst 3) [(0, false), (0, false), (0, false)] = true) ∧
    (let c := cready 0x11 2 0 [(1, 0, [])]; c.sent + 1 < c.n ∧ c.has 1 ((c.rank + c.n - c.sent) % c.n) = true) ∧
    (let c := cready 0x11 2 0 []; c.has 1 ((c.rank + c.n - c.sent) % c.n) = false) ∧
    (let c := cready 0x11 2 2 [(1, 0, []), (1, 1, []), (1, 2, [])]; c.n ≤ c.sent + 1 ∧ (∀ i < c.n, c.has 1 i = true) ∧
      sendsDone (swith 0x11 c) 0 9 = true) ∧
    (let c := cready 0x11 2 0 [(1, 0, [])]; gives (collRead (swith 0x11 c) 0 (c.dst + 4 * 0 * c.chunk) (c.chunkLen 0)) [(0, false), (0, false), (0, false)] = true) ∧
    (∀ ty ∈ [0x10, 0x11, 0x12, 0x13], ∀ st ∈ [0, 1, 2], onTurn (swith ty (cready ty st 0 [])) 0 9 ty = some (pcoll ty (some (cready ty st 0 [])) 0)) := by
  decide +kernel

theorem wit_CollectivesFoldAndOrderedReductions_Folds :
    (let c := cready 0x13 0 0 []; let s := swith 0x13 c
     gives (collReads s 0 ((List.range c.n).map fun j => (c.src + 4 * j * c.chunk, c.chunkLen j))) [[(1, false)], [(2, false)], [(3, false)]] = true ∧
     (collWrite s 0 9 (at4 (c.stage + 4 * c.rank * c.chunk) [(1, false)])).map (·.2) = some true) ∧
    (let c := cready 0x13 1 0 [(0, 0, []), (0, 2, []), (0, 1, [])]; let s := swith 0x13 c
     (∀ i < c.n, c.has 0 i = true) ∧ sendsDone s 0 9 = true ∧
     gives (collReads s 0 (c.order.map fun r => (c.stage + 4 * r * c.chunk, c.chunkLen c.rank))) [[(0, false)], [(0, false)], [(0, false)]] = true ∧
     (collWrite s 0 9 (at4 c.dst (foldWords 3 [[(0, false)], [(0, false)], [(0, false)]]))).map (·.2) = some true) ∧
    (∀ y ∈ [[((2 : W32), false)]], y.length = [((1 : W32), true)].length) ∧ (1, false).2 = false := by decide +kernel

/-- A sparse all-reduce: two pairs, in order or not. -/
theorem wit_CollectivesFoldAndOrderedReductions_Sparse :
    (let c := { cready 0x13 0 0 [] with sparse := true, src := 0x62000 }
     let s (a b : Nat) := wb (swith 0x13 c) [(0x62000, [2, a, b])]
     let ws (a b : Nat) : List (W32 × Bool) := [(0, false), (BitVec.ofNat 32 a, false), (0, false), (BitVec.ofNat 32 b, false)]
     gives (cpNum (s 1 2) 0 c.src 4) 2 = true ∧
     (∀ e ∈ [(0, 2, true), (2, 0, false), (0, 3, true)], okIs (collRead (s e.1 e.2.1) 0 (c.src + 8) 4) (fun w => rising (sparsePairs w) = e.2.2) = true) ∧
     (∀ e ∈ sparsePairs (ws 0 2), e.1 < c.count ∨ c.count ≤ e.1)) ∧
    (let c := { cready 0x13 1 0 [(0, 0, []), (0, 1, []), (0, 2, [])] with sparse := true }; (∀ i < c.n, c.has 0 i = true) ∧ sendsDone (swith 0x13 c) 0 9 = true) ∧
    (let c := { cready 0x13 2 0 [(1, 0, [])] with sparse := true }; c.sent + 1 < c.n ∧ c.has 1 ((c.rank + c.n - c.sent) % c.n) = true) ∧
    (let c := { cready 0x13 2 2 [(1, 0, []), (1, 1, []), (1, 2, [])] with sparse := true }
     c.n ≤ c.sent + 1 ∧ (∀ i < c.n, c.has 1 i = true) ∧ sendsDone (swith 0x13 c) 0 9 = true ∧
       (collWrite (swith 0x13 c) 0 9 []).map (·.2) = some true ∧ onTurn (swith 0x13 c) 0 9 0x13 = some (pcoll 0x13 (some c) 0)) := by decide +kernel

/-- A contribution of rank r to a key of two. -/
def con (r : Nat) : OrdContrib := { key := 0x5000, tag := 3, rank := r, ncon := 3, words := [0x1400], data := [(5, false)], rm := 0, ftz := false, src := .cmd 0 1 3 }
def key0 (next : Nat) (h : List OrdContrib) : OrdKey := { chip := 0, key := 0x5000, tag := 3, next := next, ncon := 3, held := h }
def skey (next : Nat) (h : List OrdContrib) : State := { sys with ordKeys := [key0 next h] }

/-- A move of the page at 0x5000 is under way. -/
def held5000 (s : State) : State := { s with moves := [{ q := 1, pk := 1, ctx := 0, va := 0, oldPa := 0, newPa := 0x300000, size := 0x10000, leafPa := 0, leaf := 0 }] }
/-- The same of the page at 0x30000, and a contribution whose second word lies there. -/
def held30 (s : State) : State := { s with moves := [{ q := 1, pk := 1, ctx := 0, va := 0, oldPa := 0x30000, newPa := 0x300000, size := 0x10000, leafPa := 0, leaf := 0 }] }
def con2 (r : Nat) : OrdContrib := { con r with words := [0x1400, 0xC000], data := [(5, false), (6, false)] }
def free (s : State) (o : OrdContrib) : Bool :=
  !peerBehind s (.orderedContribution o) && !mustHold s (.orderedContribution o) && !heldBefore s (.orderedContribution o)
theorem wit_CollectivesFoldAndOrderedReductions_Ordered :
    (let mine (x : OrdKey) : Bool := x.chip = 0 && x.key = 0x5000 && x.tag = 3
     isHostPa 0x5000 = false ∧ homeChip 0x5000 = 0 ∧ ((skey 0 []).ordKeys.find? mine) = some (key0 0 []) ∧ (sys.ordKeys.find? mine) = none ∧
     (sys.ordKeys.filter fun x => x.chip = 0).length < 1024 ∧
     ((List.replicate 1024 { key0 0 [] with key := 0x6000 }).find? mine) = none ∧
     1024 ≤ ((List.replicate 1024 { key0 0 [] with key := 0x6000 }).filter fun x => x.chip = 0).length) ∧
    ((con 0).ncon = (key0 0 []).ncon ∧ (key0 0 []).next ≤ (con 0).rank ∧ (∀ h ∈ (key0 0 [con 1]).held, h.rank ≠ (con 0).rank) ∧
      (con 0).rank = (key0 0 []).next ∧ (combineAll (skey 0 []) 1 (con 0) (con 0).src (List.zip (con 0).words (con 0).data)).isSome = true ∧
      (key0 2 []).ncon ≤ 2 + 1 ∧ 0 + 1 < (key0 0 []).ncon ∧ con 1 ∈ (key0 0 [con 1]).held ∧ (con 1).rank = 0 + 1) ∧
    ((con 2).rank ≠ (key0 0 []).next ∧ heldBytes (skey 0 []) 0 + 4 * (con 2).data.length ≤ 4 * 2 ^ 20 ∧
      4 * 2 ^ 20 < heldBytes (skey 0 []) 0 + 4 * (2 ^ 20 + 1)) ∧
    ¬ (key0 1 []).next ≤ (con 0).rank ∧ (con 0).src = .cmd 0 1 3 ∧ (0 + 4096 ≤ 4096 ∧ 4095 < 0 + 4096) ∧
    (let o := { con 0 with src := .peer 1 5 }
     peerBehind { sys with net := [.orderedContribution { con 1 with src := .peer 1 4 }] } (.orderedContribution o) = true ∧
       peerBehind sys (.orderedContribution o) = false) ∧
    (peerBehind sys (.orderedContribution (con 0)) = false ∧ (con 0).variant = 1 ∧ { con 0 with variant := 0 }.variant ≠ 1 ∧
      intakeOf sys 0x5000 = none ∧ isPeerPa (con 0).key = false) ∧
    (let hw (x : Nat × W32 × Bool) : HomeWr := ⟨x.1, 15, x.2.1, x.2.2, .combine 0 0 false, (con 0).src⟩
     let l := (List.zip (con2 0).words (con2 0).data).map hw
     (performAll l false sys).2.1 = [] ∧ (performAll l false (held30 sys)).2.1 ≠ [] ∧ free sys (con2 0) = true ∧ free (held30 sys) (con2 0) = true) ∧
    (∀ h ∈ [[], [con2 0]], let s := held30 (skey 0 h)
     free s (con2 0) = true ∧ (combineAll s 1 (con2 0) (con2 0).src (List.zip (con2 0).words (con2 0).data)).isNone = true ∧ (con2 0).rank = 0 ∧
       (h = [] ∨ con2 0 ∈ (key0 0 h).held) ∧ intakeOf s (con2 0).key = none) ∧
    (∀ s ∈ [skey 0 [], skey 0 [con 1], skey 2 [], skey 1 [], sys, { sys with ordKeys := List.replicate 3 (key0 0 []) }],
      ∀ r ∈ [0, 1, 2], free s (con r) = true) ∧
    (mustHold (held5000 sys) (.orderedContribution (con 0)) = true ∧ peerBehind (held5000 sys) (.orderedContribution (con 0)) = false) ∧
    (heldBefore { sys with held := [.orderedContribution (con 1)] } (.orderedContribution (con 0)) = true) ∧
    (con 0 ∈ (key0 0 [con 0]).held ∧ (con 0).rank = (key0 0 [con 0]).next) := by decide +kernel

/-- Engine 0 on, with a block of 64 elements and an intake at PA 0x10000, whose halves hold some ranks. -/
def blk0 (g : List Nat) : PeBlk := { nelem := 64, ncon := 2, valid := true, step := 6, got0 := g }
def spe (g : List Nat) : State := { wr (gs true 2 {}) [(.peCfg 0, 0x8000000100000000), (.peIntk 0, 0x10001)] with pes := [(0, { blocks := [(0, blk0 g)] })] }
def pcon (r tag : Nat) : OrdContrib := { key := 0x10000, tag := BitVec.ofNat 16 tag, rank := r, ncon := 2, data := List.replicate 64 (1, false), words := [], rm := 0, ftz := false, src := .none }

/-- A write of v to PE_CFG of engine 0 has begun: its fields stand, and what it reads is asked for. -/
def peBegun (s : State) (v : Word) : State :=
  wrReg s (.peCfg 0) (setBits (setBits (setBits (setBits (setBits (rdReg s (.peCfg 0)) 60 2 (bits v 60 2)) 59 1 (bits v 59 1)) 32 16 (bits v 32 16))
    52 4 (bits v 52 4)) 0 32 (bits v 0 32))
def peAsked (s : State) (v : Word) : State :=
  let bt := rdReg s (.peBtab 0)
  cpAsk (peBegun s v) (bits v 52 4) (wordVas (bits (rdReg s (.peRule 0)) 0 56) 2048 ++ wordVas (bits bt 0 50 * 64) (64 * bits bt 51 13))
/-- With no registration, host line or read that waits for an owner, reads ask for nothing. -/
theorem cpAsk_id {s : State} (h : (s.lvl = [] ∧ s.gw = []) ∧ s.ownReq = []) (c : Nat) (vas : List Nat) : cpAsk s c vas = s := by
  have h1 : ∀ w, ownAsk s w = s := by
    intro w
    unfold ownAsk
    split
    · rfl
    · have : ∃ x p l, homeFind s w = .val x p l := by
        unfold homeFind
        split
        · exact ⟨_, _, _, rfl⟩
        · have : ∀ p, lvlAt s p w = none := fun p => by unfold lvlAt; rw [h.1.1]; rfl
          simp [this]
      obtain ⟨x, p, l, e⟩ := this
      rw [e]
      have hd : mdel s.ownReq w = s.ownReq := by rw [h.2]; rfl
      simp only [hd]
  have hf : ∀ l : List Nat, l.foldl ownAsk s = s := by
    intro l
    induction l with
    | nil => rfl
    | cons w l ih => rw [List.foldl_cons, h1 w, ih]
  exact hf _

/-- Engine 0 with a rule at 0x2000, an intake at 0x10000 and a table of one block at 0x3080; a lane group of a channel may be under repair. -/
def sctl (rule : Nat) (g : FMap LaneGrp) : State :=
  { wr (wb sys [(0x2000, [rule])]) [(.peRule 0, 0x2000), (.peIntk 0, 0x10001), (.peBtab 0, 0x80000000000C2)] with grps := g }
def ven : Word := 0x8000000000000006
theorem peAsked_sctl (rule : Nat) (g : FMap LaneGrp) : peAsked (sctl rule g) ven = peBegun (sctl rule g) ven :=
  cpAsk_id ⟨⟨rfl, rfl⟩, rfl⟩ _ _

theorem wit_ParameterEngines_Control :
    (let s := sctl 0x2000 []
     7 ≤ s.bringup ∧ 15 < 16 ∧ bit (rdReg s (.peCfg 0)) 63 = false ∧ bit ven 63 = true ∧ bit ven 62 = false ∧ bits (rdReg s (.peRule 0)) 0 56 = 0x2000 ∧
      bits (rdReg s (.peBtab 0)) 0 50 * 64 = 0x3080 ∧ bits (rdReg s (.peBtab 0)) 51 13 = 1 ∧ bits ven 52 4 = 0 ∧ bits ven 0 32 = 6) ∧
    errs (loadRule (peAsked (sctl 0x00101 []) ven) 0 0x2000) (some 5) = true ∧
    errs (loadRule (peAsked (sctl 0x2000 [(0, { st := .pending })]) ven) 0 0x2000) none = true ∧
    (let s := peAsked (sctl 0x2000 [(2, { st := .pending })]) ven; errs (readBlocks s 0 0 6 0x3080 (List.range 1)) none = true ∧
      gives (loadRule s 0 0x2000) [0x00, 0x20] = true ∧ intakeOk s 0 = true) ∧
    (∀ x ∈ [0x2000, 0x00101], noLoss (peBegun (sctl x []) ven)) ∧
    (bit (rdReg (spe []) (.peCfg 0)) 63 = true ∧ bit (0 : Word) 63 = false ∧ (mget {} (spe []).pes 0).pushes = []) ∧
    (let h : Nat × OrdContrib := (0, { pcon 1 6 with src := .peer 2 7 }); ∃ pod n, h.2.src = .peer pod n) := by
  simp only [peAsked_sctl]
  exact ⟨by decide +kernel, by decide +kernel, by decide +kernel, by decide +kernel,
    fun x hx => noLoss_of (by revert x hx; decide +kernel), by decide +kernel, ⟨2, 7, rfl⟩⟩

theorem wit_ParameterEngines_Enable :
    (let s := peAsked (sctl 0x2000 []) ven
     gives (loadRule s 0 0x2000) [0x00, 0x20] = true ∧ intakeOk s 0 = true ∧
       gives (readBlocks s 0 0 6 0x3080 (List.range 1)) [(0, { step := 6, saved := 6 })] = true) ∧
    (let s := peBegun (wr (sctl 0x2000 []) [(.peIntk 0, 0xC000000001)]) ven
     cpAsk s 0 (wordVas 0x2000 2048 ++ wordVas 0x3080 64) = s ∧ intakeOk s 0 = false ∧ gives (loadRule s 0 0x2000) [0x00, 0x20] = true) := by
  simp only [peAsked_sctl]
  exact ⟨by decide +kernel, cpAsk_id (by decide +kernel) _ _, by decide +kernel, by decide +kernel⟩

theorem wit_ParameterEngines_Contributions :
    (∀ g ∈ [[], [1]], intakeAt (mget {} (spe g).pes 0) ((pcon 0 6).key - (intakeWin (spe g) 0).1) = some (0, blk0 g, 0) ∧ (blk0 g).valid = true ∧
      0 = (pcon 0 6).tag.toNat % 2 ∧ (pcon 0 6).data.length = (blk0 g).nelem ∧ (pcon 0 6).ncon = (blk0 g).ncon ∧ pgState (spe g) = 2) ∧
    ((6 + 2 ^ 16 - 6 % 2 ^ 16) % 2 ^ 16 = 0 ∧ (5 + 2 ^ 16 - 6 % 2 ^ 16) % 2 ^ 16 = 0xFFFF ∧ (8 + 2 ^ 16 - 6 % 2 ^ 16) % 2 ^ 16 = 2) ∧
    (pcon 0 6).rank ∉ (blk0 [1]).got 0 ∧ (pcon 1 6).rank ∈ (blk0 [1]).got 0 ∧ (blk0 []).held = [] ∧
    intakeAt (mget {} (spe []).pes 0) 4 = none ∧ (pcon 0 6).data.length ≠ 63 ∧
    (let x := blk0 []; let o := pcon 0 6
     let words := o.data.mapIdx fun i y => (((intakeWin (spe []) 0).1 + x.intoff + 4 * 0 * x.nelem) / 4 + i, y)
     let s1 := setBlock (spe []) 0 0 { x.setGot 0 (x.got 0 ++ [o.rank]) with since := (spe []).clk, held := [(0, o)] }
     (combineAll (spe []) 0 o .none words).isSome = true ∧ o.rank = 0 ∧ (pcon 1 6).rank ≠ 0 ∧
       heldBytes s1 (0 / 2) ≤ 4 * 2 ^ 20 ∧ (combineAll s1 1 o .none words).map (fun r => decide (r.1.pes = s1.pes)) = some true ∧
       (let hold (s : State) : State := { s with moves := [{ q := 1, pk := 1, ctx := 0, va := 0, oldPa := (intakeWin (spe []) 0).1, newPa := 0x300000, size := 0x10000, leafPa := 0, leaf := 0 }] }
        (combineAll (hold s1) 1 o .none words).isNone = true)) := by decide +kernel

/-- A block so large that one contribution held fills the room for them. -/
def bigx : PeBlk := { nelem := 2 ^ 20 + 1, ncon := 2, valid := true, step := 6 }
def bigo (l : List (W32 × Bool)) : OrdContrib := { pcon 1 6 with data := l }
def sbig : State := { spe [] with pes := [(0, { blocks := [(0, bigx)] })] }
theorem heldBytes_sbig (l : List (W32 × Bool)) :
    heldBytes (setBlock sbig 0 0 { bigx.setGot 0 [1] with since := sbig.clk, held := [(0, bigo l)] }) 0 = 4 * l.length := by
  have h : sbig.ordKeys = [] := by decide +kernel
  have e : ∀ x, (setBlock sbig 0 0 x).ordKeys = [] ∧ (setBlock sbig 0 0 x).pes = [(0, { blocks := [(0, x)] })] := fun x => ⟨h, rfl⟩
  unfold heldBytes
  rw [(e _).1, (e _).2]
  simp [bigo]
theorem wit_ParameterEngines_Contributions_NoRoom :
    (∀ l, intakeAt (mget {} sbig.pes 0) ((bigo l).key - (intakeWin sbig 0).1) = some (0, bigx, 0) ∧ (bigo l).rank = 1) ∧
    ∃ l, (bigo l).data.length = bigx.nelem ∧
      4 * 2 ^ 20 < heldBytes (setBlock sbig 0 0 { bigx.setGot 0 [1] with since := sbig.clk, held := [(0, bigo l)] }) 0 := by
  refine ⟨fun l => ⟨?_, rfl⟩, List.replicate (2 ^ 20 + 1) (1, false), ?_, ?_⟩
  · show intakeAt (mget {} sbig.pes 0) ((pcon 1 6).key - (intakeWin sbig 0).1) = _
    decide +kernel
  · exact List.length_replicate
  · rw [heldBytes_sbig, List.length_replicate]; decide

theorem wit_ParameterEngines_Timeout :
    (let x := peBlock (spe [1]) 0 0; let tmo := bits (rdReg (spe [1]) (.peCfg 0)) 32 16 * 65536
     tmo ≠ 0 ∧ x.valid = true ∧ x.got (x.step % 2) ≠ [] ∧ (x.got (x.step % 2)).length < x.ncon ∧ x.since + tmo ≤ (spe [1]).clk ∧
       (spe [1]).clk < 99999999 + tmo) ∧ (peBlock (spe []) 0 0).got 0 = [] ∧ (peBlock (spe [0, 1]) 0 0).ncon ≤ ((peBlock (spe [0, 1]) 0 0).got 0).length := by
  decide +kernel

/-- Engine 0 on in a state of the group, with the rule of one empty STOP bundle, and a block of two elements whose step 6 has both contributions. -/
def sstep (st : Nat) : State :=
  { wr sys [(.pgSts, BitVec.ofNat 64 (st * 2 ^ 60)), (.peCfg 0, 0x8000000000000000), (.peIntk 0, 0x10001)] with
    pes := [(0, { rule := [0x00, 0x20],
                  blocks := [(0, { blk0 [0, 1] with nelem := 2, master := 0x60000, mom := 0x61000, hyp := 0x62000 })] })] }
/-- The state in which its step is applied, with what it reads behind it, and what its rule writes. -/
def peFolded (st : Nat) : State := foldTurns (sendPushes (sstep st) 0) 0 0
def peSeen (s : State) : State :=
  let x := peBlock s 0 0
  let w0 := ((intakeWin s 0).1 + x.intoff + 4 * (x.step % 2) * x.nelem) / 4
  let grads := (List.range x.nelem).map fun i => w0 + i
  cpTouch (grads.foldl ownAsk (touchReads s grads)) (bits (rdReg s (.peCfg 0)) 52 4)
    (vaWords x.master x.nelem ++ vaWords x.mom (2 * x.nelem) ++ vaWords x.hyp 8)
def peOut (s : State) (i : PeIn) : List (Nat × Lane) :=
  let out := ((chunksOf 16 i.es).mapIdx fun k es =>
    ruleRun (ruleBundles (mget {} s.pes 0).rule) 0 false (16 * k) (peBlock s 0 0).step i.hyp es).flatMap (·.1)
  List.zip i.dst (out.map (·.a) ++ out.map (·.b) ++ out.map (·.c))

/-- The same with masters in the protected area, the first of which cannot be read: its write ends the round. -/
def sprot : State :=
  let s := { wr sys (memb ++ area ++ [(.pgCfg, gcfg true), (.pgSts, 0x2000000000000000), (.peCfg 0, 0x8000000000000000), (.peIntk 0, 0x10001)]) with
    bad := [(0x400000, true)]
    pes := [(0, { rule := [0x00, 0x20],
                  blocks := [(0, { blk0 [0, 1] with nelem := 2, master := 0x1000000, mom := 0x1001000, hyp := 0x62000 })] })] }
  foldTurns (sendPushes s 0) 0 0

theorem wit_ParameterEngines_Steps_Ended :
    (let x := peBlock sprot 0 0
     bit (rdReg sprot (.peCfg 0)) 63 = true ∧ x.valid = true ∧ x.full (x.step % 2) = true ∧ pgState sprot = 2 ∧ peWriting sprot 0 = false) ∧
    okIs (stepInputs sprot 0 (peBlock sprot 0 0)) (fun i => pgState (pePut (peSeen sprot) 0 (peOut sprot i)) = 6) = true := by decide +kernel

theorem wit_ParameterEngines_Steps :
    (∀ st ∈ [2, 3], let s := foldTurns (sendPushes (sstep st) 0) 0 0; let x := peBlock s 0 0
     bit (rdReg s (.peCfg 0)) 63 = true ∧ x.valid = true ∧ x.full (x.step % 2) = true ∧ pgState s = st ∧ peWriting s 0 = false) ∧
    okIs (stepInputs (peFolded 2) 0 (peBlock (peFolded 2) 0 0)) (fun i => i.parts.isEmpty &&
      (let seen := peSeen (peFolded 2); let ws := peOut (peFolded 2) i; let u := pePut seen 0 ws
       decide (bit (rdReg seen .evqCfg) 63 = false ∧ (ws.map (·.1)).Nodup ∧ pgState seen = 2 ∧ pgState u = 2 ∧ ws.length = 6) &&
       (List.range 6).all (fun n =>
         let w := (ws.getD n (0, {})).1; let z := (ws.getD n (0, {})).2; let v := pePut seen 0 (ws.take n)
         decide ((hostBack v w) = some v ∧ intakeOf v (4 * w) = none ∧ pgState v = 2) && (match homePerform v ⟨w, 15, z.v, z.p, .write, .pe 0⟩ with
           | .done _ 0 0 => true
           | _ => false)) &&
       (List.range 2).all (fun j =>
         let w := ((intakeWin u 0).1 + (peBlock (peFolded 2) 0 0).intoff + 4 * 0 * 2) / 4 + j
         decide (intakeWin u 0 = intakeWin (peFolded 2) 0 ∧ pokeReady u w = true) && foundIs (homeFind u w) (memWord u w)))) = true ∧
    okIs (stepInputs (busyWord (sstep 2) 0x18000) 0 (peBlock (sstep 2) 0 0)) (fun _ => true) = false ∧
    (∃ y ∈ (peCommit (sstep 2)).pes, y.2.blocks ≠ []) ∧ (mlook (peAbort (sstep 2)).pes 0).isSome = true := by decide +kernel

/-- A push: the range of its entry in the module or at a peer, or denied; two elements to convert. -/
theorem wit_ParameterEngines_Pushes :
    isPeerPa 0x20000 = false ∧ isPeerPa 0x8010000020000 = true ∧ [((7 : Byte), false)] ≠ [] ∧
    (let out : List Lane := [⟨0x3F800000, false⟩, ⟨0x40000000, true⟩]; out[2 * 0]? = some ⟨0x3F800000, false⟩ ∧ out[2 * 0 + 1]? = some ⟨0x40000000, true⟩) := by
  decide +kernel

theorem wit_PowerHeatAndRetirement_Windows :
    (let s : State := { sys with clk := 64 * 5 + 3, winN := 4, lastW := 100 }
     s.clk / 64 - s.winN = 1 ∧ idleCore s = some 0 ∧ (s.cores.map fun c => c.2.esum).sum < s.lastW) ∧
    (let s : State := { sys with clk := 64 * 5 + 3, winN := 5 }; s.clk / 64 - s.winN = 0) ∧
    (let s : State := { sys with clk := 64 * 7, winN := 4 }; s.clk / 64 - s.winN = 3) ∧
    (idleCore (wr sys [(.thmSts, 0x2000000000000000)]) = none) ∧ (0 ≠ 1 ∧ bits (0x1FFFF : Word) 62 2 = 0) := by decide +kernel

theorem wit_PowerHeatAndRetirement_Power :
    127 < 128 ∧ (∀ n ∈ [0, 1, 2, 3], n % 8 = n) ∧ 4 ≤ 7 % 8 ∧ mlook [(3, ({ esum := 9 } : Core))] 3 = some { esum := 9 } := by decide

theorem wit_PowerHeatAndRetirement_Heat :
    thmState sys = 0 ∧ preparing (gs true 3 {}) = true ∧ thmState (gs true 3 {}) = 0 ∧
    (let s := { wr (stsk .running q0) [(.thmSts, 0x1000000000000000)] with emergClk := 1, clk := 48000000 }
     thmState s = 1 ∧ s.emergClk ≠ 0 ∧ s.emergClk - 1 + 43200000 ≤ s.clk ∧ s.emergClk - 1 + 48000000 ≤ s.clk ∧ mlook s.tasks 0 = some (tsk .running) ∧
       (tsk .running).ended = none) ∧ ¬ thmState sys = 1 ∧ thmState (wr sys [(.thmSts, 0x2000000000000000)]) = 2 ∧
    (let s := wr sys [(.thmSts, 0x3000000000000000)]; thmState s = 3 ∧ bit (rdReg s .evqCfg) 63 = false) ∧ 15 < 16 := by decide +kernel

/-- A task of context 0 with an image in the emergency area. -/
def semerg : State := { stsk .preempted q0 with emerg := [⟨0, 4, {}⟩], cores := [] }

theorem wit_PowerHeatAndRetirement_Area :
    (let v : Word := 0x0000100000000000; let s := wr sys [(.ctxCfg 0, 0)]
     bits v 0 20 + bits v 32 20 ≤ 0xC0000 ∧ (∀ x < 16, bit (rdReg s (.ctxCfg x)) 63 = false) ∧ s.emerg = []) ∧
    bit (rdReg sys (.ctxCfg 0)) 63 = true ∧
    (bit (0x8000000000000000 : Word) 63 = true ∧ thmState semerg = 0 ∧ bit (rdReg semerg .thmRes) 62 = false ∧ emergOf semerg 0 ≠ [] ∧
      emergOf sys 0 = [] ∧ bit (rdReg (wr semerg [(.thmRes, 0x4000000000000000)]) .thmRes) 62 = true) := by decide +kernel

theorem wit_PowerHeatAndRetirement_Retirement :
    bit (0x84 : Word) 7 = true ∧ bit (rdReg sys .coreRet) 63 = false ∧
    (let s := wr sys [(.coreRet, 0x8000000000000004)]
     bit (rdReg s .coreRet) 63 = true ∧ bits (rdReg s .coreRet) 0 7 = 4 ∧ (Machine.core s 4).task = none ∧ s.saves ++ s.emerg = [] ∧
       (Machine.core s 4).outst = [] ∧ ownedIn (Machine.core s 4) (-1) = [] ∧ 4 ∉ s.retired ∧ chipOf 4 ∉ s.sparesUsed ∧ chipOf 4 ∈ [chipOf 4]) ∧
    (Machine.core (stsk .running q0) 4).task ≠ none := by decide +kernel

/-- The bytes of a number, least significant first, give it back. -/
theorem leNum_leBytes (n v : Nat) : leNum ((List.range n).map fun i => BitVec.ofNat 8 (v / 256 ^ i)) = v % 256 ^ n := by
  induction n generalizing v with
  | zero => simp [leNum, Nat.mod_one]
  | succ n ih =>
    have h : (List.range (n + 1)).map (fun i => BitVec.ofNat 8 (v / 256 ^ i)) =
        BitVec.ofNat 8 v :: (List.range n).map fun i => BitVec.ofNat 8 (v / 256 / 256 ^ i) := by
      rw [List.range_succ_eq_map, List.map_cons, List.map_map]
      simp [Function.comp_def, Nat.pow_succ, Nat.div_div_eq_div_mul, Nat.mul_comm]
    rw [h, leNum, List.foldr_cons, ← leNum, ih]
    rw [Nat.pow_succ', Nat.mod_mul, BitVec.toNat_ofNat]

/-- The bytes of a firmware record with an image, its digest and a signature (R412, log entry 4). -/
def fwBytes (img : List Byte) (sig : BitVec 1056) : List Byte :=
  img ++ ((List.range 64).map fun i => BitVec.ofNat 8 ((Config.sha512 img).toNat / 256 ^ i)) ++
    (List.range 132).map fun i => BitVec.ofNat 8 (sig.toNat / 256 ^ i)

/-- Whatever signature the free check accepts, a record with it is a good one. -/
theorem wit_FirmwareResetAndPods_Good (img : List Byte) (m ver : Nat) (sig : BitVec 1056)
    (h : Config.firmwareSigned (Config.sha512 img) m ver sig = true) :
    let x := fwRecord m ver (fwBytes img sig)
    (x.digest = Config.sha512 x.image ∧ Config.firmwareSigned x.digest m ver x.sig = true) ∧ ∀ a, mlook State.reset.fwActive m = some a → a ≤ ver := by
  have hl : (fwBytes img sig).length - 196 = img.length := by simp [fwBytes]
  have hi : (fwRecord m ver (fwBytes img sig)).image = img := by
    simp only [fwRecord, hl]; simp [fwBytes]
  have hd : (fwRecord m ver (fwBytes img sig)).digest = Config.sha512 img := by
    show BitVec.ofNat 512 (leNum (((fwBytes img sig).drop ((fwBytes img sig).length - 196)).take 64)) = _
    rw [hl, fwBytes, List.append_assoc, List.drop_left, List.take_left' (by simp), leNum_leBytes]
    exact BitVec.eq_of_toNat_eq (by rw [BitVec.toNat_ofNat]; have := (Config.sha512 img).isLt; omega)
  have hs : (fwRecord m ver (fwBytes img sig)).sig = sig := by
    show BitVec.ofNat 1056 (leNum ((fwBytes img sig).drop ((fwBytes img sig).length - 196 + 64))) = _
    rw [hl, fwBytes, List.drop_left' (by simp), leNum_leBytes]
    exact BitVec.eq_of_toNat_eq (by rw [BitVec.toNat_ofNat]; have := sig.isLt; omega)
  exact ⟨⟨by rw [hd, hi], by rw [hd, hs]; exact h⟩, fun a e => by have : (none : Option Nat) = some a := e; cases this⟩

theorem wit_FirmwareResetAndPods :
    (let s : State := { sys with fwActive := [(2, 7)] }; mlook s.fwActive 2 = some 7 ∧ ¬ 7 ≤ 6 ∧ fwOk { s with bringup := 0 } = false) ∧
    (let f : FwRec := { m := 2, ver := 8, image := [] }
     ([f].filter fun x => x.m = 2 && !x.rejected) = [] ++ [f] ∧
       (let s : State := { sys with fw := [f], fwSwap := some 2 }; s.fwSwap = some 2 ∧ quiescent s = true) ∧
       (let s : State := { withPk sys { pk [0x301] with started := true } with fw := [f], fwSwap := some 2 }; quiescent s = false)) ∧ 3 ≠ 2 ∧
    [(⟨1, 2, 3, []⟩ : LogRec)] = ⟨1, 2, 3, []⟩ :: [] ∧
    7 ≤ sys.bringup ∧ State.reset.bringup < 7 ∧ fwOk State.reset = true ∧ bit (rdReg State.reset .evqCfg) 63 = false ∧ (5 : Nat) ≠ 0 ∧ 6 ≤ sys.bringup ∧
    (64 ≤ 64 ∧ 63 < 64) ∧ 64 < 65 ∧ 64 ≤ 64 := by decide +kernel

theorem wit_EncodingRoundTrip :
    (Instr.add ⟨15, 63, 63, 63⟩).wf = true ∧ (encodeSlot (.add ⟨15, 63, 63, 63⟩)).isSome = true ∧
    (7 < 8 ∧ 0x6400000060000001 < 2 ^ (8 * slotBytes 6) ∧ decodeSlot 6 0x6400000060000001 = .ok (.acq ⟨0, 0, true⟩ 3)) ∧ 2 ^ 64 - 1 < 2 ^ 64 :=
  ⟨rfl, rfl, ⟨by decide, by decide, rfl⟩, by decide⟩

/-- A module that has just been reset, told to run one bundle: addi s5, s0, 5. -/
def addi5 : List Nat := [0x01, 0x01, 0x05, 0x00, 0x05, 0x44]
def placed : State := State.reset.withFetchWord 48 (leNat addi5)

/-- The state in which its step chooses, and with the choice taken. -/
def placed1 : State := settleLevels (advance placed)
def placed2 : State := { placed1 with script := [] }
theorem wit_StepRunsTheDecodedBundle :
    (∃ k q, placed1.script = .seq k q :: []) ∧ delivered placed2 0 = true ∧ mget 0 placed2.clkSeq 0 ≤ 0 ∧
    ¬ mget 0 { placed2 with clkSeq := [(0, 64)] }.clkSeq 0 ≤ 0 ∧ before placed2 0 0 = 0 ∧
    (Machine.core placed2 0).esum + 15 * 33 ≤ (Machine.core placed2 0).budget ∧
    (∀ b ∈ (prepareBundle placed2 0 0).2, fits (modCore (prepareBundle placed2 0 0).1 0 fun c => { c with budget := 0 }) 0 0 b.raw.weight = false) ∧
    ((prepareBundle placed2 0 0).2.map (·.slots) = some [(0, .addi ⟨0, 5, 0, 5⟩)] ∧
     (∀ b ∈ (prepareBundle placed2 0 0).2, fits (prepareBundle placed2 0 0).1 0 0 b.raw.weight = true ∧
       linkOf placed2 0 0 b (b.pc + BitVec.ofNat 64 b.raw.len) = some (b.pc + 6, false) ∧ b.raw.hold = false) ∧
     mayIssue placed2 0 0 = true ∧ (seqOf placed2 0 0).waits = [] ∧ dueReady (seqOf placed2 0 0) = true ∧
     (let x := seqOf (modSeq placed2 0 0 landDue) 0 0; x.boundary = [] ∧ x.ending = none ∧ x.xfer = none)) ∧
    (prepareBundle { placed2 with locks := [] } 1 0).2 = none ∧
    ((⟨0, ⟨6, false, false, 0, []⟩, []⟩ : Ready).raw.stop = false ∧ (⟨0, ⟨6, true, false, 0, []⟩, []⟩ : Ready).raw.stop = true ∧
      (some ⟨1, some 4⟩ : Option Xfer) = some ⟨1, some 4⟩) ∧
    (∀ x ∈ [(0, Instr.addi ⟨0, 5, 0, 5⟩)], isLinking x.2 = false) ∧
    (bit (0x1000 : Word) 0 = false ∧ leNat addi5 ≠ 0 ∧ State.reset.pace.headD 1 ≠ 0 ∧ State.reset.peerOut = [] ∧ pgMember State.reset = false) :=
  ⟨⟨_, _, rfl⟩, by decide +kernel, by decide +kernel, by decide +kernel, by decide +kernel, by decide +kernel, by decide +kernel, by decide +kernel,
    by decide +kernel, by decide +kernel, by decide, by decide +kernel⟩

/-- The read of the placed bundle: its page, its head word and the words of the bundle. -/
theorem wit_StepRunsTheDecodedBundle_Fetch :
    let s := modSeq placed2 0 0 landDue
    let pc := (seqOf s 0 0).pc
    bit pc 0 = false ∧ (skipPads 0 0 allLines s pc).2 = pc ∧
    okIs (fetchPage s 0 0 pc pc) (fun x => okIs (codeAt s 0 0 x.1 pc.toNat 2) fun hw =>
      let head := leNat (codeBytes x.1 2 hw)
      decide (head ≠ 0 ∧ pc.toNat % 64 + 2 + slotsLen (head % 256) (List.range 8) ≤ 64) &&
      okIs (codeAt s 0 0 x.1 pc.toNat (2 + slotsLen (head % 256) (List.range 8))) fun ws =>
        okIs (rawBundle (pc.toNat % 64) (codeBytes x.1 (2 + slotsLen (head % 256) (List.range 8)) ws)) fun raw => okIs (decodeSlots raw.slots) fun _ => true) = true := by
  decide +kernel

/-- A step answers a next state that satisfies a test. -/
def nextIs (o : Host.Outcome State Fault Refusal) (f : State → Bool) : Bool :=
  match o with
  | .next t => f t
  | .fault _ => false
  | .refused _ => false

theorem next_of_nextIs {o : Host.Outcome State Fault Refusal} {f : State → Bool} (h : nextIs o f = true) : ∃ t, o = .next t ∧ f t = true := by
  cases o with
  | next t => exact ⟨t, rfl, h⟩
  | fault => cases h
  | refused => cases h

/-- Five bundles in a row at 0x1000, the first of which links; slots that perform, and one that raises. -/
def sfive : State := wrBytes (sfetch 0x1000 []) 0x1000 (((List.replicate 5 addi5).flatten).map (BitVec.ofNat 8))
theorem wit_StepRunsTheDecodedBundle_Slots :
    (∃ x ∈ [(0, Instr.brrl 0 5)], isLinking x.2 = true) ∧
    (match headAfter sfive 0 0 allLines 3 0x1006 with
      | .at_ pc => pc == 0x1018
      | _ => false) = true ∧
    (∀ x ∈ [(Instr.addi ⟨0, 5, 0, 5⟩, true), (.mts 0 16 5, false)],
      nextIs (runSlots (issueOrder [(0, x.1)]) (beginBundle (modSeq placed2 0 0 fun y => { y with mode := false }) 0 0 ⟨0x1000, ⟨6, false, false, 0, []⟩, [(0, x.1)]⟩ (0, false)))
        (fun u => u.raised.isNone == x.2) = true) ∧
    (let l := [(0, Instr.addi ⟨0, 5, 0, 5⟩), (6, .acq ⟨0, 0, true⟩ 3), (7, .ld ⟨0, 9, 5, 0, .n32, 0⟩)]
     l = (l.filter fun x => x.1 < 6) ++ [(6, .acq ⟨0, 0, true⟩ 3), (7, .ld ⟨0, 9, 5, 0, .n32, 0⟩)] ∧ isAcquire (.acq ⟨0, 0, true⟩ 3) = true) ∧
    (∀ x ∈ [(0, Instr.addi ⟨0, 5, 0, 5⟩), (6, .ld ⟨0, 9, 5, 0, .n32, 0⟩)], x.1 = 6 → isAcquire x.2 = false) := by decide +kernel

theorem wit_StepKeepsMemoryCanonical : Memory.wf sys.mem = true ∧ ∃ t, step placed = .next t ∧ Memory.wf t.mem = true :=
  ⟨by decide +kernel, next_of_nextIs (by decide +kernel)⟩

/-- R221: the result of `addi s5, s0, 5` issued at bundle time 0 is on its way to s5, and the program counter has passed the bundle's six bytes. -/
theorem test_addi_step : nextIs (step placed) (fun t =>
    (seqOf t 0 0).infl = [⟨0, 0, [.s 5 5 false], none⟩] && (seqOf t 0 0).pc = (seqOf placed 0 0).pc + 6) = true := by decide +kernel

/-- One ill-formed term for each check of R193 step 5 on scalar, special-function and vector words. -/
theorem test_wf_refuses_s_v_f :
    ([.mfs 0 5 10, .mts 0 25 5, .vabs ⟨0, 1, 2⟩ .n32, .vneg ⟨0, 1, 2⟩ .n16, .vshl ⟨0, 1, 2, 3⟩ .f32, .vshr ⟨0, 1, 2, 3⟩ .b16,
      .vsar ⟨0, 1, 2, 3⟩ .n32, .vcmpeq ⟨0, 1, 2, 3⟩ .i16, .vcmplt ⟨0, 1, 2, 3⟩ .f16, .vcmple ⟨0, 1, 2, 3⟩ .n16,
      .vcvt ⟨0, 1, 2⟩ false false .f32 .f16, .vcvt ⟨0, 1, 2⟩ false false .i32 .i32, .vperm ⟨0, 1, 2⟩ .rev 1,
      .vred ⟨0, 1, 2⟩ .add .f16, .vred ⟨0, 1, 2⟩ .xor .f32, .vscan ⟨0, 1, 2⟩ .and false .f32,
      .rng ⟨0, 1, 3, .scalar⟩, .crc ⟨0, 1, 2, .vector 0⟩ false 3] : List Instr).all (fun i => !i.wf) = true := by decide

/-- One ill-formed term for each check on memory, atomic, ordering and engine words, and on micro-words. -/
theorem test_wf_refuses_m_lx :
    ([.st ⟨0, 1, 2, 3, .i8, 0⟩, .stSpm ⟨0, 1, 2, 3, .i64, 0⟩, .vld ⟨0, 1, 2, 3, .n64, 0⟩, .vldr ⟨0, 1, 2, 3, .i32, 0⟩,
      .vst ⟨0, 1, 2, 3, .i8, 0⟩, .vscatter ⟨0, 1, 2, 3, .n64, 0⟩, .aadd ⟨0, 1, 2, 3, .n8, 0, 0, 0⟩, .aadd ⟨0, 1, 2, 3, .n32, 7, 0, 0⟩,
      .acas ⟨0, 1, 2, 3, .n32, 0, 0, 0⟩, .acq ⟨0, 0, true⟩ 7, .acq ⟨0, 5, true⟩ 1, .inval ⟨0, 0, true⟩ 7, .cln ⟨0, 5, true⟩, .rel 0 7, .mark 0 0,
      .xferGg ⟨0, 61, 0, 0, false, false, ⟨0, 0, 0, 0⟩⟩, .xferGg ⟨0, 1, 0, 1, false, false, ⟨0, 0, 0, 0⟩⟩,
      .xferGg ⟨0, 1, 0, 7, true, false, ⟨0, 0, 0, 0⟩⟩, .xferGa ⟨0, 63, 0, 0, false, false, ⟨0, 0, 0, 0⟩⟩,
      .xferTg ⟨0, 1, 0, 2, false, false, ⟨0, 0, 0, 0⟩⟩, .tldT ⟨0, 1, 0, 7, false, true, ⟨0, 0, 0, 0⟩⟩,
      .xredAddF32 ⟨0, 62, 0, 0, false, false, ⟨0, 0, 0, 0⟩⟩, .trig ⟨0, 60, 0, 0, false, false, ⟨0, 0, 0, 0⟩⟩ 0, .tcfgM2 0 1 3,
      .qcut 0 0 ⟨0, 0, 0, 0⟩, .lxBr 1 .always 0, .lxCvt 0 false 1 false] : List Instr).all (fun i => !i.wf) = true := by decide

/-- A unit number out of range is ill-formed (R2). -/
theorem test_wf_refuses_units :
    ([.bundleFetch 128 0, .handlerStart 0 32, .loadValueArrives 128 0 0 0 0 0 false .none, .verbCallStart 128, .coreReset 128,
      .watchdogExpiry 128, .wdgStsRead 128, .engErrRead 128, .invalidMicroWord 128, .seqResumeWrite 128 0, .pwrCoreWrite 128 0,
      .engineCommandStart 0 2 0, .engineCommandComplete 128 0 0, .firedTransferEnqueue 0 512, .walkComplete 0 34, .fltCmdResume 0 34,
      .fltCmdDeliver 128 0, .fltCmdKill 0 34, .contributionResend 128 0, .undeliverableRecording 64, .hostLineRecall 2 0,
      .hostLineInvalidate 2 0, .burstCrcError 16 0 0 ⟨0, 0⟩, .burstCrcError 0 0 0 ⟨32, 0⟩, .trackingPhaseMove 0 32 0, .repairSwitch 0 0 2,
      .repairSwitchDone 16 0 0, .retrainDone 16 0 0, .retrainTimeout 0 32 0, .hbmPowerDown 16, .hbmStsRead 16, .hbmStsWrite 16 0,
      .flashPageDurable 4 0, .fahSealDone 0 64, .fahOpen 4 0 0, .fahSeal 0 64 0, .fahTrim 4 0 0, .ownLogbRead 8] : List Instr).all
      (fun i => !i.wf) = true ∧
    ([.xltWinvWrite 16 0, .xltWinvComplete 16, .ctxCfgEnSet 16 0, .ctxCfgEnClear 16 0, .ctxCfgStop 16 0, .ctxCfgGo 16 0,
      .homemove 64 0, .homemoveComplete 64 0, .homemoveFailed 64 0, .dispatch 64 0, .round 64 0, .cond 64 0, .loopNode 64 0, .loopPass 64 0,
      .switch 64 0, .wait 64 0, .waitTimeout 64 0, .broadcast 64 0, .allGather 64 0, .reduceScatter 64 0, .allReduce 64 0,
      .defaultBarrier 64 0, .expertBarrier 64 0, .collectiveTimeout 64 0, .qCfgEnSet 64 0, .qCfgEnClear 64 0, .qCfgSkip 64 0, .queueNotify 64,
      .linkTraining 26 0 0, .linkUp 26, .linkTrainingTimeout 26, .linkRetrainTimeout 26, .flitReplay ⟨26, 0⟩, .lnkStsRead 26, .lnkCfgEn 26 0,
      .lnkCfgRetrain 26 0, .peCfgEnSet 16 0, .peCfgEnClear 16 0, .peStsRead 16, .peStepApply 16 0, .peStepTimeout 0 4096,
      .firmwareRecordAppend 64 0 [], .firmwareActivate 64, .podForm 0 65, .podForm 4 4] : List Instr).all (fun i => !i.wf) = true :=
  ⟨by decide, by decide⟩

/-- R190, R192, R193, R200-R203: words and bundles that are refused, each with its reason. -/
theorem test_decode_refuses :
    rawBundle 0 [0, 0] = .error .pad ∧ rawBundle 0 [1, 0x40, 0, 0, 0, 0] = .error .clauseBits ∧ rawBundle 60 [1, 0, 0, 0, 0, 0] = .error .crossesLine ∧
    decodeSlot 0 0xFC000000 = .error (.unassigned 0) ∧ decodeTableWord 16 0 = none :=
  ⟨rfl, rfl, rfl, rfl, rfl⟩

/-- R190, R191: a bundle with one S word, the same with STOP, and the same with HOLD. -/
theorem test_decode_bundles :
    decodeBundle 0 [0x01, 0x01, 0x05, 0x00, 0x05, 0x44] = .ok ⟨6, false, false, 1, [(0, .addi ⟨0, 5, 0, 5⟩)]⟩ ∧
    decodeBundle 0 [0x01, 0x21, 0x05, 0x00, 0x05, 0x44] = .ok ⟨6, true, false, 1, [(0, .addi ⟨0, 5, 0, 5⟩)]⟩ ∧
    decodeBundle 0 [0x01, 0x11, 0x05, 0x00, 0x05, 0x44] = .ok ⟨6, false, true, 1, [(0, .addi ⟨0, 5, 0, 5⟩)]⟩ :=
  ⟨rfl, rfl, rfl⟩

end Sys2Proof.Tests
end

section
/-! Hardwired registers (R199): what a landing predicate write leaves, and what the compares put in flight. -/
namespace Sys2Proof.Machine

/-! ## Writes that land on s0, p0 and q0 -/

@[simp] theorem applyW_s_zero (x : Seq) (v : Word) (p : Bool) : applyW x (.s 0 v p) = x := rfl
@[simp] theorem applyW_pred_zero (x : Seq) (b : Bool) : applyW x (.pred 0 b) = x := rfl
@[simp] theorem applyW_q_zero (x : Seq) (m : BitVec 16) : applyW x (.q 0 m) = x := rfl

/-! ## One predicate written -/

/-- The masks of `setPred` change the bit they name and no other. -/
theorem getLsbD_setPred (p : BitVec 16) {d : BitVec 4} (n : BitVec 4) (b : Bool) (hd : d ≠ 0) :
    (setPred p d.toNat b).getLsbD n.toNat = if n = d then b else p.getLsbD n.toNat := by
  have hd0 : d.toNat ≠ 0 := fun h => hd (BitVec.eq_of_toNat_eq h)
  have hbit : (1#16 <<< d.toNat).getLsbD n.toNat = decide (n = d) := by
    rw [← BitVec.twoPow_eq, BitVec.getLsbD_twoPow, decide_eq_true d.isLt, Bool.true_and,
      decide_eq_decide, BitVec.toNat_inj, eq_comm]
  have hn : n.toNat < 16 := n.isLt
  rw [setPred, if_neg hd0, BitVec.getLsbD_or, BitVec.getLsbD_and, BitVec.getLsbD_not,
    apply_ite fun y : BitVec 16 => y.getLsbD n.toNat, hbit]
  by_cases h : n = d
  · simp [h]
  · simp [h, hn]

/-- A landing predicate write: its predicate reads as written unless it is p0, every other as before. -/
theorem rdP_applyW_pred (x : Seq) (d n : BitVec 4) (b : Bool) :
    rdP (applyW x (.pred d.toNat b)) n = if n = d ∧ d ≠ 0 then b else rdP x n := by
  by_cases hd : d = 0
  · subst hd; simp
  · simp only [rdP, applyW, getLsbD_setPred x.p n b hd]
    by_cases h : n = d
    · subst h; simp only [hd, decide_false, Bool.false_or, ne_eq, not_false_eq_true, and_self, if_true]
    · simp only [h, false_and, if_false]

/-! ## Compares -/

/-- Every compare of the table is the register compare of its relation. -/
theorem exec_compareTable {e : (SCmp → Instr) × (SCmpi → Instr) × (Word → Word → Bool)} (he : e ∈ compareTable)
    (f : SCmp) (s : State) : exec (e.1 f) s = cmpRR f e.2.2 s := by
  simp only [compareTable, List.mem_cons, List.not_mem_nil, or_false] at he
  rcases he with rfl | rfl | rfl
  · rfl
  · rfl
  · rfl

/-- A compare that its guard lets perform on clean operands puts both predicates in flight, pf before pt (R206, R227). -/
theorem cmpRR_of_clean {f : SCmp} {s : State} (c : Word → Word → Bool) (hg : rdP (me s) f.g = true)
    (ha : (rdS (me s) f.a).p = false) (hb : (rdS (me s) f.b).p = false) :
    cmpRR f c s = .next (result s 1 [.pred f.pf.toNat (!c (rdS (me s) f.a).v (rdS (me s) f.b).v),
      .pred f.pt.toNat (c (rdS (me s) f.a).v (rdS (me s) f.b).v)]) := by
  simp [cmpRR, compare, guarded, hg, ha, hb]

/-- Settles O3: a write of s0, p0 or q0 leaves the sequencer as it was, so a compare with pf = p0 lands as its write of pt alone. -/
theorem hardwiredRegisters : Obligations.HardwiredRegisters := by
  intro x v p b m pt
  refine ⟨rdS_zero x, rdP_zero x, rdQ_zero x, fun r => ?_, fun n => ?_, fun n => ?_, fun n => ?_,
    fun e he f s hpf hg ha hb => ?_⟩
  · rw [applyW_s_zero]
  · rw [applyW_pred_zero]
  · rw [applyW_q_zero]
  · have hpt : (n = pt ∧ pt ≠ 0) ↔ (n = pt ∧ n ≠ 0) := and_congr_right fun h => by rw [h]
    simp only [applyW_pred_zero, rdP_applyW_pred, hpt]
  · rw [exec_compareTable he, cmpRR_of_clean e.2.2 hg ha hb, hpf]
    rfl

end Sys2Proof.Machine
end

section
/-! Predicate logic (R228): the words of opcode 0x1E, what they decode to, and the results of the four operations. -/
namespace Sys2Proof.Machine

/-! ## Accepting a decoded instruction (R193 step 5) -/

theorem accept_of_wf (slot : Nat) {i : Instr} (h : i.wf = true) : accept slot true i = .ok i := by
  simp [accept, h]

theorem accept_of_zeros_false (slot : Nat) (i : Instr) : accept slot false i = .error (.badField slot) := rfl

/-- Slots 0 and 1 decode by the S map (R190). -/
theorem decodeSlot_of_lt_two {slot : Nat} (h : slot < 2) (w : Nat) : decodeSlot slot w = decodeS slot w := by
  simp [decodeSlot, slotCls, h]

/-! ## The words of opcode 0x1E -/

/-- The four operations by their sub-op. -/
def predForms (f : SPred) : List Instr := [.pand f, .por f, .pxor f, .pandn f]

/-- The bits [21:20], [15:14] and [9:8] of a word are zero. -/
def predZeros (w : Nat) : Bool := fld w 20 2 == 0 && fld w 14 2 == 0 && fld w 8 2 == 0

/-- A word of opcode 0x1E with `z`, `y` and `x` in the fields that must be zero. -/
def predWord (sub z y x : Nat) (f : SPred) : Nat :=
  0x1E * 2 ^ 26 + f.g.toNat * 2 ^ 22 + z * 2 ^ 20 + f.d.toNat * 2 ^ 16 + y * 2 ^ 14 + f.a.toNat * 2 ^ 10 + x * 2 ^ 8 +
    f.b.toNat * 2 ^ 4 + sub

/-- With zeros in them it is the encoder's word. -/
theorem predWord_zero (sub : Nat) (f : SPred) : predWord sub 0 0 0 f = encPred sub f := by
  simp [predWord, encPred]

/-- Opcode 0x1E decodes by its sub-op to one of the four operations, and a sub-op past them is reserved. -/
theorem decodeS_of_predOpcode (slot : Nat) {w : Nat} (h : fld w 26 6 = 0x1E) :
    decodeS slot w = (predForms (sPred w))[fld w 0 4]?.elim (.error (.badField slot)) (accept slot (predZeros w)) := by
  simp only [decodeS, h, isControlOp, predZeros]
  match fld w 0 4 with
  | 0 => rfl
  | 1 => rfl
  | 2 => rfl
  | 3 => rfl
  | n + 4 => rfl

theorem predForms_wf {f : SPred} {i : Instr} (h : i ∈ predForms f) : i.wf = true := by
  simp only [predForms, List.mem_cons, List.not_mem_nil, or_false] at h
  rcases h with rfl | rfl | rfl | rfl <;> rfl

theorem predWord_sub {sub : Nat} (z y x : Nat) (f : SPred) (hs : sub < 16) : fld (predWord sub z y x f) 0 4 = sub := by
  simp only [fld, predWord]; omega

section
variable {sub z y x : Nat} (f : SPred) (hs : sub < 16) (hz : z < 4) (hy : y < 4) (hx : x < 4)
include hs hz hy hx

theorem predWord_opcode : fld (predWord sub z y x f) 26 6 = 0x1E := by
  have := f.g.isLt; have := f.d.isLt; have := f.a.isLt; have := f.b.isLt
  simp only [fld, predWord]; omega

theorem predZeros_predWord : predZeros (predWord sub z y x f) = decide (z = 0 ∧ y = 0 ∧ x = 0) := by
  have := f.d.isLt; have := f.a.isLt; have := f.b.isLt
  have h20 : fld (predWord sub z y x f) 20 2 = z := by simp only [fld, predWord]; omega
  have h14 : fld (predWord sub z y x f) 14 2 = y := by simp only [fld, predWord]; omega
  have h8 : fld (predWord sub z y x f) 8 2 = x := by simp only [fld, predWord]; omega
  rw [predZeros, h20, h14, h8, Bool.eq_iff_iff]
  simp [and_assoc]

theorem sPred_predWord : sPred (predWord sub z y x f) = f := by
  obtain ⟨g, d, a, b⟩ := f
  have := g.isLt; have := d.isLt; have := a.isLt; have := b.isLt
  simp only [sPred, bv, predWord, SPred.mk.injEq]
  refine ⟨?_, ?_, ?_, ?_⟩
  all_goals
    apply BitVec.eq_of_toNat_eq
    rw [BitVec.toNat_ofNat]
    omega

/-- What a word of predicate logic decodes to in S0 and S1. -/
theorem decodeSlot_predWord {slot : Nat} (hslot : slot < 2) : decodeSlot slot (predWord sub z y x f) =
    (predForms f)[sub]?.elim (.error (.badField slot)) (accept slot (decide (z = 0 ∧ y = 0 ∧ x = 0))) := by
  rw [decodeSlot_of_lt_two hslot, decodeS_of_predOpcode slot (predWord_opcode f hs hz hy hx), sPred_predWord f hs hz hy hx,
    predWord_sub z y x f hs, predZeros_predWord f hs hz hy hx]

/-- A nonzero zero field or a sub-op past the four is a bad field. -/
theorem decodeSlot_predWord_bad {slot : Nat} (hslot : slot < 2) (h : z ≠ 0 ∨ y ≠ 0 ∨ x ≠ 0 ∨ 4 ≤ sub) :
    decodeSlot slot (predWord sub z y x f) = .error (.badField slot) := by
  rw [decodeSlot_predWord f hs hz hy hx hslot]
  by_cases hsub : 4 ≤ sub
  · rw [List.getElem?_eq_none (show (predForms f).length ≤ sub from hsub)]; rfl
  · have hne : ¬(z = 0 ∧ y = 0 ∧ x = 0) := by omega
    rw [decide_eq_false hne]
    cases (predForms f)[sub]? with
    | none => rfl
    | some i => exact accept_of_zeros_false slot i

end

/-- A word whose zero fields hold decodes to the operation of its sub-op. -/
theorem decodeSlot_encPred {slot sub : Nat} {f : SPred} {i : Instr} (hslot : slot < 2) (hs : sub < 16)
    (hi : (predForms f)[sub]? = some i) : decodeSlot slot (encPred sub f) = .ok i := by
  rw [← predWord_zero, decodeSlot_predWord f hs (by decide) (by decide) (by decide) hslot, hi]
  exact accept_of_wf slot (predForms_wf (List.mem_of_getElem? hi))

/-! ## The results -/

/-- An operation puts its value in flight for its destination, under its guard. -/
theorem predOp_eq (f : SPred) (op : Bool → Bool → Bool) (s : State) :
    predOp f op s = .next (underGuard s f.g (result s 1 [.pred f.d.toNat (op (rdP (me s) f.a) (rdP (me s) f.b))])) := rfl

theorem predicateLogicResults : Parts.PredicateLogicResults := fun f s =>
  ⟨predOp_eq f (fun a b => a && b) s, predOp_eq f (fun a b => a || b) s, predOp_eq f (fun a b => a ^^ b) s,
    predOp_eq f (fun a b => a && !b) s⟩

/-- p0 as both sources sets a predicate by `por` and clears it by `pandn`. -/
theorem predicateLogicWords : Parts.PredicateLogicWords := by
  intro slot sub z y x g d a b s hslot hs hz hy hx w f
  have hw : w = predWord sub z y x f := rfl
  obtain ⟨-, hpor, -, hpandn⟩ := predicateLogicResults ⟨g, d, 0, 0⟩ s
  simp only [rdP_zero] at hpor hpandn
  rw [hw]
  refine ⟨?_, fun h => ⟨_, decodeSlot_predWord_bad f hs hz hy hx hslot h⟩, hpor, hpandn⟩
  rintro rfl rfl rfl i hi
  rw [predWord_zero]
  exact decodeSlot_encPred hslot hs hi

/-- Settles O2: the word's fields decide its decoding, and each operation is the model's predicate operation of its function. -/
theorem predicateLogic : Obligations.PredicateLogic := ⟨predicateLogicResults, predicateLogicWords⟩

end Sys2Proof.Machine
end

section
/-! STOP (R183, R230, R244): what closes a bundle with STOP, what ends its sequencer, and the transfer that a handler keeps. -/
namespace Sys2Proof.Machine

/-- A bundle with STOP leaves no transfer, the ending `stop` in place of any other, and the pc behind it; beside that only results in
flight and the stall change. -/
theorem closeSeq_of_stop (before x : Seq) {b : Ready} (h : b.raw.stop = true) : ∃ infl, closeSeq before b x =
    { x with infl := infl, stalled := false, xfer := none, ending := some .stop, pc := b.pc + BitVec.ofNat 64 b.raw.len } :=
  ⟨_, by rw [closeSeq, if_pos h, tick]⟩

/-- The ending `stop` stops the sequencer, a Dormant kind going back to Dormant (R183). -/
theorem seqOf_endIssue_stop (s : State) (k q : Nat) : seqOf (endIssue s k q .stop) k q =
    { seqOf s k q with st := if (seqOf s k q).kind = .dormant then .dormant else .stopped, ending := none } := by
  simp only [endIssue, seqOf_modSeq_same]

/-- The ending `eret` at an even xpc returns from the handler (R242). -/
theorem seqOf_endIssue_eret (s : State) (k q : Nat) (h : (seqOf s k q).xpc.getLsbD 0 = false) :
    seqOf (endIssue s k q .eret) k q = returnFrom { seqOf s k q with ending := none } := by
  rw [endIssue, bit, h, if_neg Bool.false_ne_true, seqOf_modSeq_same]

/-- The sequencer of a fault in user mode has entered its handler (R375). -/
theorem seqOf_takeTrap_user (s : State) (k q : Nat) (pc : Word) (t : Trap) (hm : (seqOf s k q).mode = false)
    (hh : hasHandler s k = true) : seqOf (takeTrap s k q pc t) k q = enterHandler (seqOf s k q) pc t := by
  rw [takeTrap_user s k q pc t hm hh, seqOf_modSeq_same]
  rfl

/-- Settles O5: closing with STOP overwrites transfer and ending, the ending `stop` changes the sequencer's state alone, and a fault
saves the transfer that eret brings back. -/
theorem stopComesBeforeTransfersAndEndings : Obligations.StopComesBeforeTransfersAndEndings := by
  intro before x b s k q c pc v
  refine ⟨fun hstop => ?_, ?_, fun hm hh => ⟨?_, fun hx => ?_⟩⟩
  · obtain ⟨infl, h⟩ := closeSeq_of_stop before x hstop
    simp [h]
  · simp [seqOf_endIssue_stop]
  · rw [seqOf_takeTrap_user s k q pc ⟨c, v⟩ hm hh]
    rfl
  · rw [seqOf_endIssue_eret s k q hx]
    rfl

end Sys2Proof.Machine
end
